-- ==== Sys2Proof/Word.lean ====
section
/-! DEFINITION. The word types of HUFFCORE and the record of the node memory. -/

namespace Sys2Proof

/-- A byte of a stream (00_scope.md R6, BYTE_BITS = 8). -/
abbrev Byte := BitVec 8

/-- A command word (30_encoding.md R90, CMD_W = 48). -/
abbrev CmdWord := BitVec 48

/-- A response word (30_encoding.md R93, RSP_W = 66). -/
abbrev RspWord := BitVec 66

/-- A symbol, 0..256 (00_scope.md R6, NSYM = 257). -/
abbrev Symbol := Fin 257

/-- The terminator symbol (00_scope.md R6, TERM = 256). -/
def terminator : Symbol := 256

/-- An index of the node memory, 0..512 (00_scope.md R6, NODE_CAP = 513). -/
abbrev NodeIx := Fin 513

/-- A node weight (00_scope.md R6, WEIGHT_W = 73). -/
abbrev Weight := BitVec 73

/-- One record of the node memory (10_state.md R35). KIND is the constructor. A leaf's SYM is a symbol, or
`none` for UNSET; an internal node's SYM is always UNSET. LEFT and RIGHT have a meaning in an internal node only
(assumption log 9). -/
inductive Node where
  | leaf (sym : Option Symbol) (weight : Weight)
  | internal (weight : Weight) (left right : NodeIx)
  deriving DecidableEq, Repr, Inhabited

end Sys2Proof
end

