-- ==== Sys2Proof/Config.lean ====
section
/-! DEFINITION. The parameters of 00_scope.md R6 and the free values: constants without a body, so that no proof
can rest on what they are. -/

namespace Sys2Proof.Config

/-- RD_BLOCK_BYTES (R6, decision D8). -/
def rdBlockBytes : Nat := 8192

/-- WR_BLOCK_BYTES (R6, decision D8). -/
def wrBlockBytes : Nat := 8192

/-- NODE_CAP (R6). -/
def nodeCap : Nat := 513

/-- Entries of the traversal stack of TSER and CTAB (10_state.md R39, 44_tree_serializer.md R185). -/
def traversalStack : Nat := 257

/-- The default of the open parameter MAGIC (R6, decision D6). -/
def magicDefault : BitVec 32 := 0xFACE8201

/-- CSR 0, ID (10_state.md R42). -/
def idValue : BitVec 64 := 0x4855464600000007

/-! Free values. The port transactions are numbered from the start of the run; a free answer is a function of that
number (assumption log 5). -/

/-- Whether transaction number k fails, on a device that has already failed once (20_memory.md R64). -/
opaque failsAgain : Nat → Bool

/-- Whether an open or rewind answered `Fail` took effect on the device all the same (R62, R63 do not say). -/
opaque failedOpenTook : Nat → Bool

/-- What a `SnkPut` answered `Fail` leaves in the sink beyond its old length (20_memory.md R63, 93 I1). -/
opaque sinkTail : Nat → List Byte

/-- Where the source device stands after a `SrcFetch` answered `Fail` (93 I13, "any value"; assumption log 18). -/
opaque failedFetchPos : Nat → Nat

/-- Where the source device stands after the host attached other content (93 I14; assumption log 12). -/
opaque attachPos : Nat → Nat

/-- What RD_ACC holds at and above RD_ACC_CNT after a refill (93 I7, "any value"), by the number of transactions made and
RD_BLK_IDX before the refill; no two refills of a run share both (assumption log 16). -/
opaque rdAccAbove : Nat → Nat → BitVec 64

/-- What WR_ACC holds at and above WR_ACC_CNT after a `WrBits` (93 I7), by the number of transactions made and the bits
pending before it; no two of a run share both (assumption log 16). -/
opaque wrAccAbove : Nat → Nat → BitVec 64

/-! What the codec tables hold, while their valid flags are 0, after a macro command or a producer that raised (93 I7, "any
value"), by the number of transactions made and the command's opcode; no two such events of a run share both, for between
two of one command stands an open (assumption log 17). The last argument is the entry. -/

opaque lostFreq : Nat → BitVec 8 → Nat → BitVec 64
opaque lostNode : Nat → BitVec 8 → Nat → Node
opaque lostNodeCnt : Nat → BitVec 8 → Fin 514
opaque lostRoot : Nat → BitVec 8 → NodeIx
opaque lostCode : Nat → BitVec 8 → Nat → List Bool

/-! What 10_state.md R51 leaves unspecified at reset (assumption log 8). -/

opaque resetRdAcc : BitVec 64
opaque resetWrAcc : BitVec 64
opaque resetFreq : Nat → BitVec 64
opaque resetNode : Nat → Node
opaque resetNodeCnt : Fin 514
opaque resetRoot : NodeIx
opaque resetCode : Nat → List Bool

end Sys2Proof.Config
end

