-- ==== Sys2Proof/Syntax.lean ====
section
/-! DEFINITION. The 22 commands (30_encoding.md R95), one constructor per row of spec/opcode_table.json. -/

namespace Sys2Proof

/-- A command with its operands: N is 6 bits, VAL 32 bits, both taken as they stand (30_encoding.md R91, R94). -/
inductive Instr where
  | getcsr (n : BitVec 6)
  | rdopen
  | rdbits (n : BitVec 6)
  | rdcnt
  | rdrst
  | rdclose
  | wropen
  | wrbits (n : BitVec 6) (val : BitVec 32)
  | wrcnt
  | wrflush
  | wrclose
  | fcount
  | tbuild
  | magicw
  | tser
  | ctab
  | encode
  | magicr
  | tdes
  | decode
  | compress
  | decompress
  deriving DecidableEq, Repr

end Sys2Proof
end

