-- ==== Sys2Proof/WellFormed.lean ====
section
/-! DEFINITION. Which commands have a word (30_encoding.md R96). -/

namespace Sys2Proof

/-- The one operand a word may not carry is a CSR number above 6 (R96 step 3). An N outside 1..32 on RDBITS or WRBITS
is not illegal: it decodes, and the command raises ARGUMENT. -/
def Instr.wellFormed : Instr → Bool
  | .getcsr n => n.toNat ≤ 6
  | .rdopen | .rdbits _ | .rdcnt | .rdrst | .rdclose => true
  | .wropen | .wrbits _ _ | .wrcnt | .wrflush | .wrclose => true
  | .fcount | .tbuild | .magicw | .tser | .ctab | .encode => true
  | .magicr | .tdes | .decode | .compress | .decompress => true

end Sys2Proof
end

