-- ==== Sys2Proof/Decode.lean ====
section
/-! DEFINITION. The command word: its fields (30_encoding.md R91), the opcode map (R95), the decoder (R96, total,
rejecting by subcode) and the encoder (R98). -/

namespace Sys2Proof

/-- OP, bits [47:40]. -/
def opField (w : CmdWord) : BitVec 8 := w.extractLsb' 40 8

/-- RSV, bits [39:38]. -/
def rsvField (w : CmdWord) : BitVec 2 := w.extractLsb' 38 2

/-- N, bits [37:32]. -/
def nField (w : CmdWord) : BitVec 6 := w.extractLsb' 32 6

/-- VAL, bits [31:0]. -/
def valField (w : CmdWord) : BitVec 32 := w.extractLsb' 0 32

/-- Bits [47:16], the INFO of an ILLEGAL error (60_exceptions.md R247). -/
def illegalInfo (w : CmdWord) : BitVec 32 := w.extractLsb' 16 32

/-- A word from its fields, RSV = 0: `OP · 2^40 + N · 2^32 + VAL` (R98). -/
def packWord (op : BitVec 8) (n : BitVec 6) (val : BitVec 32) : CmdWord := op ++ 0#2 ++ n ++ val

/-- The three formats (R92). -/
inductive Format where
  | z
  | n
  | nv
  deriving DecidableEq, Repr

/-- Whether the fields a format does not use are 0 (R92, R96 step 2). -/
def Format.unusedZero (f : Format) (w : CmdWord) : Bool :=
  rsvField w == 0 &&
    match f with
    | .z => nField w == 0 && valField w == 0
    | .n => valField w == 0
    | .nv => true

/-- One row of the opcode map (R95). -/
structure OpRow where
  op : BitVec 8
  format : Format
  command : BitVec 6 → BitVec 32 → Instr

/-- The opcode map (R95). -/
def opcodeMap : List OpRow :=
  [ ⟨0x01, .n, fun n _ => .getcsr n⟩,
    ⟨0x10, .z, fun _ _ => .rdopen⟩,
    ⟨0x11, .n, fun n _ => .rdbits n⟩,
    ⟨0x12, .z, fun _ _ => .rdcnt⟩,
    ⟨0x13, .z, fun _ _ => .rdrst⟩,
    ⟨0x14, .z, fun _ _ => .rdclose⟩,
    ⟨0x20, .z, fun _ _ => .wropen⟩,
    ⟨0x21, .nv, fun n val => .wrbits n val⟩,
    ⟨0x22, .z, fun _ _ => .wrcnt⟩,
    ⟨0x23, .z, fun _ _ => .wrflush⟩,
    ⟨0x24, .z, fun _ _ => .wrclose⟩,
    ⟨0x30, .z, fun _ _ => .fcount⟩,
    ⟨0x31, .z, fun _ _ => .tbuild⟩,
    ⟨0x32, .z, fun _ _ => .magicw⟩,
    ⟨0x33, .z, fun _ _ => .tser⟩,
    ⟨0x34, .z, fun _ _ => .ctab⟩,
    ⟨0x35, .z, fun _ _ => .encode⟩,
    ⟨0x40, .z, fun _ _ => .magicr⟩,
    ⟨0x41, .z, fun _ _ => .tdes⟩,
    ⟨0x42, .z, fun _ _ => .decode⟩,
    ⟨0x50, .z, fun _ _ => .compress⟩,
    ⟨0x51, .z, fun _ _ => .decompress⟩ ]

/-- What a command word decodes to: a command, or illegal with the subcode of R96. -/
inductive Decoded where
  | command (i : Instr)
  | illegal (sub : BitVec 4)
  deriving DecidableEq, Repr

/-- The decoding procedure of R96. -/
def decode (w : CmdWord) : Decoded :=
  match opcodeMap.find? (fun r => r.op == opField w) with
  | none => .illegal 1
  | some r =>
    if r.format.unusedZero w then
      let i := r.command (nField w) (valField w)
      if i.wellFormed then .command i else .illegal 3
    else .illegal 2

/-- The opcode of a command (R95). -/
def Instr.opcode : Instr → BitVec 8
  | .getcsr _ => 0x01
  | .rdopen => 0x10
  | .rdbits _ => 0x11
  | .rdcnt => 0x12
  | .rdrst => 0x13
  | .rdclose => 0x14
  | .wropen => 0x20
  | .wrbits _ _ => 0x21
  | .wrcnt => 0x22
  | .wrflush => 0x23
  | .wrclose => 0x24
  | .fcount => 0x30
  | .tbuild => 0x31
  | .magicw => 0x32
  | .tser => 0x33
  | .ctab => 0x34
  | .encode => 0x35
  | .magicr => 0x40
  | .tdes => 0x41
  | .decode => 0x42
  | .compress => 0x50
  | .decompress => 0x51

/-- The N field of a command's word; 0 where the format does not use it (R92). -/
def Instr.nOperand : Instr → BitVec 6
  | .getcsr n | .rdbits n | .wrbits n _ => n
  | .rdopen | .rdcnt | .rdrst | .rdclose | .wropen | .wrcnt | .wrflush | .wrclose => 0
  | .fcount | .tbuild | .magicw | .tser | .ctab | .encode => 0
  | .magicr | .tdes | .decode | .compress | .decompress => 0

/-- The VAL field of a command's word; 0 where the format does not use it (R92). -/
def Instr.valOperand : Instr → BitVec 32
  | .wrbits _ val => val
  | .getcsr _ | .rdbits _ => 0
  | .rdopen | .rdcnt | .rdrst | .rdclose | .wropen | .wrcnt | .wrflush | .wrclose => 0
  | .fcount | .tbuild | .magicw | .tser | .ctab | .encode => 0
  | .magicr | .tdes | .decode | .compress | .decompress => 0

/-- The word of a command (R98). -/
def encode (i : Instr) : CmdWord := packWord i.opcode i.nOperand i.valOperand

/-- The command the decoder reads from a word given as a number of `nbits` bits, the bits above them 0. -/
def decodeTableWord (nbits w : Nat) : Option Instr :=
  match decode (BitVec.ofNat 48 (w % 2 ^ nbits)) with
  | .command i => some i
  | .illegal _ => none

end Sys2Proof
end

