-- ==== Sys2Proof/Machine/State.lean ====
section
/-! DEFINITION. The state of HUFFCORE (10_state.md R20 to R52), the two devices at its ports and the host's coming
inputs, all plain data; why the model stops; the state after reset (R51). -/

namespace Sys2Proof.Machine

/-- Unit U1, bit_reader_fifo (10_state.md R23 to R28). RD_BLK is held as its meaningful bytes, those below
RD_BLK_LEN, so RD_BLK_LEN is its length (assumption log 9). -/
structure Reader where
  /-- RD_OPEN (R23). -/
  isOpen : Bool
  /-- BITS_READ (R24). -/
  bitsRead : BitVec 64
  /-- RD_EOS (R25). -/
  eos : Bool
  /-- RD_SRC_END (R26). -/
  srcEnd : Bool
  /-- RD_ACC below `accCnt` (R27): the undelivered bits, the next one bit `accCnt - 1`. -/
  acc : BitVec 64
  /-- RD_ACC at and above `accCnt`: any value (R27, 93 I7; assumption log 16). -/
  accAbove : BitVec 64
  /-- RD_ACC_CNT, 0..64 (R27). -/
  accCnt : Nat
  /-- RD_BLK[0 .. RD_BLK_LEN-1] (R28). -/
  blk : List Byte
  /-- RD_BLK_IDX, 0..RD_BLK_LEN (R28). -/
  blkIdx : Nat
  deriving DecidableEq, Repr

/-- RD_BLK_LEN (10_state.md R28). -/
def Reader.blkLen (r : Reader) : Nat := r.blk.length

/-- Unit U2, bit_writer_fifo (10_state.md R29 to R32). WR_BLK is held as its meaningful bytes. -/
structure Writer where
  /-- WR_OPEN (R30). -/
  isOpen : Bool
  /-- BITS_WRITTEN (R29). -/
  bitsWritten : BitVec 64
  /-- WR_ACC below `accCnt` (R31): the collected bits, the earliest bit `accCnt - 1`. -/
  acc : BitVec 64
  /-- WR_ACC at and above `accCnt`: any value (R31, 93 I7; assumption log 16). -/
  accAbove : BitVec 64
  /-- WR_ACC_CNT, 0..63 between primitives (R31). -/
  accCnt : Nat
  /-- WR_BLK[0 .. WR_BLK_LEN-1] (R32). -/
  blk : List Byte
  deriving DecidableEq, Repr

/-- WR_BLK_LEN (10_state.md R32). -/
def Writer.blkLen (w : Writer) : Nat := w.blk.length

/-- The byte source device (20_memory.md R61, R64). `txs` counts its transactions since reset; `failAt` is
SRC_FAIL_AT, the number of the first one that fails, or never. -/
structure Source where
  content : List Byte
  pos : Nat
  txs : Nat
  failAt : Option Nat
  deriving DecidableEq, Repr

/-- The byte sink device (20_memory.md R63, R64). -/
structure Sink where
  content : List Byte
  txs : Nat
  failAt : Option Nat
  deriving DecidableEq, Repr

/-- The answer to an open or a rewind. `took` says whether the failed transaction moved the device all the same. -/
inductive OpenAnswer where
  | ok
  | fail (took : Bool)
  deriving DecidableEq, Repr

/-- The answer to `SrcFetch` (20_memory.md R62). `pos` is where the failed transaction leaves the device, if it is within
its content, else its end (93 I13; assumption log 18). -/
inductive FetchAnswer where
  | bytes (b : List Byte)
  | endOfSource
  | fail (pos : Nat)
  deriving DecidableEq, Repr

/-- The answer to `SnkPut` (20_memory.md R63). `left` is what a failed put leaves beyond the sink's old length. -/
inductive PutAnswer where
  | ok
  | fail (left : List Byte)
  deriving DecidableEq, Repr

/-- A port transaction with its answer (20_memory.md R62, R63). -/
inductive PortEvent where
  | srcOpen (a : OpenAnswer)
  | srcFetch (max : Nat) (a : FetchAnswer)
  | srcRewind (a : OpenAnswer)
  | srcRelease
  | snkOpen (a : OpenAnswer)
  | snkPut (b : List Byte) (a : PutAnswer)
  | snkRelease
  deriving DecidableEq, Repr

/-- When the devices of a run first fail: SRC_FAIL_AT and SNK_FAIL_AT (20_memory.md R64, decision D24). -/
structure FailPlan where
  src : Option Nat
  snk : Option Nat
  deriving DecidableEq, Repr

/-- One input of the host (assumption log 1). -/
inductive HostEvent where
  /-- A word at the command port (30_encoding.md R90). -/
  | command (w : CmdWord)
  /-- RESET between commands (70_reset_and_hazards.md R281); a new run begins, with its own failure plan. -/
  | reset (plan : FailPlan)
  /-- A word, and RESET when it has made `k` port transactions or, if it makes fewer, at its end before its response
  is given (R281 (b); assumption log 11). -/
  | commandCutByReset (w : CmdWord) (k : Nat) (plan : FailPlan)
  /-- Another content is attached to the source port (70 R284, R286, R296; assumption log 12). -/
  | attachSource (content : List Byte)
  deriving DecidableEq, Repr

/-- The whole machine. -/
structure State where
  rd : Reader
  wr : Writer
  /-- FREQ[0..256] (10_state.md R33). -/
  freq : Vector (BitVec 64) 257
  /-- FREQ_VALID (R34). -/
  freqValid : Bool
  /-- NODE[0..512] (R35). -/
  node : Vector Node 513
  /-- NODE_CNT, 0..513 (R36). -/
  nodeCnt : Nat
  /-- ROOT (R36). -/
  root : NodeIx
  /-- TREE_VALID (R36). -/
  treeValid : Bool
  /-- CODE[0..256] (R37): the code's bits, first branch first; LEN is the length. -/
  code : Vector (List Bool) 257
  /-- TABLE_VALID (R38). -/
  tableValid : Bool
  /-- ERR (R44). -/
  err : BitVec 64
  /-- The parameter MAGIC (00_scope.md R6, 10_state.md R48), hardwired: no step writes it. -/
  magic : BitVec 32
  src : Source
  snk : Sink
  /-- The port transactions made so far, oldest first (the model's observation; assumption log 3). -/
  log : List PortEvent
  /-- The last response word (30_encoding.md R93); none since reset. -/
  rsp : Option RspWord
  /-- What the host will do next (assumption log 1). -/
  host : List HostEvent
  deriving DecidableEq, Repr

/-- The model's stops. None of them is an error of the spec (those are next states, 60_exceptions.md R252), and none
can be reached by commands from reset (assumption log 10). All are safe: the model stops. -/
inductive Fault where
  /-- TSER, CTAB and COMPRESS: a traversal of NODE nests deeper than its stack of 257 entries (44 R185), which only
  node memory that is no tree can make. Safe. -/
  | traversalStackOverflow
  /-- DECODE and DECOMPRESS: the walk must take a child of a leaf ("a leaf root cannot be met", 46 R223 (e)). Safe. -/
  | childOfLeaf
  /-- TBUILD and COMPRESS: no symbol has a positive count, so there is no root (43 R172 has at least one leaf). Safe. -/
  | noLeaf
  /-- Every loop: its bound is passed. Not reached from any state; the bounds are the spec's (40 R124, 70 R293). Safe. -/
  | loopBoundPassed
  deriving DecidableEq, Repr

/-- Refusals. No meaning raises one. -/
inductive Refusal where
  /-- exec: the instruction has no meaning in this model yet. Safe. -/
  | notModelled (mnemonic : String)
  deriving DecidableEq, Repr

/-- What an exec or a step answers. -/
abbrev Answer := Host.Outcome State Fault Refusal

/-- A table by the contents of its entries. -/
def tableOf {α : Type} {n : Nat} (f : Nat → α) : Vector α n := ⟨((List.range n).map f).toArray, by simp⟩

/-- The state after reset (10_state.md R51), with the devices of a run that never fail and an empty source
(assumption logs 4, 7, 8). -/
def State.reset : State where
  rd :=
    { isOpen := false, bitsRead := 0, eos := false, srcEnd := false,
      acc := 0, accAbove := Config.resetRdAcc, accCnt := 0, blk := [], blkIdx := 0 }
  wr := { isOpen := false, bitsWritten := 0, acc := 0, accAbove := Config.resetWrAcc, accCnt := 0, blk := [] }
  freq := tableOf Config.resetFreq
  freqValid := false
  node := tableOf Config.resetNode
  nodeCnt := Config.resetNodeCnt.val
  root := Config.resetRoot
  treeValid := false
  code := tableOf fun s => (Config.resetCode s).take 256
  tableValid := false
  err := 0
  magic := Config.magicDefault
  src := { content := [], pos := 0, txs := 0, failAt := none }
  snk := { content := [], txs := 0, failAt := none }
  log := []
  rsp := none
  host := []

end Sys2Proof.Machine
end

