-- ==== Sys2Proof/Machine/Bits.lean ====
section
/-! DEFINITION. Bit fields, bit strings and byte order (00_scope.md R7, R8; 20_memory.md R65, R66). A bit string is a
`List Bool`, first (most significant) bit first. -/

namespace Sys2Proof.Machine

/-- The low `n` bits of `v` as a bit string. -/
def toBits : Nat → Nat → List Bool
  | 0, _ => []
  | n + 1, v => v.testBit n :: toBits n v

/-- The unsigned integer a bit string denotes. -/
def ofBits (l : List Bool) : Nat := l.foldl (fun v b => 2 * v + b.toNat) 0

/-- The bits of a byte sequence, in stream order (R8). -/
def bytesBits (bs : List Byte) : List Bool := bs.flatMap fun b => toBits 8 b.toNat

/-- The big-endian integer of a byte sequence, `be` of R7. -/
def beNat (bs : List Byte) : Nat := bs.foldl (fun v b => 256 * v + b.toNat) 0

/-- `k` bytes of `v`, most significant first. -/
def beBytes : Nat → Nat → List Byte
  | 0, _ => []
  | k + 1, v => BitVec.ofNat 8 (v / 256 ^ k) :: beBytes k v

/-- The field of `n` bits of a 64-bit register from bit `lo` up; the empty field is 0 whatever the register holds. -/
def field (w : BitVec 64) (lo n : Nat) : Nat := if n = 0 then 0 else w.toNat / 2 ^ lo % 2 ^ n

/-- The 64-bit register whose low `cnt` bits are those of `low` and whose other bits are those of `high`. -/
def splitRegister (cnt : Nat) (low high : BitVec 64) : BitVec 64 :=
  high >>> cnt <<< cnt ||| (low.setWidth cnt).setWidth 64

/-- RD_ACC, all 64 bits (10_state.md R27). -/
def Reader.accRegister (r : Reader) : BitVec 64 := splitRegister r.accCnt r.acc r.accAbove

/-- WR_ACC, all 64 bits (10_state.md R31). -/
def Writer.accRegister (w : Writer) : BitVec 64 := splitRegister w.accCnt w.acc w.accAbove

end Sys2Proof.Machine
end

