-- ==== Sys2Proof/Machine/Flags.lean ====
section
/-! DEFINITION. The flags and the control and status registers (10_state.md R40 to R48), the error classes and the ERR
register's layout (60_exceptions.md R246, 10_state.md R44), the SEQUENCE preconditions (60 R258). -/

namespace Sys2Proof.Machine

/-- The error classes (60_exceptions.md R246). -/
inductive ErrClass where
  | argument
  | format
  | malformed
  | internal
  | resource
  | sequence
  | illegal
  | capacity
  deriving DecidableEq, Repr

/-- ERR.CODE of a class (R246). -/
def ErrClass.code : ErrClass → BitVec 4
  | .argument => 1
  | .format => 2
  | .malformed => 3
  | .internal => 4
  | .resource => 5
  | .sequence => 6
  | .illegal => 7
  | .capacity => 8

/-- What a `raise` gives: class, subcode, info (00_scope.md R9, 60 R247). -/
structure Raise where
  cls : ErrClass
  sub : BitVec 4
  info : BitVec 32
  deriving DecidableEq, Repr

/-- The ERR register (10_state.md R44): INFO[63:32], 0[31:24], MOP[23:16], OP[15:8], SUB[7:4], CODE[3:0]. -/
def packErr (e : Raise) (op mop : BitVec 8) : BitVec 64 :=
  e.info ++ 0#8 ++ mop ++ op ++ e.sub ++ e.cls.code

/-- ERR.CODE. -/
def errCode (err : BitVec 64) : BitVec 4 := err.extractLsb' 0 4

/-- ERR.SUB. -/
def errSub (err : BitVec 64) : BitVec 4 := err.extractLsb' 4 4

/-- ERR.OP. -/
def errOp (err : BitVec 64) : BitVec 8 := err.extractLsb' 8 8

/-- ERR.MOP. -/
def errMop (err : BitVec 64) : BitVec 8 := err.extractLsb' 16 8

/-- ERR.INFO. -/
def errInfo (err : BitVec 64) : BitVec 32 := err.extractLsb' 32 32

/-- HALTED: the core is halted exactly when ERR.CODE ≠ 0 (60_exceptions.md R253). -/
def State.halted (s : State) : Bool := errCode s.err != 0

/-- STATUS (10_state.md R43): bit 6 HALTED, 5 TABLE_VALID, 4 TREE_VALID, 3 FREQ_VALID, 2 WR_OPEN, 1 RD_EOS,
0 RD_OPEN, the rest 0. -/
def State.status (s : State) : BitVec 64 :=
  0#57 ++ BitVec.ofBool s.halted ++ BitVec.ofBool s.tableValid ++ BitVec.ofBool s.treeValid ++
    BitVec.ofBool s.freqValid ++ BitVec.ofBool s.wr.isOpen ++ BitVec.ofBool s.rd.eos ++ BitVec.ofBool s.rd.isOpen

/-- TREEINFO (10_state.md R47): ROOT in [25:16], NODE_CNT in [9:0] while TREE_VALID = 1, else 0. -/
def State.treeInfo (s : State) : BitVec 64 :=
  if s.treeValid then 0#38 ++ BitVec.ofNat 10 s.root.val ++ 0#6 ++ BitVec.ofNat 10 s.nodeCnt else 0

/-- CSR[N] for N in 0..6 (10_state.md R41 to R48). -/
def State.csr (s : State) (n : BitVec 6) : BitVec 64 :=
  match n.toNat with
  | 0 => Config.idValue
  | 1 => s.status
  | 2 => s.err
  | 3 => s.rd.bitsRead
  | 4 => s.wr.bitsWritten
  | 5 => s.treeInfo
  | 6 => 0#32 ++ s.magic
  | _ => 0

/-- One precondition of a command (60_exceptions.md R258). -/
inductive Need where
  | rdOpen
  | wrOpen
  | rdClosed
  | wrClosed
  | freqValid
  | treeValid
  | tableValid
  deriving DecidableEq, Repr

/-- Whether a precondition holds. -/
def Need.holds (s : State) : Need → Bool
  | .rdOpen => s.rd.isOpen
  | .wrOpen => s.wr.isOpen
  | .rdClosed => !s.rd.isOpen
  | .wrClosed => !s.wr.isOpen
  | .freqValid => s.freqValid
  | .treeValid => s.treeValid
  | .tableValid => s.tableValid

/-- The subcode of SEQUENCE when it does not (60 R247). -/
def Need.sub : Need → BitVec 4
  | .rdOpen => 1
  | .wrOpen => 2
  | .rdClosed => 3
  | .wrClosed => 4
  | .freqValid => 5
  | .treeValid => 6
  | .tableValid => 7

/-- The preconditions of each command, in the order they are checked (60_exceptions.md R258). -/
def needs : Instr → List Need
  | .rdopen => [.rdClosed]
  | .rdbits _ | .rdrst | .fcount | .magicr | .tdes => [.rdOpen]
  | .wropen => [.wrClosed]
  | .wrbits _ _ | .wrflush | .magicw => [.wrOpen]
  | .tbuild => [.freqValid]
  | .tser => [.wrOpen, .treeValid]
  | .ctab => [.treeValid]
  | .encode => [.rdOpen, .wrOpen, .tableValid]
  | .decode => [.rdOpen, .wrOpen, .treeValid]
  | .compress | .decompress => [.rdOpen, .wrOpen]
  | .getcsr _ | .rdcnt | .wrcnt | .rdclose | .wrclose => []

/-- The SEQUENCE error of a command, at the first precondition that fails (60_exceptions.md R255 step 5). -/
def seqCheck (i : Instr) (s : State) : Option Raise :=
  ((needs i).find? fun n => !n.holds s).map fun n => ⟨.sequence, n.sub, 0⟩

end Sys2Proof.Machine
end

