-- ==== Sys2Proof/Machine/Operands.lean ====
section
/-! DEFINITION. What the operands of a command stand for (30_encoding.md R94): the bit count N and its ARGUMENT check,
the value VAL, and the symbols and node numbers that appear as values. -/

namespace Sys2Proof.Machine

/-- The bit count N, taken as it stands (R94). -/
def bitCount (n : BitVec 6) : Nat := n.toNat

/-- Whether a bit count is in 1..32 (00_scope.md R6, MIN_N and MAX_N). -/
def countInRange (n : BitVec 6) : Bool := 1 ≤ bitCount n && bitCount n ≤ 32

/-- The ARGUMENT error of a command (60_exceptions.md R248, R255 step 4): sub 1 for RDBITS, 2 for WRBITS, INFO = N. -/
def argCheck : Instr → Option Raise
  | .rdbits n => if countInRange n then none else some ⟨.argument, 1, n.setWidth 32⟩
  | .wrbits n _ => if countInRange n then none else some ⟨.argument, 2, n.setWidth 32⟩
  | .getcsr _ | .rdopen | .rdcnt | .rdrst | .rdclose => none
  | .wropen | .wrcnt | .wrflush | .wrclose => none
  | .fcount | .tbuild | .magicw | .tser | .ctab | .encode => none
  | .magicr | .tdes | .decode | .compress | .decompress => none

/-- The commands a halted core executes (60_exceptions.md R254). A GETCSR of a number above 6 is no command. -/
def acceptedWhileHalted : Instr → Bool
  | .getcsr n => (Instr.getcsr n).wellFormed
  | .rdcnt | .wrcnt | .rdclose | .wrclose => true
  | .rdopen | .rdbits _ | .rdrst => false
  | .wropen | .wrbits _ _ | .wrflush => false
  | .fcount | .tbuild | .magicw | .tser | .ctab | .encode => false
  | .magicr | .tdes | .decode | .compress | .decompress => false

/-- The symbol of a value below 257. -/
def symbolOf (v : Nat) : Symbol := Fin.ofNat 257 v

/-- The node number of a value below 513. -/
def nodeIxOf (v : Nat) : NodeIx := Fin.ofNat 513 v

/-- SYM as the 10 bits of the record (10_state.md R35): UNSET is 0x3FF (decision D33). -/
def symField : Option Symbol → BitVec 10
  | some y => BitVec.ofNat 10 y.val
  | none => 0x3FF

end Sys2Proof.Machine
end

