-- ==== Sys2Proof/Machine/Ops.lean ====
section
/-! DEFINITION. The shared operations: the port transactions (20_memory.md R62, R63), raising an error and the common
sequence of a command (60_exceptions.md R252, R255), the read primitive (40_bit_reader_fifo.md R124 to R126), the write
primitives (41_bit_writer_fifo.md R144, R145, R147, R149), the node memory, and the reset event (70 R281). -/

namespace Sys2Proof.Machine

/-! ### The devices -/

/-- What a transaction does to the source device (20_memory.md R62). DESIGN CHOICE: a release, of which R62 says only that
it has no effect on the content, leaves the source position as it was (assumption log 19). -/
def Source.after (d : Source) : PortEvent → Source
  | .srcOpen .ok | .srcOpen (.fail true) => { d with pos := 0, txs := d.txs + 1 }
  | .srcOpen (.fail false) => { d with txs := d.txs + 1 }
  | .srcRewind .ok | .srcRewind (.fail true) => { d with pos := 0, txs := d.txs + 1 }
  | .srcRewind (.fail false) => { d with txs := d.txs + 1 }
  | .srcFetch _ (.bytes b) => { d with pos := d.pos + b.length, txs := d.txs + 1 }
  | .srcFetch _ .endOfSource => { d with txs := d.txs + 1 }
  | .srcFetch _ (.fail pos) => { d with pos := min pos d.content.length, txs := d.txs + 1 }
  | .srcRelease => { d with txs := d.txs + 1 }
  | .snkOpen _ | .snkPut _ _ | .snkRelease => d

/-- What a transaction does to the sink device (20_memory.md R63). -/
def Sink.after (d : Sink) : PortEvent → Sink
  | .snkOpen .ok | .snkOpen (.fail true) => { d with content := [], txs := d.txs + 1 }
  | .snkOpen (.fail false) => { d with txs := d.txs + 1 }
  | .snkPut b .ok => { d with content := d.content ++ b, txs := d.txs + 1 }
  | .snkPut _ (.fail left) => { d with content := d.content ++ left, txs := d.txs + 1 }
  | .snkRelease => { d with txs := d.txs + 1 }
  | .srcOpen _ | .srcFetch _ _ | .srcRewind _ | .srcRelease => d

/-- A transaction takes place: both devices see it and it is logged. -/
def State.transact (s : State) (e : PortEvent) : State :=
  { s with src := s.src.after e, snk := s.snk.after e, log := s.log ++ [e] }

/-- Whether a device that answers its transaction number `k` fails: not before `failAt`, then at it, then freely
(20_memory.md R64). `draw` numbers the free draw. -/
def deviceFails (failAt : Option Nat) (k draw : Nat) : Bool :=
  match failAt with
  | none => false
  | some f => if k < f then false else if k = f then true else Config.failsAgain draw

/-- Whether the source fails its next transaction. -/
def State.srcFails (s : State) : Bool := deviceFails s.src.failAt s.src.txs s.log.length

/-- Whether the sink fails its next transaction. -/
def State.snkFails (s : State) : Bool := deviceFails s.snk.failAt s.snk.txs s.log.length

/-- The answer to an open or rewind. -/
def openAnswer (fails : Bool) (draw : Nat) : OpenAnswer :=
  if fails then .fail (Config.failedOpenTook draw) else .ok

/-- The source's answer to a fetch: min(max, remaining) bytes, or `End` when none remains (R62; assumption log 6). Where
the device stands after a fetch answered `Fail`, and so the rest of the stream, is free (93 I13; assumption log 18). -/
def State.fetchAnswer (s : State) (max : Nat) : FetchAnswer :=
  if s.srcFails then .fail (Config.failedFetchPos s.log.length)
  else if s.src.pos < s.src.content.length then .bytes ((s.src.content.drop s.src.pos).take max)
  else .endOfSource

/-- The sink's answer to a put (R63). -/
def State.putAnswer (s : State) : PutAnswer :=
  if s.snkFails then .fail (Config.sinkTail s.log.length) else .ok

/-! ### Results, errors, responses -/

/-- What a procedure of the pseudocode ends in: a value, a raise, or one of the model's stops. In each of the first two
the state is the one the pseudocode has produced (60_exceptions.md R261). -/
inductive Res (α : Type) where
  | ok (a : α) (s : State)
  | raised (e : Raise) (s : State)
  | stuck (f : Fault)
  deriving Repr

/-- Go on after a procedure that ended in a value. -/
def Res.andThen {α β : Type} (r : Res α) (k : α → State → Res β) : Res β :=
  match r with
  | .ok a s => k a s
  | .raised e s => .raised e s
  | .stuck f => .stuck f

/-- The response word (30_encoding.md R93): OK[65], EOS[64], DATA[63:0]. -/
def packResponse (ok eos : Bool) (data : BitVec 64) : RspWord :=
  BitVec.ofBool ok ++ BitVec.ofBool eos ++ data

/-- Give the host a response word. -/
def State.respond (s : State) (ok eos : Bool) (data : BitVec 64) : State :=
  { s with rsp := some (packResponse ok eos data) }

/-- ERR keeps the first error since reset (60_exceptions.md R252). -/
def State.recordErr (s : State) (op mop : BitVec 8) (e : Raise) : State :=
  if errCode s.err = 0 then { s with err := packErr e op mop } else s

/-- Raising an error, the one way a command takes an exception (60_exceptions.md R252, R262): ERR records it unless it
holds an earlier one, and the command ends with OK = 0 and DATA = ERR. `op` is the primitive's opcode, `mop` the
host command's. There is no return from it but RESET (R263). -/
def raiseErr (op mop : BitVec 8) (e : Raise) (s : State) : State :=
  let t := s.recordErr op mop e
  t.respond false false t.err

/-- A halted core refuses a word: only the response is given (60_exceptions.md R254). -/
def refuse (s : State) : State := s.respond false false s.err

/-- A word that is no command (60_exceptions.md R255 steps 2 and 3, R257): refused while halted, else ILLEGAL with
ERR.OP = ERR.MOP = w[47:40] and INFO = w[47:16]. -/
def illegalWord (w : CmdWord) (sub : BitVec 4) (s : State) : State :=
  if s.halted then refuse s
  else raiseErr (opField w) (opField w) ⟨.illegal, sub, illegalInfo w⟩ s

/-- Steps 2 to 6 of the common sequence (60_exceptions.md R255) for a decoded command `i` whose Operation is `k`. -/
def guarded (i : Instr) (s : State) (k : State → Answer) : Answer :=
  if s.halted && !acceptedWhileHalted i then .next (refuse s)
  else
    match argCheck i with
    | some e => .next (raiseErr i.opcode i.opcode e s)
    | none =>
      match seqCheck i s with
      | some e => .next (raiseErr i.opcode i.opcode e s)
      | none => k s

/-- What a completed command puts in the response beside OK = 1. -/
structure Reply where
  eos : Bool
  data : BitVec 64
  deriving DecidableEq, Repr

/-- DATA = 0, EOS = 0: the response of a command that answers nothing. -/
def Reply.done : Reply := ⟨false, 0⟩

/-- The end of a command's Operation: the response, or the raise with the command's own opcode in OP and MOP. -/
def finish (i : Instr) : Res Reply → Answer
  | .ok r s => .next (s.respond true r.eos r.data)
  | .raised e s => .next (raiseErr i.opcode i.opcode e s)
  | .stuck f => .fault f

/-- The end of an Operation that answers nothing. -/
def finishDone (i : Instr) (r : Res Unit) : Answer := finish i (r.andThen fun _ s => .ok .done s)

/-- The codec tables whose valid flag is 0 take free values, drawn for the command with opcode `op` (10_state.md R52,
93 I7; assumption log 17). -/
def State.forgetTables (op : BitVec 8) (s : State) : State :=
  let n := s.log.length
  { s with
    freq := if s.freqValid then s.freq else tableOf (Config.lostFreq n op)
    node := if s.treeValid then s.node else tableOf (Config.lostNode n op)
    nodeCnt := if s.treeValid then s.nodeCnt else (Config.lostNodeCnt n op).val
    root := if s.treeValid then s.root else Config.lostRoot n op
    code := if s.tableValid then s.code else tableOf fun y => (Config.lostCode n op y).take 256 }

/-- A change of the state of a procedure that raised. -/
def Res.onRaise {α : Type} (f : State → State) : Res α → Res α
  | .ok a s => .ok a s
  | .raised e s => .raised e (f s)
  | .stuck f => .stuck f

/-- The end of a producer of a codec table that can fail in its Operation, FCOUNT and TDES: where it raises, the tables it
has invalidated hold any value (93 I7; assumption log 17). -/
def finishProducer (i : Instr) (r : Res Unit) : Answer := finishDone i (r.onRaise (State.forgetTables i.opcode))

/-- One line of a macro command's table: the opcode ERR.OP would record, and the procedure (45 R206, 46 R226). -/
structure MacroLine where
  op : BitVec 8
  procedure : State → Res Unit

/-- The end of a macro command: its lines in order; the first that raises ends it, with its own opcode in ERR.OP and
the macro's in ERR.MOP; after the last, the three valid flags are cleared (45 R206, 46 R226). In
either case the tables whose flags are then 0 hold any value (93 I7; assumption log 17). -/
def runMacro (i : Instr) : List MacroLine → State → Answer
  | [], s =>
    .next ((({ s with freqValid := false, treeValid := false, tableValid := false } : State).forgetTables
      i.opcode).respond true false 0)
  | line :: rest, s =>
    match line.procedure s with
    | .ok _ t => runMacro i rest t
    | .raised e t => .next (raiseErr line.op i.opcode e (t.forgetTables i.opcode))
    | .stuck f => .fault f

/-! ### Unit U1 -/

/-- `RdInit()` (40_bit_reader_fifo.md R122). -/
def Reader.init (r : Reader) : Reader :=
  { r with accCnt := 0, blk := [], blkIdx := 0, srcEnd := false, eos := false, bitsRead := 0 }

/-- `RdReset()` (40 R127). -/
def rdReset (s : State) : Res Unit :=
  let a := openAnswer s.srcFails s.log.length
  let t := s.transact (.srcRewind a)
  match a with
  | .fail _ => .raised ⟨.resource, 3, 0⟩ t
  | .ok => .ok () { t with rd := t.rd.init }

/-- `RdRefillBlock()` (40 R125). Where the fetch fails the reader stays as the pseudocode leaves it, RD_ACC_CNT = 0 and
RD_BLK used up (R125), and the undelivered stream is any rest of the source (93 I13; assumption log 18). -/
def rdRefillBlock (s : State) : Res Unit :=
  if s.rd.srcEnd then .ok () s
  else
    let a := s.fetchAnswer Config.rdBlockBytes
    let t := s.transact (.srcFetch Config.rdBlockBytes a)
    match a with
    | .fail _ => .raised ⟨.resource, 2, 0⟩ t
    | .endOfSource => .ok () { t with rd := { t.rd with srcEnd := true, blk := [], blkIdx := 0 } }
    | .bytes b => .ok () { t with rd := { t.rd with blk := b, blkIdx := 0 } }

/-- Move up to 8 bytes from RD_BLK to the low bits of RD_ACC, the second half of R126; the other bits of RD_ACC are
then those of `above`. With no byte to move RD_ACC stays as it is. -/
def Reader.load (r : Reader) (above : BitVec 64) : Reader :=
  let b := (r.blk.drop r.blkIdx).take 8
  if b.length = 0 then { r with accCnt := 0 }
  else { r with
    acc := BitVec.ofNat 64 (beNat b), accAbove := above, accCnt := 8 * b.length, blkIdx := r.blkIdx + b.length }

/-- `RdRefillAcc()` (40 R126). It writes `RD_ACC[8k-1:0]`; the bits above have no meaning and are free (10_state.md R27,
93 I7; assumption log 16). -/
def rdRefillAcc (s : State) : Res Unit :=
  (if s.rd.blkIdx = s.rd.blkLen then rdRefillBlock s else .ok () s).andThen fun _ t =>
    .ok () { t with rd := t.rd.load (Config.rdAccAbove t.log.length t.rd.blkIdx) }

/-- The loop of `RdBits(n)` (40 R124); the first argument is the bound of R124 on its turns. -/
def rdBitsLoop : Nat → Nat → Nat → Nat → State → Res (Option Nat)
  | 0, _, _, _, _ => .stuck .loopBoundPassed
  | fuel + 1, n, need, v, s =>
    if need ≤ s.rd.accCnt then
      .ok (some (v * 2 ^ need + field s.rd.acc (s.rd.accCnt - need) need))
        { s with rd :=
          { s.rd with accCnt := s.rd.accCnt - need, bitsRead := s.rd.bitsRead + BitVec.ofNat 64 n } }
    else
      (rdRefillAcc { s with rd := { s.rd with accCnt := 0 } }).andThen fun _ t =>
        if t.rd.accCnt = 0 then .ok none { t with rd := { t.rd with eos := true } }
        else rdBitsLoop fuel n (need - s.rd.accCnt) (v * 2 ^ s.rd.accCnt + field s.rd.acc 0 s.rd.accCnt) t

/-- `RdBits(n)` (40 R124): an n-bit value, or `none` for EOS. "The loop body runs at most 6 times." -/
def rdBits (n : Nat) (s : State) : Res (Option Nat) := rdBitsLoop 6 n n 0 s

/-- The bits the reader can still deliver, if the source does not fail: those of RD_ACC, of RD_BLK and of the
source's rest (10_state.md R49). It bounds the loops that end with the stream (70 R293). -/
def State.bitsLeft (s : State) : Nat :=
  s.rd.accCnt + 8 * (s.rd.blk.length - s.rd.blkIdx) + 8 * (s.src.content.length - s.src.pos)

/-! ### Unit U2 -/

/-- `WrPutBlock()` (41_bit_writer_fifo.md R145). -/
def wrPutBlock (s : State) : Res Unit :=
  let a := s.putAnswer
  let t := s.transact (.snkPut s.wr.blk a)
  let u := { t with wr := { t.wr with blk := [] } }
  match a with
  | .ok => .ok () u
  | .fail _ => .raised ⟨.resource, 5, 0⟩ u

/-- `WrBits(n, v)` (41 R144), the block-fill path. The bits of WR_ACC above the new count have no meaning and are free
(10_state.md R31, 93 I7; assumption log 16). -/
def wrBits (n v : Nat) (s : State) : Res Unit :=
  let x := v % 2 ^ n
  let room := 64 - s.wr.accCnt
  let old := field s.wr.acc 0 s.wr.accCnt
  let count := s.wr.bitsWritten + BitVec.ofNat 64 n
  let above := Config.wrAccAbove s.log.length (8 * s.wr.blkLen + s.wr.accCnt)
  if n < room then
    .ok () { s with wr :=
      { s.wr with
        acc := BitVec.ofNat 64 (old * 2 ^ n + x)
        accAbove := above
        accCnt := s.wr.accCnt + n
        bitsWritten := count } }
  else
    let rest := n - room
    let t := { s with wr :=
      { s.wr with
        acc := BitVec.ofNat 64 (x % 2 ^ rest)
        accAbove := above
        accCnt := rest
        bitsWritten := count
        blk := s.wr.blk ++ beBytes 8 (old * 2 ^ room + x / 2 ^ rest) } }
    if t.wr.blkLen = Config.wrBlockBytes then wrPutBlock t else .ok () t

/-- `WrFlush()` (41 R147), the flush path. -/
def wrFlush (s : State) : Res Unit :=
  let k := (s.wr.accCnt + 7) / 8
  let pad := 8 * k - s.wr.accCnt
  let p := field s.wr.acc 0 s.wr.accCnt * 2 ^ pad
  let t := { s with wr := { s.wr with accCnt := 0, blk := s.wr.blk ++ beBytes k p } }
  if 0 < t.wr.blkLen then wrPutBlock t else .ok () t

/-- `SnkRelease()` and `WR_OPEN <- 0`, the last two lines of R149. -/
def wrRelease (s : State) : State :=
  let t := s.transact .snkRelease
  { t with wr := { t.wr with isOpen := false } }

/-- `WrClose()` (41 R149): the release happens also when the flush raises (60 R252). -/
def wrClose (s : State) : Res Unit :=
  if s.wr.isOpen then
    match wrFlush s with
    | .ok _ t => .ok () (wrRelease t)
    | .raised e t => .raised e (wrRelease t)
    | .stuck f => .stuck f
  else .ok () s

/-! ### The codec tables -/

/-- FREQ[s]. -/
def State.freqOf (s : State) (y : Symbol) : BitVec 64 := s.freq.get y

/-- FREQ[y] <- c. -/
def State.setFreq (s : State) (y : Symbol) (c : BitVec 64) : State := { s with freq := s.freq.set y c }

/-- NODE[i]. -/
def State.nodeAt (s : State) (i : NodeIx) : Node := s.node.get i

/-- NODE[i] <- x. -/
def State.setNode (s : State) (i : NodeIx) (x : Node) : State := { s with node := s.node.set i x }

/-- NODE[NODE_CNT] <- x; NODE_CNT <- NODE_CNT + 1. -/
def State.pushNode (s : State) (x : Node) : State :=
  { s.setNode (nodeIxOf s.nodeCnt) x with nodeCnt := s.nodeCnt + 1 }

/-- CODE[y]. -/
def State.codeOf (s : State) (y : Symbol) : List Bool := s.code.get y

/-- CODE[y] <- bits. -/
def State.setCode (s : State) (y : Symbol) (bits : List Bool) : State := { s with code := s.code.set y bits }

/-! ### The reset event -/

/-- RESET (70_reset_and_hazards.md R281): every element takes its value of 10_state.md R51; the device contents and
the source position stay, and no transaction is made. A new run begins, with its own failure plan. -/
def resetEvent (plan : FailPlan) (s : State) : State :=
  { State.reset with
    magic := s.magic
    src := { s.src with txs := 0, failAt := plan.src }
    snk := { s.snk with txs := 0, failAt := plan.snk }
    log := s.log
    host := s.host }

/-- The devices of `s` after the transactions `es`, and nothing else changed: what RESET finds when it cuts a command
short after them (R281 (b), (d)). -/
def State.devicesAfter (s : State) (es : List PortEvent) : State :=
  { s with src := es.foldl Source.after s.src, snk := es.foldl Sink.after s.snk, log := s.log ++ es }

/-- RESET during a command that would have gone from `s` to `t`: the first `k` of its transactions have been made. -/
def cutByReset (k : Nat) (plan : FailPlan) (s t : State) : State :=
  resetEvent plan (s.devicesAfter ((t.log.drop s.log.length).take k))

/-- The host attaches another content to the source port (70 R284, R286). Where the device then stands is free
within 0..|SRC| (20_memory.md R61; assumption log 12). -/
def attachSource (content : List Byte) (s : State) : State :=
  { s with src := { s.src with content := content, pos := min (Config.attachPos s.log.length) content.length } }

end Sys2Proof.Machine
end

