-- ==== Sys2Proof/Machine/Serializer.lean ====
section
/-! DEFINITION. Unit U5, tree_serializer: TSER, TDES (44_tree_serializer.md). -/

namespace Sys2Proof.Machine

/-- `Ser(i)` (R187); the first argument is the room left on the traversal stack (10_state.md R39). -/
def ser : Nat → NodeIx → State → Res Unit
  | 0, _, _ => .stuck .traversalStackOverflow
  | room + 1, i, s =>
    match s.nodeAt i with
    | .internal _ l r =>
      (wrBits 1 0 s).andThen fun _ t => (ser room l t).andThen fun _ u => ser room r u
    | .leaf none _ => .raised ⟨.internal, 1, BitVec.ofNat 32 i.val⟩ s
    | .leaf (some y) _ => (wrBits 1 1 s).andThen fun _ t => wrBits 9 y.val t

/-- `Ser(ROOT)`, the Operation of TSER (R186). -/
def serRoot (s : State) : Res Unit := ser Config.traversalStack s.root s

/-- TSER (R186). -/
def execTser (s : State) : Answer := guarded .tser s fun s => finishDone .tser (serRoot s)

/-- `Des()` (R189): it returns the number of the record it built. The first argument bounds the nesting: each level
above a call has taken a record, so the 514th call deep finds the node memory full. -/
def des : Nat → State → Res NodeIx
  | 0, _ => .stuck .loopBoundPassed
  | fuel + 1, s =>
    (rdBits 1 s).andThen fun b t =>
      match b with
      | none => .raised ⟨.malformed, 1, 0⟩ t
      | some 0 =>
        if t.nodeCnt = Config.nodeCap then .raised ⟨.malformed, 4, 0⟩ t
        else
          let i := nodeIxOf t.nodeCnt
          (des fuel { t with nodeCnt := t.nodeCnt + 1 }).andThen fun l u =>
            (des fuel u).andThen fun r v => .ok i (v.setNode i (.internal 0 l r))
      | some _ =>
        (rdBits 9 t).andThen fun y u =>
          match y with
          | none => .raised ⟨.malformed, 1, 0⟩ u
          | some y =>
            if 256 < y then .raised ⟨.malformed, 3, BitVec.ofNat 32 y⟩ u
            else if u.nodeCnt = Config.nodeCap then .raised ⟨.malformed, 4, 0⟩ u
            else .ok (nodeIxOf u.nodeCnt) (u.pushNode (.leaf (some (symbolOf y)) 0))

/-- `TDes()` (R189). -/
def tDes (s : State) : Res Unit :=
  (des (Config.nodeCap + 1) { s with treeValid := false, tableValid := false, nodeCnt := 0 }).andThen fun r t =>
    match t.nodeAt r with
    | .leaf y _ => .raised ⟨.malformed, 5, (symField y).setWidth 32⟩ t
    | .internal _ _ _ => .ok () { t with root := r, treeValid := true }

/-- TDES (R189). -/
def execTdes (s : State) : Answer := guarded .tdes s fun s => finishProducer .tdes (tDes s)

end Sys2Proof.Machine
end

