-- ==== Sys2Proof/Machine/Decoder.lean ====
section
/-! DEFINITION. Unit U7, huffman_decoder: MAGICR, DECODE, DECOMPRESS (46_huffman_decoder.md). -/

namespace Sys2Proof.Machine

/-- `MagicR()` (R221). -/
def magicR (s : State) : Res Unit :=
  (rdBits 32 s).andThen fun r t =>
    match r with
    | none => .raised ⟨.format, 2, 0⟩ t
    | some v => if BitVec.ofNat 32 v = t.magic then .ok () t else .raised ⟨.format, 1, BitVec.ofNat 32 v⟩ t

/-- MAGICR (R221). -/
def execMagicr (s : State) : Answer := guarded .magicr s fun s => finishDone .magicr (magicR s)

/-- The loop of `Decode()` (R223); `cur` is the current node. -/
def decodeLoop : Nat → NodeIx → State → Res Unit
  | 0, _, _ => .stuck .loopBoundPassed
  | fuel + 1, cur, s =>
    (rdBits 1 s).andThen fun b t =>
      match b with
      | none => .raised ⟨.malformed, 2, 0⟩ t
      | some b =>
        match t.nodeAt cur with
        | .leaf _ _ => .stuck .childOfLeaf
        | .internal _ l r =>
          let next := if b = 0 then l else r
          match t.nodeAt next with
          | .internal _ _ _ => decodeLoop fuel next t
          | .leaf y _ =>
            if y = some terminator then .ok () t
            else (wrBits 8 (symField y).toNat t).andThen fun _ u => decodeLoop fuel u.root u

/-- `Decode()` (R223). -/
def decodeBody (s : State) : Res Unit := decodeLoop (s.bitsLeft + 1) s.root s

/-- DECODE (R223). -/
def execDecode (s : State) : Answer := guarded .decode s fun s => finishDone .decode (decodeBody s)

/-- The four lines of DECOMPRESS (R226). -/
def decompressLines : List MacroLine :=
  [ ⟨Instr.magicr.opcode, magicR⟩,
    ⟨Instr.tdes.opcode, tDes⟩,
    ⟨Instr.decode.opcode, decodeBody⟩,
    ⟨Instr.wrclose.opcode, wrClose⟩ ]

/-- DECOMPRESS (R226). -/
def execDecompress (s : State) : Answer := guarded .decompress s fun s => runMacro .decompress decompressLines s

end Sys2Proof.Machine
end

