-- ==== Sys2Proof/Machine/Counter.lean ====
section
/-! DEFINITION. Unit U3, symbol_frequency_counter: FCOUNT (42_symbol_frequency_counter.md). -/

namespace Sys2Proof.Machine

/-- The loop of `FCount()` (R161, R162): count the 8-bit groups up to the end of the stream. -/
def fCountLoop : Nat → State → Res Unit
  | 0, _ => .stuck .loopBoundPassed
  | fuel + 1, s =>
    (rdBits 8 s).andThen fun r t =>
      match r with
      | none => .ok () t
      | some v =>
        if t.freqOf (symbolOf v) = BitVec.allOnes 64 then .raised ⟨.capacity, 1, BitVec.ofNat 32 v⟩ t
        else fCountLoop fuel (t.setFreq (symbolOf v) (t.freqOf (symbolOf v) + 1))

/-- The first lines of `FCount()`: the valid flags and every counter are cleared. -/
def fCountStart (s : State) : State :=
  { s with freqValid := false, treeValid := false, tableValid := false, freq := Vector.replicate 257 0 }

/-- `FCount()` (R161). -/
def fCount (s : State) : Res Unit :=
  let t := fCountStart s
  (fCountLoop (t.bitsLeft + 1) t).andThen fun _ u =>
    .ok () { u.setFreq terminator 1 with freqValid := true }

/-- FCOUNT (R161). -/
def execFcount (s : State) : Answer := guarded .fcount s fun s => finishProducer .fcount (fCount s)

end Sys2Proof.Machine
end

