-- ==== Sys2Proof/Machine/TreeBuilder.lean ====
section
/-! DEFINITION. Unit U4, canonical_tree_builder: TBUILD (43_canonical_tree_builder.md). -/

namespace Sys2Proof.Machine

/-- WEIGHT of a record (10_state.md R35). -/
def weightOf : Node → Weight
  | .leaf _ w => w
  | .internal w _ _ => w

/-- The leaves TBUILD makes: one for each symbol with a positive count, in ascending symbol order (R172, R174 (a)). -/
def leavesOf (freq : Vector (BitVec 64) 257) : List Node :=
  (freq.toList.zipIdx.filter fun p => p.1 != 0).map fun p => .leaf (some (symbolOf p.2)) (p.1.setWidth 73)

/-- The first half of `TBuild()` (R172): the flags, NODE_CNT and the leaves; with one leaf only, the two leaves of the
empty-input tree (R173). -/
def tBuildLeaves (s : State) : State :=
  let t := (leavesOf s.freq).foldl State.pushNode { s with treeValid := false, tableValid := false, nodeCnt := 0 }
  if t.nodeCnt = 1 then
    { (t.setNode 0 (.leaf (some 0) 0)).setNode 1 (.leaf (some terminator) 1) with nodeCnt := 2 }
  else t

/-- Whether record `i` is removed before record `j`: the lesser (WEIGHT, index) in lexicographic order (R172,
R174 (b)). -/
def removedBefore (s : State) (i j : NodeIx) : Bool :=
  weightOf (s.nodeAt i) < weightOf (s.nodeAt j) || (weightOf (s.nodeAt i) == weightOf (s.nodeAt j) && i < j)

/-- The least of `i` and the records of `q` (R172). -/
def leastOf (s : State) (i : NodeIx) (q : List NodeIx) : NodeIx :=
  q.foldl (fun m j => if removedBefore s j m then j else m) i

/-- The loop of `TBuild()` (R172): `q` is the live set. Of the two records removed, the first becomes LEFT, the second
RIGHT (R174 (c)). The first argument bounds the turns: there are at most 256 merges (70 R293). -/
def mergeLoop : Nat → List NodeIx → State → Res NodeIx
  | _, [], _ => .stuck .noLeaf
  | _, [r], s => .ok r s
  | 0, _ :: _ :: _, _ => .stuck .loopBoundPassed
  | fuel + 1, i :: j :: q, s =>
    let a := leastOf s i (j :: q)
    match (i :: j :: q).erase a with
    | [] => .stuck .noLeaf
    | k :: q' =>
      let b := leastOf s k q'
      let new := nodeIxOf s.nodeCnt
      mergeLoop fuel ((k :: q').erase b ++ [new])
        (s.pushNode (.internal (weightOf (s.nodeAt a) + weightOf (s.nodeAt b)) a b))

/-- `TBuild()` (R172). -/
def tBuild (s : State) : Res Unit :=
  let t := tBuildLeaves s
  (mergeLoop t.nodeCnt ((List.range t.nodeCnt).map nodeIxOf) t).andThen fun r u =>
    .ok () { u with root := r, treeValid := true }

/-- TBUILD (R171). -/
def execTbuild (s : State) : Answer := guarded .tbuild s fun s => finishDone .tbuild (tBuild s)

end Sys2Proof.Machine
end

