-- ==== Sys2Proof/Machine/Encoder.lean ====
section
/-! DEFINITION. Unit U6, huffman_encoder: MAGICW, CTAB, ENCODE, COMPRESS (45_huffman_encoder.md). -/

namespace Sys2Proof.Machine

/-- The Operation of MAGICW (R201). -/
def magicW (s : State) : Res Unit := wrBits 32 s.magic.toNat s

/-- MAGICW (R201). -/
def execMagicw (s : State) : Answer := guarded .magicw s fun s => finishDone .magicw (magicW s)

/-- `Walk(i, path)` (R202); the first argument is the room left on the traversal stack. -/
def walk : Nat → NodeIx → List Bool → State → Res Unit
  | 0, _, _, _ => .stuck .traversalStackOverflow
  | room + 1, i, path, s =>
    match s.nodeAt i with
    | .internal _ l r =>
      (walk room l (path ++ [false]) s).andThen fun _ t => walk room r (path ++ [true]) t
    | .leaf none _ => .ok () s
    | .leaf (some y) _ => .ok () (s.setCode y path)

/-- `CTab()` (R202): first every entry is made "no entry". -/
def cTab (s : State) : Res Unit :=
  (walk Config.traversalStack s.root [] { s with tableValid := false, code := Vector.replicate 257 [] }).andThen
    fun _ t => .ok () { t with tableValid := true }

/-- CTAB (R202). -/
def execCtab (s : State) : Answer := guarded .ctab s fun s => finishDone .ctab (cTab s)

/-- `WrCode` of a bit string (R204): in pieces of at most 32 bits, first branch first. The first argument bounds the
number of pieces. -/
def wrPieces : Nat → List Bool → State → Res Unit
  | _, [], s => .ok () s
  | 0, _ :: _, _ => .stuck .loopBoundPassed
  | fuel + 1, b :: bits, s =>
    let piece := (b :: bits).take 32
    (wrBits piece.length (ofBits piece) s).andThen fun _ t => wrPieces fuel ((b :: bits).drop 32) t

/-- `WrCode(y)` (R204). -/
def wrCode (y : Symbol) (s : State) : Res Unit := wrPieces (s.codeOf y).length (s.codeOf y) s

/-- One symbol of `Encode()`: a symbol without an entry raises INTERNAL sub 2 before anything is written (R203). -/
def encodeSymbol (y : Symbol) (s : State) : Res Unit :=
  if s.codeOf y = [] then .raised ⟨.internal, 2, BitVec.ofNat 32 y.val⟩ s else wrCode y s

/-- The loop of `Encode()` (R203). -/
def encodeLoop : Nat → State → Res Unit
  | 0, _ => .stuck .loopBoundPassed
  | fuel + 1, s =>
    (rdBits 8 s).andThen fun r t =>
      match r with
      | none => .ok () t
      | some v => (encodeSymbol (symbolOf v) t).andThen fun _ u => encodeLoop fuel u

/-- `Encode()` (R203): the bytes up to the end of the stream, then the terminator. -/
def encodeBody (s : State) : Res Unit :=
  (encodeLoop (s.bitsLeft + 1) s).andThen fun _ t => encodeSymbol terminator t

/-- ENCODE (R203). -/
def execEncode (s : State) : Answer := guarded .encode s fun s => finishDone .encode (encodeBody s)

/-- The eight lines of COMPRESS (R206). -/
def compressLines : List MacroLine :=
  [ ⟨Instr.fcount.opcode, fCount⟩,
    ⟨Instr.tbuild.opcode, tBuild⟩,
    ⟨Instr.rdrst.opcode, rdReset⟩,
    ⟨Instr.magicw.opcode, magicW⟩,
    ⟨Instr.tser.opcode, serRoot⟩,
    ⟨Instr.ctab.opcode, cTab⟩,
    ⟨Instr.encode.opcode, encodeBody⟩,
    ⟨Instr.wrclose.opcode, wrClose⟩ ]

/-- COMPRESS (R206). -/
def execCompress (s : State) : Answer := guarded .compress s fun s => runMacro .compress compressLines s

end Sys2Proof.Machine
end

