-- ==== Sys2Proof/Machine/Reader.lean ====
section
/-! DEFINITION. Unit U1, bit_reader_fifo: RDOPEN, RDBITS, RDCNT, RDRST, RDCLOSE (40_bit_reader_fifo.md). -/

namespace Sys2Proof.Machine

/-- The Operation of RDOPEN (R122). -/
def rdOpen (s : State) : Res Unit :=
  let a := openAnswer s.srcFails s.log.length
  let t := s.transact (.srcOpen a)
  match a with
  | .fail _ => .raised ⟨.resource, 1, 0⟩ t
  | .ok => .ok () { t with rd := { t.rd.init with isOpen := true } }

/-- RDOPEN (R122). -/
def execRdopen (s : State) : Answer := guarded .rdopen s fun s => finishDone .rdopen (rdOpen s)

/-- The response of RDBITS: the value zero-extended, or EOS (R123). -/
def bitsReply : Option Nat → Reply
  | some v => ⟨false, BitVec.ofNat 64 v⟩
  | none => ⟨true, 0⟩

/-- RDBITS (R123). -/
def execRdbits (n : BitVec 6) (s : State) : Answer :=
  guarded (.rdbits n) s fun s =>
    finish (.rdbits n) ((rdBits (bitCount n) s).andThen fun r t => .ok (bitsReply r) t)

/-- RDCNT (R128). -/
def execRdcnt (s : State) : Answer := guarded .rdcnt s fun s => finish .rdcnt (.ok ⟨false, s.rd.bitsRead⟩ s)

/-- RDRST (R127). -/
def execRdrst (s : State) : Answer := guarded .rdrst s fun s => finishDone .rdrst (rdReset s)

/-- The Operation of RDCLOSE (R129). -/
def rdClose (s : State) : State :=
  if s.rd.isOpen then
    let t := s.transact .srcRelease
    { t with rd := { t.rd with isOpen := false } }
  else s

/-- RDCLOSE (R129). -/
def execRdclose (s : State) : Answer := guarded .rdclose s fun s => finishDone .rdclose (.ok () (rdClose s))

end Sys2Proof.Machine
end

