-- ==== Sys2Proof/Machine/System.lean ====
section
/-! DEFINITION. The system command GETCSR (47_system.md R236). -/

namespace Sys2Proof.Machine

/-- GETCSR (R236). A number above 6 is no command: its word is illegal, sub 3 (30_encoding.md R96; assumption
log 13). -/
def execGetcsr (n : BitVec 6) (s : State) : Answer :=
  if (Instr.getcsr n).wellFormed then
    guarded (.getcsr n) s fun s => finish (.getcsr n) (.ok ⟨false, s.csr n⟩ s)
  else .next (illegalWord (Sys2Proof.encode (.getcsr n)) 3 s)

end Sys2Proof.Machine
end

