-- ==== Sys2Proof/Machine/Writer.lean ====
section
/-! DEFINITION. Unit U2, bit_writer_fifo: WROPEN, WRBITS, WRCNT, WRFLUSH, WRCLOSE (41_bit_writer_fifo.md). -/

namespace Sys2Proof.Machine

/-- The Operation of WROPEN (R142). -/
def wrOpen (s : State) : Res Unit :=
  let a := openAnswer s.snkFails s.log.length
  let t := s.transact (.snkOpen a)
  match a with
  | .fail _ => .raised ⟨.resource, 4, 0⟩ t
  | .ok => .ok () { t with wr := { t.wr with isOpen := true, accCnt := 0, blk := [], bitsWritten := 0 } }

/-- WROPEN (R142). -/
def execWropen (s : State) : Answer := guarded .wropen s fun s => finishDone .wropen (wrOpen s)

/-- WRBITS (R143). -/
def execWrbits (n : BitVec 6) (val : BitVec 32) (s : State) : Answer :=
  guarded (.wrbits n val) s fun s => finishDone (.wrbits n val) (wrBits (bitCount n) val.toNat s)

/-- WRCNT (R148). -/
def execWrcnt (s : State) : Answer := guarded .wrcnt s fun s => finish .wrcnt (.ok ⟨false, s.wr.bitsWritten⟩ s)

/-- WRFLUSH (R146). -/
def execWrflush (s : State) : Answer := guarded .wrflush s fun s => finishDone .wrflush (wrFlush s)

/-- WRCLOSE (R149). -/
def execWrclose (s : State) : Answer := guarded .wrclose s fun s => finishDone .wrclose (wrClose s)

end Sys2Proof.Machine
end

