-- ==== Sys2Proof/Machine/Dispatch.lean ====
section
/-! DEFINITION. One arm per command. -/

namespace Sys2Proof.Machine

def exec (i : Instr) (s : State) : Host.Outcome State Fault Refusal :=
  match i with
  | .getcsr n => Sys2Proof.Machine.execGetcsr n s
  | .rdopen => Sys2Proof.Machine.execRdopen s
  | .rdbits n => Sys2Proof.Machine.execRdbits n s
  | .rdcnt => Sys2Proof.Machine.execRdcnt s
  | .rdrst => Sys2Proof.Machine.execRdrst s
  | .rdclose => Sys2Proof.Machine.execRdclose s
  | .wropen => Sys2Proof.Machine.execWropen s
  | .wrbits n val => Sys2Proof.Machine.execWrbits n val s
  | .wrcnt => Sys2Proof.Machine.execWrcnt s
  | .wrflush => Sys2Proof.Machine.execWrflush s
  | .wrclose => Sys2Proof.Machine.execWrclose s
  | .fcount => Sys2Proof.Machine.execFcount s
  | .tbuild => Sys2Proof.Machine.execTbuild s
  | .magicw => Sys2Proof.Machine.execMagicw s
  | .tser => Sys2Proof.Machine.execTser s
  | .ctab => Sys2Proof.Machine.execCtab s
  | .encode => Sys2Proof.Machine.execEncode s
  | .magicr => Sys2Proof.Machine.execMagicr s
  | .tdes => Sys2Proof.Machine.execTdes s
  | .decode => Sys2Proof.Machine.execDecode s
  | .compress => Sys2Proof.Machine.execCompress s
  | .decompress => Sys2Proof.Machine.execDecompress s

end Sys2Proof.Machine
end

