-- ==== Sys2Proof/Machine/Step.lean ====
section
/-! DEFINITION. One step: the host's next input takes effect (00_scope.md R3; 60_exceptions.md R255; 70 R281, R291). -/

namespace Sys2Proof.Machine

/-- `Execute(w)` (60_exceptions.md R255). -/
def execute (w : CmdWord) (s : State) : Answer :=
  match Sys2Proof.decode w with
  | .command i => exec i s
  | .illegal sub => .next (illegalWord w sub s)

/-- One step. With no input to come the core is idle and holds its state (60_exceptions.md R272). -/
def step (s : State) : Host.Outcome State Fault Refusal :=
  match s.host with
  | [] => .next s
  | .command w :: rest => execute w { s with host := rest }
  | .reset plan :: rest => .next (resetEvent plan { s with host := rest })
  | .commandCutByReset w k plan :: rest =>
    match execute w { s with host := rest } with
    | .next t => .next (cutByReset k plan { s with host := rest } t)
    | .fault f => .fault f
    | .refused r => .refused r
  | .attachSource content :: rest => .next (attachSource content { s with host := rest })

/-- The host issues the given word next: the next step runs it. HUFFCORE fetches no instruction (10_state.md R22); its
program is the sequence of words the host issues (assumption log 2). -/
def State.withFetchWord (s : State) (nbits w : Nat) : State :=
  { s with host := .command (BitVec.ofNat 48 (w % 2 ^ nbits)) :: s.host }

end Sys2Proof.Machine
end

