-- ==== Sys2Proof/Safety.lean ====
section
/-! DEFINITION. The terms in which claims about HUFFCORE are stated: the two streams the buffers stand for (10_state.md
R49, R50), code trees and where the node memory holds one (R35, R36; 30_encoding.md R102 to R104), and the invariant of
every state reached by steps. -/

namespace Sys2Proof.Machine

/-! ### The streams -/

/-- The undelivered bits of RD_ACC (10_state.md R27), the next one first. -/
def Reader.accBits (r : Reader) : List Bool := toBits r.accCnt r.acc.toNat

/-- The undelivered bit stream (10_state.md R49). Once the source has answered `End` it is not fetched again (R26). -/
def State.undelivered (s : State) : List Bool :=
  s.rd.accBits ++ bytesBits (s.rd.blk.drop s.rd.blkIdx) ++
    if s.rd.srcEnd then [] else bytesBits (s.src.content.drop s.src.pos)

/-- The collected bits of WR_ACC (10_state.md R31), the earliest first. -/
def Writer.accBits (w : Writer) : List Bool := toBits w.accCnt w.acc.toNat

/-- `W` of 10_state.md R50: what is in the sink, in WR_BLK and in WR_ACC. -/
def State.written (s : State) : List Bool :=
  bytesBits s.snk.content ++ bytesBits s.wr.blk ++ s.wr.accBits

/-- The whole 8-bit groups of a bit string, as FCOUNT and ENCODE read it; a last group of fewer bits is dropped
(42 R161 (c)). -/
def octets : List Bool → List Nat
  | b0 :: b1 :: b2 :: b3 :: b4 :: b5 :: b6 :: b7 :: rest => ofBits [b0, b1, b2, b3, b4, b5, b6, b7] :: octets rest
  | _ => []

/-- The source never fails in this run (20_memory.md R64). -/
def State.srcSound (s : State) : Prop := s.src.failAt = none

/-- The sink never fails in this run. -/
def State.snkSound (s : State) : Prop := s.snk.failAt = none

/-- RD_BLK_IDX is within RD_BLK (10_state.md R28). -/
def State.readerOk (s : State) : Prop := s.rd.blkIdx ≤ s.rd.blk.length

/-- The writer's own invariants (10_state.md R31, R32). -/
def State.writerOk (s : State) : Prop := s.wr.accCnt ≤ 63 ∧ s.wr.blk.length % 8 = 0 ∧ s.wr.blk.length ≤ 8184

/-- An open reader just after RDOPEN or RDRST (00_scope.md R11, 40 R122). -/
def State.freshReader (s : State) : Prop :=
  s.rd.isOpen = true ∧ s.rd.bitsRead = 0 ∧ s.rd.eos = false ∧ s.rd.srcEnd = false ∧ s.rd.accCnt = 0 ∧
    s.rd.blk = [] ∧ s.rd.blkIdx = 0 ∧ s.src.pos = 0

/-- An open writer just after WROPEN (00_scope.md R11, 41 R142). -/
def State.freshWriter (s : State) : Prop :=
  s.wr.isOpen = true ∧ s.wr.bitsWritten = 0 ∧ s.wr.accCnt = 0 ∧ s.wr.blk = [] ∧ s.snk.content = []

/-- The zero bits that bring `n` bits to a whole number of bytes (30_encoding.md R105). -/
def padding (n : Nat) : List Bool := List.replicate ((8 - n % 8) % 8) false

/-! ### Errors -/

/-- The state after the first error since reset, no other element changed (60_exceptions.md R252). -/
def State.failed (s : State) (op mop : BitVec 8) (cls : ErrClass) (sub : BitVec 4) (info : BitVec 32) : State :=
  { s with
    err := packErr ⟨cls, sub, info⟩ op mop
    rsp := some (packResponse false false (packErr ⟨cls, sub, info⟩ op mop)) }

/-- The command completed: its response has OK = 1 (30_encoding.md R93). -/
def State.completed (t : State) : Prop := ∃ eos data, t.rsp = some (packResponse true eos data)

/-- The command raised or was refused: its response has OK = 0, EOS = 0 and DATA = ERR (R93). -/
def State.gaveUp (t : State) : Prop := t.rsp = some (packResponse false false t.err)

/-! ### Code trees -/

/-- A strict binary tree with a symbol at each leaf (00_scope.md R11, 30_encoding.md R102). -/
inductive CodeTree where
  | leaf (y : Symbol)
  | node (l r : CodeTree)
  deriving DecidableEq, Repr

/-- The number of leaves, `L` of the rules. -/
def CodeTree.leaves : CodeTree → Nat
  | .leaf _ => 1
  | .node l r => l.leaves + r.leaves

/-- The number of nodes. -/
def CodeTree.size : CodeTree → Nat
  | .leaf _ => 1
  | .node l r => l.size + r.size + 1

/-- The depth of the deepest leaf. -/
def CodeTree.depth : CodeTree → Nat
  | .leaf _ => 0
  | .node l r => max l.depth r.depth + 1

/-- The pre-order serialisation (30_encoding.md R102, R103): `0 tree tree` or `1 symbol`. -/
def CodeTree.bits : CodeTree → List Bool
  | .leaf y => true :: toBits 9 y.val
  | .node l r => false :: (l.bits ++ r.bits)

/-- The leaves in pre-order with their codes (30_encoding.md R104): `0` for each left branch, `1` for each right. -/
def CodeTree.codes : CodeTree → List (Symbol × List Bool)
  | .leaf y => [(y, [])]
  | .node l r => (l.codes.map fun c => (c.1, false :: c.2)) ++ r.codes.map fun c => (c.1, true :: c.2)

/-- The table entry of a symbol: the code of its last leaf in pre-order, or no entry (45 R202). -/
def CodeTree.entry (t : CodeTree) (y : Symbol) : List Bool :=
  ((t.codes.reverse.find? fun c => c.1 = y).map Prod.snd).getD []

/-- The node memory holds the tree `t` at record `i`, and `ixs` are the records it takes, in pre-order. -/
def TreeAt (m : Vector Node 513) : CodeTree → NodeIx → List NodeIx → Prop
  | .leaf y, i, ixs => ixs = [i] ∧ ∃ w, m.get i = .leaf (some y) w
  | .node l r, i, ixs =>
    ∃ w a b as bs, m.get i = .internal w a b ∧ TreeAt m l a as ∧ TreeAt m r b bs ∧ ixs = i :: (as ++ bs)

/-- NODE holds the tree `t` as 10_state.md R36 says: the records 0..NODE_CNT-1 form one strict binary tree rooted at
ROOT in which each record occurs exactly once, the root is internal and every leaf has a symbol. -/
def State.holdsTree (s : State) (t : CodeTree) : Prop :=
  (∃ l r, t = .node l r) ∧
    ∃ ixs, TreeAt s.node t s.root ixs ∧ ixs.Nodup ∧ ∀ i : NodeIx, i ∈ ixs ↔ i.val < s.nodeCnt

/-- One node of a serialisation (30_encoding.md R102, R103). -/
inductive TreeToken where
  | internal
  | leaf (y : Symbol)
  deriving DecidableEq, Repr

/-- The bits of one node: `0`, or `1` and the symbol in 9 bits. -/
def TreeToken.bits : TreeToken → List Bool
  | .internal => [false]
  | .leaf y => true :: toBits 9 y.val

/-- How many subtrees a pre-order reader still waits for after the given nodes, `p` before them; none if the nodes go on
after the last of them. `subtreesLeft 1 ts = some p` with `p ≥ 1` says that `ts` is a tree cut short between two
nodes. -/
def subtreesLeft : Nat → List TreeToken → Option Nat
  | p, [] => some p
  | 0, _ :: _ => none
  | p + 1, .internal :: ts => subtreesLeft (p + 2) ts
  | p + 1, .leaf _ :: ts => subtreesLeft p ts

/-- What TSER writes for one record (44 R187); nothing for an UNSET leaf, at which it stops. -/
def recordBits : Node → List Bool
  | .internal _ _ _ => [false]
  | .leaf (some y) _ => true :: toBits 9 y.val
  | .leaf none _ => []

/-- Whether a record is a leaf whose SYM is UNSET (10_state.md R35). -/
def isUnsetLeaf : Node → Bool
  | .leaf none _ => true
  | .leaf (some _) _ => false
  | .internal _ _ _ => false

/-- The record with symbol 0 in place of UNSET. -/
def fillUnset : Node → Node
  | .leaf none w => .leaf (some 0) w
  | .leaf (some y) w => .leaf (some y) w
  | .internal w l r => .internal w l r

/-- The node memory holds at ROOT a tree of which some leaves may be UNSET; `ixs` are its records in pre-order, and the
traversal stack has room for it (10_state.md R39). -/
def State.holdsShape (s : State) (ixs : List NodeIx) : Prop :=
  ∃ t : CodeTree, TreeAt (s.node.map fillUnset) t s.root ixs ∧ t.depth < Config.traversalStack

/-- No entry of the table is a prefix of another (10_state.md R38). -/
def prefixCode (code : Vector (List Bool) 257) : Prop :=
  ∀ y z : Symbol, y ≠ z → code.get y ≠ [] → ¬ code.get y <+: code.get z

/-! ### What a command needs and what it can raise -/

/-- The bits of a word a format fixes (30_encoding.md R92). -/
def formatMask : Format → CmdWord
  | .z => 0xFFFFFFFFFFFF
  | .n => 0xFFC0FFFFFFFF
  | .nv => 0xFFC000000000

/-- The table of 60_exceptions.md R258, row by row: each precondition, in the order of checking, with the SEQUENCE
subcode of its failure. -/
def State.preconditions (s : State) : Instr → List (Bool × BitVec 4)
  | .rdopen => [(!s.rd.isOpen, 3)]
  | .rdbits _ | .rdrst | .fcount | .magicr | .tdes => [(s.rd.isOpen, 1)]
  | .wropen => [(!s.wr.isOpen, 4)]
  | .wrbits _ _ | .wrflush | .magicw => [(s.wr.isOpen, 2)]
  | .tbuild => [(s.freqValid, 5)]
  | .tser => [(s.wr.isOpen, 2), (s.treeValid, 6)]
  | .ctab => [(s.treeValid, 6)]
  | .encode => [(s.rd.isOpen, 1), (s.wr.isOpen, 2), (s.tableValid, 7)]
  | .decode => [(s.rd.isOpen, 1), (s.wr.isOpen, 2), (s.treeValid, 6)]
  | .compress | .decompress => [(s.rd.isOpen, 1), (s.wr.isOpen, 2)]
  | .getcsr _ | .rdcnt | .wrcnt | .rdclose | .wrclose => []

/-- One cause of an error: the primitive that raises it, its class and its subcode. -/
structure Cause where
  op : BitVec 8
  cls : ErrClass
  sub : BitVec 4
  deriving DecidableEq, Repr

/-- The table of 60_exceptions.md R247, by command; for a macro command with the primitives of 45 R206 and 46 R226. -/
def causes : Instr → List Cause
  | .getcsr _ => [⟨0x01, .illegal, 3⟩]
  | .rdopen => [⟨0x10, .resource, 1⟩, ⟨0x10, .sequence, 3⟩]
  | .rdbits _ => [⟨0x11, .argument, 1⟩, ⟨0x11, .resource, 2⟩, ⟨0x11, .sequence, 1⟩]
  | .rdrst => [⟨0x13, .resource, 3⟩, ⟨0x13, .sequence, 1⟩]
  | .rdcnt | .rdclose | .wrcnt => []
  | .wropen => [⟨0x20, .resource, 4⟩, ⟨0x20, .sequence, 4⟩]
  | .wrbits _ _ => [⟨0x21, .argument, 2⟩, ⟨0x21, .resource, 5⟩, ⟨0x21, .sequence, 2⟩]
  | .wrflush => [⟨0x23, .resource, 5⟩, ⟨0x23, .sequence, 2⟩]
  | .wrclose => [⟨0x24, .resource, 5⟩]
  | .fcount => [⟨0x30, .resource, 2⟩, ⟨0x30, .sequence, 1⟩, ⟨0x30, .capacity, 1⟩]
  | .tbuild => [⟨0x31, .sequence, 5⟩]
  | .magicw => [⟨0x32, .resource, 5⟩, ⟨0x32, .sequence, 2⟩]
  | .tser => [⟨0x33, .internal, 1⟩, ⟨0x33, .resource, 5⟩, ⟨0x33, .sequence, 2⟩, ⟨0x33, .sequence, 6⟩]
  | .ctab => [⟨0x34, .sequence, 6⟩]
  | .encode =>
    [⟨0x35, .internal, 2⟩, ⟨0x35, .resource, 2⟩, ⟨0x35, .resource, 5⟩, ⟨0x35, .sequence, 1⟩, ⟨0x35, .sequence, 2⟩,
      ⟨0x35, .sequence, 7⟩]
  | .magicr => [⟨0x40, .format, 1⟩, ⟨0x40, .format, 2⟩, ⟨0x40, .resource, 2⟩, ⟨0x40, .sequence, 1⟩]
  | .tdes =>
    [⟨0x41, .malformed, 1⟩, ⟨0x41, .malformed, 3⟩, ⟨0x41, .malformed, 4⟩, ⟨0x41, .malformed, 5⟩,
      ⟨0x41, .resource, 2⟩, ⟨0x41, .sequence, 1⟩]
  | .decode =>
    [⟨0x42, .malformed, 2⟩, ⟨0x42, .resource, 2⟩, ⟨0x42, .resource, 5⟩, ⟨0x42, .sequence, 1⟩, ⟨0x42, .sequence, 2⟩,
      ⟨0x42, .sequence, 6⟩]
  | .compress =>
    [⟨0x50, .sequence, 1⟩, ⟨0x50, .sequence, 2⟩, ⟨0x30, .resource, 2⟩, ⟨0x30, .capacity, 1⟩, ⟨0x13, .resource, 3⟩,
      ⟨0x32, .resource, 5⟩, ⟨0x33, .internal, 1⟩, ⟨0x33, .resource, 5⟩, ⟨0x35, .internal, 2⟩, ⟨0x35, .resource, 2⟩,
      ⟨0x35, .resource, 5⟩, ⟨0x24, .resource, 5⟩]
  | .decompress =>
    [⟨0x51, .sequence, 1⟩, ⟨0x51, .sequence, 2⟩, ⟨0x40, .format, 1⟩, ⟨0x40, .format, 2⟩, ⟨0x40, .resource, 2⟩,
      ⟨0x41, .malformed, 1⟩, ⟨0x41, .malformed, 3⟩, ⟨0x41, .malformed, 4⟩, ⟨0x41, .malformed, 5⟩,
      ⟨0x41, .resource, 2⟩, ⟨0x42, .malformed, 2⟩, ⟨0x42, .resource, 2⟩, ⟨0x42, .resource, 5⟩, ⟨0x24, .resource, 5⟩]

/-! ### Macro commands -/

/-- The primitives of COMPRESS, in order (45 R206). -/
def compressPrimitives : List Instr := [.fcount, .tbuild, .rdrst, .magicw, .tser, .ctab, .encode, .wrclose]

/-- The primitives of DECOMPRESS, in order (46 R226). -/
def decompressPrimitives : List Instr := [.magicr, .tdes, .decode, .wrclose]

/-- The commands, issued one after the other from `s`, all complete, and they leave `t`, their responses apart. -/
def Completes : List Instr → State → State → Prop
  | [], s, t => t = s
  | i :: is, s, t => ∃ u : State, u.rsp = s.rsp ∧ exec i s = .next (u.respond true false 0) ∧ Completes is u t

/-! ### The tree TBUILD makes -/

/-- The symbols with a positive count, in ascending order (43_canonical_tree_builder.md R172). -/
def counted (freq : Vector (BitVec 64) 257) : List Symbol :=
  (List.finRange 257).filter fun y => freq.get y != 0

/-- The leaves of the tree with their weights, in record order: those of R172, or the two of R173. -/
def expectedLeaves (freq : Vector (BitVec 64) 257) : List (Symbol × Nat) :=
  if (counted freq).length = 1 then [(0, 0), (terminator, 1)]
  else (counted freq).map fun y => (y, (freq.get y).toNat)

/-- Record `i` is live when record `k` is made: it is older, and no record from `first` (the first internal one) to
`k - 1` has it as a child (43 R172, the set Q). -/
def liveAt (m : Vector Node 513) (first k : Nat) (i : NodeIx) : Prop :=
  i.val < k ∧ ∀ j : NodeIx, first ≤ j.val → j.val < k →
    match m.get j with
    | .leaf _ _ => True
    | .internal _ l r => i ≠ l ∧ i ≠ r

/-- Record `i` precedes record `j` in the order of removal: (WEIGHT, index), lexicographic (43 R172, R174 (b)). -/
def precedes (m : Vector Node 513) (i j : NodeIx) : Prop :=
  (weightOf (m.get i)).toNat < (weightOf (m.get j)).toNat ∨
    ((weightOf (m.get i)).toNat = (weightOf (m.get j)).toNat ∧ i.val < j.val)

/-! ### Flags, port discipline, what reset leaves open -/

/-- Whether a transaction is a fetch. -/
def PortEvent.isFetch : PortEvent → Bool
  | .srcFetch _ _ => true
  | .srcOpen _ | .srcRewind _ | .srcRelease | .snkOpen _ | .snkPut _ _ | .snkRelease => false

/-- The subcode of RESOURCE for a transaction answered `Fail` (60_exceptions.md R247, R256); none for any other. -/
def PortEvent.failSub : PortEvent → Option (BitVec 4)
  | .srcOpen (.fail _) => some 1
  | .srcFetch _ (.fail _) => some 2
  | .srcRewind (.fail _) => some 3
  | .snkOpen (.fail _) => some 4
  | .snkPut _ (.fail _) => some 5
  | .srcOpen .ok | .srcFetch _ (.bytes _) | .srcFetch _ .endOfSource | .srcRewind .ok | .srcRelease | .snkOpen .ok
  | .snkPut _ .ok | .snkRelease => none

/-- Two states that differ at most in what 10_state.md R51 and R52 call unspecified: the accumulators above their
counts, and each codec table while its flag is 0. -/
structure State.SameMeaning (s t : State) : Prop where
  rd : t.rd = { s.rd with acc := t.rd.acc, accAbove := t.rd.accAbove }
  rdAcc : s.rd.accBits = t.rd.accBits
  wr : t.wr = { s.wr with acc := t.wr.acc, accAbove := t.wr.accAbove }
  wrAcc : s.wr.accBits = t.wr.accBits
  freqValid : s.freqValid = t.freqValid
  freq : s.freqValid = true → s.freq = t.freq
  treeValid : s.treeValid = t.treeValid
  tree : s.treeValid = true → s.nodeCnt = t.nodeCnt ∧ s.root = t.root ∧
    ∀ i : NodeIx, i.val < s.nodeCnt → s.node.get i = t.node.get i
  tableValid : s.tableValid = t.tableValid
  code : s.tableValid = true → s.code = t.code
  rest : t.err = s.err ∧ t.magic = s.magic ∧ t.src = s.src ∧ t.snk = s.snk ∧ t.log = s.log ∧ t.rsp = s.rsp ∧
    t.host = s.host

/-- `t` is `s` but for what the codec tables hold while their valid flags are 0 (10_state.md R52, 93 I7). -/
structure State.SameValidTables (s t : State) : Prop where
  rest : t = { s with freq := t.freq, node := t.node, nodeCnt := t.nodeCnt, root := t.root, code := t.code }
  freq : s.freqValid = true → t.freq = s.freq
  tree : s.treeValid = true → t.node = s.node ∧ t.nodeCnt = s.nodeCnt ∧ t.root = s.root
  code : s.tableValid = true → t.code = s.code

/-! ### The invariant -/

/-- What holds in every state reached from reset. -/
structure State.Inv (s : State) : Prop where
  /-- RD_ACC_CNT is 0..64 (10_state.md R27). -/
  rdAccCnt : s.rd.accCnt ≤ 64
  /-- RD_BLK_LEN is 0..8192 (R28). -/
  rdBlkLen : s.rd.blkLen ≤ Config.rdBlockBytes
  /-- RD_BLK_IDX is 0..RD_BLK_LEN (R28). -/
  rdBlkIdx : s.rd.blkIdx ≤ s.rd.blkLen
  /-- While RD_EOS is 1 nothing is left to deliver (R25). -/
  rdEos : s.rd.eos = true → s.rd.accCnt = 0 ∧ s.rd.blkIdx = s.rd.blkLen ∧ s.rd.srcEnd = true
  /-- WR_ACC_CNT never rests at 64 (R31). -/
  wrAccCnt : s.wr.accCnt ≤ 63
  /-- WR_BLK_LEN is a multiple of 8 and at most 8184 (R32). -/
  wrBlkLen : s.wr.blkLen % 8 = 0 ∧ s.wr.blkLen ≤ 8184
  /-- 0 ≤ SRC_POS ≤ |SRC| (20_memory.md R61). -/
  srcPos : s.src.pos ≤ s.src.content.length
  /-- While FREQ_VALID is 1, FREQ[256] = 1 (R34). -/
  freqTerm : s.freqValid = true → s.freq.get terminator = 1
  /-- NODE_CNT is 0..513 (R36). -/
  nodeCntLe : s.nodeCnt ≤ Config.nodeCap
  /-- While TREE_VALID is 1, NODE holds a tree (R36). -/
  tree : s.treeValid = true → ∃ t, s.holdsTree t
  /-- LEN is 0..256 (R37). -/
  codeLen : ∀ y : Symbol, (s.code.get y).length ≤ 256
  /-- While TABLE_VALID is 1 the entries form a prefix code (R38). -/
  tablePrefix : s.tableValid = true → prefixCode s.code
  /-- ERR[31:24] read 0, and an ERR without a code is 0 (R44). -/
  errReserved : s.err.extractLsb' 24 8 = 0 ∧ (errCode s.err = 0 → s.err = 0)
  /-- ERR.CODE is 0..8 (60_exceptions.md R246). -/
  errClass : (errCode s.err).toNat ≤ 8

end Sys2Proof.Machine
end

