-- ==== Sys2Proof/Certificates/Slice0/Obligations.lean ====
section
/-! DEFINITION. The statements for the provers. Each docstring names the rule of spec/ it formalises. -/

open Sys2Proof Sys2Proof.Machine

/-! ### Encoding -/

/-- 30 R96, R98: decoding the word of a well-formed command gives the command back, all operands included. -/
def Obligations.DecodeOfEncodeIsTheCommand : Prop :=
  ∀ i : Instr, i.wellFormed = true → decode (encode i) = .command i

/-- 30 R96: each word has at most one meaning; a word that decodes to a command is that command's encoding, and its
value is OP * 2^40 + N * 2^32 + VAL (R98). -/
def Obligations.EncodeOfDecodeIsTheWord : Prop :=
  ∀ (w : CmdWord) (i : Instr), decode w = .command i →
    i.wellFormed = true ∧ encode i = w ∧
      w.toNat = i.opcode.toNat * 2 ^ 40 + i.nOperand.toNat * 2 ^ 32 + i.valOperand.toNat

/-- 30 R96, R92, R95: a word is the command of a row of the opcode map exactly when it meets the row's mask and match
(for GETCSR also N at most 6), its operands are its fields N and VAL, and otherwise it is illegal with subcode 1, 2 or 3;
the map has 22 rows with distinct opcodes. -/
def Obligations.DecodingIsMaskAndMatch : Prop :=
  opcodeMap.length = 22 ∧ (opcodeMap.map OpRow.op).Nodup ∧
  ∀ w : CmdWord,
    (∀ r ∈ opcodeMap,
      ((∃ i, decode w = .command i ∧ i.opcode = r.op) ↔
        (w &&& formatMask r.format = r.op.setWidth 48 <<< 40 ∧ (r.op = 0x01 → (nField w).toNat ≤ 6)))) ∧
    (∀ i, decode w = .command i → i.nOperand = nField w ∧ i.valOperand = valField w) ∧
    (decode w = .illegal 1 ↔ ∀ r ∈ opcodeMap, r.op ≠ opField w) ∧
    (decode w = .illegal 2 ↔
      ∃ r ∈ opcodeMap, r.op = opField w ∧ w &&& formatMask r.format ≠ r.op.setWidth 48 <<< 40) ∧
    (decode w = .illegal 3 ↔ w &&& formatMask .n = 0x010000000000 ∧ 6 < (nField w).toNat) ∧
    ∀ sub, decode w = .illegal sub → sub = 1 ∨ sub = 2 ∨ sub = 3

/-- 30 R98 and the words the command rules give: one word of each family, and four illegal ones (R96, R97, 47 R236). -/
def Obligations.SampleWordsDecode : Prop :=
  decode 0x010100000000 = .command (.getcsr 1) ∧
  decode 0x110800000000 = .command (.rdbits 8) ∧
  decode 0x210900000100 = .command (.wrbits 9 0x100) ∧
  decode 0x300000000000 = .command .fcount ∧
  decode 0x310000000000 = .command .tbuild ∧
  decode 0x410000000000 = .command .tdes ∧
  decode 0x500000000000 = .command .compress ∧
  decode 0x420000000000 = .command .decode ∧
  decode 0x000000000000 = .illegal 1 ∧
  decode 0xFFFFFFFFFFFF = .illegal 1 ∧
  decode 0x100100000000 = .illegal 2 ∧
  decode 0x010700000000 = .illegal 3

/-! ### A step, and the common sequence of a command -/

/-- 60 R255: a step of a core whose host issues a word that decodes to a command runs that command. -/
def Obligations.StepRunsTheIssuedCommand : Prop :=
  ∀ (s : State) (w : CmdWord) (rest : List HostEvent) (i : Instr),
    s.host = .command w :: rest → decode w = .command i → step s = exec i { s with host := rest }

/-- 60 R272, R255, R257: with no input the core is idle and holds its state; a word that is no command, issued to a core
that is not halted, raises ILLEGAL with the subcode of its decoding, ERR.OP = ERR.MOP = w[47:40] and
INFO = w[47:16], and nothing else changes. -/
def Obligations.StepIdlesOrRaisesIllegal : Prop :=
  (∀ s : State, s.host = [] → step s = .next s) ∧
  ∀ (s : State) (w : CmdWord) (rest : List HostEvent) (sub : BitVec 4),
    s.host = .command w :: rest → decode w = .illegal sub → s.halted = false →
      step s = .next (({ s with host := rest } : State).failed (w.extractLsb' 40 8) (w.extractLsb' 40 8) .illegal sub
        (w.extractLsb' 16 32))

/-- 60 R254: while halted, GETCSR, RDCNT, WRCNT, RDCLOSE and WRCLOSE are executed as their rules say; every other word,
legal or illegal, is refused. -/
def Obligations.HaltedCoreRefusesAllButFive : Prop :=
  ∀ (s : State) (w : CmdWord), s.halted = true →
    (∀ i, decode w = .command i →
      (∀ n, i ≠ .getcsr n) → i ≠ .rdcnt → i ≠ .wrcnt → i ≠ .rdclose → i ≠ .wrclose →
        execute w s = .next { s with rsp := some (packResponse false false s.err) }) ∧
    (∀ sub, decode w = .illegal sub → execute w s = .next { s with rsp := some (packResponse false false s.err) }) ∧
    (∀ n, decode w = .command (.getcsr n) → execute w s = .next (s.respond true false (s.csr n))) ∧
    (decode w = .command .rdcnt → execute w s = .next (s.respond true false s.rd.bitsRead)) ∧
    (decode w = .command .wrcnt → execute w s = .next (s.respond true false s.wr.bitsWritten)) ∧
    (decode w = .command .rdclose → execute w s = .next ((rdClose s).respond true false 0)) ∧
    (decode w = .command .wrclose → execute w s = finishDone .wrclose (wrClose s))

/-- 60 R248: RDBITS and WRBITS with N outside 1..32 raise ARGUMENT, whether or not their unit is open, before the unit
is touched; no other command, and no other N, raises it. -/
def Obligations.OnlyBitCountsOutOfRangeRaiseArgument : Prop :=
  (∀ (s : State) (n : BitVec 6), s.halted = false → (n.toNat = 0 ∨ 32 < n.toNat) →
    exec (.rdbits n) s = .next (s.failed 0x11 0x11 .argument 1 (BitVec.ofNat 32 n.toNat))) ∧
  (∀ (s : State) (n : BitVec 6) (v : BitVec 32), s.halted = false → (n.toNat = 0 ∨ 32 < n.toNat) →
    exec (.wrbits n v) s = .next (s.failed 0x21 0x21 .argument 2 (BitVec.ofNat 32 n.toNat))) ∧
  ∀ (s t : State) (i : Instr), s.halted = false → exec i s = .next t → errCode t.err = 1 →
    ∃ n : BitVec 6, (n.toNat = 0 ∨ 32 < n.toNat) ∧ (i = .rdbits n ∨ ∃ v, i = .wrbits n v)

/-- 60 R258: the SEQUENCE preconditions of every command, checked in the table's order after the ARGUMENT check; the
first that fails is raised and nothing else changes; where all hold, or there is none, SEQUENCE is not raised. -/
def Obligations.FirstFailingPreconditionRaisesSequence : Prop :=
  ∀ (s : State) (i : Instr), s.halted = false →
    (∀ n : BitVec 6, (i = .rdbits n ∨ ∃ v, i = .wrbits n v) → 1 ≤ n.toNat ∧ n.toNat ≤ 32) →
      (∀ held sub, (s.preconditions i).find? (fun p => !p.1) = some (held, sub) →
        exec i s = .next (s.failed i.opcode i.opcode .sequence sub 0)) ∧
      ((∀ p ∈ s.preconditions i, p.1 = true) → ∀ t, exec i s = .next t → errCode t.err ≠ 6)

/-- 60 R247, R252, 10 R44, 45 R206, 46 R226: what a command that was not refused leaves in ERR is one of the causes R247
lists for it, with the primitive's opcode in OP, the command's in MOP and bits 31..24 zero; where the fields of ERR lie. -/
def Obligations.ErrRecordsAListedCause : Prop :=
  (∀ (e : Raise) (op mop : BitVec 8),
    (packErr e op mop).toNat =
      e.info.toNat * 2 ^ 32 + mop.toNat * 2 ^ 16 + op.toNat * 2 ^ 8 + e.sub.toNat * 2 ^ 4 + e.cls.code.toNat) ∧
  ∀ (s t : State) (i : Instr), s.halted = false → exec i s = .next t → errCode t.err ≠ 0 →
    ∃ c ∈ causes i, ∃ info, t.err = packErr ⟨c.cls, c.sub, info⟩ c.op i.opcode

/-- 60 R252, R253, 10 R44: once ERR holds an error, no step but a reset changes it, so the core stays halted. -/
def Obligations.OnlyResetLeavesTheHaltedState : Prop :=
  ∀ s t : State, s.halted = true → step s = .next t →
    (∀ plan rest, s.host ≠ .reset plan :: rest) → (∀ w k plan rest, s.host ≠ .commandCutByReset w k plan :: rest) →
      t.err = s.err ∧ t.halted = true

/-- 30 R93, 60 R252: every command ends with a response: OK = 1 and ERR as before, or OK = 0, EOS = 0, DATA = ERR and
the core halted. EOS is 1 only for RDBITS, then with DATA = 0; the commands that answer nothing have DATA = 0. -/
def Obligations.EveryCommandAnswers : Prop :=
  (∀ (ok eos : Bool) (data : BitVec 64),
    (packResponse ok eos data).toNat = ok.toNat * 2 ^ 65 + eos.toNat * 2 ^ 64 + data.toNat) ∧
  ∀ (s t : State) (i : Instr), exec i s = .next t →
    (∃ eos data, t.rsp = some (packResponse true eos data) ∧ t.err = s.err ∧
      (eos = true → data = 0 ∧ ∃ n, i = .rdbits n) ∧
      ((∀ n, i ≠ .rdbits n) → (∀ n, i ≠ .getcsr n) → i ≠ .rdcnt → i ≠ .wrcnt → data = 0)) ∨
    (t.gaveUp ∧ t.halted = true)

/-! ### System -/

/-- 47 R236, 10 R42, R44, R45, R46, R47, R48: GETCSR of 0..6 answers a register and changes nothing, in every state,
halted ones included; what CSR 0, 2, 3, 4, 5 and 6 read. -/
def Obligations.GetcsrAnswersTheRegister : Prop :=
  ∀ s : State,
    (∀ n : BitVec 6, n.toNat ≤ 6 → ∃ v, exec (.getcsr n) s = .next { s with rsp := some (packResponse true false v) }) ∧
    exec (.getcsr 0) s = .next (s.respond true false 0x4855464600000007) ∧
    exec (.getcsr 2) s = .next (s.respond true false s.err) ∧
    exec (.getcsr 3) s = .next (s.respond true false s.rd.bitsRead) ∧
    exec (.getcsr 4) s = .next (s.respond true false s.wr.bitsWritten) ∧
    (s.nodeCnt ≤ 513 → exec (.getcsr 5) s =
      .next (s.respond true false (if s.treeValid then BitVec.ofNat 64 (s.root.val * 2 ^ 16 + s.nodeCnt) else 0))) ∧
    exec (.getcsr 6) s = .next (s.respond true false (BitVec.ofNat 64 s.magic.toNat))

/-- 10 R43: bit by bit what CSR 1, STATUS, reads. -/
def Obligations.StatusBits : Prop :=
  ∀ s : State, ∃ v : BitVec 64, exec (.getcsr 1) s = .next (s.respond true false v) ∧
    v.getLsbD 0 = s.rd.isOpen ∧ v.getLsbD 1 = s.rd.eos ∧ v.getLsbD 2 = s.wr.isOpen ∧
    v.getLsbD 3 = s.freqValid ∧ v.getLsbD 4 = s.treeValid ∧ v.getLsbD 5 = s.tableValid ∧
    (v.getLsbD 6 = true ↔ s.err.extractLsb' 0 4 ≠ 0) ∧ ∀ k, 7 ≤ k → v.getLsbD k = false

/-! ### Unit U1 -/

/-- 40 R122, 10 R49: RDOPEN on a closed reader. A source that answers Ok leaves a fresh reader, all of SRC undelivered;
one that answers Fail raises RESOURCE sub 1 and leaves the reader as it was. -/
def Obligations.RdopenOpensAFreshReader : Prop :=
  ∀ s : State, s.halted = false → s.rd.isOpen = false →
    (s.srcFails = false → ∃ t : State, exec .rdopen s = .next (t.respond true false 0) ∧ t.freshReader ∧
      t.undelivered = bytesBits s.src.content ∧
      t = { s with rd := t.rd, src := { s.src with pos := 0, txs := s.src.txs + 1 },
                   log := s.log ++ [.srcOpen .ok] }) ∧
    (s.srcFails = true → ∃ (t : State) (took : Bool), exec .rdopen s = .next (t.failed 0x10 0x10 .resource 1 0) ∧
      t = { s with src := { s.src with pos := t.src.pos, txs := s.src.txs + 1 },
                   log := s.log ++ [.srcOpen (.fail took)] })

/-- 40 R127, R122, 20 R74: RDRST restores the state after RDOPEN, RD_OPEN staying 1; a source that answers Fail raises
RESOURCE sub 3 and leaves the reader as it was. -/
def Obligations.RdrstRewindsToAFreshReader : Prop :=
  ∀ s : State, s.halted = false → s.rd.isOpen = true →
    (s.srcFails = false → ∃ t : State, exec .rdrst s = .next (t.respond true false 0) ∧ t.freshReader ∧
      t.undelivered = bytesBits s.src.content ∧
      t = { s with rd := t.rd, src := { s.src with pos := 0, txs := s.src.txs + 1 },
                   log := s.log ++ [.srcRewind .ok] }) ∧
    (s.srcFails = true → ∃ (t : State) (took : Bool), exec .rdrst s = .next (t.failed 0x13 0x13 .resource 3 0) ∧
      t = { s with src := { s.src with pos := t.src.pos, txs := s.src.txs + 1 },
                   log := s.log ++ [.srcRewind (.fail took)] })

/-- 40 R123, R124, 10 R49, R24: RDBITS n on a source that does not fail. With n bits left it answers the first n of them
as an unsigned integer and they are consumed; with fewer it answers EOS, the rest is discarded and RD_EOS becomes 1.
Only the reader, the fetch position, the log and the response change. -/
def Obligations.RdbitsDeliversTheNextBitsOrEos : Prop :=
  ∀ (s : State) (n : BitVec 6), s.halted = false → s.rd.isOpen = true → s.srcSound → s.readerOk →
    1 ≤ n.toNat → n.toNat ≤ 32 →
      ∃ t : State, exec (.rdbits n) s = .next t ∧ t.rd.isOpen = true ∧ t.readerOk ∧
        t = { s with rd := t.rd, src := { s.src with pos := t.src.pos, txs := t.src.txs }, log := t.log,
                     rsp := t.rsp } ∧
        (n.toNat ≤ s.undelivered.length →
          t.rsp = some (packResponse true false (BitVec.ofNat 64 (ofBits (s.undelivered.take n.toNat)))) ∧
          t.undelivered = s.undelivered.drop n.toNat ∧
          t.rd.bitsRead = s.rd.bitsRead + BitVec.ofNat 64 n.toNat ∧ t.rd.eos = s.rd.eos) ∧
        (s.undelivered.length < n.toNat →
          t.rsp = some (packResponse true true 0) ∧ t.undelivered = [] ∧
          t.rd.bitsRead = s.rd.bitsRead ∧ t.rd.eos = true)

/-- 40 R124, R125, R126, 60 R256: an RDBITS that needs a fetch which the source answers Fail raises RESOURCE sub 2. The
bits it has taken so far, from RD_ACC, from the rest of RD_BLK and from a first fetch of the last bytes of SRC, are lost:
RD_ACC_CNT is 0 and RD_BLK used up; BITS_READ and RD_EOS do not change. Where the failed fetch leaves the source, and so
what is left of the stream, is free (93 I13; assumption log 18). -/
def Obligations.RdbitsRaisesResourceOnAFailedFetch : Prop :=
  ∀ (s : State) (n : BitVec 6), s.halted = false → s.rd.isOpen = true → s.readerOk → 1 ≤ n.toNat → n.toNat ≤ 32 →
    s.rd.srcEnd = false →
    (s.rd.accCnt + 8 * (s.rd.blk.length - s.rd.blkIdx) < n.toNat → s.srcFails = true →
      ∃ (t : State) (p : Nat), exec (.rdbits n) s = .next (t.failed 0x11 0x11 .resource 2 0) ∧
        t.rd = { s.rd with acc := t.rd.acc, accAbove := t.rd.accAbove, accCnt := 0, blkIdx := s.rd.blk.length } ∧
        t = { s with rd := t.rd, src := { s.src with pos := t.src.pos, txs := s.src.txs + 1 },
                     log := s.log ++ [.srcFetch 8192 (.fail p)] }) ∧
    (∀ b : List Byte, b = s.src.content.drop s.src.pos → b ≠ [] →
      s.rd.accCnt + 8 * (s.rd.blk.length - s.rd.blkIdx) + 8 * b.length < n.toNat → s.srcFails = false →
      (s.transact (.srcFetch 8192 (.bytes b))).srcFails = true →
        ∃ (t : State) (p : Nat), exec (.rdbits n) s = .next (t.failed 0x11 0x11 .resource 2 0) ∧
          t.rd = { s.rd with acc := t.rd.acc, accAbove := t.rd.accAbove, accCnt := 0, blk := b, blkIdx := b.length } ∧
          t = { s with rd := t.rd, src := { s.src with pos := t.src.pos, txs := s.src.txs + 2 },
                       log := s.log ++ [.srcFetch 8192 (.bytes b), .srcFetch 8192 (.fail p)] })

/-- 40 R128, 41 R148: RDCNT answers BITS_READ and WRCNT BITS_WRITTEN, in every state, and neither changes anything. -/
def Obligations.CounterReadsAnswerTheCounters : Prop :=
  ∀ s : State,
    exec .rdcnt s = .next { s with rsp := some (packResponse true false s.rd.bitsRead) } ∧
    exec .wrcnt s = .next { s with rsp := some (packResponse true false s.wr.bitsWritten) }

/-- 40 R129: RDCLOSE, halted or not: an open reader releases the source and RD_OPEN becomes 0, nothing else of it
changing; a closed one stays as it is. That the source position stays is the model's choice (assumption log 19). -/
def Obligations.RdcloseReleasesTheSource : Prop :=
  ∀ s : State,
    (s.rd.isOpen = true → exec .rdclose s =
      .next (({ s with rd := { s.rd with isOpen := false }, src := { s.src with txs := s.src.txs + 1 },
                       log := s.log ++ [.srcRelease] } : State).respond true false 0)) ∧
    (s.rd.isOpen = false → exec .rdclose s = .next (s.respond true false 0))

/-- 10 R26, 40 R130 (d): once the source has answered End it is not fetched again by a command that does not rewind or
reopen it, and RD_SRC_END stays 1. -/
def Obligations.NoFetchAfterEnd : Prop :=
  ∀ (s t : State) (i : Instr), exec i s = .next t → s.rd.srcEnd = true → i ≠ .rdopen → i ≠ .rdrst → i ≠ .compress →
    t.rd.srcEnd = true ∧ ∃ es, t.log = s.log ++ es ∧ ∀ e ∈ es, e.isFetch = false

/-! ### Unit U2 -/

/-- 41 R142: WROPEN on a closed writer. A sink that answers Ok leaves a fresh writer and an empty sink; one that answers
Fail raises RESOURCE sub 4 and leaves the writer as it was. -/
def Obligations.WropenOpensAFreshWriter : Prop :=
  ∀ s : State, s.halted = false → s.wr.isOpen = false →
    (s.snkFails = false → ∃ t : State, exec .wropen s = .next (t.respond true false 0) ∧ t.freshWriter ∧ t.written = [] ∧
      t = { s with wr := t.wr, snk := { s.snk with content := [], txs := s.snk.txs + 1 },
                   log := s.log ++ [.snkOpen .ok] }) ∧
    (s.snkFails = true → ∃ (t : State) (took : Bool), exec .wropen s = .next (t.failed 0x20 0x20 .resource 4 0) ∧
      t = { s with snk := { s.snk with content := t.snk.content, txs := s.snk.txs + 1 },
                   log := s.log ++ [.snkOpen (.fail took)] })

/-- 41 R143, R144, 10 R50, R29: WRBITS n on a sink that does not fail appends the low n bits of the value, most
significant first, to what has been written. Only the writer, the sink, the log and the response change, and the
writer's own invariants hold again. -/
def Obligations.WrbitsAppendsTheLowBits : Prop :=
  ∀ (s : State) (n : BitVec 6) (v : BitVec 32), s.halted = false → s.wr.isOpen = true → s.snkSound → s.writerOk →
    1 ≤ n.toNat → n.toNat ≤ 32 →
      ∃ t : State, exec (.wrbits n v) s = .next (t.respond true false 0) ∧
        t.written = s.written ++ toBits n.toNat (v.toNat % 2 ^ n.toNat) ∧
        t.wr.bitsWritten = s.wr.bitsWritten + BitVec.ofNat 64 n.toNat ∧ t.wr.isOpen = true ∧ t.writerOk ∧
        t = { s with wr := t.wr, snk := { s.snk with content := t.snk.content, txs := t.snk.txs }, log := t.log }

/-- 41 R144, R145, 20 R63: the WRBITS that completes the 8192nd byte of the block puts it; a sink that answers Fail
raises RESOURCE sub 5, the block is lost, the rest of the writer is as after the write, and the sink keeps its old
content as a prefix. -/
def Obligations.WrbitsRaisesResourceOnAFailedPut : Prop :=
  ∀ (s : State) (n : BitVec 6) (v : BitVec 32), s.halted = false → s.wr.isOpen = true → s.writerOk →
    1 ≤ n.toNat → n.toNat ≤ 32 → 64 ≤ s.wr.accCnt + n.toNat → s.wr.blk.length = 8184 → s.snkFails = true →
      ∃ t : State, exec (.wrbits n v) s = .next (t.failed 0x21 0x21 .resource 5 0) ∧
        t.wr.isOpen = true ∧ t.wr.blk = [] ∧ t.wr.accCnt = s.wr.accCnt + n.toNat - 64 ∧
        t.wr.accBits = toBits (s.wr.accCnt + n.toNat - 64) v.toNat ∧
        t.wr.bitsWritten = s.wr.bitsWritten + BitVec.ofNat 64 n.toNat ∧ s.snk.content <+: t.snk.content ∧
        t = { s with wr := t.wr, snk := { s.snk with content := t.snk.content, txs := s.snk.txs + 1 }, log := t.log }

/-- 41 R146, R147: WRFLUSH on a sink that does not fail puts everything written in the sink, with 0 to 7 zero bits to
the next byte boundary, and empties the writer; BITS_WRITTEN does not change. With nothing pending it makes no
transaction. -/
def Obligations.WrflushPadsAndPutsEverything : Prop :=
  ∀ s : State, s.halted = false → s.wr.isOpen = true → s.snkSound → s.writerOk →
    ∃ t : State, exec .wrflush s = .next (t.respond true false 0) ∧
      bytesBits t.snk.content = s.written ++ padding s.written.length ∧
      t.wr.accCnt = 0 ∧ t.wr.blk = [] ∧ t.wr.bitsWritten = s.wr.bitsWritten ∧ t.wr.isOpen = true ∧
      t = { s with wr := t.wr, snk := { s.snk with content := t.snk.content, txs := t.snk.txs }, log := t.log } ∧
      (s.wr.accCnt = 0 → s.wr.blk = [] → t.log = s.log ∧ t.snk = s.snk)

/-- 41 R149: WRCLOSE, halted or not. An open writer on a sink that does not fail is flushed, the sink is released last
and WR_OPEN becomes 0; a closed one stays as it is. -/
def Obligations.WrcloseFlushesAndReleases : Prop :=
  ∀ s : State,
    (s.wr.isOpen = true → s.snkSound → s.writerOk →
      ∃ (t : State) (es : List PortEvent), exec .wrclose s = .next (t.respond true false 0) ∧
        bytesBits t.snk.content = s.written ++ padding s.written.length ∧
        t.wr.accCnt = 0 ∧ t.wr.blk = [] ∧ t.wr.bitsWritten = s.wr.bitsWritten ∧ t.wr.isOpen = false ∧
        t.log = s.log ++ es ++ [.snkRelease] ∧
        t = { s with wr := t.wr, snk := { s.snk with content := t.snk.content, txs := t.snk.txs }, log := t.log }) ∧
    (s.wr.isOpen = false → exec .wrclose s = .next (s.respond true false 0))

/-- 41 R149, 60 R252: a WRCLOSE whose flush raises still releases the sink and clears WR_OPEN; it records RESOURCE sub 5
unless ERR holds an earlier error, which then stays. -/
def Obligations.WrcloseReleasesEvenWhenTheFlushFails : Prop :=
  ∀ s : State, s.wr.isOpen = true → (0 < s.wr.accCnt ∨ s.wr.blk ≠ []) → s.snkFails = true →
    ∃ (t : State) (put left : List Byte), exec .wrclose s = .next t ∧ t.gaveUp ∧ t.wr.isOpen = false ∧ t.wr.accCnt = 0 ∧ t.wr.blk = [] ∧
      t.wr.bitsWritten = s.wr.bitsWritten ∧
      t.log = s.log ++ [.snkPut put (.fail left), .snkRelease] ∧
      t.err = (if s.halted then s.err else packErr ⟨.resource, 5, 0⟩ 0x24 0x24) ∧
      t = { s with wr := t.wr, snk := { s.snk with content := s.snk.content ++ left, txs := s.snk.txs + 2 },
                   log := t.log, err := t.err, rsp := t.rsp }

/-- 20 R73: what reaches the sink outside a flush, a close and an open comes in whole blocks of 8192 bytes. -/
def Obligations.SinkGrowsByWholeBlocksOutsideAFlush : Prop :=
  ∀ (s t : State) (i : Instr), s.snkSound → exec i s = .next t →
    i ≠ .wropen → i ≠ .wrflush → i ≠ .wrclose → i ≠ .compress → i ≠ .decompress →
      ∃ b, t.snk.content = s.snk.content ++ b ∧ b.length % 8192 = 0

/-! ### Unit U3 -/

/-- 42 R161, R162, R163, 10 R34: FCOUNT over a stream, of any length, in which each value occurs fewer than 2^64 times
counts the 8-bit groups from the cursor to the end, FREQ[256] becomes 1, FREQ_VALID becomes 1, TREE_VALID and
TABLE_VALID 0, RD_EOS 1; nothing but FREQ, the three flags, the reader, the fetch position, the
log and the response changes. That NODE, NODE_CNT, ROOT and CODE are as before, though their flags are
cleared, is the model's choice (assumption log 17). -/
def Obligations.FcountCountsEveryByte : Prop :=
  ∀ s : State, s.halted = false → s.rd.isOpen = true → s.srcSound → s.readerOk →
    (∀ v, (octets s.undelivered).count v < 2 ^ 64) →
      ∃ t : State, exec .fcount s = .next (t.respond true false 0) ∧
        (∀ y : Symbol, y ≠ 256 → (t.freqOf y).toNat = (octets s.undelivered).count y.val) ∧
        t.freqOf 256 = 1 ∧ t.freqValid = true ∧ t.treeValid = false ∧ t.tableValid = false ∧
        t.rd.eos = true ∧ t.undelivered = [] ∧ t.rd.isOpen = true ∧
        t.rd.bitsRead = s.rd.bitsRead + BitVec.ofNat 64 (8 * (octets s.undelivered).length) ∧
        t = { s with rd := t.rd, src := { s.src with pos := t.src.pos, txs := t.src.txs }, log := t.log,
                     freq := t.freq, freqValid := true, treeValid := false, tableValid := false }

/-- 42 R162: FCOUNT over 2^64 or more groups of one value raises CAPACITY sub 1 at the first group whose counter already
holds 2^64 - 1, those before having been counted, and stops there: that group is consumed, what follows it is left, and
the three valid flags are 0. What FREQ holds then is free (93 I7; assumption log 17). -/
def Obligations.FcountRaisesCapacityBeforeACounterWraps : Prop :=
  ∀ (s : State), s.halted = false → s.rd.isOpen = true → s.srcSound → s.readerOk →
    (∃ v, 2 ^ 64 ≤ (octets s.undelivered).count v) →
      ∃ (t : State) (y : Symbol) (before rest : List Nat),
        exec .fcount s = .next (t.failed 0x30 0x30 .capacity 1 (BitVec.ofNat 32 y.val)) ∧
        octets s.undelivered = before ++ y.val :: rest ∧ before.count y.val = 2 ^ 64 - 1 ∧
        (∀ v, before.count v < 2 ^ 64) ∧ t.undelivered = s.undelivered.drop (8 * (before.length + 1)) ∧
        t.rd.bitsRead = s.rd.bitsRead + BitVec.ofNat 64 (8 * (before.length + 1)) ∧ t.rd.eos = s.rd.eos ∧
        t.freqValid = false ∧ t.treeValid = false ∧ t.tableValid = false

/-! ### Unit U4 -/

/-- 43 R171, R172, R173, R174: TBUILD. The first records are the leaves, in ascending symbol order with their counts, or
the two of the empty-input tree; each further record joins the two live records of least (WEIGHT, index), the first
removed on the left; ROOT is the last; records beyond NODE_CNT, FREQ and FREQ_VALID are unchanged. That CODE is as before, though TABLE_VALID is cleared, is the model's choice
(assumption log 17). -/
def Obligations.TbuildJoinsTheTwoLightestRecords : Prop :=
  ∀ s : State, s.halted = false → s.freqValid = true → s.freqOf terminator = 1 →
    ∃ t : State, exec .tbuild s = .next (t.respond true false 0) ∧
      t.nodeCnt = 2 * (expectedLeaves s.freq).length - 1 ∧
      t.root.val = 2 * (expectedLeaves s.freq).length - 2 ∧
      t = { s with node := t.node, nodeCnt := t.nodeCnt, root := t.root, treeValid := true, tableValid := false } ∧
      (∀ (k : Nat) (y : Symbol) (c : Nat), (expectedLeaves s.freq)[k]? = some (y, c) →
        t.nodeAt (nodeIxOf k) = .leaf (some y) (BitVec.ofNat 73 c)) ∧
      (∀ k : NodeIx, (expectedLeaves s.freq).length ≤ k.val → k.val < t.nodeCnt →
        ∃ a b, t.nodeAt k = .internal (weightOf (t.nodeAt a) + weightOf (t.nodeAt b)) a b ∧ a ≠ b ∧
          liveAt t.node (expectedLeaves s.freq).length k.val a ∧
          liveAt t.node (expectedLeaves s.freq).length k.val b ∧
          (∀ c, liveAt t.node (expectedLeaves s.freq).length k.val c → c ≠ a → precedes t.node a c) ∧
          (∀ c, liveAt t.node (expectedLeaves s.freq).length k.val c → c ≠ a → c ≠ b → precedes t.node b c)) ∧
      ∀ k : NodeIx, t.nodeCnt ≤ k.val → t.nodeAt k = s.nodeAt k

/-- 43 R175, 10 R36: after TBUILD the node memory holds a strict binary tree with one leaf for each counted symbol (two
for the empty input), none UNSET, and the root's weight is the sum of the counts. -/
def Obligations.TbuildLeavesACodeTree : Prop :=
  ∀ s : State, s.halted = false → s.freqValid = true → s.freqOf terminator = 1 →
    ∃ (t : State) (tr : CodeTree), exec .tbuild s = .next (t.respond true false 0) ∧ t.holdsTree tr ∧
      (tr.codes.map Prod.fst).Perm ((expectedLeaves s.freq).map Prod.fst) ∧
      t.nodeCnt = 2 * tr.leaves - 1 ∧ 3 ≤ t.nodeCnt ∧ t.nodeCnt ≤ 513 ∧
      (weightOf (t.nodeAt t.root)).toNat = ((List.finRange 257).map fun y => (s.freqOf y).toNat).sum

/-! ### Unit U5 -/

/-- 44 R186, R187, R188, 30 R102: TSER, with a tree of L leaves in the node memory and a sink that does not fail, appends
its pre-order serialisation, 11 * L - 1 bits; only the writer, the sink, the log and the response change. -/
def Obligations.TserWritesTheTree : Prop :=
  ∀ (s : State) (tr : CodeTree), s.halted = false → s.wr.isOpen = true → s.treeValid = true → s.holdsTree tr →
    s.snkSound → s.writerOk →
      ∃ t : State, exec .tser s = .next (t.respond true false 0) ∧ t.written = s.written ++ tr.bits ∧
        tr.bits.length = 11 * tr.leaves - 1 ∧
        t.wr.bitsWritten = s.wr.bitsWritten + BitVec.ofNat 64 (11 * tr.leaves - 1) ∧ t.wr.isOpen = true ∧
        t.writerOk ∧
        t = { s with wr := t.wr, snk := { s.snk with content := t.snk.content, txs := t.snk.txs }, log := t.log }

/-- 44 R187: TSER raises INTERNAL sub 1 with the node index at the first leaf in pre-order whose SYM is UNSET, wherever it
is, before any bit of that leaf is written: at the root with nothing written, whatever the sink answers; elsewhere, on a
sink that does not fail, with the bits of the records before it written. Only the writer, the sink, the log, ERR and the
response change. -/
def Obligations.TserRaisesInternalAtAnUnsetLeaf : Prop :=
  ∀ s : State, s.halted = false → s.wr.isOpen = true → s.treeValid = true →
    (∀ c, s.nodeAt s.root = .leaf none c →
      exec .tser s = .next (s.failed 0x33 0x33 .internal 1 (BitVec.ofNat 32 s.root.val))) ∧
    (∀ (before after : List NodeIx) (j : NodeIx), s.holdsShape (before ++ j :: after) →
      (∀ k ∈ before, isUnsetLeaf (s.nodeAt k) = false) → isUnsetLeaf (s.nodeAt j) = true → s.snkSound → s.writerOk →
        ∃ t : State, exec .tser s = .next (t.failed 0x33 0x33 .internal 1 (BitVec.ofNat 32 j.val)) ∧
          t.written = s.written ++ (before.flatMap fun k => recordBits (s.nodeAt k)) ∧
          t.wr.bitsWritten =
            s.wr.bitsWritten + BitVec.ofNat 64 (before.flatMap fun k => recordBits (s.nodeAt k)).length ∧
          t.wr.isOpen = true ∧
          t = { s with wr := t.wr, snk := { s.snk with content := t.snk.content, txs := t.snk.txs }, log := t.log })

/-- 44 R189, R190, R191: TDES on a stream that begins with the serialisation of a tree of at most 513 nodes with an
internal root builds that tree, records in pre-order, and consumes exactly its bits. Only NODE, NODE_CNT, ROOT, the two
flags, the reader, the fetch position, the log and the response change. That CODE is as before, though TABLE_VALID is cleared, is the model's
choice (assumption log 17). -/
def Obligations.TdesBuildsTheSerializedTree : Prop :=
  ∀ (s : State) (l r : CodeTree) (rest : List Bool), s.halted = false → s.rd.isOpen = true → s.srcSound →
    s.readerOk → (CodeTree.node l r).size ≤ 513 → s.undelivered = (CodeTree.node l r).bits ++ rest →
      ∃ t : State, exec .tdes s = .next (t.respond true false 0) ∧ t.holdsTree (.node l r) ∧ t.treeValid = true ∧
        t.tableValid = false ∧ t.root = 0 ∧ t.nodeCnt = (CodeTree.node l r).size ∧ t.undelivered = rest ∧
        t.rd.bitsRead = s.rd.bitsRead + BitVec.ofNat 64 (11 * (CodeTree.node l r).leaves - 1) ∧
        t.rd.isOpen = true ∧ t.readerOk ∧ t.rd.eos = s.rd.eos ∧
        (∀ k : NodeIx, k.val < t.nodeCnt → weightOf (t.nodeAt k) = 0) ∧
        (∀ (k a b : NodeIx) (w : Weight), k.val < t.nodeCnt → t.nodeAt k = .internal w a b → a.val = k.val + 1) ∧
        (∀ k : NodeIx, t.nodeCnt ≤ k.val → t.nodeAt k = s.nodeAt k) ∧
        t = { s with rd := t.rd, src := { s.src with pos := t.src.pos, txs := t.src.txs }, log := t.log,
                     node := t.node, nodeCnt := t.nodeCnt, root := t.root, treeValid := true, tableValid := false }

/-- 44 R189, 60 R259: a stream that ends inside a tree is MALFORMED sub 1: after any nodes of a tree not yet complete, at
most 513 of them, and then nothing more, or a leaf's flag and fewer than 9 bits of its symbol, whatever their value.
TREE_VALID and TABLE_VALID are 0 after it, and what NODE and NODE_CNT hold then is free (93 I7; assumption log 17). -/
def Obligations.TdesRejectsACutTree : Prop :=
  ∀ (s : State) (ts : List TreeToken) (p : Nat) (cut : List Bool), s.halted = false → s.rd.isOpen = true →
    s.srcSound → s.readerOk → subtreesLeft 1 ts = some p → 1 ≤ p → ts.length ≤ 513 →
    (cut = [] ∨ ∃ part : List Bool, cut = true :: part ∧ part.length < 9) →
    s.undelivered = ts.flatMap TreeToken.bits ++ cut →
      ∃ t : State, exec .tdes s = .next (t.failed 0x41 0x41 .malformed 1 0) ∧
        t.treeValid = false ∧ t.tableValid = false ∧ t.rd.eos = true ∧ t.undelivered = []

/-- 44 R189, 60 R259, 30 R108: after any nodes of a tree not yet complete, at most 513 of them, TDES raises MALFORMED sub
3 with the value at a symbol field above 256, also when all 513 records are in use; sub 4 at a 514th node, internal or
leaf. On a tree of one leaf it raises sub 5 with the symbol. The bits up to there are consumed, TREE_VALID and
TABLE_VALID are 0 after each, and what NODE and NODE_CNT hold then is free (93 I7; assumption log 17). -/
def Obligations.TdesRejectsReservedValues : Prop :=
  ∀ (s : State) (rest : List Bool), s.halted = false → s.rd.isOpen = true → s.srcSound → s.readerOk →
    (∀ (ts : List TreeToken) (p : Nat), subtreesLeft 1 ts = some p → 1 ≤ p → ts.length ≤ 513 →
      (∀ v, 256 < v → v < 512 → s.undelivered = ts.flatMap TreeToken.bits ++ true :: toBits 9 v ++ rest →
        ∃ t : State, exec .tdes s = .next (t.failed 0x41 0x41 .malformed 3 (BitVec.ofNat 32 v)) ∧
          t.treeValid = false ∧ t.tableValid = false ∧ t.undelivered = rest) ∧
      (∀ v, v ≤ 256 → ts.length = 513 → s.undelivered = ts.flatMap TreeToken.bits ++ true :: toBits 9 v ++ rest →
        ∃ t : State, exec .tdes s = .next (t.failed 0x41 0x41 .malformed 4 0) ∧
          t.treeValid = false ∧ t.tableValid = false ∧ t.undelivered = rest) ∧
      (ts.length = 513 → s.undelivered = ts.flatMap TreeToken.bits ++ false :: rest →
        ∃ t : State, exec .tdes s = .next (t.failed 0x41 0x41 .malformed 4 0) ∧
          t.treeValid = false ∧ t.tableValid = false ∧ t.undelivered = rest)) ∧
    (∀ v, v ≤ 256 → s.undelivered = true :: toBits 9 v ++ rest →
      ∃ t : State, exec .tdes s = .next (t.failed 0x41 0x41 .malformed 5 (BitVec.ofNat 32 v)) ∧
        t.treeValid = false ∧ t.tableValid = false ∧ t.undelivered = rest)

/-! ### Unit U6 -/

/-- 45 R201, 30 R101: MAGICW appends the 32 bits of MAGIC, most significant first. -/
def Obligations.MagicwWritesTheMagicField : Prop :=
  ∀ s : State, s.halted = false → s.wr.isOpen = true → s.snkSound → s.writerOk →
    ∃ t : State, exec .magicw s = .next (t.respond true false 0) ∧ t.written = s.written ++ toBits 32 s.magic.toNat ∧
      t.wr.bitsWritten = s.wr.bitsWritten + 32 ∧ t.wr.isOpen = true ∧ t.writerOk ∧
      t = { s with wr := t.wr, snk := { s.snk with content := t.snk.content, txs := t.snk.txs }, log := t.log }

/-- 45 R202: CTAB makes each symbol's entry the path to its last leaf in pre-order, no entry where it has no leaf, and
changes nothing but CODE, TABLE_VALID and the response; every entry made has 1 to 256 bits. -/
def Obligations.CtabDerivesTheCodes : Prop :=
  ∀ (s : State) (tr : CodeTree), s.halted = false → s.treeValid = true → s.holdsTree tr →
    ∃ t : State, exec .ctab s = .next (t.respond true false 0) ∧
      (∀ y : Symbol, t.codeOf y = tr.entry y) ∧
      (∀ p ∈ tr.codes, 1 ≤ (t.codeOf p.1).length ∧ (t.codeOf p.1).length ≤ 256) ∧
      t = { s with code := t.code, tableValid := true }

/-- 45 R203, R204, R205, 30 R104, R105: ENCODE, every byte of the rest of the stream and the terminator having an entry,
appends the bytes' codes in order and then the terminator's. Only the reader, the fetch position, the writer, the sink,
the log and the response change. -/
def Obligations.EncodeWritesTheCodes : Prop :=
  ∀ s : State, s.halted = false → s.rd.isOpen = true → s.wr.isOpen = true → s.tableValid = true →
    s.srcSound → s.snkSound → s.readerOk → s.writerOk →
    (∀ v ∈ octets s.undelivered, s.codeOf (symbolOf v) ≠ []) → s.codeOf terminator ≠ [] →
      ∃ t : State, exec .encode s = .next (t.respond true false 0) ∧
        t.written = s.written ++ ((octets s.undelivered).flatMap fun v => s.codeOf (symbolOf v)) ++
          s.codeOf terminator ∧
        t.wr.bitsWritten = s.wr.bitsWritten + BitVec.ofNat 64
          (((octets s.undelivered).map fun v => (s.codeOf (symbolOf v)).length).sum +
            (s.codeOf terminator).length) ∧
        t.undelivered = [] ∧ t.rd.eos = true ∧ t.rd.isOpen = true ∧ t.wr.isOpen = true ∧ t.writerOk ∧
        t.rd.bitsRead = s.rd.bitsRead + BitVec.ofNat 64 (8 * (octets s.undelivered).length) ∧
        t = { s with rd := t.rd, src := { s.src with pos := t.src.pos, txs := t.src.txs }, wr := t.wr,
                     snk := { s.snk with content := t.snk.content, txs := t.snk.txs }, log := t.log }

/-- 45 R203, 60 R251: ENCODE raises INTERNAL sub 2 with the symbol at the first byte without an entry, the codes of the
bytes before it written and nothing for it; likewise for the terminator after all bytes. -/
def Obligations.EncodeRaisesInternalAtAMissingEntry : Prop :=
  ∀ s : State, s.halted = false → s.rd.isOpen = true → s.wr.isOpen = true → s.tableValid = true →
    s.srcSound → s.snkSound → s.readerOk → s.writerOk →
    (∀ before v after, octets s.undelivered = before ++ v :: after →
      (∀ u ∈ before, s.codeOf (symbolOf u) ≠ []) → s.codeOf (symbolOf v) = [] →
        ∃ t : State, exec .encode s = .next (t.failed 0x35 0x35 .internal 2 (BitVec.ofNat 32 v)) ∧
          t.written = s.written ++ before.flatMap fun u => s.codeOf (symbolOf u)) ∧
    ((∀ u ∈ octets s.undelivered, s.codeOf (symbolOf u) ≠ []) → s.codeOf terminator = [] →
      ∃ t : State, exec .encode s = .next (t.failed 0x35 0x35 .internal 2 256) ∧
        t.written = s.written ++ (octets s.undelivered).flatMap fun u => s.codeOf (symbolOf u))

/-- 45 R206, R207, 30 R100 to R105: COMPRESS on a fresh reader over a source in which each byte value occurs fewer than
2^64 times and a fresh writer, devices that do not fail: the sink holds MAGIC, the serialisation of a code tree whose symbols are the bytes of SRC and the
terminator (and byte 0 for the empty SRC), each once, the codes of the bytes in order, the terminator's code, and zero
bits to a byte. The writer is closed, the reader left open at the end of the stream, the three valid flags 0. -/
def Obligations.CompressWritesACompressedFile : Prop :=
  ∀ s : State, s.halted = false → s.freshReader → s.freshWriter → s.srcSound → s.snkSound →
    (∀ b : Byte, s.src.content.count b < 2 ^ 64) →
      ∃ (t : State) (tr : CodeTree) (body : List Bool), exec .compress s = .next (t.respond true false 0) ∧
        body = toBits 32 s.magic.toNat ++ tr.bits ++
          (s.src.content.flatMap fun b => tr.entry (symbolOf b.toNat)) ++ tr.entry terminator ∧
        bytesBits t.snk.content = body ++ padding body.length ∧
        (tr.codes.map Prod.fst).Nodup ∧
        (∀ y : Symbol, y ∈ tr.codes.map Prod.fst ↔
          y = terminator ∨ (∃ b ∈ s.src.content, y = symbolOf b.toNat) ∨ (s.src.content = [] ∧ y = 0)) ∧
        t.wr.bitsWritten = BitVec.ofNat 64 body.length ∧ t.wr.isOpen = false ∧
        t.rd.isOpen = true ∧ t.rd.eos = true ∧
        t.rd.bitsRead = BitVec.ofNat 64 (8 * s.src.content.length) ∧
        t.freqValid = false ∧ t.treeValid = false ∧ t.tableValid = false ∧
        t.err = s.err ∧ t.magic = s.magic ∧ t.host = s.host ∧ t.src.content = s.src.content

/-- 45 R207 (c): the same SRC and MAGIC always give the same SNK. -/
def Obligations.CompressIsDeterministic : Prop :=
  ∀ s s' t t' : State, s.halted = false → s'.halted = false → s.freshReader → s'.freshReader → s.freshWriter →
    s'.freshWriter → s.srcSound → s'.srcSound → s.snkSound → s'.snkSound →
    s.src.content = s'.src.content → s.magic = s'.magic →
    exec .compress s = .next t → exec .compress s' = .next t' → t.completed →
      t'.completed ∧ t.snk.content = t'.snk.content

/-! ### Unit U7 -/

/-- 46 R221, 60 R249: MAGICR. With MAGIC next in the stream it consumes the 32 bits; with 32 other bits it raises FORMAT
sub 1 with them; with fewer it raises FORMAT sub 2. The writer and the sink are not touched in any case. -/
def Obligations.MagicrAcceptsOnlyTheMagicNumber : Prop :=
  ∀ s : State, s.halted = false → s.rd.isOpen = true → s.srcSound → s.readerOk →
    (∀ rest, s.undelivered = toBits 32 s.magic.toNat ++ rest →
      ∃ t : State, exec .magicr s = .next (t.respond true false 0) ∧ t.undelivered = rest ∧
        t.rd.bitsRead = s.rd.bitsRead + 32 ∧ t.rd.isOpen = true ∧ t.readerOk ∧
        t = { s with rd := t.rd, src := { s.src with pos := t.src.pos, txs := t.src.txs }, log := t.log }) ∧
    (∀ v rest, v < 2 ^ 32 → v ≠ s.magic.toNat → s.undelivered = toBits 32 v ++ rest →
      ∃ t : State, exec .magicr s = .next (t.failed 0x40 0x40 .format 1 (BitVec.ofNat 32 v)) ∧ t.undelivered = rest ∧
        t = { s with rd := t.rd, src := { s.src with pos := t.src.pos, txs := t.src.txs }, log := t.log }) ∧
    (s.undelivered.length < 32 →
      ∃ t : State, exec .magicr s = .next (t.failed 0x40 0x40 .format 2 0) ∧ t.rd.bitsRead = s.rd.bitsRead ∧
        t.rd.eos = true ∧
        t = { s with rd := t.rd, src := { s.src with pos := t.src.pos, txs := t.src.txs }, log := t.log })

/-- 46 R223, R225: DECODE on a stream that begins with codes of byte symbols and then a code of the terminator, all from
the tree in NODE, writes those bytes in order and consumes exactly those codes. Only the reader, the fetch position, the
writer, the sink, the log and the response change. -/
def Obligations.DecodeWritesTheCodedBytes : Prop :=
  ∀ (s : State) (tr : CodeTree) (ps : List (Symbol × List Bool)) (last rest : List Bool),
    s.halted = false → s.rd.isOpen = true → s.wr.isOpen = true → s.treeValid = true → s.holdsTree tr →
    s.srcSound → s.snkSound → s.readerOk → s.writerOk →
    (∀ p ∈ ps, p ∈ tr.codes ∧ p.1 ≠ terminator) → (terminator, last) ∈ tr.codes →
    s.undelivered = ps.flatMap Prod.snd ++ last ++ rest →
      ∃ t : State, exec .decode s = .next (t.respond true false 0) ∧
        t.written = s.written ++ (ps.flatMap fun p => toBits 8 p.1.val) ∧ t.undelivered = rest ∧
        t.wr.bitsWritten = s.wr.bitsWritten + BitVec.ofNat 64 (8 * ps.length) ∧
        t.rd.bitsRead = s.rd.bitsRead + BitVec.ofNat 64 (ps.flatMap Prod.snd ++ last).length ∧
        t.rd.eos = s.rd.eos ∧ t.rd.isOpen = true ∧ t.wr.isOpen = true ∧ t.readerOk ∧ t.writerOk ∧
        t = { s with rd := t.rd, src := { s.src with pos := t.src.pos, txs := t.src.txs }, wr := t.wr,
                     snk := { s.snk with content := t.snk.content, txs := t.snk.txs }, log := t.log }

/-- 46 R223, 60 R250: DECODE raises MALFORMED sub 2 when the stream ends before a terminator leaf, between two codes or
inside one; the bytes decoded so far stay written. -/
def Obligations.DecodeRaisesMalformedWithoutATerminator : Prop :=
  ∀ (s : State) (tr : CodeTree) (ps : List (Symbol × List Bool)) (cut : List Bool),
    s.halted = false → s.rd.isOpen = true → s.wr.isOpen = true → s.treeValid = true → s.holdsTree tr →
    s.srcSound → s.snkSound → s.readerOk → s.writerOk →
    (∀ p ∈ ps, p ∈ tr.codes ∧ p.1 ≠ terminator) → (∃ p ∈ tr.codes, cut <+: p.2 ∧ cut ≠ p.2) →
    s.undelivered = ps.flatMap Prod.snd ++ cut →
      ∃ t : State, exec .decode s = .next (t.failed 0x42 0x42 .malformed 2 0) ∧
        t.written = s.written ++ (ps.flatMap fun p => toBits 8 p.1.val) ∧ t.rd.eos = true

/-- 46 R226: DECOMPRESS on a stream of MAGIC, a tree of at most 513 nodes with an internal root, codes of byte symbols
and the terminator's code, whatever follows, devices that do not fail: those bytes are appended to what was written, all
of it is in the sink, the writer is closed, the reader left open, the three valid flags are 0. What the tables hold
then is free (93 I7; assumption log 17). -/
def Obligations.DecompressWritesTheCodedBytes : Prop :=
  ∀ (s : State) (l r : CodeTree) (ps : List (Symbol × List Bool)) (last rest : List Bool),
    s.halted = false → s.rd.isOpen = true → s.wr.isOpen = true →
    s.srcSound → s.snkSound → s.readerOk → s.writerOk → (CodeTree.node l r).size ≤ 513 →
    (∀ p ∈ ps, p ∈ (CodeTree.node l r).codes ∧ p.1 ≠ terminator) → (terminator, last) ∈ (CodeTree.node l r).codes →
    s.undelivered =
      toBits 32 s.magic.toNat ++ (CodeTree.node l r).bits ++ ps.flatMap Prod.snd ++ last ++ rest →
      ∃ (t : State) (body : List Bool), exec .decompress s = .next (t.respond true false 0) ∧
        body = s.written ++ (ps.flatMap fun p => toBits 8 p.1.val) ∧
        bytesBits t.snk.content = body ++ padding body.length ∧ t.undelivered = rest ∧
        t.wr.bitsWritten = s.wr.bitsWritten + BitVec.ofNat 64 (8 * ps.length) ∧ t.wr.isOpen = false ∧
        t.rd.bitsRead = s.rd.bitsRead + BitVec.ofNat 64
          (32 + (CodeTree.node l r).bits.length + (ps.flatMap Prod.snd ++ last).length) ∧
        t.rd.isOpen = true ∧ t.rd.eos = s.rd.eos ∧
        t.freqValid = false ∧ t.treeValid = false ∧ t.tableValid = false ∧
        t.err = s.err ∧ t.magic = s.magic ∧ t.host = s.host ∧
        t.src.content = s.src.content

/-- 46 R227: if COMPRESS on a fresh reader over S and a fresh writer completes and leaves F in the sink, DECOMPRESS on a
fresh reader over F and a fresh writer, with the same MAGIC and devices that do not fail, completes and leaves S, with
BITS_WRITTEN = 8 * |S| and BITS_READ equal to the BITS_WRITTEN of the compression. -/
def Obligations.DecompressUndoesCompress : Prop :=
  ∀ s t u : State, s.halted = false → s.freshReader → s.freshWriter → exec .compress s = .next t → t.completed →
    u.halted = false → u.freshReader → u.freshWriter → u.srcSound → u.snkSound →
    u.src.content = t.snk.content → u.magic = s.magic →
      ∃ v : State, exec .decompress u = .next (v.respond true false 0) ∧ v.snk.content = s.src.content ∧
        v.wr.bitsWritten = BitVec.ofNat 64 (8 * s.src.content.length) ∧ v.rd.bitsRead = t.wr.bitsWritten

/-! ### Frames and whole-machine rules -/

/-- 10 R40 and the State written clauses of 40 and 46 R221: whatever the devices answer, the commands of the reader and
MAGICR change only the reader, the source's position and count, the log, ERR and the response. -/
def Obligations.ReaderCommandsTouchOnlyTheReader : Prop :=
  ∀ (s t : State) (i : Instr), exec i s = .next t →
    (i = .rdopen ∨ (∃ n, i = .rdbits n) ∨ i = .rdrst ∨ i = .rdclose ∨ i = .magicr) →
      t = { s with rd := t.rd, src := { s.src with pos := t.src.pos, txs := t.src.txs }, log := t.log,
                   err := t.err, rsp := t.rsp }

/-- 10 R40 and the State written clauses of 41, 44 R186 and 45 R201: whatever the devices answer, the commands of the
writer, MAGICW and TSER change only the writer, the sink's content and count, the log, ERR and the response; what they
put in the sink comes after its old content, but for WROPEN. -/
def Obligations.WriterCommandsTouchOnlyTheWriter : Prop :=
  ∀ (s t : State) (i : Instr), exec i s = .next t →
    (i = .wropen ∨ (∃ n v, i = .wrbits n v) ∨ i = .wrflush ∨ i = .wrclose ∨ i = .magicw ∨ i = .tser) →
      t = { s with wr := t.wr, snk := { s.snk with content := t.snk.content, txs := t.snk.txs }, log := t.log,
                   err := t.err, rsp := t.rsp } ∧
      (i ≠ .wropen → s.snk.content <+: t.snk.content)

/-- The State written clauses of 42 R161, 43 R171, 44 R189, 45 R202: whatever the devices answer, FCOUNT, TBUILD, TDES
and CTAB touch neither the writer nor the sink, and of the tables only their own, but that an FCOUNT or TDES that raised
leaves each table whose flag is 0 holding any value (93 I7; assumption log 17). That one which completed leaves the
tables it invalidates as they were is the model's choice (the same log entry). -/
def Obligations.TableCommandsTouchOnlyTheirTables : Prop :=
  ∀ s t : State,
    (exec .fcount s = .next t →
      t = { s with rd := t.rd, src := { s.src with pos := t.src.pos, txs := t.src.txs }, log := t.log, freq := t.freq,
                   freqValid := t.freqValid, node := t.node, nodeCnt := t.nodeCnt, root := t.root,
                   treeValid := t.treeValid, code := t.code, tableValid := t.tableValid, err := t.err,
                   rsp := t.rsp } ∧
      (t.treeValid = true ∨ t.completed → t.node = s.node ∧ t.nodeCnt = s.nodeCnt ∧ t.root = s.root) ∧
      (t.tableValid = true ∨ t.completed → t.code = s.code)) ∧
    (exec .tbuild s = .next t →
      t = { s with node := t.node, nodeCnt := t.nodeCnt, root := t.root, treeValid := t.treeValid,
                   tableValid := t.tableValid, err := t.err, rsp := t.rsp }) ∧
    (exec .tdes s = .next t →
      t = { s with rd := t.rd, src := { s.src with pos := t.src.pos, txs := t.src.txs }, log := t.log, freq := t.freq,
                   node := t.node, nodeCnt := t.nodeCnt, root := t.root, treeValid := t.treeValid, code := t.code,
                   tableValid := t.tableValid, err := t.err, rsp := t.rsp } ∧
      (t.freqValid = true ∨ t.completed → t.freq = s.freq) ∧
      (t.tableValid = true ∨ t.completed → t.code = s.code)) ∧
    (exec .ctab s = .next t →
      t = { s with code := t.code, tableValid := t.tableValid, err := t.err, rsp := t.rsp })

/-- 45 R203, R206, 46 R223, R226: whatever the devices answer, ENCODE and DECODE change no table and no flag but RD_EOS.
COMPRESS and DECOMPRESS are their primitives in order: if all complete, so does the macro, and the three valid flags are
0; the first that raises ends it, with its own opcode in ERR.OP and the macro's in ERR.MOP and everything else as that
primitive left it. Unless that one is WRCLOSE nothing is flushed or closed: WR_OPEN stays 1, the sink is not released and
gets whole blocks only, and on a sink that does not fail every bit written is still there, without padding. The macros
change neither MAGIC nor the source's content nor RD_OPEN, and DECOMPRESS neither FREQ nor CODE, but that each table
whose flag is 0 after a macro holds any value (93 I7; assumption log 17). -/
def Obligations.StreamingCommandsKeepTheTables : Prop :=
  (∀ (s t : State) (i : Instr), i = .encode ∨ i = .decode → exec i s = .next t →
    t = { s with rd := t.rd, src := { s.src with pos := t.src.pos, txs := t.src.txs }, wr := t.wr,
                 snk := { s.snk with content := t.snk.content, txs := t.snk.txs }, log := t.log, err := t.err,
                 rsp := t.rsp } ∧
    t.rd.isOpen = s.rd.isOpen ∧ t.wr.isOpen = s.wr.isOpen) ∧
  (∀ s t : State, exec .decompress s = .next t →
    (t.freqValid = true → t.freq = s.freq) ∧ (t.tableValid = true → t.code = s.code)) ∧
  ∀ (i : Instr) (prims : List Instr),
    (i = .compress ∧ prims = compressPrimitives ∨ i = .decompress ∧ prims = decompressPrimitives) →
    (∀ s t : State, exec i s = .next t →
      t.magic = s.magic ∧ t.host = s.host ∧ t.src.content = s.src.content ∧ t.src.failAt = s.src.failAt ∧
        t.snk.failAt = s.snk.failAt ∧ t.rd.isOpen = s.rd.isOpen ∧ s.snk.content <+: t.snk.content) ∧
    ∀ s : State, s.halted = false → s.rd.isOpen = true → s.wr.isOpen = true →
      (∀ t, Completes prims s t → ∃ v : State, exec i s = .next (v.respond true false 0) ∧
        ({ t with freqValid := false, treeValid := false, tableValid := false } : State).SameValidTables v) ∧
      (∀ (done later : List Instr) (j : Instr) (u t : State) (cls : ErrClass) (sub : BitVec 4) (info : BitVec 32),
        prims = done ++ j :: later → Completes done s u → exec j u = .next (t.failed j.opcode j.opcode cls sub info) →
          ∃ v : State, exec i s = .next (v.failed j.opcode i.opcode cls sub info) ∧ t.SameValidTables v) ∧
      (∀ t, exec i s = .next t → t.halted = true →
        (errOp t.err = 0x24 → t.wr.isOpen = false) ∧
        (errOp t.err ≠ 0x24 → t.wr.isOpen = true ∧
          (∃ es, t.log = s.log ++ es ∧ .snkRelease ∉ es ∧ ∀ b a, .snkPut b a ∈ es → b.length = 8192) ∧
          (s.snkSound → s.writerOk → ∃ more, t.written = s.written ++ more ∧
            t.wr.bitsWritten = s.wr.bitsWritten + BitVec.ofNat 64 more.length ∧ t.writerOk)))

/-- 10 R40: the flags each command may set and clear, reset apart. -/
def Obligations.OnlyTheListedCommandsChangeAFlag : Prop :=
  ∀ (s t : State) (i : Instr), exec i s = .next t →
    (s.rd.isOpen = false → t.rd.isOpen = true → i = .rdopen) ∧
    (s.rd.isOpen = true → t.rd.isOpen = false → i = .rdclose) ∧
    (s.rd.eos = false → t.rd.eos = true →
      (∃ n, i = .rdbits n) ∨ i = .fcount ∨ i = .encode ∨ i = .magicr ∨ i = .tdes ∨ i = .decode ∨ i = .compress ∨
        i = .decompress) ∧
    (s.rd.eos = true → t.rd.eos = false → i = .rdopen ∨ i = .rdrst ∨ i = .compress) ∧
    (s.wr.isOpen = false → t.wr.isOpen = true → i = .wropen) ∧
    (s.wr.isOpen = true → t.wr.isOpen = false → i = .wrclose ∨ i = .compress ∨ i = .decompress) ∧
    (s.freqValid = false → t.freqValid = true → i = .fcount ∨ i = .compress) ∧
    (s.freqValid = true → t.freqValid = false → i = .fcount ∨ i = .compress ∨ i = .decompress) ∧
    (s.treeValid = false → t.treeValid = true → i = .tbuild ∨ i = .tdes ∨ i = .compress ∨ i = .decompress) ∧
    (s.treeValid = true → t.treeValid = false →
      i = .tbuild ∨ i = .tdes ∨ i = .fcount ∨ i = .compress ∨ i = .decompress) ∧
    (s.tableValid = false → t.tableValid = true → i = .ctab ∨ i = .compress) ∧
    (s.tableValid = true → t.tableValid = false →
      i = .ctab ∨ i = .fcount ∨ i = .tbuild ∨ i = .tdes ∨ i = .compress ∨ i = .decompress) ∧
    (s.halted = true → t.halted = true)

/-- 20 R62, R63, R72, 60 R256: a command acts on the devices only by the transactions it logs, in their order, and each
fetch takes bytes that the source has. One answered Fail is the first such and ends the command: it gives up with the
RESOURCE subcode of that transaction (an open of the source 1, a fetch 2, a rewind 3, an open of the sink 4, a put 5),
unless ERR holds an earlier error, and no transaction follows but the release of the sink by a close. RESOURCE is raised
for nothing else. That a release leaves the source position is the model's choice (assumption log
19). -/
def Obligations.DevicesSeeExactlyTheLoggedTransactions : Prop :=
  ∀ (s t : State) (i : Instr), exec i s = .next t →
    ∃ es, t.log = s.log ++ es ∧ t.src = es.foldl Source.after s.src ∧ t.snk = es.foldl Sink.after s.snk ∧
      (∀ before m b after, es = before ++ .srcFetch m (.bytes b) :: after →
        m = 8192 ∧ 1 ≤ b.length ∧ b.length ≤ 8192 ∧
          b <+: (s.src.content.drop (before.foldl Source.after s.src).pos)) ∧
      (∀ before e after sub, es = before ++ e :: after → e.failSub = some sub →
        t.gaveUp ∧ t.halted = true ∧ (∀ x ∈ before, x.failSub = none) ∧
        (after = [] ∨ after = [.snkRelease] ∧ (i = .wrclose ∨ i = .compress ∨ i = .decompress)) ∧
        (s.halted = false → ∃ op, t.err = packErr ⟨.resource, sub, 0⟩ op i.opcode ∧
          (i ≠ .compress → i ≠ .decompress → op = i.opcode))) ∧
      (s.halted = false → errCode t.err = ErrClass.resource.code → ∃ e ∈ es, e.failSub ≠ none)

/-! ### Reset -/

/-- 10 R51, 60 R253, 70 R283: the state after reset, where R51 gives a value: all flags, counters and counts 0, ERR 0, the
core not halted. That no input of the host is pending is the model's own (assumption log 1). -/
def Obligations.ResetClearsFlagsCountersAndErr : Prop :=
  State.reset.rd.isOpen = false ∧ State.reset.rd.eos = false ∧ State.reset.rd.srcEnd = false ∧
  State.reset.rd.bitsRead = 0 ∧ State.reset.rd.accCnt = 0 ∧ State.reset.rd.blkLen = 0 ∧ State.reset.rd.blkIdx = 0 ∧
  State.reset.wr.isOpen = false ∧ State.reset.wr.bitsWritten = 0 ∧ State.reset.wr.accCnt = 0 ∧
  State.reset.wr.blkLen = 0 ∧ State.reset.freqValid = false ∧ State.reset.treeValid = false ∧
  State.reset.tableValid = false ∧ State.reset.err = 0 ∧ State.reset.halted = false ∧ State.reset.host = []

/-- 70 R281: RESET gives every element its value of R51, makes no transaction, and leaves the contents of the devices and
the source position. Cutting a command short, it does so after the first k transactions the command would have made, and
no response is given. That the elements R51 leaves unspecified take the same values at every reset (log 8), that the
devices' counts start again (log 4) and that the cut falls between two transactions (log 11) are the model's choices. -/
def Obligations.ResetStartsOverAndTellsNoDevice : Prop :=
  (∀ (s : State) (plan : FailPlan) (rest : List HostEvent), s.host = .reset plan :: rest →
    step s = .next { State.reset with
      magic := s.magic
      src := { content := s.src.content, pos := s.src.pos, txs := 0, failAt := plan.src }
      snk := { content := s.snk.content, txs := 0, failAt := plan.snk }
      log := s.log
      host := rest }) ∧
  ∀ (s : State) (w : CmdWord) (k : Nat) (plan : FailPlan) (rest : List HostEvent) (u t : State) (es : List PortEvent),
    s.host = .commandCutByReset w k plan :: rest → execute w { s with host := rest } = .next u →
    es = (u.log.drop s.log.length).take k → step s = .next t →
      t.log = s.log ++ es ∧
        t.src = { content := s.src.content, pos := (es.foldl Source.after s.src).pos, txs := 0, failAt := plan.src } ∧
        t.snk = { content := (es.foldl Sink.after s.snk).content, txs := 0, failAt := plan.snk } ∧
        t.rsp = none ∧ t.err = 0 ∧
        t = { State.reset with magic := s.magic, src := t.src, snk := t.snk, log := t.log, host := rest }

/-- 70 R282: what a reset leaves unspecified is harmless: two reachable-looking states that differ at most there give,
step by step, the same responses, port transactions and flags, and again differ at most there. -/
def Obligations.UnspecifiedStateIsNeverSeen : Prop :=
  ∀ s s' t t' : State, s.Inv → s'.Inv → s.SameMeaning s' → step s = .next t → step s' = .next t' → t.SameMeaning t'

/-! ### The invariant -/

/-- The invariant of 10 R25 to R38, R44 and 20 R61 holds in the state after reset. -/
def Obligations.ResetMeetsTheInvariant : Prop := State.reset.Inv

/-- 10 R25 to R38, R44, 60 R246, 20 R61: every step keeps the invariant: counts in range, the tree and the table what
their flags promise, ERR well formed. -/
def Obligations.StepKeepsTheInvariant : Prop := ∀ s t : State, s.Inv → step s = .next t → t.Inv

/-- 70 R293, 46 R223 (e), 43 R171: from a state that meets the invariant every step ends in a next state: the model's own
stops (no root, an overfull traversal stack, a child of a leaf, a loop bound passed) are never met. -/
def Obligations.StepNeverStopsUnderTheInvariant : Prop := ∀ s : State, s.Inv → ∃ t : State, step s = .next t
end

