-- ==== Sys2Proof/Laws/Bits.lean ====
section
/-! SUPPORT. Bit strings, fields and byte order. -/

namespace Sys2Proof.Machine

@[simp] theorem toBits_length (n v : Nat) : (toBits n v).length = n := by
  induction n <;> simp [toBits, *]

@[simp] theorem toBits_zero (v : Nat) : toBits 0 v = [] := rfl

@[simp] theorem ofBits_nil : ofBits [] = 0 := rfl

theorem foldl_bits (l : List Bool) (v : Nat) :
    l.foldl (fun v b => 2 * v + b.toNat) v = v * 2 ^ l.length + ofBits l := by
  induction l generalizing v with
  | nil => simp
  | cons b l ih =>
    have h : ofBits (b :: l) = (2 * 0 + b.toNat) * 2 ^ l.length + ofBits l := ih _
    rw [List.foldl_cons, ih, h, List.length_cons, pow_succ]; ring

theorem ofBits_append (a b : List Bool) : ofBits (a ++ b) = ofBits a * 2 ^ b.length + ofBits b := by
  simp only [ofBits, List.foldl_append]; exact foldl_bits b _

theorem ofBits_cons (b : Bool) (l : List Bool) : ofBits (b :: l) = b.toNat * 2 ^ l.length + ofBits l := by
  have := ofBits_append [b] l; simpa [ofBits] using this

theorem ofBits_lt (l : List Bool) : ofBits l < 2 ^ l.length := by
  induction l with
  | nil => simp
  | cons b l ih => rw [ofBits_cons, List.length_cons, pow_succ]; cases b <;> simp <;> omega

theorem ofBits_toBits (n v : Nat) : ofBits (toBits n v) = v % 2 ^ n := by
  induction n with
  | zero => simp [Nat.mod_one]
  | succ n ih =>
    have h : v % 2 ^ (n + 1) = v % 2 ^ n + 2 ^ n * (v.testBit n).toNat := by
      rw [pow_succ, Nat.mod_mul, Nat.toNat_testBit]
    rw [toBits, ofBits_cons, ih, toBits_length, h, Nat.add_comm, Nat.mul_comm]

theorem toBits_congr {n a b : Nat} (h : a % 2 ^ n = b % 2 ^ n) : toBits n a = toBits n b := by
  induction n with
  | zero => rfl
  | succ n ih =>
    have hb : ∀ i < n + 1, a.testBit i = b.testBit i := fun i hi => by
      have := congrArg (fun x => x.testBit i) h
      simpa [Nat.testBit_mod_two_pow, hi] using this
    rw [toBits, toBits, hb n (by omega), ih]
    apply Nat.eq_of_testBit_eq; intro i
    by_cases hi : i < n
    · simpa [Nat.testBit_mod_two_pow, hi] using hb i (by omega)
    · simp [Nat.testBit_mod_two_pow, hi]

@[simp] theorem toBits_mod (n v : Nat) : toBits n (v % 2 ^ n) = toBits n v :=
  toBits_congr (Nat.mod_mod _ _)

theorem toBits_mod_of_le {n m : Nat} (v : Nat) (h : n ≤ m) : toBits n (v % 2 ^ m) = toBits n v :=
  toBits_congr (Nat.mod_mod_of_dvd _ (pow_dvd_pow 2 h))

theorem toBits_add (a b v : Nat) : toBits (a + b) v = toBits a (v / 2 ^ b) ++ toBits b v := by
  induction a with
  | zero => simp
  | succ a ih => rw [Nat.add_right_comm, toBits, ih, toBits, Nat.testBit_div_two_pow]; rfl

theorem toBits_mul_add (a b x y : Nat) (h : y < 2 ^ b) :
    toBits (a + b) (x * 2 ^ b + y) = toBits a x ++ toBits b y := by
  rw [toBits_add, Nat.add_comm (x * 2 ^ b), Nat.add_mul_div_right _ _ (by positivity), Nat.div_eq_of_lt h,
    Nat.zero_add]
  exact congrArg _ (toBits_congr (by simp))

theorem ofBits_eq_iff {a b : List Bool} (h : a.length = b.length) : ofBits a = ofBits b ↔ a = b := by
  refine ⟨fun he => ?_, fun he => he ▸ rfl⟩
  induction a generalizing b with
  | nil => simpa using h.symm
  | cons x a ih =>
    cases b with
    | nil => simp at h
    | cons y b =>
      simp only [List.length_cons, Nat.add_right_cancel_iff] at h
      have ha := ofBits_lt a
      have hb := ofBits_lt b
      rw [ofBits_cons, ofBits_cons, h] at he
      rw [h] at ha
      cases x <;> cases y <;> simp at he
      · rw [ih h he]
      · omega
      · omega
      · rw [ih h he]

theorem toBits_ofBits (l : List Bool) : toBits l.length (ofBits l) = l := by
  rw [← ofBits_eq_iff (by simp), ofBits_toBits, Nat.mod_eq_of_lt (ofBits_lt l)]

@[simp] theorem bytesBits_nil : bytesBits [] = [] := rfl

@[simp] theorem bytesBits_cons (b : Byte) (bs : List Byte) :
    bytesBits (b :: bs) = toBits 8 b.toNat ++ bytesBits bs := by simp [bytesBits]

@[simp] theorem bytesBits_append (a b : List Byte) : bytesBits (a ++ b) = bytesBits a ++ bytesBits b := by
  simp [bytesBits]

@[simp] theorem bytesBits_length (bs : List Byte) : (bytesBits bs).length = 8 * bs.length := by
  induction bs with
  | nil => rfl
  | cons b bs ih => simp [ih]; omega

theorem beNat_foldl (bs : List Byte) (v : Nat) :
    bs.foldl (fun v b => 256 * v + b.toNat) v = v * 2 ^ (8 * bs.length) + ofBits (bytesBits bs) := by
  induction bs generalizing v with
  | nil => simp
  | cons b bs ih =>
    rw [List.foldl_cons, ih, bytesBits_cons, ofBits_append, ofBits_toBits, bytesBits_length, List.length_cons,
      Nat.mod_eq_of_lt b.isLt, Nat.mul_add, pow_add]
    ring

/-- The big-endian integer of a byte sequence is the integer its stream bits denote (20_memory.md R66). -/
theorem beNat_eq (bs : List Byte) : beNat bs = ofBits (bytesBits bs) := by
  have h := beNat_foldl bs 0
  rwa [Nat.zero_mul, Nat.zero_add] at h

theorem toBits_beNat (bs : List Byte) : toBits (8 * bs.length) (beNat bs) = bytesBits bs := by
  rw [beNat_eq, ← bytesBits_length, toBits_ofBits]

@[simp] theorem beBytes_length (k v : Nat) : (beBytes k v).length = k := by
  induction k <;> simp [beBytes, *]

theorem bytesBits_beBytes (k v : Nat) : bytesBits (beBytes k v) = toBits (8 * k) v := by
  induction k with
  | zero => rfl
  | succ k ih =>
    rw [beBytes, bytesBits_cons, ih, Nat.mul_succ, Nat.add_comm, toBits_add, BitVec.toNat_ofNat, pow_mul,
      toBits_mod]
    rfl

theorem field_eq (w : BitVec 64) (lo n : Nat) : field w lo n = w.toNat / 2 ^ lo % 2 ^ n := by
  unfold field; split <;> simp [*, Nat.mod_one]

theorem field_lt (w : BitVec 64) (lo n : Nat) : field w lo n < 2 ^ n := by
  rw [field_eq]; exact Nat.mod_lt _ (by positivity)

theorem toBits_field (w : BitVec 64) (lo n : Nat) : toBits n (field w lo n) = toBits n (w.toNat / 2 ^ lo) := by
  rw [field_eq, toBits_mod]

/-- The bits of a register below `n`, cut at `lo`. -/
theorem toBits_split (w : BitVec 64) {lo n : Nat} (h : lo ≤ n) :
    toBits n w.toNat = toBits (n - lo) (field w lo (n - lo)) ++ toBits lo w.toNat := by
  rw [toBits_field, ← toBits_add, Nat.sub_add_cancel h]

theorem toBits_ofNat64 {n v : Nat} (h : n ≤ 64) : toBits n (BitVec.ofNat 64 v).toNat = toBits n v := by
  rw [BitVec.toNat_ofNat, toBits_mod_of_le _ h]

/-- Bit by bit what a register held in two parts reads (10_state.md R27, R31). -/
theorem getLsbD_splitRegister {cnt : Nat} (low high : BitVec 64) (h : cnt ≤ 64) (i : Nat) :
    (splitRegister cnt low high).getLsbD i = if i < cnt then low.getLsbD i else high.getLsbD i := by
  simp only [splitRegister, BitVec.getLsbD_or, BitVec.getLsbD_shiftLeft, BitVec.getLsbD_ushiftRight,
    BitVec.getLsbD_setWidth]
  by_cases hi : i < cnt
  · simp [hi, show i < 64 by omega]
  · by_cases h64 : i < 64
    · simp [hi, h64, show cnt + (i - cnt) = i by omega]
    · simp [hi, h64, BitVec.getLsbD_of_ge high i (by omega)]

/-- A field that lies above the lower part of a concatenation. -/
theorem extract_append_high {n m : Nat} (a : BitVec n) (b : BitVec m) (lo k : Nat) (h : m ≤ lo) :
    (a ++ b).extractLsb' lo k = a.extractLsb' (lo - m) k := by
  ext i hi
  have h1 : ¬ lo + i < m := by omega
  have h2 : lo + i - m = lo - m + i := by omega
  simp [BitVec.getLsbD_append, h1, h2]

/-- A field that lies within the lower part of a concatenation. -/
theorem extract_append_low {n m : Nat} (a : BitVec n) (b : BitVec m) (lo k : Nat) (h : lo + k ≤ m) :
    (a ++ b).extractLsb' lo k = b.extractLsb' lo k := by
  ext i hi
  have h1 : lo + i < m := by omega
  simp [BitVec.getLsbD_append, h1]

theorem extract_full {n : Nat} (a : BitVec n) : a.extractLsb' 0 n = a := by
  ext i hi; simp

/-- The byte values of a list occur as often as its bytes. -/
theorem count_toNat_lt {bs : List Byte} {n : Nat} (h : ∀ b, bs.count b < n) (v : Nat) :
    (bs.map BitVec.toNat).count v < n := by
  by_cases hv : v < 256
  · have := List.count_map_of_injective bs BitVec.toNat (fun a b h => BitVec.eq_of_toNat_eq h) (BitVec.ofNat 8 v)
    rw [BitVec.toNat_ofNat, Nat.mod_eq_of_lt hv] at this
    rw [this]; exact h _
  · rw [List.count_eq_zero.2]
    · exact Nat.lt_of_le_of_lt (Nat.zero_le _) (h 0)
    · intro hm
      obtain ⟨b, -, rfl⟩ := List.mem_map.1 hm
      exact hv b.isLt

/-- Eight bits at a time, a byte sequence gives its bytes (40 R130 (b)). -/
theorem octets_bytesBits (bs : List Byte) : octets (bytesBits bs) = bs.map BitVec.toNat := by
  induction bs with
  | nil => rfl
  | cons b bs ih =>
    have h := ofBits_toBits 8 b.toNat
    rw [bytesBits_cons, List.map_cons, ← ih]
    rw [Nat.mod_eq_of_lt b.isLt] at h
    conv_rhs => rw [← h]
    rfl

end Sys2Proof.Machine
end

