-- ==== Sys2Proof/Laws/State.lean ====
section
/-! SUPPORT. What each named update of the state leaves alone, field by field. -/

namespace Sys2Proof.Machine

/-! ### respond -/

@[simp] theorem respond_rd (s : State) (ok eos : Bool) (d : BitVec 64) : (s.respond ok eos d).rd = s.rd := rfl
@[simp] theorem respond_wr (s : State) (ok eos : Bool) (d : BitVec 64) : (s.respond ok eos d).wr = s.wr := rfl
@[simp] theorem respond_freq (s : State) (ok eos : Bool) (d : BitVec 64) : (s.respond ok eos d).freq = s.freq := rfl
@[simp] theorem respond_freqValid (s : State) (ok eos : Bool) (d : BitVec 64) : (s.respond ok eos d).freqValid = s.freqValid := rfl
@[simp] theorem respond_node (s : State) (ok eos : Bool) (d : BitVec 64) : (s.respond ok eos d).node = s.node := rfl
@[simp] theorem respond_nodeCnt (s : State) (ok eos : Bool) (d : BitVec 64) : (s.respond ok eos d).nodeCnt = s.nodeCnt := rfl
@[simp] theorem respond_root (s : State) (ok eos : Bool) (d : BitVec 64) : (s.respond ok eos d).root = s.root := rfl
@[simp] theorem respond_treeValid (s : State) (ok eos : Bool) (d : BitVec 64) : (s.respond ok eos d).treeValid = s.treeValid := rfl
@[simp] theorem respond_code (s : State) (ok eos : Bool) (d : BitVec 64) : (s.respond ok eos d).code = s.code := rfl
@[simp] theorem respond_tableValid (s : State) (ok eos : Bool) (d : BitVec 64) : (s.respond ok eos d).tableValid = s.tableValid := rfl
@[simp] theorem respond_err (s : State) (ok eos : Bool) (d : BitVec 64) : (s.respond ok eos d).err = s.err := rfl
@[simp] theorem respond_magic (s : State) (ok eos : Bool) (d : BitVec 64) : (s.respond ok eos d).magic = s.magic := rfl
@[simp] theorem respond_src (s : State) (ok eos : Bool) (d : BitVec 64) : (s.respond ok eos d).src = s.src := rfl
@[simp] theorem respond_snk (s : State) (ok eos : Bool) (d : BitVec 64) : (s.respond ok eos d).snk = s.snk := rfl
@[simp] theorem respond_log (s : State) (ok eos : Bool) (d : BitVec 64) : (s.respond ok eos d).log = s.log := rfl
@[simp] theorem respond_host (s : State) (ok eos : Bool) (d : BitVec 64) : (s.respond ok eos d).host = s.host := rfl

@[simp] theorem respond_rsp (s : State) (ok eos : Bool) (d : BitVec 64) :
    (s.respond ok eos d).rsp = some (packResponse ok eos d) := rfl

/-! ### transact -/

@[simp] theorem transact_rd (s : State) (e : PortEvent) : (s.transact e).rd = s.rd := rfl
@[simp] theorem transact_wr (s : State) (e : PortEvent) : (s.transact e).wr = s.wr := rfl
@[simp] theorem transact_freq (s : State) (e : PortEvent) : (s.transact e).freq = s.freq := rfl
@[simp] theorem transact_freqValid (s : State) (e : PortEvent) : (s.transact e).freqValid = s.freqValid := rfl
@[simp] theorem transact_node (s : State) (e : PortEvent) : (s.transact e).node = s.node := rfl
@[simp] theorem transact_nodeCnt (s : State) (e : PortEvent) : (s.transact e).nodeCnt = s.nodeCnt := rfl
@[simp] theorem transact_root (s : State) (e : PortEvent) : (s.transact e).root = s.root := rfl
@[simp] theorem transact_treeValid (s : State) (e : PortEvent) : (s.transact e).treeValid = s.treeValid := rfl
@[simp] theorem transact_code (s : State) (e : PortEvent) : (s.transact e).code = s.code := rfl
@[simp] theorem transact_tableValid (s : State) (e : PortEvent) : (s.transact e).tableValid = s.tableValid := rfl
@[simp] theorem transact_err (s : State) (e : PortEvent) : (s.transact e).err = s.err := rfl
@[simp] theorem transact_magic (s : State) (e : PortEvent) : (s.transact e).magic = s.magic := rfl
@[simp] theorem transact_rsp (s : State) (e : PortEvent) : (s.transact e).rsp = s.rsp := rfl
@[simp] theorem transact_host (s : State) (e : PortEvent) : (s.transact e).host = s.host := rfl

@[simp] theorem transact_src (s : State) (e : PortEvent) : (s.transact e).src = s.src.after e := rfl
@[simp] theorem transact_snk (s : State) (e : PortEvent) : (s.transact e).snk = s.snk.after e := rfl
@[simp] theorem transact_log (s : State) (e : PortEvent) : (s.transact e).log = s.log ++ [e] := rfl

/-! ### recordErr and raiseErr -/

@[simp] theorem recordErr_rd (s : State) (op mop : BitVec 8) (e : Raise) : (s.recordErr op mop e).rd = s.rd := by
  unfold State.recordErr; split <;> rfl
@[simp] theorem recordErr_wr (s : State) (op mop : BitVec 8) (e : Raise) : (s.recordErr op mop e).wr = s.wr := by
  unfold State.recordErr; split <;> rfl
@[simp] theorem recordErr_freq (s : State) (op mop : BitVec 8) (e : Raise) : (s.recordErr op mop e).freq = s.freq := by
  unfold State.recordErr; split <;> rfl
@[simp] theorem recordErr_freqValid (s : State) (op mop : BitVec 8) (e : Raise) : (s.recordErr op mop e).freqValid = s.freqValid := by
  unfold State.recordErr; split <;> rfl
@[simp] theorem recordErr_node (s : State) (op mop : BitVec 8) (e : Raise) : (s.recordErr op mop e).node = s.node := by
  unfold State.recordErr; split <;> rfl
@[simp] theorem recordErr_nodeCnt (s : State) (op mop : BitVec 8) (e : Raise) : (s.recordErr op mop e).nodeCnt = s.nodeCnt := by
  unfold State.recordErr; split <;> rfl
@[simp] theorem recordErr_root (s : State) (op mop : BitVec 8) (e : Raise) : (s.recordErr op mop e).root = s.root := by
  unfold State.recordErr; split <;> rfl
@[simp] theorem recordErr_treeValid (s : State) (op mop : BitVec 8) (e : Raise) : (s.recordErr op mop e).treeValid = s.treeValid := by
  unfold State.recordErr; split <;> rfl
@[simp] theorem recordErr_code (s : State) (op mop : BitVec 8) (e : Raise) : (s.recordErr op mop e).code = s.code := by
  unfold State.recordErr; split <;> rfl
@[simp] theorem recordErr_tableValid (s : State) (op mop : BitVec 8) (e : Raise) : (s.recordErr op mop e).tableValid = s.tableValid := by
  unfold State.recordErr; split <;> rfl
@[simp] theorem recordErr_magic (s : State) (op mop : BitVec 8) (e : Raise) : (s.recordErr op mop e).magic = s.magic := by
  unfold State.recordErr; split <;> rfl
@[simp] theorem recordErr_src (s : State) (op mop : BitVec 8) (e : Raise) : (s.recordErr op mop e).src = s.src := by
  unfold State.recordErr; split <;> rfl
@[simp] theorem recordErr_snk (s : State) (op mop : BitVec 8) (e : Raise) : (s.recordErr op mop e).snk = s.snk := by
  unfold State.recordErr; split <;> rfl
@[simp] theorem recordErr_log (s : State) (op mop : BitVec 8) (e : Raise) : (s.recordErr op mop e).log = s.log := by
  unfold State.recordErr; split <;> rfl
@[simp] theorem recordErr_rsp (s : State) (op mop : BitVec 8) (e : Raise) : (s.recordErr op mop e).rsp = s.rsp := by
  unfold State.recordErr; split <;> rfl
@[simp] theorem recordErr_host (s : State) (op mop : BitVec 8) (e : Raise) : (s.recordErr op mop e).host = s.host := by
  unfold State.recordErr; split <;> rfl

@[simp] theorem raiseErr_rd (s : State) (op mop : BitVec 8) (e : Raise) : (raiseErr op mop e s).rd = s.rd := by simp [raiseErr]
@[simp] theorem raiseErr_wr (s : State) (op mop : BitVec 8) (e : Raise) : (raiseErr op mop e s).wr = s.wr := by simp [raiseErr]
@[simp] theorem raiseErr_freq (s : State) (op mop : BitVec 8) (e : Raise) : (raiseErr op mop e s).freq = s.freq := by simp [raiseErr]
@[simp] theorem raiseErr_freqValid (s : State) (op mop : BitVec 8) (e : Raise) : (raiseErr op mop e s).freqValid = s.freqValid := by simp [raiseErr]
@[simp] theorem raiseErr_node (s : State) (op mop : BitVec 8) (e : Raise) : (raiseErr op mop e s).node = s.node := by simp [raiseErr]
@[simp] theorem raiseErr_nodeCnt (s : State) (op mop : BitVec 8) (e : Raise) : (raiseErr op mop e s).nodeCnt = s.nodeCnt := by simp [raiseErr]
@[simp] theorem raiseErr_root (s : State) (op mop : BitVec 8) (e : Raise) : (raiseErr op mop e s).root = s.root := by simp [raiseErr]
@[simp] theorem raiseErr_treeValid (s : State) (op mop : BitVec 8) (e : Raise) : (raiseErr op mop e s).treeValid = s.treeValid := by simp [raiseErr]
@[simp] theorem raiseErr_code (s : State) (op mop : BitVec 8) (e : Raise) : (raiseErr op mop e s).code = s.code := by simp [raiseErr]
@[simp] theorem raiseErr_tableValid (s : State) (op mop : BitVec 8) (e : Raise) : (raiseErr op mop e s).tableValid = s.tableValid := by simp [raiseErr]
@[simp] theorem raiseErr_magic (s : State) (op mop : BitVec 8) (e : Raise) : (raiseErr op mop e s).magic = s.magic := by simp [raiseErr]
@[simp] theorem raiseErr_src (s : State) (op mop : BitVec 8) (e : Raise) : (raiseErr op mop e s).src = s.src := by simp [raiseErr]
@[simp] theorem raiseErr_snk (s : State) (op mop : BitVec 8) (e : Raise) : (raiseErr op mop e s).snk = s.snk := by simp [raiseErr]
@[simp] theorem raiseErr_log (s : State) (op mop : BitVec 8) (e : Raise) : (raiseErr op mop e s).log = s.log := by simp [raiseErr]
@[simp] theorem raiseErr_host (s : State) (op mop : BitVec 8) (e : Raise) : (raiseErr op mop e s).host = s.host := by simp [raiseErr]

/-- The first error wins (60_exceptions.md R252). -/
theorem raiseErr_err (s : State) (op mop : BitVec 8) (e : Raise) :
    (raiseErr op mop e s).err = if errCode s.err = 0 then packErr e op mop else s.err := by
  simp only [raiseErr, respond_err, State.recordErr]; split <;> rfl

/-- The response of a raise carries ERR as it stands after it (30_encoding.md R93). -/
@[simp] theorem raiseErr_rsp (s : State) (op mop : BitVec 8) (e : Raise) :
    (raiseErr op mop e s).rsp = some (packResponse false false (raiseErr op mop e s).err) := by
  simp [raiseErr]

theorem raiseErr_eq (s : State) (op mop : BitVec 8) (e : Raise) :
    raiseErr op mop e s =
      { s with err := (raiseErr op mop e s).err, rsp := some (packResponse false false (raiseErr op mop e s).err) } := by
  simp only [raiseErr, State.recordErr]; split <;> rfl

/-! ### forgetTables -/

@[simp] theorem forgetTables_rd (op : BitVec 8) (s : State) : (s.forgetTables op).rd = s.rd := rfl
@[simp] theorem forgetTables_wr (op : BitVec 8) (s : State) : (s.forgetTables op).wr = s.wr := rfl
@[simp] theorem forgetTables_freqValid (op : BitVec 8) (s : State) : (s.forgetTables op).freqValid = s.freqValid := rfl
@[simp] theorem forgetTables_treeValid (op : BitVec 8) (s : State) : (s.forgetTables op).treeValid = s.treeValid := rfl
@[simp] theorem forgetTables_tableValid (op : BitVec 8) (s : State) : (s.forgetTables op).tableValid = s.tableValid := rfl
@[simp] theorem forgetTables_err (op : BitVec 8) (s : State) : (s.forgetTables op).err = s.err := rfl
@[simp] theorem forgetTables_magic (op : BitVec 8) (s : State) : (s.forgetTables op).magic = s.magic := rfl
@[simp] theorem forgetTables_src (op : BitVec 8) (s : State) : (s.forgetTables op).src = s.src := rfl
@[simp] theorem forgetTables_snk (op : BitVec 8) (s : State) : (s.forgetTables op).snk = s.snk := rfl
@[simp] theorem forgetTables_log (op : BitVec 8) (s : State) : (s.forgetTables op).log = s.log := rfl
@[simp] theorem forgetTables_rsp (op : BitVec 8) (s : State) : (s.forgetTables op).rsp = s.rsp := rfl
@[simp] theorem forgetTables_host (op : BitVec 8) (s : State) : (s.forgetTables op).host = s.host := rfl

theorem forgetTables_freq {op : BitVec 8} {s : State} (h : s.freqValid = true) : (s.forgetTables op).freq = s.freq := by
  simp [State.forgetTables, h]

theorem forgetTables_node {op : BitVec 8} {s : State} (h : s.treeValid = true) : (s.forgetTables op).node = s.node := by
  simp [State.forgetTables, h]

theorem forgetTables_nodeCnt {op : BitVec 8} {s : State} (h : s.treeValid = true) :
    (s.forgetTables op).nodeCnt = s.nodeCnt := by
  simp [State.forgetTables, h]

theorem forgetTables_root {op : BitVec 8} {s : State} (h : s.treeValid = true) : (s.forgetTables op).root = s.root := by
  simp [State.forgetTables, h]

theorem forgetTables_code {op : BitVec 8} {s : State} (h : s.tableValid = true) : (s.forgetTables op).code = s.code := by
  simp [State.forgetTables, h]

/-! ### refuse -/

@[simp] theorem refuse_rd (s : State) : (refuse s).rd = s.rd := rfl
@[simp] theorem refuse_wr (s : State) : (refuse s).wr = s.wr := rfl
@[simp] theorem refuse_freq (s : State) : (refuse s).freq = s.freq := rfl
@[simp] theorem refuse_freqValid (s : State) : (refuse s).freqValid = s.freqValid := rfl
@[simp] theorem refuse_node (s : State) : (refuse s).node = s.node := rfl
@[simp] theorem refuse_nodeCnt (s : State) : (refuse s).nodeCnt = s.nodeCnt := rfl
@[simp] theorem refuse_root (s : State) : (refuse s).root = s.root := rfl
@[simp] theorem refuse_treeValid (s : State) : (refuse s).treeValid = s.treeValid := rfl
@[simp] theorem refuse_code (s : State) : (refuse s).code = s.code := rfl
@[simp] theorem refuse_tableValid (s : State) : (refuse s).tableValid = s.tableValid := rfl
@[simp] theorem refuse_err (s : State) : (refuse s).err = s.err := rfl
@[simp] theorem refuse_magic (s : State) : (refuse s).magic = s.magic := rfl
@[simp] theorem refuse_src (s : State) : (refuse s).src = s.src := rfl
@[simp] theorem refuse_snk (s : State) : (refuse s).snk = s.snk := rfl
@[simp] theorem refuse_log (s : State) : (refuse s).log = s.log := rfl
@[simp] theorem refuse_host (s : State) : (refuse s).host = s.host := rfl

/-! ### the codec tables -/

@[simp] theorem setFreq_rd (s : State) (y : Symbol) (c : BitVec 64) : (s.setFreq y c).rd = s.rd := rfl
@[simp] theorem setFreq_wr (s : State) (y : Symbol) (c : BitVec 64) : (s.setFreq y c).wr = s.wr := rfl
@[simp] theorem setFreq_freqValid (s : State) (y : Symbol) (c : BitVec 64) : (s.setFreq y c).freqValid = s.freqValid := rfl
@[simp] theorem setFreq_node (s : State) (y : Symbol) (c : BitVec 64) : (s.setFreq y c).node = s.node := rfl
@[simp] theorem setFreq_nodeCnt (s : State) (y : Symbol) (c : BitVec 64) : (s.setFreq y c).nodeCnt = s.nodeCnt := rfl
@[simp] theorem setFreq_root (s : State) (y : Symbol) (c : BitVec 64) : (s.setFreq y c).root = s.root := rfl
@[simp] theorem setFreq_treeValid (s : State) (y : Symbol) (c : BitVec 64) : (s.setFreq y c).treeValid = s.treeValid := rfl
@[simp] theorem setFreq_code (s : State) (y : Symbol) (c : BitVec 64) : (s.setFreq y c).code = s.code := rfl
@[simp] theorem setFreq_tableValid (s : State) (y : Symbol) (c : BitVec 64) : (s.setFreq y c).tableValid = s.tableValid := rfl
@[simp] theorem setFreq_err (s : State) (y : Symbol) (c : BitVec 64) : (s.setFreq y c).err = s.err := rfl
@[simp] theorem setFreq_magic (s : State) (y : Symbol) (c : BitVec 64) : (s.setFreq y c).magic = s.magic := rfl
@[simp] theorem setFreq_src (s : State) (y : Symbol) (c : BitVec 64) : (s.setFreq y c).src = s.src := rfl
@[simp] theorem setFreq_snk (s : State) (y : Symbol) (c : BitVec 64) : (s.setFreq y c).snk = s.snk := rfl
@[simp] theorem setFreq_log (s : State) (y : Symbol) (c : BitVec 64) : (s.setFreq y c).log = s.log := rfl
@[simp] theorem setFreq_rsp (s : State) (y : Symbol) (c : BitVec 64) : (s.setFreq y c).rsp = s.rsp := rfl
@[simp] theorem setFreq_host (s : State) (y : Symbol) (c : BitVec 64) : (s.setFreq y c).host = s.host := rfl

@[simp] theorem setNode_rd (s : State) (i : NodeIx) (x : Node) : (s.setNode i x).rd = s.rd := rfl
@[simp] theorem setNode_wr (s : State) (i : NodeIx) (x : Node) : (s.setNode i x).wr = s.wr := rfl
@[simp] theorem setNode_freq (s : State) (i : NodeIx) (x : Node) : (s.setNode i x).freq = s.freq := rfl
@[simp] theorem setNode_freqValid (s : State) (i : NodeIx) (x : Node) : (s.setNode i x).freqValid = s.freqValid := rfl
@[simp] theorem setNode_nodeCnt (s : State) (i : NodeIx) (x : Node) : (s.setNode i x).nodeCnt = s.nodeCnt := rfl
@[simp] theorem setNode_root (s : State) (i : NodeIx) (x : Node) : (s.setNode i x).root = s.root := rfl
@[simp] theorem setNode_treeValid (s : State) (i : NodeIx) (x : Node) : (s.setNode i x).treeValid = s.treeValid := rfl
@[simp] theorem setNode_code (s : State) (i : NodeIx) (x : Node) : (s.setNode i x).code = s.code := rfl
@[simp] theorem setNode_tableValid (s : State) (i : NodeIx) (x : Node) : (s.setNode i x).tableValid = s.tableValid := rfl
@[simp] theorem setNode_err (s : State) (i : NodeIx) (x : Node) : (s.setNode i x).err = s.err := rfl
@[simp] theorem setNode_magic (s : State) (i : NodeIx) (x : Node) : (s.setNode i x).magic = s.magic := rfl
@[simp] theorem setNode_src (s : State) (i : NodeIx) (x : Node) : (s.setNode i x).src = s.src := rfl
@[simp] theorem setNode_snk (s : State) (i : NodeIx) (x : Node) : (s.setNode i x).snk = s.snk := rfl
@[simp] theorem setNode_log (s : State) (i : NodeIx) (x : Node) : (s.setNode i x).log = s.log := rfl
@[simp] theorem setNode_rsp (s : State) (i : NodeIx) (x : Node) : (s.setNode i x).rsp = s.rsp := rfl
@[simp] theorem setNode_host (s : State) (i : NodeIx) (x : Node) : (s.setNode i x).host = s.host := rfl

@[simp] theorem pushNode_rd (s : State) (x : Node) : (s.pushNode x).rd = s.rd := rfl
@[simp] theorem pushNode_wr (s : State) (x : Node) : (s.pushNode x).wr = s.wr := rfl
@[simp] theorem pushNode_freq (s : State) (x : Node) : (s.pushNode x).freq = s.freq := rfl
@[simp] theorem pushNode_freqValid (s : State) (x : Node) : (s.pushNode x).freqValid = s.freqValid := rfl
@[simp] theorem pushNode_root (s : State) (x : Node) : (s.pushNode x).root = s.root := rfl
@[simp] theorem pushNode_treeValid (s : State) (x : Node) : (s.pushNode x).treeValid = s.treeValid := rfl
@[simp] theorem pushNode_code (s : State) (x : Node) : (s.pushNode x).code = s.code := rfl
@[simp] theorem pushNode_tableValid (s : State) (x : Node) : (s.pushNode x).tableValid = s.tableValid := rfl
@[simp] theorem pushNode_err (s : State) (x : Node) : (s.pushNode x).err = s.err := rfl
@[simp] theorem pushNode_magic (s : State) (x : Node) : (s.pushNode x).magic = s.magic := rfl
@[simp] theorem pushNode_src (s : State) (x : Node) : (s.pushNode x).src = s.src := rfl
@[simp] theorem pushNode_snk (s : State) (x : Node) : (s.pushNode x).snk = s.snk := rfl
@[simp] theorem pushNode_log (s : State) (x : Node) : (s.pushNode x).log = s.log := rfl
@[simp] theorem pushNode_rsp (s : State) (x : Node) : (s.pushNode x).rsp = s.rsp := rfl
@[simp] theorem pushNode_host (s : State) (x : Node) : (s.pushNode x).host = s.host := rfl

@[simp] theorem pushNode_nodeCnt (s : State) (x : Node) : (s.pushNode x).nodeCnt = s.nodeCnt + 1 := rfl

@[simp] theorem setCode_rd (s : State) (y : Symbol) (b : List Bool) : (s.setCode y b).rd = s.rd := rfl
@[simp] theorem setCode_wr (s : State) (y : Symbol) (b : List Bool) : (s.setCode y b).wr = s.wr := rfl
@[simp] theorem setCode_freq (s : State) (y : Symbol) (b : List Bool) : (s.setCode y b).freq = s.freq := rfl
@[simp] theorem setCode_freqValid (s : State) (y : Symbol) (b : List Bool) : (s.setCode y b).freqValid = s.freqValid := rfl
@[simp] theorem setCode_node (s : State) (y : Symbol) (b : List Bool) : (s.setCode y b).node = s.node := rfl
@[simp] theorem setCode_nodeCnt (s : State) (y : Symbol) (b : List Bool) : (s.setCode y b).nodeCnt = s.nodeCnt := rfl
@[simp] theorem setCode_root (s : State) (y : Symbol) (b : List Bool) : (s.setCode y b).root = s.root := rfl
@[simp] theorem setCode_treeValid (s : State) (y : Symbol) (b : List Bool) : (s.setCode y b).treeValid = s.treeValid := rfl
@[simp] theorem setCode_tableValid (s : State) (y : Symbol) (b : List Bool) : (s.setCode y b).tableValid = s.tableValid := rfl
@[simp] theorem setCode_err (s : State) (y : Symbol) (b : List Bool) : (s.setCode y b).err = s.err := rfl
@[simp] theorem setCode_magic (s : State) (y : Symbol) (b : List Bool) : (s.setCode y b).magic = s.magic := rfl
@[simp] theorem setCode_src (s : State) (y : Symbol) (b : List Bool) : (s.setCode y b).src = s.src := rfl
@[simp] theorem setCode_snk (s : State) (y : Symbol) (b : List Bool) : (s.setCode y b).snk = s.snk := rfl
@[simp] theorem setCode_log (s : State) (y : Symbol) (b : List Bool) : (s.setCode y b).log = s.log := rfl
@[simp] theorem setCode_rsp (s : State) (y : Symbol) (b : List Bool) : (s.setCode y b).rsp = s.rsp := rfl
@[simp] theorem setCode_host (s : State) (y : Symbol) (b : List Bool) : (s.setCode y b).host = s.host := rfl

theorem freqOf_setFreq (s : State) (y z : Symbol) (c : BitVec 64) :
    (s.setFreq y c).freqOf z = if y = z then c else s.freqOf z := by
  simp [State.freqOf, State.setFreq, Vector.get_eq_getElem, Vector.getElem_set, Fin.ext_iff]

theorem nodeAt_setNode (s : State) (i j : NodeIx) (x : Node) :
    (s.setNode i x).nodeAt j = if i = j then x else s.nodeAt j := by
  simp [State.nodeAt, State.setNode, Vector.get_eq_getElem, Vector.getElem_set, Fin.ext_iff]

theorem nodeAt_pushNode (s : State) (j : NodeIx) (x : Node) :
    (s.pushNode x).nodeAt j = if nodeIxOf s.nodeCnt = j then x else s.nodeAt j :=
  nodeAt_setNode s _ j x

theorem codeOf_setCode (s : State) (y z : Symbol) (b : List Bool) :
    (s.setCode y b).codeOf z = if y = z then b else s.codeOf z := by
  simp [State.codeOf, State.setCode, Vector.get_eq_getElem, Vector.getElem_set, Fin.ext_iff]

theorem nodeIxOf_val {n : Nat} (h : n < 513) : (nodeIxOf n).val = n := Nat.mod_eq_of_lt h

@[simp] theorem nodeIxOf_val_self (i : NodeIx) : nodeIxOf i.val = i := Fin.ext (Nat.mod_eq_of_lt i.isLt)

theorem symbolOf_val {n : Nat} (h : n < 257) : (symbolOf n).val = n := Nat.mod_eq_of_lt h

@[simp] theorem symbolOf_val_self (y : Symbol) : symbolOf y.val = y := Fin.ext (Nat.mod_eq_of_lt y.isLt)

/-! ### wrRelease -/

@[simp] theorem wrRelease_rd (s : State) : (wrRelease s).rd = s.rd := rfl
@[simp] theorem wrRelease_freq (s : State) : (wrRelease s).freq = s.freq := rfl
@[simp] theorem wrRelease_freqValid (s : State) : (wrRelease s).freqValid = s.freqValid := rfl
@[simp] theorem wrRelease_node (s : State) : (wrRelease s).node = s.node := rfl
@[simp] theorem wrRelease_nodeCnt (s : State) : (wrRelease s).nodeCnt = s.nodeCnt := rfl
@[simp] theorem wrRelease_root (s : State) : (wrRelease s).root = s.root := rfl
@[simp] theorem wrRelease_treeValid (s : State) : (wrRelease s).treeValid = s.treeValid := rfl
@[simp] theorem wrRelease_code (s : State) : (wrRelease s).code = s.code := rfl
@[simp] theorem wrRelease_tableValid (s : State) : (wrRelease s).tableValid = s.tableValid := rfl
@[simp] theorem wrRelease_err (s : State) : (wrRelease s).err = s.err := rfl
@[simp] theorem wrRelease_magic (s : State) : (wrRelease s).magic = s.magic := rfl
@[simp] theorem wrRelease_rsp (s : State) : (wrRelease s).rsp = s.rsp := rfl
@[simp] theorem wrRelease_host (s : State) : (wrRelease s).host = s.host := rfl

@[simp] theorem wrRelease_src (s : State) : (wrRelease s).src = s.src := rfl
@[simp] theorem wrRelease_wr (s : State) : (wrRelease s).wr = { s.wr with isOpen := false } := rfl
@[simp] theorem wrRelease_log (s : State) : (wrRelease s).log = s.log ++ [.snkRelease] := rfl
@[simp] theorem wrRelease_snk (s : State) : (wrRelease s).snk = { s.snk with txs := s.snk.txs + 1 } := rfl

/-! ### resetEvent -/

@[simp] theorem resetEvent_host (p : FailPlan) (s : State) : (resetEvent p s).host = s.host := rfl
@[simp] theorem resetEvent_magic (p : FailPlan) (s : State) : (resetEvent p s).magic = s.magic := rfl
@[simp] theorem resetEvent_log (p : FailPlan) (s : State) : (resetEvent p s).log = s.log := rfl
@[simp] theorem resetEvent_err (p : FailPlan) (s : State) : (resetEvent p s).err = 0 := rfl
@[simp] theorem resetEvent_rsp (p : FailPlan) (s : State) : (resetEvent p s).rsp = none := rfl

/-! ### devices -/

@[simp] theorem after_content (d : Source) (e : PortEvent) : (d.after e).content = d.content := by
  unfold Source.after; split <;> rfl

@[simp] theorem after_failAt (d : Source) (e : PortEvent) : (d.after e).failAt = d.failAt := by
  unfold Source.after; split <;> rfl

@[simp] theorem sink_after_failAt (d : Sink) (e : PortEvent) : (d.after e).failAt = d.failAt := by
  unfold Sink.after; split <;> rfl

/-- A source that never fails in the run fails no transaction (20_memory.md R64). -/
theorem srcFails_of_sound {s : State} (h : s.srcSound) : s.srcFails = false := by
  unfold State.srcSound at h; simp [State.srcFails, deviceFails, h]

/-- A sink that never fails in the run fails no transaction (20_memory.md R64). -/
theorem snkFails_of_sound {s : State} (h : s.snkSound) : s.snkFails = false := by
  unfold State.snkSound at h; simp [State.snkFails, deviceFails, h]

end Sys2Proof.Machine
end

