-- ==== Sys2Proof/Laws/Ops.lean ====
section
/-! SUPPORT. How procedures compose (Res.andThen), what the common sequence and the ends of a command can do. -/

namespace Sys2Proof.Machine

/-! ### Res -/

@[simp] theorem ok_andThen {α β : Type} (a : α) (s : State) (k : α → State → Res β) :
    (Res.ok a s).andThen k = k a s := rfl

@[simp] theorem raised_andThen {α β : Type} (e : Raise) (s : State) (k : α → State → Res β) :
    (Res.raised e s : Res α).andThen k = .raised e s := rfl

@[simp] theorem stuck_andThen {α β : Type} (f : Fault) (k : α → State → Res β) :
    (Res.stuck f : Res α).andThen k = .stuck f := rfl

theorem andThen_eq_ok {α β : Type} {r : Res α} {k : α → State → Res β} {b : β} {t : State} :
    r.andThen k = .ok b t ↔ ∃ a u, r = .ok a u ∧ k a u = .ok b t := by
  cases r <;> simp

theorem andThen_eq_raised {α β : Type} {r : Res α} {k : α → State → Res β} {e : Raise} {t : State} :
    r.andThen k = .raised e t ↔ r = .raised e t ∨ ∃ a u, r = .ok a u ∧ k a u = .raised e t := by
  cases r <;> simp

theorem andThen_eq_stuck {α β : Type} {r : Res α} {k : α → State → Res β} {f : Fault} :
    r.andThen k = .stuck f ↔ r = .stuck f ∨ ∃ a u, r = .ok a u ∧ k a u = .stuck f := by
  cases r <;> simp

theorem andThen_assoc {α β γ : Type} (r : Res α) (k : α → State → Res β) (m : β → State → Res γ) :
    (r.andThen k).andThen m = r.andThen fun a s => (k a s).andThen m := by
  cases r <;> rfl

/-- A procedure that completes does so in a state satisfying `P`, one that raises `e` in a state satisfying `Q e`. -/
def Res.Ends {α : Type} (P : State → Prop) (Q : Raise → State → Prop) : Res α → Prop
  | .ok _ t => P t
  | .raised e t => Q e t
  | .stuck _ => True

/-- What a completed procedure satisfies. -/
theorem Res.Ends.ok {α : Type} {P : State → Prop} {Q : Raise → State → Prop} {r : Res α} {a : α} {t : State}
    (h : r.Ends P Q) (hr : r = .ok a t) : P t := by
  rw [hr] at h; exact h

/-- What a procedure that raised satisfies. -/
theorem Res.Ends.raised {α : Type} {P : State → Prop} {Q : Raise → State → Prop} {r : Res α} {e : Raise} {t : State}
    (h : r.Ends P Q) (hr : r = .raised e t) : Q e t := by
  rw [hr] at h; exact h

theorem Res.Ends.imp {α : Type} {P P' : State → Prop} {Q Q' : Raise → State → Prop} {r : Res α} (h : r.Ends P Q)
    (hp : ∀ t, P t → P' t) (hq : ∀ e t, Q e t → Q' e t) : r.Ends P' Q' := by
  cases r <;> first | exact hp _ h | exact hq _ _ h | trivial

/-- The state a procedure ends in, if it ends in one, satisfies `P`. -/
abbrev Res.All {α : Type} (P : State → Prop) (r : Res α) : Prop := r.Ends P fun _ => P

@[simp] theorem ends_ok {α : Type} {P : State → Prop} {Q : Raise → State → Prop} {a : α} {t : State} :
    (Res.ok a t).Ends P Q ↔ P t := Iff.rfl

@[simp] theorem ends_raised {α : Type} {P : State → Prop} {Q : Raise → State → Prop} {e : Raise} {t : State} :
    (Res.raised e t : Res α).Ends P Q ↔ Q e t := Iff.rfl

@[simp] theorem ends_stuck {α : Type} {P : State → Prop} {Q : Raise → State → Prop} {f : Fault} :
    (Res.stuck f : Res α).Ends P Q := trivial

theorem Res.All.imp {α : Type} {P Q : State → Prop} {r : Res α} (h : r.All P) (hi : ∀ t, P t → Q t) : r.All Q := by
  cases r <;> first | exact hi _ h | trivial

theorem Res.All.andThen {α β : Type} {P Q : State → Prop} {r : Res α} {k : α → State → Res β} (h : r.All Q)
    (hr : ∀ t, Q t → P t) (hk : ∀ a t, Q t → (k a t).All P) : (r.andThen k).All P := by
  cases r with
  | ok a t => exact hk a t h
  | raised e t => exact hr t h
  | stuck f => trivial

/-- A relation to the start that is kept by each of two procedures is kept by both in turn. -/
theorem Res.All.seq {α β : Type} {R : State → State → Prop} (trans : ∀ a b c, R a b → R b c → R a c)
    {s : State} {r : Res α} {k : α → State → Res β} (h : r.All (R s)) (hk : ∀ a t, (k a t).All (R t)) :
    (r.andThen k).All (R s) :=
  h.andThen (fun _ h => h) fun a t ht => (hk a t).imp fun u hu => trans s t u ht hu

/-- The procedure does not end in one of the model's stops. -/
def Res.NotStuck {α : Type} (r : Res α) : Prop := ∀ f, r ≠ .stuck f

theorem Res.NotStuck.andThen {α β : Type} {r : Res α} {k : α → State → Res β} (h : r.NotStuck)
    (hk : ∀ a t, r = .ok a t → (k a t).NotStuck) : (r.andThen k).NotStuck := by
  intro f hf
  rcases andThen_eq_stuck.1 hf with h' | ⟨a, u, h1, h2⟩
  · exact h f h'
  · exact hk a u h1 f h2

/-! ### The common sequence -/

/-- The counts that raise no ARGUMENT (60_exceptions.md R248). -/
theorem countInRange_iff (n : BitVec 6) : countInRange n = true ↔ 1 ≤ n.toNat ∧ n.toNat ≤ 32 := by
  unfold countInRange bitCount
  rw [Bool.and_eq_true, decide_eq_true_iff, decide_eq_true_iff]

/-- The first error since reset, no other element changed. -/
theorem raiseErr_failed {s : State} (op mop : BitVec 8) (e : Raise) (h : s.halted = false) :
    raiseErr op mop e s = s.failed op mop e.cls e.sub e.info := by
  have h0 : errCode s.err = 0 := by simpa [State.halted] using h
  simp [raiseErr, State.recordErr, h0, State.failed, State.respond]

/-- Everything `guarded` can do (60_exceptions.md R255). -/
theorem guarded_cases (i : Instr) (s : State) (k : State → Answer) :
    (s.halted = true ∧ acceptedWhileHalted i = false ∧ guarded i s k = .next (refuse s)) ∨
    ((s.halted = false ∨ acceptedWhileHalted i = true) ∧
      ((∃ e, argCheck i = some e ∧ guarded i s k = .next (raiseErr i.opcode i.opcode e s)) ∨
       (argCheck i = none ∧ ∃ e, seqCheck i s = some e ∧ guarded i s k = .next (raiseErr i.opcode i.opcode e s)) ∨
       (argCheck i = none ∧ seqCheck i s = none ∧ guarded i s k = k s))) := by
  unfold guarded
  cases s.halted <;> cases acceptedWhileHalted i <;> cases argCheck i <;> cases seqCheck i s <;> simp

/-- A command whose checks pass runs its Operation. -/
theorem guarded_run {i : Instr} {s : State} {k : State → Answer}
    (hh : s.halted = false ∨ acceptedWhileHalted i = true) (ha : argCheck i = none) (hs : seqCheck i s = none) :
    guarded i s k = k s := by
  unfold guarded
  rcases hh with hh | hh <;> simp [hh, ha, hs]

/-- A halted core refuses a command that is not one of the five (60_exceptions.md R254). -/
theorem guarded_halted {i : Instr} {s : State} {k : State → Answer} (hh : s.halted = true)
    (ha : acceptedWhileHalted i = false) : guarded i s k = .next (refuse s) := by
  simp [guarded, hh, ha]

@[simp] theorem finish_ok (i : Instr) (r : Reply) (s : State) :
    finish i (.ok r s) = .next (s.respond true r.eos r.data) := rfl

@[simp] theorem finish_raised (i : Instr) (e : Raise) (s : State) :
    finish i (.raised e s) = .next (raiseErr i.opcode i.opcode e s) := rfl

@[simp] theorem finish_stuck (i : Instr) (f : Fault) : finish i (.stuck f) = .fault f := rfl

@[simp] theorem finishDone_ok (i : Instr) (u : Unit) (s : State) :
    finishDone i (.ok u s) = .next (s.respond true false 0) := rfl

@[simp] theorem finishDone_raised (i : Instr) (e : Raise) (s : State) :
    finishDone i (.raised e s) = .next (raiseErr i.opcode i.opcode e s) := rfl

@[simp] theorem finishDone_stuck (i : Instr) (f : Fault) : finishDone i (.stuck f) = .fault f := rfl

/-- Everything `finish` can answer. -/
theorem finish_eq_next {i : Instr} {r : Res Reply} {t : State} :
    finish i r = .next t ↔
      (∃ p u, r = .ok p u ∧ t = u.respond true p.eos p.data) ∨
      ∃ e u, r = .raised e u ∧ t = raiseErr i.opcode i.opcode e u := by
  cases r <;> simp [eq_comm]

/-- Everything `finishDone` can answer. -/
theorem finishDone_eq_next {i : Instr} {r : Res Unit} {t : State} :
    finishDone i r = .next t ↔
      (∃ u, r = .ok () u ∧ t = u.respond true false 0) ∨
      ∃ e u, r = .raised e u ∧ t = raiseErr i.opcode i.opcode e u := by
  cases r <;> simp [eq_comm]

theorem onRaise_eq_ok {α : Type} {f : State → State} {r : Res α} {a : α} {t : State} :
    r.onRaise f = .ok a t ↔ r = .ok a t := by
  cases r <;> simp [Res.onRaise]

theorem onRaise_eq_raised {α : Type} {f : State → State} {r : Res α} {e : Raise} {t : State} :
    r.onRaise f = .raised e t ↔ ∃ u, r = .raised e u ∧ t = f u := by
  cases r <;> simp [Res.onRaise, eq_comm]

@[simp] theorem finishProducer_ok (i : Instr) (u : Unit) (s : State) :
    finishProducer i (.ok u s) = .next (s.respond true false 0) := rfl

@[simp] theorem finishProducer_raised (i : Instr) (e : Raise) (s : State) :
    finishProducer i (.raised e s) = .next (raiseErr i.opcode i.opcode e (s.forgetTables i.opcode)) := rfl

@[simp] theorem finishProducer_stuck (i : Instr) (f : Fault) : finishProducer i (.stuck f) = .fault f := rfl

/-- Everything `finishProducer` can answer. -/
theorem finishProducer_eq_next {i : Instr} {r : Res Unit} {t : State} :
    finishProducer i r = .next t ↔
      (∃ u, r = .ok () u ∧ t = u.respond true false 0) ∨
      ∃ e u, r = .raised e u ∧ t = raiseErr i.opcode i.opcode e (u.forgetTables i.opcode) := by
  cases r <;> simp [eq_comm]

/-! ### Macro commands -/

theorem runMacro_nil (i : Instr) (s : State) :
    runMacro i [] s =
      .next ((({ s with freqValid := false, treeValid := false, tableValid := false } : State).forgetTables
        i.opcode).respond true false 0) := rfl

/-- A line that completes is followed by the next. -/
theorem runMacro_cons_ok {i : Instr} {line : MacroLine} {rest : List MacroLine} {s t : State}
    (h : line.procedure s = .ok () t) : runMacro i (line :: rest) s = runMacro i rest t := by
  simp [runMacro, h]

/-- A line that raises ends the macro with its own opcode in ERR.OP (45 R206, 46 R226). -/
theorem runMacro_cons_raised {i : Instr} {line : MacroLine} {rest : List MacroLine} {s t : State} {e : Raise}
    (h : line.procedure s = .raised e t) :
    runMacro i (line :: rest) s = .next (raiseErr line.op i.opcode e (t.forgetTables i.opcode)) := by
  simp [runMacro, h]

/-! ### The fields of ERR and of the response -/

@[simp] theorem errCode_packErr (e : Raise) (op mop : BitVec 8) : errCode (packErr e op mop) = e.cls.code := by
  rw [errCode, packErr, extract_append_low _ _ _ _ (by omega), extract_full]

@[simp] theorem errSub_packErr (e : Raise) (op mop : BitVec 8) : errSub (packErr e op mop) = e.sub := by
  rw [errSub, packErr, extract_append_high _ _ _ _ (by omega), extract_append_low _ _ _ _ (by omega), extract_full]

@[simp] theorem errOp_packErr (e : Raise) (op mop : BitVec 8) : errOp (packErr e op mop) = op := by
  rw [errOp, packErr, extract_append_high _ _ _ _ (by omega), extract_append_high _ _ _ _ (by omega),
    extract_append_low _ _ _ _ (by omega), extract_full]

@[simp] theorem errMop_packErr (e : Raise) (op mop : BitVec 8) : errMop (packErr e op mop) = mop := by
  rw [errMop, packErr, extract_append_high _ _ _ _ (by omega), extract_append_high _ _ _ _ (by omega),
    extract_append_high _ _ _ _ (by omega), extract_append_low _ _ _ _ (by omega), extract_full]

@[simp] theorem errInfo_packErr (e : Raise) (op mop : BitVec 8) : errInfo (packErr e op mop) = e.info := by
  rw [errInfo, packErr, extract_append_high _ _ _ _ (by omega), extract_append_high _ _ _ _ (by omega),
    extract_append_high _ _ _ _ (by omega), extract_append_high _ _ _ _ (by omega),
    extract_append_high _ _ _ _ (by omega), extract_full]

theorem packErr_reserved (e : Raise) (op mop : BitVec 8) : (packErr e op mop).extractLsb' 24 8 = 0 := by
  rw [packErr, extract_append_high _ _ _ _ (by omega), extract_append_high _ _ _ _ (by omega),
    extract_append_high _ _ _ _ (by omega), extract_append_high _ _ _ _ (by omega),
    extract_append_low _ _ _ _ (by omega), extract_full]
  rfl

theorem errClass_code_ne (c : ErrClass) : c.code ≠ 0 := by cases c <;> decide

theorem errClass_code_le (c : ErrClass) : c.code.toNat ≤ 8 := by cases c <;> decide

end Sys2Proof.Machine
end

