-- ==== Sys2Proof/Laws/Trees.lean ====
section
/-! SUPPORT. Code trees: their sizes, their serialisation and their codes (30_encoding.md R102 to R104), and where the
node memory holds one (10_state.md R36). -/

namespace Sys2Proof.Machine

theorem leaves_pos (t : CodeTree) : 1 ≤ t.leaves := by
  induction t with
  | leaf y => exact Nat.le_refl 1
  | node l r hl hr => simp only [CodeTree.leaves]; omega

theorem size_eq (t : CodeTree) : t.size = 2 * t.leaves - 1 := by
  induction t with
  | leaf y => rfl
  | node l r hl hr =>
    have := leaves_pos l; have := leaves_pos r
    simp only [CodeTree.leaves, CodeTree.size]; omega

theorem depth_lt_leaves (t : CodeTree) : t.depth < t.leaves := by
  induction t with
  | leaf y => exact Nat.zero_lt_one
  | node l r hl hr => simp only [CodeTree.leaves, CodeTree.depth]; omega

/-- A tree with L leaves is serialised in 11 L - 1 bits (30_encoding.md R102). -/
theorem bits_length (t : CodeTree) : t.bits.length = 11 * t.leaves - 1 := by
  induction t with
  | leaf y => simp [CodeTree.bits, CodeTree.leaves]
  | node l r hl hr =>
    have := leaves_pos l; have := leaves_pos r
    simp only [CodeTree.bits, CodeTree.leaves, List.length_cons, List.length_append, hl, hr]; omega

theorem codes_length (t : CodeTree) : t.codes.length = t.leaves := by
  induction t with
  | leaf y => rfl
  | node l r hl hr => simp [CodeTree.codes, CodeTree.leaves, hl, hr]

theorem code_length_le (t : CodeTree) : ∀ p ∈ t.codes, p.2.length ≤ t.depth := by
  induction t with
  | leaf y => simp [CodeTree.codes]
  | node l r hl hr =>
    intro p hp
    simp only [CodeTree.codes, List.mem_append, List.mem_map] at hp
    simp only [CodeTree.depth]
    rcases hp with ⟨q, hq, rfl⟩ | ⟨q, hq, rfl⟩
    · have := hl q hq; simp; omega
    · have := hr q hq; simp; omega

/-- The nodes of a tree, in pre-order. -/
def CodeTree.tokens : CodeTree → List TreeToken
  | .leaf y => [.leaf y]
  | .node l r => .internal :: (l.tokens ++ r.tokens)

theorem tokens_bits (t : CodeTree) : t.tokens.flatMap TreeToken.bits = t.bits := by
  induction t with
  | leaf y => simp [CodeTree.tokens, TreeToken.bits, CodeTree.bits]
  | node l r hl hr => simp [CodeTree.tokens, CodeTree.bits, TreeToken.bits, hl, hr]

theorem tokens_length (t : CodeTree) : t.tokens.length = t.size := by
  induction t with
  | leaf y => rfl
  | node l r hl hr => simp [CodeTree.tokens, CodeTree.size, hl, hr]

theorem subtreesLeft_succ (ts : List TreeToken) : ∀ {p k : Nat}, subtreesLeft p ts = some k →
    subtreesLeft (p + 1) ts = some (k + 1) := by
  induction ts with
  | nil => intro p k h; simpa [subtreesLeft] using h
  | cons x ts ih =>
    intro p k h
    cases p with
    | zero => simp [subtreesLeft] at h
    | succ p => cases x <;> exact ih h

theorem subtreesLeft_tokens (t : CodeTree) : ∀ (p : Nat) (ts : List TreeToken),
    subtreesLeft (p + 1) (t.tokens ++ ts) = subtreesLeft p ts := by
  induction t with
  | leaf y => intro p ts; rfl
  | node l r hl hr =>
    intro p ts
    simp only [CodeTree.tokens, List.cons_append, List.append_assoc, subtreesLeft]
    rw [hl, hr]

/-- A pre-order prefix ends inside the first subtree it waits for, or begins with all of it. -/
theorem subtreesLeft_split (n : Nat) : ∀ {ts : List TreeToken} {p k : Nat}, ts.length ≤ n →
    subtreesLeft (p + 1) ts = some k →
      (∃ j, subtreesLeft 1 ts = some (j + 1)) ∨
        ∃ (t : CodeTree) (us : List TreeToken), ts = t.tokens ++ us ∧ subtreesLeft p us = some k := by
  induction n with
  | zero =>
    intro ts p k hn h
    rw [List.length_eq_zero_iff.1 (Nat.le_zero.1 hn)]; exact .inl ⟨0, rfl⟩
  | succ n ih =>
    intro ts p k hn h
    match ts with
    | [] => exact .inl ⟨0, rfl⟩
    | .leaf y :: ts => exact .inr ⟨.leaf y, ts, rfl, h⟩
    | .internal :: ts =>
      simp only [List.length_cons, Nat.add_le_add_iff_right] at hn
      rcases ih hn h with ⟨j, hj⟩ | ⟨l, us, rfl, hu⟩
      · exact .inl ⟨j + 1, subtreesLeft_succ ts hj⟩
      · rw [List.length_append] at hn
        rcases ih (by omega) hu with ⟨j, hj⟩ | ⟨r, vs, rfl, hv⟩
        · exact .inl ⟨j, (subtreesLeft_tokens l 1 us).trans hj⟩
        · exact .inr ⟨.node l r, vs, by simp [CodeTree.tokens], hv⟩

/-- A tree with an internal root has no empty code (45 R202 (a)). -/
theorem code_ne_nil (l r : CodeTree) : ∀ p ∈ (CodeTree.node l r).codes, p.2 ≠ [] := by
  intro p hp
  simp only [CodeTree.codes, List.mem_append, List.mem_map] at hp
  rcases hp with ⟨q, -, rfl⟩ | ⟨q, -, rfl⟩ <;> simp

/-- The codes of a tree form a prefix code (45 R202 (d)). -/
theorem codes_prefixFree (t : CodeTree) :
    t.codes.Pairwise fun p q => ¬ p.2 <+: q.2 ∧ ¬ q.2 <+: p.2 := by
  induction t with
  | leaf y => simp [CodeTree.codes]
  | node l r hl hr =>
    simp only [CodeTree.codes, List.pairwise_append, List.pairwise_map]
    refine ⟨hl.imp fun h => by simpa using h, hr.imp fun h => by simpa using h, ?_⟩
    simp only [List.mem_map, forall_exists_index, and_imp, forall_apply_eq_imp_iff₂]
    intro p _ q _
    simp

/-- Of two codes of a tree, one is a prefix of the other only if they are the same code of the same leaf. -/
theorem codes_eq_of_prefix {t : CodeTree} {p q : Symbol × List Bool} (hp : p ∈ t.codes) (hq : q ∈ t.codes)
    (h : p.2 <+: q.2) : p = q := by
  have hpw := codes_prefixFree t
  by_contra hne
  rcases List.mem_iff_getElem.1 hp with ⟨i, hi, rfl⟩
  rcases List.mem_iff_getElem.1 hq with ⟨j, hj, rfl⟩
  rcases Nat.lt_trichotomy i j with hij | hij | hij
  · exact (List.pairwise_iff_getElem.1 hpw i j hi hj hij).1 h
  · subst hij; exact hne rfl
  · exact (List.pairwise_iff_getElem.1 hpw j i hj hi hij).2 h

theorem entry_mem {t : CodeTree} {y : Symbol} (h : y ∈ t.codes.map Prod.fst) : (y, t.entry y) ∈ t.codes := by
  unfold CodeTree.entry
  cases hf : t.codes.reverse.find? (fun c => c.1 = y) with
  | none =>
    rw [List.find?_eq_none] at hf
    obtain ⟨p, hp, rfl⟩ := List.mem_map.1 h
    exact absurd (by simp) (hf p (List.mem_reverse.2 hp))
  | some p =>
    have h1 := List.mem_of_find?_eq_some hf
    have h2 := List.find?_some hf
    simp only [decide_eq_true_eq] at h2
    subst h2
    simpa using h1

theorem entry_eq_nil {t : CodeTree} {y : Symbol} (h : y ∉ t.codes.map Prod.fst) : t.entry y = [] := by
  unfold CodeTree.entry
  rw [List.find?_eq_none.2]
  · rfl
  · intro p hp hy
    exact h (List.mem_map.2 ⟨p, List.mem_reverse.1 hp, by simpa using hy⟩)

/-! ### Trees in the node memory -/

theorem treeAt_length {m : Vector Node 513} {t : CodeTree} {i : NodeIx} {ixs : List NodeIx} (h : TreeAt m t i ixs) :
    ixs.length = t.size := by
  induction t generalizing i ixs with
  | leaf y => obtain ⟨rfl, -⟩ := h; rfl
  | node l r hl hr =>
    obtain ⟨w, a, b, as, bs, -, h1, h2, rfl⟩ := h
    simp [CodeTree.size, hl h1, hr h2]

/-- A record is the root of at most one tree. -/
theorem treeAt_unique {m : Vector Node 513} {t u : CodeTree} {i : NodeIx} {ixs jxs : List NodeIx}
    (h : TreeAt m t i ixs) (h' : TreeAt m u i jxs) : t = u ∧ ixs = jxs := by
  induction t generalizing u i ixs jxs with
  | leaf y =>
    obtain ⟨rfl, w, hw⟩ := h
    cases u with
    | leaf z => obtain ⟨rfl, v, hv⟩ := h'; rw [hw] at hv; simp_all
    | node l r => obtain ⟨v, a, b, as, bs, hv, -⟩ := h'; rw [hw] at hv; simp at hv
  | node l r hl hr =>
    obtain ⟨w, a, b, as, bs, hw, h1, h2, rfl⟩ := h
    cases u with
    | leaf z => obtain ⟨rfl, v, hv⟩ := h'; rw [hw] at hv; simp at hv
    | node l' r' =>
      obtain ⟨v, a', b', as', bs', hv, h3, h4, rfl⟩ := h'
      rw [hw] at hv
      simp only [Node.internal.injEq] at hv
      obtain ⟨-, rfl, rfl⟩ := hv
      obtain ⟨rfl, rfl⟩ := hl h1 h3
      obtain ⟨rfl, rfl⟩ := hr h2 h4
      exact ⟨rfl, rfl⟩

/-- A tree stays where it is when the records it takes stay as they are. -/
theorem treeAt_congr {m m' : Vector Node 513} {t : CodeTree} {i : NodeIx} {ixs : List NodeIx}
    (h : TreeAt m t i ixs) (hm : ∀ j ∈ ixs, m'.get j = m.get j) : TreeAt m' t i ixs := by
  induction t generalizing i ixs with
  | leaf y =>
    obtain ⟨rfl, w, hw⟩ := h
    exact ⟨rfl, w, by rw [hm i (by simp), hw]⟩
  | node l r hl hr =>
    obtain ⟨w, a, b, as, bs, hw, h1, h2, rfl⟩ := h
    refine ⟨w, a, b, as, bs, by rw [hm i (by simp), hw], hl h1 fun j hj => hm j ?_, hr h2 fun j hj => hm j ?_, rfl⟩
      <;> simp [hj]

theorem size_le_of_nodup {m : Vector Node 513} {t : CodeTree} {i : NodeIx} {ixs : List NodeIx}
    (h : TreeAt m t i ixs) (hn : ixs.Nodup) : t.size ≤ 513 := by
  rw [← treeAt_length h]; simpa using hn.length_le_card

/-- The depth of a tree in the node memory is at most 256 (00_scope.md R6, CODE_MAX). -/
theorem depth_le_of_nodup {m : Vector Node 513} {t : CodeTree} {i : NodeIx} {ixs : List NodeIx}
    (h : TreeAt m t i ixs) (hn : ixs.Nodup) : t.depth ≤ 256 := by
  have h1 := size_le_of_nodup h hn
  have h2 := size_eq t
  have h3 := depth_lt_leaves t
  omega

end Sys2Proof.Machine
end

