-- ==== Sys2Proof/Laws/Build.lean ====
section
/-! SUPPORT. What TBUILD builds (43_canonical_tree_builder.md R172 to R175). -/

namespace Sys2Proof.Machine

/-! ### The leaves -/

theorem leavesOf_eq (freq : Vector (BitVec 64) 257) :
    leavesOf freq = (counted freq).map fun y => .leaf (some y) (BitVec.ofNat 73 (freq.get y).toNat) := by
  have h : freq.toList.zipIdx = (List.finRange 257).map fun y => (freq.get y, y.val) := by
    apply List.ext_getElem
    · simp
    · intro i h1 h2
      simp [Vector.get_eq_getElem]
  unfold leavesOf counted
  rw [h, List.filter_map, List.map_map]
  apply List.map_congr_left
  intro y _
  simp [BitVec.ofNat_toNat]

theorem expectedLeaves_length_le (freq : Vector (BitVec 64) 257) : (expectedLeaves freq).length ≤ 257 := by
  unfold expectedLeaves
  split
  · simp
  · have h := List.length_filter_le (fun y => freq.get y != 0) (List.finRange 257)
    simpa [counted] using h

theorem mem_counted {freq : Vector (BitVec 64) 257} {y : Symbol} : y ∈ counted freq ↔ freq.get y ≠ 0 := by
  simp [counted]

theorem two_le_expectedLeaves {freq : Vector (BitVec 64) 257} (h : freq.get terminator = 1) :
    2 ≤ (expectedLeaves freq).length := by
  have hm : terminator ∈ counted freq := mem_counted.2 (by rw [h]; decide)
  have hp := List.length_pos_of_mem hm
  unfold expectedLeaves
  split
  · simp
  · simp; omega

/-- Pushing records from a given count on. -/
theorem pushAll (xs : List Node) : ∀ {s : State}, s.nodeCnt + xs.length ≤ 513 →
    (xs.foldl State.pushNode s).nodeCnt = s.nodeCnt + xs.length ∧
    (∀ (k : Nat) (x : Node), xs[k]? = some x → (xs.foldl State.pushNode s).nodeAt (nodeIxOf (s.nodeCnt + k)) = x) ∧
    (∀ k : NodeIx, k.val < s.nodeCnt ∨ s.nodeCnt + xs.length ≤ k.val →
      (xs.foldl State.pushNode s).nodeAt k = s.nodeAt k) ∧
    xs.foldl State.pushNode s =
      { s with node := (xs.foldl State.pushNode s).node, nodeCnt := (xs.foldl State.pushNode s).nodeCnt } := by
  induction xs with
  | nil => intro s h; simp
  | cons x xs ih =>
    intro s h
    rw [List.length_cons] at h
    obtain ⟨h1, h2, h3, h4⟩ := ih (s := s.pushNode x) (by show s.nodeCnt + 1 + _ ≤ _; omega)
    have hc : (s.pushNode x).nodeCnt = s.nodeCnt + 1 := rfl
    rw [hc] at h1 h2 h3
    rw [List.foldl_cons, List.length_cons]
    refine ⟨by rw [h1]; omega, ?_, ?_, h4⟩
    · intro k y hk
      cases k with
      | zero =>
        simp only [List.getElem?_cons_zero, Option.some.injEq] at hk
        subst hk
        rw [Nat.add_zero, h3 _ (Or.inl (by rw [nodeIxOf_val (by omega)]; omega)), nodeAt_pushNode, if_pos rfl]
      | succ k =>
        rw [List.getElem?_cons_succ] at hk
        rw [← h2 k y hk]; congr 2; omega
    · intro k hk
      rw [h3 k (by omega), nodeAt_pushNode, if_neg]
      rintro rfl
      rw [nodeIxOf_val (by omega)] at hk; omega

/-- The leaves TBUILD makes, in record order (43 R172, R173). -/
theorem tBuildLeaves_sound (s : State) :
    (tBuildLeaves s).nodeCnt = (expectedLeaves s.freq).length ∧
    (∀ (k : Nat) (y : Symbol) (c : Nat), (expectedLeaves s.freq)[k]? = some (y, c) →
      (tBuildLeaves s).nodeAt (nodeIxOf k) = .leaf (some y) (BitVec.ofNat 73 c)) ∧
    (∀ k : NodeIx, (expectedLeaves s.freq).length ≤ k.val → (tBuildLeaves s).nodeAt k = s.nodeAt k) ∧
    tBuildLeaves s =
      { s with node := (tBuildLeaves s).node, nodeCnt := (tBuildLeaves s).nodeCnt, treeValid := false,
               tableValid := false } := by
  have hlen : (leavesOf s.freq).length = (counted s.freq).length := by rw [leavesOf_eq, List.length_map]
  have hle : (counted s.freq).length ≤ 257 := by
    have h := List.length_filter_le (fun y => s.freq.get y != 0) (List.finRange 257)
    simpa [counted] using h
  obtain ⟨h1, h2, h3, h4⟩ := pushAll (leavesOf s.freq)
    (s := { s with treeValid := false, tableValid := false, nodeCnt := 0 }) (by dsimp only; omega)
  dsimp only at h1 h2 h3
  rw [Nat.zero_add] at h1 h3
  unfold tBuildLeaves expectedLeaves
  dsimp only
  rw [h1, hlen]
  by_cases hone : (counted s.freq).length = 1
  · rw [if_pos hone, if_pos hone]
    refine ⟨rfl, ?_, ?_, ?_⟩
    · intro k y c hk
      show (((List.foldl State.pushNode _ _).setNode 0 _).setNode 1 _).nodeAt _ = _
      rw [nodeAt_setNode, nodeAt_setNode]
      match k, hk with
      | 0, hk =>
        simp only [List.getElem?_cons_zero, Option.some.injEq, Prod.mk.injEq] at hk
        obtain ⟨rfl, rfl⟩ := hk
        rfl
      | 1, hk =>
        simp only [List.getElem?_cons_succ, List.getElem?_cons_zero, Option.some.injEq, Prod.mk.injEq] at hk
        obtain ⟨rfl, rfl⟩ := hk
        rfl
      | k + 2, hk => simp at hk
    · intro k hk
      show (((List.foldl State.pushNode _ _).setNode 0 _).setNode 1 _).nodeAt _ = _
      simp only [List.length_cons, List.length_nil] at hk
      rw [nodeAt_setNode, nodeAt_setNode, if_neg, if_neg, h3 k (Or.inr (by omega))]
      · rfl
      · rintro rfl; simp at hk
      · rintro rfl; simp at hk
    · conv_lhs => rw [h4]
      rfl
  · rw [if_neg hone, if_neg hone]
    refine ⟨?_, ?_, ?_, ?_⟩
    · rw [h1, hlen, List.length_map]
    · intro k y c hk
      rw [List.getElem?_map, Option.map_eq_some_iff] at hk
      obtain ⟨z, hz, he⟩ := hk
      obtain ⟨rfl, rfl⟩ := Prod.mk.inj he
      have := h2 k (.leaf (some z) (BitVec.ofNat 73 (s.freq.get z).toNat)) (by rw [leavesOf_eq, List.getElem?_map, hz]; rfl)
      rwa [Nat.zero_add] at this
    · intro k hk
      rw [List.length_map] at hk
      exact h3 k (Or.inr (by omega))
    · conv_lhs => rw [h4]

/-! ### The least record -/

theorem removedBefore_iff {s : State} {i j : NodeIx} : removedBefore s i j = true ↔ precedes s.node i j := by
  unfold removedBefore precedes State.nodeAt
  simp only [Bool.or_eq_true, Bool.and_eq_true, decide_eq_true_eq, beq_iff_eq, BitVec.lt_def, Fin.lt_def]
  constructor
  · rintro (h | ⟨h, h'⟩)
    · exact Or.inl h
    · exact Or.inr ⟨by rw [h], h'⟩
  · rintro (h | ⟨h, h'⟩)
    · exact Or.inl h
    · exact Or.inr ⟨BitVec.eq_of_toNat_eq h, h'⟩

theorem precedes_trans {m : Vector Node 513} {i j k : NodeIx} (h : precedes m i j) (h' : precedes m j k) :
    precedes m i k := by
  unfold precedes at *; omega

theorem precedes_or {m : Vector Node 513} {i j : NodeIx} (h : i ≠ j) : precedes m i j ∨ precedes m j i := by
  have : i.val ≠ j.val := fun h' => h (Fin.ext h')
  unfold precedes; omega

/-- `leastOf` is one of the records given and precedes every other (43 R172). -/
theorem leastOf_least (s : State) (q : List NodeIx) : ∀ i : NodeIx,
    leastOf s i q ∈ i :: q ∧ ∀ c ∈ i :: q, c ≠ leastOf s i q → precedes s.node (leastOf s i q) c := by
  induction q with
  | nil => intro i; simp [leastOf]
  | cons j q ih =>
    intro i
    have hstep : leastOf s i (j :: q) = leastOf s (if removedBefore s j i then j else i) q := rfl
    obtain ⟨h1, h2⟩ := ih (if removedBefore s j i then j else i)
    rw [hstep]
    by_cases hj : removedBefore s j i = true
    · rw [if_pos hj] at h1 h2 ⊢
      have hji := removedBefore_iff.1 hj
      refine ⟨List.mem_cons_of_mem _ h1, ?_⟩
      intro c hc hne
      rcases List.mem_cons.1 hc with rfl | hc
      · by_cases hm : j = leastOf s j q
        · rw [← hm]; exact hji
        · exact precedes_trans (h2 j (by simp) hm) hji
      · exact h2 c hc hne
    · rw [if_neg hj] at h1 h2 ⊢
      refine ⟨?_, ?_⟩
      · rcases List.mem_cons.1 h1 with h | h
        · rw [h]; simp
        · simp [h]
      · intro c hc hne
        rcases List.mem_cons.1 hc with rfl | hc
        · exact h2 c (by simp) hne
        · rcases List.mem_cons.1 hc with rfl | hc
          · by_cases hci : c = i
            · subst hci; exact h2 c (by simp) hne
            · have hic : precedes s.node i c := (precedes_or hci).resolve_left fun h => hj (removedBefore_iff.2 h)
              by_cases hm : i = leastOf s i q
              · rw [← hm]; exact hic
              · exact precedes_trans (h2 i (by simp) hm) hic
          · exact h2 c (by simp [hc]) hne

/-! ### The merges -/

/-- What R172 says of an internal record `k`: it joins the least two of the records live when it is made, the first
removed on the left. -/
def JoinsLeast (m : Vector Node 513) (first : Nat) (k : NodeIx) : Prop :=
  ∃ a b, m.get k = .internal (weightOf (m.get a) + weightOf (m.get b)) a b ∧ a ≠ b ∧
    liveAt m first k.val a ∧ liveAt m first k.val b ∧
    (∀ c, liveAt m first k.val c → c ≠ a → precedes m a c) ∧
    ∀ c, liveAt m first k.val c → c ≠ a → c ≠ b → precedes m b c

/-- The two memories agree below record `n`. -/
def AgreeBelow (n : Nat) (m m' : Vector Node 513) : Prop := ∀ i : NodeIx, i.val < n → m'.get i = m.get i

theorem liveAt_congr {n k first : Nat} {m m' : Vector Node 513} (h : AgreeBelow n m m') (hk : k ≤ n) (i : NodeIx) :
    liveAt m' first k i ↔ liveAt m first k i := by
  unfold liveAt
  refine and_congr_right fun _ => forall_congr' fun j => ?_
  constructor <;> intro hj h1 h2 <;> have := hj h1 h2 <;> rw [h j (by omega)] at * <;> exact this

theorem joinsLeast_congr {n first : Nat} {m m' : Vector Node 513} (h : AgreeBelow n m m') {k : NodeIx}
    (hk : k.val < n) (hj : JoinsLeast m first k) : JoinsLeast m' first k := by
  obtain ⟨a, b, h1, h2, h3, h4, h5, h6⟩ := hj
  have hl := fun i => liveAt_congr h (Nat.le_of_lt hk) (first := first) i
  have ha : m'.get a = m.get a := h a (by have := h3.1; omega)
  have hb : m'.get b = m.get b := h b (by have := h4.1; omega)
  refine ⟨a, b, by rw [h k hk, ha, hb]; exact h1, h2, (hl a).2 h3, (hl b).2 h4, ?_, ?_⟩
  · intro c hc hne
    have hc' := (hl c).1 hc
    have := h5 c hc' hne
    unfold precedes at this ⊢
    rwa [ha, h c (by have := hc'.1; omega)]
  · intro c hc hne hne'
    have hc' := (hl c).1 hc
    have := h6 c hc' hne hne'
    unfold precedes at this ⊢
    rwa [hb, h c (by have := hc'.1; omega)]

/-- One tree of the forest: its root record, its shape, its records. -/
structure Rooted where
  root : NodeIx
  tree : CodeTree
  ixs : List NodeIx

/-- The node memory in the middle of TBUILD: the live set `q` are the roots of disjoint trees that take up all records
made so far, and every internal record joined the least two. -/
structure Forest (s : State) (first : Nat) (q : List NodeIx) (f : List Rooted) : Prop where
  roots : (f.map Rooted.root).Perm q
  trees : ∀ x ∈ f, TreeAt s.node x.tree x.root x.ixs
  disjoint : (f.flatMap Rooted.ixs).Nodup
  cover : ∀ i : NodeIx, i ∈ f.flatMap Rooted.ixs ↔ i.val < s.nodeCnt
  nodup : q.Nodup
  live : ∀ i, liveAt s.node first s.nodeCnt i ↔ i ∈ q
  count : s.nodeCnt + q.length = 2 * first
  lower : first ≤ s.nodeCnt
  joins : ∀ k : NodeIx, first ≤ k.val → k.val < s.nodeCnt → JoinsLeast s.node first k

/-- The symbols at the leaves of a forest. -/
def forestSymbols (f : List Rooted) : List Symbol := f.flatMap fun x => x.tree.codes.map Prod.fst

/-- The weights of its roots. -/
def forestWeight (s : State) (f : List Rooted) : Nat := (f.map fun x => (weightOf (s.nodeAt x.root)).toNat).sum

theorem node_symbols (l r : CodeTree) :
    (CodeTree.node l r).codes.map Prod.fst = l.codes.map Prod.fst ++ r.codes.map Prod.fst := by
  simp [CodeTree.codes]; rfl

/-- The merging loop on a forest (43 R172): it ends with one tree on the same leaves. -/
theorem mergeLoop_sound (fuel : Nat) : ∀ {s : State} {first : Nat} {q : List NodeIx} {f : List Rooted},
    Forest s first q f → q ≠ [] → first ≤ 257 → q.length ≤ fuel + 1 →
      ∃ r t f', mergeLoop fuel q s = .ok r t ∧ Forest t first [r] f' ∧
        t = { s with node := t.node, nodeCnt := t.nodeCnt } ∧ AgreeBelow s.nodeCnt s.node t.node ∧
        (∀ k : NodeIx, t.nodeCnt ≤ k.val → t.nodeAt k = s.nodeAt k) ∧ s.nodeCnt ≤ t.nodeCnt ∧
        (forestSymbols f').Perm (forestSymbols f) ∧
        (forestWeight s f < 2 ^ 73 → forestWeight t f' = forestWeight s f) := by
  induction fuel with
  | zero =>
    intro s first q f hf hq hL hlen
    match q, hq, hlen with
    | [r], _, _ =>
      exact ⟨r, s, f, rfl, hf, rfl, fun _ _ => rfl, fun _ _ => rfl, Nat.le_refl _, List.Perm.refl _, fun _ => rfl⟩
    | _ :: _ :: _, _, hlen => simp at hlen
  | succ fuel ih =>
    intro s first q f hf hq hL hlen
    match q, hq, hlen, hf with
    | [r], _, _, hf =>
      exact ⟨r, s, f, rfl, hf, rfl, fun _ _ => rfl, fun _ _ => rfl, Nat.le_refl _, List.Perm.refl _, fun _ => rfl⟩
    | i :: j :: q, _, hlen, hf =>
      have hcount := hf.count
      simp only [List.length_cons] at hcount hlen
      have hn : s.nodeCnt < 513 := by omega
      obtain ⟨ha1, ha2⟩ := leastOf_least s (j :: q) i
      generalize hA : leastOf s i (j :: q) = a at ha1 ha2
      have hpermA : (i :: j :: q).Perm (a :: (i :: j :: q).erase a) := List.perm_cons_erase ha1
      have hlenA : ((i :: j :: q).erase a).length = q.length + 1 := by
        rw [List.length_erase_of_mem ha1]; simp
      match hE : (i :: j :: q).erase a, hlenA with
      | k :: q', hlenA =>
        simp only [List.length_cons, Nat.add_right_cancel_iff] at hlenA
        rw [hE] at hpermA
        obtain ⟨hb1, hb2⟩ := leastOf_least s q' k
        generalize hB : leastOf s k q' = b at hb1 hb2
        have hpermB : (k :: q').Perm (b :: (k :: q').erase b) := List.perm_cons_erase hb1
        have hperm : (i :: j :: q).Perm (a :: b :: (k :: q').erase b) := hpermA.trans (hpermB.cons a)
        have hnod : (a :: b :: (k :: q').erase b).Nodup := hperm.nodup_iff.1 hf.nodup
        generalize hR : (k :: q').erase b = rest at hpermB hperm hnod
        have hab : a ≠ b := fun h => by simp [h] at hnod
        have hmem : ∀ c, c ∈ i :: j :: q ↔ c = a ∨ c = b ∨ c ∈ rest := fun c => by rw [hperm.mem_iff]; simp
        have hmemB : ∀ c, c ∈ k :: q' ↔ c = b ∨ c ∈ rest := fun c => by rw [hpermB.mem_iff]; simp
        -- the trees of a and b
        have hfp : (f.map Rooted.root).Perm (a :: b :: rest) := hf.roots.trans hperm
        obtain ⟨xa, hxa, hxar⟩ := List.mem_map.1 (hfp.mem_iff.2 (show a ∈ a :: b :: rest by simp))
        obtain ⟨f1, hf1⟩ : ∃ f1, f.Perm (xa :: f1) := by
          obtain ⟨u, v, rfl⟩ := List.append_of_mem hxa
          exact ⟨u ++ v, List.perm_middle⟩
        have hf1p : (f1.map Rooted.root).Perm (b :: rest) := by
          have := (hf1.map Rooted.root).symm.trans hfp
          rw [List.map_cons, hxar] at this
          exact List.Perm.cons_inv this
        obtain ⟨xb, hxb, hxbr⟩ := List.mem_map.1 (hf1p.mem_iff.2 (show b ∈ b :: rest by simp))
        obtain ⟨f2, hf2⟩ : ∃ f2, f1.Perm (xb :: f2) := by
          obtain ⟨u, v, rfl⟩ := List.append_of_mem hxb
          exact ⟨u ++ v, List.perm_middle⟩
        have hf2p : (f2.map Rooted.root).Perm rest := by
          have := (hf2.map Rooted.root).symm.trans hf1p
          rw [List.map_cons, hxbr] at this
          exact List.Perm.cons_inv this
        have hff : f.Perm (xa :: xb :: f2) := hf1.trans (hf2.cons xa)
        have hixs : (f.flatMap Rooted.ixs).Perm (xa.ixs ++ (xb.ixs ++ f2.flatMap Rooted.ixs)) := by
          have := hff.flatMap_right Rooted.ixs
          simpa using this
        -- the new record
        generalize hN : nodeIxOf s.nodeCnt = new
        have hnew : new.val = s.nodeCnt := by rw [← hN]; exact nodeIxOf_val hn
        generalize hS : s.pushNode (.internal (weightOf (s.nodeAt a) + weightOf (s.nodeAt b)) a b) = t
        have htn : t.nodeCnt = s.nodeCnt + 1 := by rw [← hS]; rfl
        have htat : ∀ c : NodeIx, t.nodeAt c = if new = c then
            .internal (weightOf (s.nodeAt a) + weightOf (s.nodeAt b)) a b else s.nodeAt c := by
          intro c; rw [← hS, nodeAt_pushNode, hN]
        have hagree : AgreeBelow s.nodeCnt s.node t.node := by
          intro c hc
          exact (htat c).trans (if_neg (fun h => by rw [← h, hnew] at hc; omega))
        have htnew : t.node.get new = .internal (weightOf (s.nodeAt a) + weightOf (s.nodeAt b)) a b :=
          (htat new).trans (if_pos rfl)
        have hlt : ∀ c ∈ i :: j :: q, c.val < s.nodeCnt := fun c hc => ((hf.live c).2 hc).1
        have haq : a ∈ i :: j :: q := (hmem a).2 (Or.inl rfl)
        have hbq : b ∈ i :: j :: q := (hmem b).2 (Or.inr (Or.inl rfl))
        have hta : t.node.get a = s.node.get a := hagree a (hlt a haq)
        have htb : t.node.get b = s.node.get b := hagree b (hlt b hbq)
        have htree : ∀ x ∈ f, TreeAt t.node x.tree x.root x.ixs := by
          intro x hx
          refine treeAt_congr (hf.trees x hx) fun c hc => hagree c ?_
          exact (hf.cover c).1 (List.mem_flatMap.2 ⟨x, hx, hc⟩)
        have hnewnot : new ∉ xa.ixs ++ (xb.ixs ++ f2.flatMap Rooted.ixs) := by
          intro h
          have := (hf.cover new).1 (hixs.mem_iff.2 h)
          omega
        have hF : Forest t first (rest ++ [new])
            (⟨new, .node xa.tree xb.tree, new :: (xa.ixs ++ xb.ixs)⟩ :: f2) := by
          refine ⟨?_, ?_, ?_, ?_, ?_, ?_, ?_, ?_, ?_⟩
          · rw [List.map_cons]
            exact (hf2p.cons new).trans (List.perm_append_singleton new rest).symm
          · intro x hx
            rcases List.mem_cons.1 hx with rfl | hx
            · refine ⟨_, a, b, xa.ixs, xb.ixs, htnew, ?_, ?_, rfl⟩
              · rw [← hxar]; exact htree xa (hff.mem_iff.2 (by simp))
              · rw [← hxbr]; exact htree xb (hff.mem_iff.2 (by simp))
            · exact htree x (hff.mem_iff.2 (by simp [hx]))
          · rw [List.flatMap_cons]
            simp only [List.cons_append, List.append_assoc]
            exact List.nodup_cons.2 ⟨hnewnot, hixs.nodup_iff.1 hf.disjoint⟩
          · intro c
            rw [List.flatMap_cons]
            simp only [List.cons_append, List.append_assoc, List.mem_cons]
            rw [← hixs.mem_iff, hf.cover, htn]
            constructor
            · rintro (rfl | h) <;> omega
            · intro h
              by_cases hc : c = new
              · exact Or.inl hc
              · have : c.val ≠ new.val := fun h => hc (Fin.ext h)
                exact Or.inr (by omega)
          · have hrest := (List.nodup_cons.1 (List.nodup_cons.1 hnod).2).2
            refine List.nodup_append.2 ⟨hrest, by simp, ?_⟩
            intro c hc d hd
            rw [List.mem_singleton] at hd
            subst hd
            intro h
            have := hlt c ((hmem c).2 (Or.inr (Or.inr hc)))
            rw [h, hnew] at this; omega
          · intro c
            have hold := hf.live c
            rw [hmem] at hold
            have hlow := hf.lower
            rw [htn]
            unfold liveAt at hold ⊢
            rw [List.mem_append, List.mem_singleton]
            constructor
            · rintro ⟨h1, h2⟩
              by_cases hc : c = new
              · exact Or.inr hc
              · left
                have hc' : c.val ≠ new.val := fun h => hc (Fin.ext h)
                have h3 := h2 new (by omega) (by omega)
                rw [htnew] at h3
                have h4 := hold.1 ⟨by omega, fun d hd1 hd2 => by
                  have := h2 d hd1 (by omega)
                  rwa [hagree d hd2] at this⟩
                rcases h4 with h4 | h4 | h4
                · exact absurd h4 h3.1
                · exact absurd h4 h3.2
                · exact h4
            · intro h
              rcases h with h | rfl
              · have h1 := hold.2 (Or.inr (Or.inr h))
                refine ⟨by omega, fun d hd1 hd2 => ?_⟩
                by_cases hd : d = new
                · subst hd
                  rw [htnew]
                  constructor
                  · rintro rfl; exact (List.nodup_cons.1 hnod).1 (by simp [h])
                  · rintro rfl; exact (List.nodup_cons.1 (List.nodup_cons.1 hnod).2).1 h
                · have hd' : d.val ≠ new.val := fun h => hd (Fin.ext h)
                  have h3 := h1.2 d hd1 (by omega)
                  rwa [hagree d (by omega)]
              · refine ⟨by omega, fun d hd1 hd2 => ?_⟩
                by_cases hd : d = c
                · subst hd
                  rw [htnew]
                  have h1 := hlt a haq
                  have h2 := hlt b hbq
                  constructor
                  · rintro rfl; omega
                  · rintro rfl; omega
                · have hd' : d.val ≠ c.val := fun h => hd (Fin.ext h)
                  rw [hagree d (by omega)]
                  obtain ⟨a', b', hd3, -, hl1, hl2, -⟩ := hf.joins d hd1 (by omega)
                  rw [hd3]
                  have h1 := hl1.1
                  have h2 := hl2.1
                  constructor
                  · rintro rfl; omega
                  · rintro rfl; omega
          · rw [htn, List.length_append, List.length_singleton]
            have := hperm.length_eq
            simp only [List.length_cons] at this
            omega
          · rw [htn]; have := hf.lower; omega
          · intro c hc1 hc2
            by_cases hc : c = new
            · subst hc
              have hl := fun d => (liveAt_congr hagree (Nat.le_refl _) (first := first) d).trans (hf.live d)
              rw [← hnew] at hl
              refine ⟨a, b, by rw [htnew, hta, htb]; rfl, hab, (hl a).2 haq, (hl b).2 hbq, ?_, ?_⟩
              · intro d hd hne
                have hd' := (hl d).1 hd
                have := ha2 d hd' hne
                unfold precedes at this ⊢
                rwa [hta, hagree d (hlt d hd')]
              · intro d hd hne hne'
                have hd' := (hl d).1 hd
                have hdk : d ∈ k :: q' := (hmemB d).2 (by
                  rcases (hmem d).1 hd' with h | h | h
                  · exact absurd h hne
                  · exact Or.inl h
                  · exact Or.inr h)
                have := hb2 d hdk hne'
                unfold precedes at this ⊢
                rwa [htb, hagree d (hlt d hd')]
            · have hc' : c.val ≠ new.val := fun h => hc (Fin.ext h)
              exact joinsLeast_congr hagree (by omega) (hf.joins c hc1 (by omega))
        obtain ⟨r, u, f', g1, g2, g3, g4, g5, g6, g7, g8⟩ := ih hF (by simp) hL (by
          rw [List.length_append, List.length_singleton]
          have := hperm.length_eq
          simp only [List.length_cons] at this
          omega)
        rw [htn] at g6
        refine ⟨r, u, f', ?_, g2, ?_, ?_, ?_, by omega, ?_, ?_⟩
        · rw [mergeLoop]
          simp only [hA, hE, hB, hN, hS, hR]
          exact g1
        · rw [g3, ← hS]; rfl
        · intro c hc
          rw [g4 c (by rw [htn]; omega), hagree c hc]
        · intro c hc
          rw [g5 c hc, htat, if_neg]
          rintro rfl; omega
        · refine g7.trans ?_
          have h1 : (forestSymbols f).Perm (forestSymbols (xa :: xb :: f2)) := hff.flatMap_right _
          refine List.Perm.trans ?_ h1.symm
          simp only [forestSymbols, List.flatMap_cons, node_symbols, List.append_assoc]
          exact List.Perm.refl _
        · intro hw
          have h1 : forestWeight s f = (weightOf (s.nodeAt a)).toNat + ((weightOf (s.nodeAt b)).toNat +
              forestWeight s f2) := by
            have := (hff.map fun x => (weightOf (s.nodeAt x.root)).toNat).sum_eq
            simpa [forestWeight, hxar, hxbr] using this
          have h2 : forestWeight t f2 = forestWeight s f2 := by
            unfold forestWeight
            congr 1
            apply List.map_congr_left
            intro x hx
            have hxm : x.root ∈ rest := hf2p.mem_iff.1 (List.mem_map_of_mem hx)
            rw [show t.nodeAt x.root = s.nodeAt x.root from
              hagree _ (hlt _ ((hmem _).2 (Or.inr (Or.inr hxm))))]
          have h3 : forestWeight t (⟨new, .node xa.tree xb.tree, new :: (xa.ixs ++ xb.ixs)⟩ :: f2) =
              forestWeight s f := by
            unfold forestWeight at h1 h2 ⊢
            rw [List.map_cons, List.sum_cons, h2, h1]
            dsimp only
            rw [show t.nodeAt new = _ from htnew]
            show (weightOf (s.nodeAt a) + weightOf (s.nodeAt b)).toNat + _ = _
            rw [BitVec.toNat_add, Nat.mod_eq_of_lt (by unfold forestWeight at hw; omega)]
            omega
          rw [g8 (by rw [h3]; exact hw), h3]

/-! ### TBUILD -/

theorem liveAt_first {m : Vector Node 513} {n : Nat} (i : NodeIx) : liveAt m n n i ↔ i.val < n :=
  ⟨fun h => h.1, fun h => ⟨h, fun j h1 h2 => by omega⟩⟩

theorem sum_map_filter_ne_zero (l : List Symbol) (g : Symbol → BitVec 64) :
    ((l.filter fun y => g y != 0).map fun y => (g y).toNat).sum = (l.map fun y => (g y).toNat).sum := by
  induction l with
  | nil => rfl
  | cons y l ih =>
    by_cases h : (g y != 0) = true
    · rw [List.filter_cons_of_pos (p := fun y => g y != 0) h, List.map_cons, List.sum_cons, ih, List.map_cons, List.sum_cons]
    · have h0 : g y = 0 := by simpa using h
      rw [List.filter_cons_of_neg (p := fun y => g y != 0) h, ih, List.map_cons, List.sum_cons, h0]
      simp

/-- The sum of the counts (43 R175 (d)). -/
theorem expectedLeaves_sum {freq : Vector (BitVec 64) 257} (h : freq.get terminator = 1) :
    ((expectedLeaves freq).map Prod.snd).sum = ((List.finRange 257).map fun y => (freq.get y).toNat).sum := by
  have hs := sum_map_filter_ne_zero (List.finRange 257) freq.get
  rw [← hs]
  unfold expectedLeaves
  split
  · rename_i h1
    obtain ⟨y, hy⟩ := List.length_eq_one_iff.1 h1
    have hm : terminator ∈ counted freq := mem_counted.2 (by rw [h]; decide)
    rw [hy, List.mem_singleton] at hm
    unfold counted at hy
    rw [hy, ← hm]
    simp [h]
  · simp [counted, List.map_map, Function.comp_def]

theorem sum_le_of_forall {l : List Symbol} {g : Symbol → Nat} {b : Nat} (h : ∀ y ∈ l, g y ≤ b) :
    (l.map g).sum ≤ l.length * b := by
  induction l with
  | nil => simp
  | cons y l ih =>
    have h1 := h y (by simp)
    have h2 := ih fun z hz => h z (by simp [hz])
    rw [List.map_cons, List.sum_cons, List.length_cons, Nat.add_mul]
    omega

/-- Weights cannot overflow (00_scope.md R10). -/
theorem counts_sum_lt (freq : Vector (BitVec 64) 257) :
    ((List.finRange 257).map fun y => (freq.get y).toNat).sum < 2 ^ 73 := by
  have h := sum_le_of_forall (l := List.finRange 257) (g := fun y => (freq.get y).toNat) (b := 2 ^ 64 - 1)
    (fun y _ => by have := (freq.get y).isLt; omega)
  exact lt_of_le_of_lt h (by rw [List.length_finRange]; norm_num)

theorem count_le_of_mem {freq : Vector (BitVec 64) 257} {p : Symbol × Nat} (h : p ∈ expectedLeaves freq) :
    p.2 < 2 ^ 73 := by
  unfold expectedLeaves at h
  split at h
  · simp at h; rcases h with rfl | rfl <;> simp
  · simp only [List.mem_map] at h
    obtain ⟨y, -, rfl⟩ := h
    have := (freq.get y).isLt
    dsimp only; omega

/-- `TBuild()` (43 R172): the leaves, then one record for each merge; the root is the last and holds them all. -/
theorem tBuild_sound {s : State} (h : s.freqOf terminator = 1) :
    ∃ t x, tBuild s = .ok () t ∧ Forest t (expectedLeaves s.freq).length [t.root] [x] ∧
      t = { s with node := t.node, nodeCnt := t.nodeCnt, root := t.root, treeValid := true, tableValid := false } ∧
      t.nodeCnt = 2 * (expectedLeaves s.freq).length - 1 ∧
      (∀ (k : Nat) (y : Symbol) (c : Nat), (expectedLeaves s.freq)[k]? = some (y, c) →
        t.nodeAt (nodeIxOf k) = .leaf (some y) (BitVec.ofNat 73 c)) ∧
      (∀ k : NodeIx, t.nodeCnt ≤ k.val → t.nodeAt k = s.nodeAt k) ∧
      (x.tree.codes.map Prod.fst).Perm ((expectedLeaves s.freq).map Prod.fst) ∧
      (weightOf (t.nodeAt t.root)).toNat = ((List.finRange 257).map fun y => (s.freqOf y).toNat).sum := by
  obtain ⟨b1, b2, b3, b4⟩ := tBuildLeaves_sound s
  have hle := expectedLeaves_length_le s.freq
  have hge := two_le_expectedLeaves (freq := s.freq) h
  generalize hE : expectedLeaves s.freq = ls at b1 b2 b3 hle hge
  generalize hT : tBuildLeaves s = t at b1 b2 b3 b4
  have hget : ∀ k (hk : k < ls.length), t.nodeAt (nodeIxOf k) = .leaf (some ls[k].1) (BitVec.ofNat 73 ls[k].2) :=
    fun k hk => b2 k ls[k].1 ls[k].2 (by rw [List.getElem?_eq_getElem hk])
  -- the forest of leaves
  let f0 : List Rooted := ls.zipIdx.map fun p => ⟨nodeIxOf p.2, .leaf p.1.1, [nodeIxOf p.2]⟩
  have hroots : f0.map Rooted.root = (List.range t.nodeCnt).map nodeIxOf := by
    apply List.ext_getElem
    · simp [f0, b1]
    · intro k h1 h2; simp [f0]
  have hixs : f0.flatMap Rooted.ixs = (List.range t.nodeCnt).map nodeIxOf := by
    rw [← hroots]
    simp only [f0, List.flatMap_map, List.map_map, Function.comp_def]
    exact List.flatMap_pure_eq_map _ _
  have hmem : ∀ c : NodeIx, c ∈ (List.range t.nodeCnt).map nodeIxOf ↔ c.val < t.nodeCnt := by
    intro c
    rw [List.mem_map]
    constructor
    · rintro ⟨k, hk, rfl⟩
      rw [List.mem_range] at hk
      rw [nodeIxOf_val (by omega)]; exact hk
    · intro hc; exact ⟨c.val, List.mem_range.2 hc, nodeIxOf_val_self c⟩
  have hnod : ((List.range t.nodeCnt).map nodeIxOf).Nodup := by
    refine List.Nodup.map_on ?_ List.nodup_range
    intro a ha b hb hab
    rw [List.mem_range] at ha hb
    have := congrArg Fin.val hab
    rwa [nodeIxOf_val (by omega), nodeIxOf_val (by omega)] at this
  have hF : Forest t ls.length ((List.range t.nodeCnt).map nodeIxOf) f0 := by
    refine ⟨by rw [hroots], ?_, by rw [hixs]; exact hnod, fun c => by rw [hixs]; exact hmem c, hnod, ?_, ?_, ?_, ?_⟩
    · intro x hx
      simp only [f0, List.mem_map] at hx
      obtain ⟨⟨p, k⟩, hp, rfl⟩ := hx
      have hk := List.mem_zipIdx' hp
      exact ⟨rfl, BitVec.ofNat 73 p.2, by rw [hk.2]; exact hget k hk.1⟩
    · intro c; rw [b1, liveAt_first, ← b1, hmem]
    · rw [List.length_map, List.length_range, b1]; omega
    · rw [b1]
    · intro k hk1 hk2; omega
  obtain ⟨r, u, f', g1, g2, g3, g4, g5, g6, g7, g8⟩ := mergeLoop_sound t.nodeCnt hF
    (fun h0 => by have := congrArg List.length h0; simp at this; omega) hle (by simp)
  obtain ⟨x, rfl⟩ : ∃ x, f' = [x] := by
    have := g2.roots.length_eq
    simp only [List.length_map, List.length_cons, List.length_nil] at this
    exact List.length_eq_one_iff.1 this
  have hxr : x.root = r := by
    have := g2.roots.mem_iff (a := x.root)
    simpa using this
  have hun : u.nodeCnt = 2 * ls.length - 1 := by
    have := g2.count
    simp only [List.length_cons, List.length_nil] at this
    omega
  have hsyms : forestSymbols f0 = ls.map Prod.fst := by
    simp only [forestSymbols, f0, List.flatMap_map, CodeTree.codes, List.map_cons, List.map_nil]
    rw [show ∀ l : List ((Symbol × Nat) × Nat), (l.flatMap fun a => [a.1.1]) = l.map fun a => a.1.1 from
      fun l => List.flatMap_pure_eq_map _ l]
    apply List.ext_getElem
    · simp
    · intro k h1 h2; simp
  have hweight : forestWeight t f0 = (ls.map Prod.snd).sum := by
    unfold forestWeight
    congr 1
    apply List.ext_getElem
    · simp [f0]
    · intro k h1 h2
      have hk : k < ls.length := by simpa using h2
      have hlt : (ls[k]).2 < 2 ^ 73 := count_le_of_mem (freq := s.freq) (by rw [hE]; exact List.getElem_mem hk)
      simp only [f0, List.map_map, List.getElem_map, List.getElem_zipIdx, Function.comp_apply, Nat.zero_add,
        hget k hk, weightOf, BitVec.toNat_ofNat]
      exact Nat.mod_eq_of_lt hlt
  have hsum : (ls.map Prod.snd).sum = ((List.finRange 257).map fun y => (s.freqOf y).toNat).sum := by
    rw [← hE]; exact expectedLeaves_sum h
  have hlt73 : forestWeight t f0 < 2 ^ 73 := by rw [hweight, hsum]; exact counts_sum_lt s.freq
  refine ⟨{ u with root := r, treeValid := true }, x, ?_, ⟨g2.roots, g2.trees, g2.disjoint, g2.cover, g2.nodup,
    g2.live, g2.count, g2.lower, g2.joins⟩, ?_, hun, ?_, ?_, ?_, ?_⟩
  · unfold tBuild
    rw [hT]
    dsimp only
    rw [g1, ok_andThen]
  · rw [g3, b4]
  · intro k y c hk
    have hk' : k < ls.length := (List.getElem?_eq_some_iff.1 hk).1
    rw [← b2 k y c hk]
    exact g4 _ (by rw [nodeIxOf_val (by omega)]; omega)
  · intro k hk
    have h1 : u.nodeAt k = t.nodeAt k := g5 k hk
    have h2 := b3 k (by dsimp only at hk; omega)
    exact h1.trans h2
  · have := g7
    rw [hsyms] at this
    simpa [forestSymbols] using this
  · have := g8 hlt73
    rw [hweight, hsum] at this
    rw [← this]
    simp [forestWeight, hxr, State.nodeAt]

/-- A forest of one tree on two or more leaves is a tree in the node memory (10_state.md R36). -/
theorem Forest.holdsTree {s : State} {first : Nat} {x : Rooted} (h : Forest s first [s.root] [x])
    (h2 : 2 ≤ x.tree.leaves) : s.holdsTree x.tree := by
  have hr : x.root = s.root := by
    have := h.roots.mem_iff (a := x.root)
    simpa using this
  refine ⟨?_, x.ixs, hr ▸ h.trees x (by simp), by simpa using h.disjoint, fun i => ?_⟩
  · cases hx : x.tree with
    | leaf y => rw [hx] at h2; simp [CodeTree.leaves] at h2
    | node l r => exact ⟨l, r, rfl⟩
  · have := h.cover i
    simpa using this

end Sys2Proof.Machine
end

