-- ==== Sys2Proof/Laws/Closure.lean ====
section
/-! SUPPORT. Every procedure is a sequence of the read primitive, the write primitive and updates of the codec tables; so
relations between start and end that these keep, and that can be chained, hold of the procedure: `R` where it completes,
`Q` where it raises. -/

namespace Sys2Proof.Machine

/-- The relations hold of nothing done and of two things done in turn; a procedure's own raise, which is never RESOURCE
(60_exceptions.md R256), changes nothing. -/
structure Closed (R : State → State → Prop) (Q : State → Raise → State → Prop) : Prop where
  refl : ∀ s, R s s
  trans : ∀ a b c, R a b → R b c → R a c
  raise : ∀ a b e c, R a b → Q b e c → Q a e c
  own : ∀ s e, e.cls ≠ .resource → Q s e s

/-- A relation that does not tell the two ends apart. -/
abbrev Chained (R : State → State → Prop) : Prop := Closed R fun s _ t => R s t

theorem Chained.of {R : State → State → Prop} (refl : ∀ s, R s s) (trans : ∀ a b c, R a b → R b c → R a c) :
    Chained R :=
  ⟨refl, trans, fun a b _ c => trans a b c, fun s _ _ => refl s⟩

/-- The read primitive keeps the relations (40_bit_reader_fifo.md R124). -/
abbrev ReadsKeep (R : State → State → Prop) (Q : State → Raise → State → Prop := fun s _ t => R s t) : Prop :=
  ∀ n s, (rdBits n s).Ends (R s) (Q s)

/-- The write primitive keeps the relations (41_bit_writer_fifo.md R144). -/
abbrev WritesKeep (R : State → State → Prop) (Q : State → Raise → State → Prop := fun s _ t => R s t) : Prop :=
  ∀ n v s, n ≤ 32 → (wrBits n v s).Ends (R s) (Q s)

/-- Updates of the codec tables and their flags keep the relation. -/
abbrev TablesKeep (R : State → State → Prop) : Prop :=
  ∀ (s : State) freq freqValid node nodeCnt root treeValid code tableValid,
    R s { s with freq := freq, freqValid := freqValid, node := node, nodeCnt := nodeCnt, root := root,
                 treeValid := treeValid, code := code, tableValid := tableValid }

namespace Closed

variable {R : State → State → Prop} {Q : State → Raise → State → Prop} (hR : Closed R Q)
include hR

theorem andThen {α β : Type} {s : State} {r : Res α} {k : α → State → Res β} (h : r.Ends (R s) (Q s))
    (hk : ∀ a t, (k a t).Ends (R t) (Q t)) : (r.andThen k).Ends (R s) (Q s) := by
  cases r with
  | ok a t => exact (hk a t).imp (fun u => hR.trans s t u h) fun e u => hR.raise s t e u h
  | raised e t => exact h
  | stuck f => trivial

theorem after {α : Type} {s t : State} {r : Res α} (hst : R s t) (h : r.Ends (R t) (Q t)) : r.Ends (R s) (Q s) :=
  h.imp (fun u => hR.trans s t u hst) fun e u => hR.raise s t e u hst

theorem fCount (hr : ReadsKeep R Q) (ht : TablesKeep R) (s : State) : (fCount s).Ends (R s) (Q s) := by
  have loop : ∀ (fuel : Nat) (s : State), (fCountLoop fuel s).Ends (R s) (Q s) := by
    intro fuel
    induction fuel with
    | zero => intro s; trivial
    | succ fuel ih =>
      intro s
      unfold fCountLoop
      refine hR.andThen (hr 8 s) fun r t => ?_
      split
      · exact hR.refl t
      · split
        · exact hR.own t _ (by simp)
        · exact hR.after (ht t _ _ _ _ _ _ _ _) (ih _)
  exact hR.after (t := fCountStart s) (ht s _ _ _ _ _ _ _ _)
    (hR.andThen (loop _ _) fun _ t => ht t _ _ _ _ _ _ _ _)

theorem tBuild (ht : TablesKeep R) (s : State) : (tBuild s).Ends (R s) (Q s) := by
  have push : ∀ (xs : List Node) (s : State), R s (xs.foldl State.pushNode s) := by
    intro xs
    induction xs with
    | nil => exact hR.refl
    | cons x xs ih => exact fun s => hR.trans _ (s.pushNode x) _ (ht s _ _ _ _ _ _ _ _) (ih _)
  have leaves : R s (tBuildLeaves s) := by
    have h := push (leavesOf s.freq) { s with treeValid := false, tableValid := false, nodeCnt := 0 }
    have h' : R s { s with treeValid := false, tableValid := false, nodeCnt := 0 } := ht s _ _ _ _ _ _ _ _
    unfold tBuildLeaves
    dsimp only
    split
    · exact hR.trans _ _ _ (hR.trans _ _ _ h' h) (ht _ _ _ _ _ _ _ _ _)
    · exact hR.trans _ _ _ h' h
  have loop : ∀ (fuel : Nat) (q : List NodeIx) (s : State), (mergeLoop fuel q s).Ends (R s) (Q s) := by
    intro fuel
    induction fuel with
    | zero =>
      intro q s
      match q with
      | [] => trivial
      | [r] => exact hR.refl s
      | _ :: _ :: _ => trivial
    | succ fuel ih =>
      intro q s
      match q with
      | [] => trivial
      | [r] => exact hR.refl s
      | i :: j :: q =>
        rw [mergeLoop]
        dsimp only
        split
        · trivial
        · exact hR.after (ht s _ _ _ _ _ _ _ _) (ih _ _)
  exact hR.after leaves (hR.andThen (loop _ _ _) fun _ t => ht t _ _ _ _ _ _ _ _)

theorem ser (hw : WritesKeep R Q) (room : Nat) (i : NodeIx) (s : State) : (ser room i s).Ends (R s) (Q s) := by
  induction room generalizing i s with
  | zero => trivial
  | succ room ih =>
    unfold Machine.ser
    split
    · exact hR.andThen (hw _ _ _ (by omega)) fun _ _ => hR.andThen (ih _ _) fun _ _ => ih _ _
    · exact hR.own s _ (by simp)
    · exact hR.andThen (hw _ _ _ (by omega)) fun _ _ => hw _ _ _ (by omega)

theorem serRoot (hw : WritesKeep R Q) (s : State) : (serRoot s).Ends (R s) (Q s) := hR.ser hw _ _ s

theorem des (hr : ReadsKeep R Q) (ht : TablesKeep R) (fuel : Nat) (s : State) : (des fuel s).Ends (R s) (Q s) := by
  induction fuel generalizing s with
  | zero => trivial
  | succ fuel ih =>
    unfold Machine.des
    refine hR.andThen (hr 1 s) fun b t => ?_
    split
    · exact hR.own t _ (by simp)
    · split
      · exact hR.own t _ (by simp)
      · exact hR.after (ht t _ _ _ _ _ _ _ _)
          (hR.andThen (ih _) fun l u => hR.andThen (ih _) fun r v => ht v _ _ _ _ _ _ _ _)
    · refine hR.andThen (hr 9 t) fun y u => ?_
      split
      · exact hR.own u _ (by simp)
      · split
        · exact hR.own u _ (by simp)
        · split
          · exact hR.own u _ (by simp)
          · exact ht u _ _ _ _ _ _ _ _

theorem tDes (hr : ReadsKeep R Q) (ht : TablesKeep R) (s : State) : (tDes s).Ends (R s) (Q s) := by
  unfold Machine.tDes
  refine hR.after (ht s _ _ _ _ _ _ _ _) (hR.andThen (hR.des hr ht _ _) fun r t => ?_)
  split
  · exact hR.own t _ (by simp)
  · exact ht t _ _ _ _ _ _ _ _

theorem cTab (ht : TablesKeep R) (s : State) : (cTab s).Ends (R s) (Q s) := by
  have loop : ∀ (room : Nat) (i : NodeIx) (path : List Bool) (s : State), (walk room i path s).Ends (R s) (Q s) := by
    intro room
    induction room with
    | zero => intro i path s; trivial
    | succ room ih =>
      intro i path s
      unfold walk
      split
      · exact hR.andThen (ih _ _ _) fun _ _ => ih _ _ _
      · exact hR.refl s
      · exact ht s _ _ _ _ _ _ _ _
  exact hR.after (ht s _ _ _ _ _ _ _ _) (hR.andThen (loop _ _ _ _) fun _ t => ht t _ _ _ _ _ _ _ _)

theorem encodeSymbol (hw : WritesKeep R Q) (y : Symbol) (s : State) : (encodeSymbol y s).Ends (R s) (Q s) := by
  have pieces : ∀ (fuel : Nat) (bits : List Bool) (s : State), (wrPieces fuel bits s).Ends (R s) (Q s) := by
    intro fuel
    induction fuel with
    | zero => intro bits s; cases bits <;> first | exact hR.refl s | trivial
    | succ fuel ih =>
      intro bits s
      cases bits with
      | nil => exact hR.refl s
      | cons b bits => exact hR.andThen (hw _ _ _ (by rw [List.length_take]; omega)) fun _ _ => ih _ _
  unfold Machine.encodeSymbol
  split
  · exact hR.own s _ (by simp)
  · exact pieces _ _ _

theorem encodeBody (hr : ReadsKeep R Q) (hw : WritesKeep R Q) (s : State) : (encodeBody s).Ends (R s) (Q s) := by
  have loop : ∀ (fuel : Nat) (s : State), (encodeLoop fuel s).Ends (R s) (Q s) := by
    intro fuel
    induction fuel with
    | zero => intro s; trivial
    | succ fuel ih =>
      intro s
      unfold encodeLoop
      refine hR.andThen (hr 8 s) fun r t => ?_
      split
      · exact hR.refl t
      · exact hR.andThen (hR.encodeSymbol hw _ _) fun _ _ => ih _
  exact hR.andThen (loop _ _) fun _ _ => hR.encodeSymbol hw _ _

theorem magicR (hr : ReadsKeep R Q) (s : State) : (magicR s).Ends (R s) (Q s) := by
  unfold Machine.magicR
  refine hR.andThen (hr 32 s) fun r t => ?_
  split
  · exact hR.own t _ (by simp)
  · split
    · exact hR.refl t
    · exact hR.own t _ (by simp)

theorem decodeBody (hr : ReadsKeep R Q) (hw : WritesKeep R Q) (s : State) : (decodeBody s).Ends (R s) (Q s) := by
  have loop : ∀ (fuel : Nat) (cur : NodeIx) (s : State), (decodeLoop fuel cur s).Ends (R s) (Q s) := by
    intro fuel
    induction fuel with
    | zero => intro cur s; trivial
    | succ fuel ih =>
      intro cur s
      unfold decodeLoop
      refine hR.andThen (hr 1 s) fun b t => ?_
      split
      · exact hR.own t _ (by simp)
      · split
        · trivial
        · dsimp only
          split
          · exact ih _ t
          · split
            · exact hR.refl t
            · exact hR.andThen (hw _ _ _ (by omega)) fun _ _ => ih _ _
  exact loop _ _ _

end Closed

end Sys2Proof.Machine
end

