-- ==== Sys2Proof/Laws/Reading.lean ====
section
/-! SUPPORT. What the read primitive can do (40_bit_reader_fifo.md R124 to R126): its frame, that it never stops, and
its value over the undelivered stream of 10_state.md R49. -/

namespace Sys2Proof.Machine

/-- What the reading procedures may change: the reader but for RD_OPEN, the source's position and count, the log. -/
def ReadFrame (s t : State) : Prop :=
  t = { s with rd := t.rd, src := { s.src with pos := t.src.pos, txs := t.src.txs }, log := t.log } ∧
    t.rd.isOpen = s.rd.isOpen

theorem ReadFrame.refl (s : State) : ReadFrame s s := ⟨rfl, rfl⟩

theorem ReadFrame.trans (a b c : State) (h : ReadFrame a b) (h' : ReadFrame b c) : ReadFrame a c := by
  obtain ⟨h1, h2⟩ := h
  obtain ⟨h3, h4⟩ := h'
  refine ⟨?_, h4.trans h2⟩
  rw [h3]
  conv_lhs => rw [h1]

/-- The two devices when the source makes a transaction of its own. -/
theorem readFrame_fetch (s : State) (m : Nat) (a : FetchAnswer) : ReadFrame s (s.transact (.srcFetch m a)) := by
  refine ⟨?_, rfl⟩
  cases a <;> rfl

/-- A step that only writes the reader. -/
theorem readFrame_rd (s : State) (r : Reader) (h : r.isOpen = s.rd.isOpen) : ReadFrame s { s with rd := r } :=
  ⟨rfl, h⟩

theorem ReadFrame.set_rd {s t : State} (h : ReadFrame s t) (r : Reader) (hr : r.isOpen = t.rd.isOpen) :
    ReadFrame s { t with rd := r } :=
  ReadFrame.trans _ _ _ h (readFrame_rd t r hr)

theorem rdRefillBlock_frame (s : State) : (rdRefillBlock s).All (ReadFrame s) := by
  unfold rdRefillBlock
  split
  · exact ReadFrame.refl s
  · have h := readFrame_fetch s Config.rdBlockBytes (s.fetchAnswer Config.rdBlockBytes)
    dsimp only
    split
    · exact h
    · exact h.set_rd _ rfl
    · exact h.set_rd _ rfl

theorem load_isOpen (r : Reader) (a : BitVec 64) : (r.load a).isOpen = r.isOpen := by
  unfold Reader.load; dsimp only; split <;> rfl

theorem rdRefillAcc_frame (s : State) : (rdRefillAcc s).All (ReadFrame s) := by
  unfold rdRefillAcc
  refine Res.All.andThen (Q := ReadFrame s) ?_ (fun _ h => h) fun _ t h => h.set_rd _ (load_isOpen _ _)
  split
  · exact rdRefillBlock_frame s
  · exact ReadFrame.refl s

theorem rdBitsLoop_frame (fuel n need v : Nat) (s : State) : (rdBitsLoop fuel n need v s).All (ReadFrame s) := by
  induction fuel generalizing need v s with
  | zero => trivial
  | succ fuel ih =>
    unfold rdBitsLoop
    split
    · exact readFrame_rd _ _ rfl
    · have h := rdRefillAcc_frame { s with rd := { s.rd with accCnt := 0 } }
      have h0 : ReadFrame s { s with rd := { s.rd with accCnt := 0 } } := readFrame_rd _ _ rfl
      refine Res.All.andThen (Q := ReadFrame s) (h.imp fun t ht => h0.trans _ _ _ ht) (fun _ h => h) fun _ t ht => ?_
      split
      · exact ht.set_rd _ rfl
      · exact (ih _ _ t).imp fun u hu => ht.trans _ _ _ hu

/-- The frame of `RdBits` (40 R124), whatever the device answers. -/
theorem rdBits_frame (n : Nat) (s : State) : (rdBits n s).All (ReadFrame s) := rdBitsLoop_frame 6 n n 0 s

/-! ### It never stops -/

theorem load_accCnt (r : Reader) (a : BitVec 64) : (r.load a).accCnt = 8 * min 8 (r.blk.length - r.blkIdx) := by
  unfold Reader.load; dsimp only; split <;> simp_all

theorem rdRefillBlock_notStuck (s : State) : (rdRefillBlock s).NotStuck := by
  intro f; unfold rdRefillBlock; split
  · simp
  · dsimp only; split <;> simp

theorem rdRefillAcc_notStuck (s : State) : (rdRefillAcc s).NotStuck := by
  unfold rdRefillAcc
  refine Res.NotStuck.andThen ?_ fun _ _ _ _ => by simp
  split
  · exact rdRefillBlock_notStuck s
  · intro f; simp

/-- After a refill RD_ACC_CNT is a multiple of 8, at most 64 (10_state.md R27). -/
theorem rdRefillAcc_accCnt {s t : State} (h : rdRefillAcc s = .ok () t) : t.rd.accCnt % 8 = 0 ∧ t.rd.accCnt ≤ 64 := by
  unfold rdRefillAcc at h
  obtain ⟨_, u, _, hu⟩ := andThen_eq_ok.1 h
  simp only [Res.ok.injEq, true_and] at hu
  subst hu
  simp only [load_accCnt]; omega

theorem rdBitsLoop_notStuck (fuel n need v : Nat) (s : State) (hf : 0 < fuel)
    (h : need ≤ s.rd.accCnt + 8 * (fuel - 1)) : (rdBitsLoop fuel n need v s).NotStuck := by
  induction fuel generalizing need v s with
  | zero => omega
  | succ fuel ih =>
    intro f hf
    unfold rdBitsLoop at hf
    split at hf
    · simp at hf
    · rename_i hlt
      refine (Res.NotStuck.andThen (rdRefillAcc_notStuck _) fun _ t ht => ?_) f hf
      have hm := rdRefillAcc_accCnt ht
      split
      · intro g; simp
      · rename_i hne
        exact ih _ _ t (by omega) (by omega)

/-- "The loop body runs at most 6 times" (40 R124): the bound is never passed. -/
theorem rdBits_notStuck {n : Nat} (s : State) (h : n ≤ 32) : (rdBits n s).NotStuck :=
  rdBitsLoop_notStuck 6 n n 0 s (by omega) (by omega)

/-! ### The value -/

/-- Moving bytes from RD_BLK to RD_ACC leaves the undelivered stream as it is (10_state.md R49). -/
theorem load_stream (r : Reader) (a : BitVec 64) :
    (r.load a).accBits ++ bytesBits ((r.load a).blk.drop (r.load a).blkIdx) = bytesBits (r.blk.drop r.blkIdx) := by
  have hd : ∀ k, r.blk.drop r.blkIdx = (r.blk.drop r.blkIdx).take k ++ r.blk.drop (r.blkIdx + k) := fun k => by
    rw [← List.drop_drop, List.take_append_drop]
  unfold Reader.load
  dsimp only
  split
  · simp [Reader.accBits]
  · rename_i h
    have hlen : ((r.blk.drop r.blkIdx).take 8).length ≤ 8 := by simp
    rw [Reader.accBits, toBits_ofNat64 (by simpa using by omega), toBits_beNat]
    conv_rhs => rw [hd ((r.blk.drop r.blkIdx).take 8).length, bytesBits_append]
    congr 2
    rw [List.length_take]
    rcases Nat.le_total 8 (r.blk.drop r.blkIdx).length with h8 | h8
    · rw [Nat.min_eq_left h8]
    · rw [Nat.min_eq_right h8, List.take_of_length_le h8, List.take_of_length_le (Nat.le_refl _)]

theorem load_srcEnd (r : Reader) (a : BitVec 64) : (r.load a).srcEnd = r.srcEnd := by
  unfold Reader.load; dsimp only; split <;> rfl

theorem load_bitsRead (r : Reader) (a : BitVec 64) : (r.load a).bitsRead = r.bitsRead := by
  unfold Reader.load; dsimp only; split <;> rfl

theorem load_eos (r : Reader) (a : BitVec 64) : (r.load a).eos = r.eos := by
  unfold Reader.load; dsimp only; split <;> rfl

theorem load_blk (r : Reader) (a : BitVec 64) : (r.load a).blk = r.blk := by
  unfold Reader.load; dsimp only; split <;> rfl

theorem load_blkIdx (r : Reader) (a : BitVec 64) (h : r.blkIdx ≤ r.blk.length) : (r.load a).blkIdx ≤ r.blk.length := by
  unfold Reader.load; dsimp only; split
  · exact h
  · simp; omega

/-- What a block refill does when RD_BLK is used up and the source is sound (40 R125). -/
theorem rdRefillBlock_sound {s : State} (hs : s.srcSound) (hi : s.rd.blkIdx = s.rd.blk.length) :
    ∃ t, rdRefillBlock s = .ok () t ∧ ReadFrame s t ∧
      bytesBits (t.rd.blk.drop t.rd.blkIdx) ++
          (if t.rd.srcEnd then [] else bytesBits (t.src.content.drop t.src.pos)) =
        (if s.rd.srcEnd then [] else bytesBits (s.src.content.drop s.src.pos)) ∧
      t.rd.blkIdx ≤ t.rd.blk.length ∧ (t.rd.blk.length - t.rd.blkIdx = 0 → t.rd.srcEnd = true) ∧
      t.rd.accCnt = s.rd.accCnt ∧ t.rd.bitsRead = s.rd.bitsRead ∧ t.rd.eos = s.rd.eos := by
  have hf := rdRefillBlock_frame s
  unfold rdRefillBlock at hf ⊢
  cases hend : s.rd.srcEnd with
  | true =>
    rw [if_pos rfl]
    exact ⟨s, rfl, ReadFrame.refl s, by simp [hend, hi], by omega, fun _ => hend, rfl, rfl, rfl⟩
  | false =>
    simp only [hend, Bool.false_eq_true, if_false] at hf ⊢
    by_cases hp : s.src.pos < s.src.content.length
    · have ha : s.fetchAnswer Config.rdBlockBytes =
          .bytes ((s.src.content.drop s.src.pos).take Config.rdBlockBytes) := by
        simp [State.fetchAnswer, srcFails_of_sound hs, hp]
      rw [ha] at hf ⊢
      refine ⟨_, rfl, hf, ?_, by simp, ?_, rfl, rfl, rfl⟩
      · simp only [transact_src, transact_rd, hend, Source.after, Bool.false_eq_true, if_false, List.drop_zero,
          ← bytesBits_append, List.length_take, List.length_drop]
        rw [← List.drop_drop]
        congr 1
        rcases Nat.le_total Config.rdBlockBytes (s.src.content.drop s.src.pos).length with h8 | h8
        · rw [List.length_drop] at h8
          rw [Nat.min_eq_left h8, List.take_append_drop]
        · rw [List.length_drop] at h8
          rw [Nat.min_eq_right h8, ← List.length_drop, List.drop_length, List.append_nil,
            List.take_of_length_le (by simpa using h8)]
      · simp [Config.rdBlockBytes]; omega
    · have ha : s.fetchAnswer Config.rdBlockBytes = .endOfSource := by
        simp [State.fetchAnswer, srcFails_of_sound hs, hp]
      rw [ha] at hf ⊢
      refine ⟨_, rfl, hf, ?_, by simp, fun _ => rfl, rfl, rfl, rfl⟩
      simp [List.drop_eq_nil_of_le (Nat.le_of_not_lt hp)]

/-- What an accumulator refill does when the source is sound (40 R126). -/
theorem rdRefillAcc_sound {s : State} (hs : s.srcSound) (hi : s.rd.blkIdx ≤ s.rd.blk.length)
    (h0 : s.rd.accCnt = 0) :
    ∃ t, rdRefillAcc s = .ok () t ∧ ReadFrame s t ∧ t.undelivered = s.undelivered ∧
      t.rd.blkIdx ≤ t.rd.blk.length ∧ (t.rd.accCnt = 0 → t.undelivered = []) ∧
      t.rd.accCnt % 8 = 0 ∧ t.rd.bitsRead = s.rd.bitsRead ∧ t.rd.eos = s.rd.eos := by
  have hf := rdRefillAcc_frame s
  -- the state before the bytes are moved
  have key : ∃ u, (if s.rd.blkIdx = s.rd.blkLen then rdRefillBlock s else .ok () s) = .ok () u ∧ ReadFrame s u ∧
      u.undelivered = s.undelivered ∧ u.rd.blkIdx ≤ u.rd.blk.length ∧
      (u.rd.blk.length - u.rd.blkIdx = 0 → u.rd.srcEnd = true) ∧
      u.rd.accCnt = 0 ∧ u.rd.bitsRead = s.rd.bitsRead ∧ u.rd.eos = s.rd.eos := by
    by_cases he : s.rd.blkIdx = s.rd.blkLen
    · obtain ⟨u, h1, h2, h3, h4, h5, h6, h7, h8⟩ := rdRefillBlock_sound hs he
      refine ⟨u, by rw [if_pos he]; exact h1, h2, ?_, h4, h5, by omega, h7, h8⟩
      have hnil : s.rd.blk.drop s.rd.blkIdx = [] := by rw [he, Reader.blkLen, List.drop_length]
      simp only [State.undelivered, Reader.accBits, h6, h0, toBits_zero, List.nil_append, hnil, bytesBits_nil, h3]
    · refine ⟨s, by rw [if_neg he], ReadFrame.refl s, rfl, hi, fun h => ?_, h0, rfl, rfl⟩
      simp only [Reader.blkLen] at he; omega
  obtain ⟨u, h1, h2, h3, h4, h5, h6, h7, h8⟩ := key
  have hr : rdRefillAcc s = .ok () { u with rd := u.rd.load (Config.rdAccAbove u.log.length u.rd.blkIdx) } := by
    unfold rdRefillAcc; rw [h1]; rfl
  have hst : ({ u with rd := u.rd.load (Config.rdAccAbove u.log.length u.rd.blkIdx) } : State).undelivered =
      u.undelivered := by
    simp only [State.undelivered, load_stream, load_srcEnd]
    simp [Reader.accBits, h6]
  refine ⟨_, hr, h2.set_rd _ (load_isOpen _ _), hst.trans h3, ?_, ?_, ?_, ?_, ?_⟩
  · simp only [load_blk]; exact load_blkIdx _ _ h4
  · intro hz
    simp only [load_accCnt] at hz
    rw [hst]
    have hl : u.rd.blk.length - u.rd.blkIdx = 0 := by omega
    have hnil : u.rd.blk.drop u.rd.blkIdx = [] := List.drop_eq_nil_of_le (by omega)
    simp [State.undelivered, Reader.accBits, h6, hnil, h5 hl]
  · simp only [load_accCnt]; omega
  · simp only [load_bitsRead, h7]
  · simp only [load_eos, h8]

theorem undelivered_set_rd (s : State) (k : Nat) (hk : k ≤ s.rd.accCnt) (b : BitVec 64) :
    s.undelivered = toBits (s.rd.accCnt - k) (field s.rd.acc k (s.rd.accCnt - k)) ++
      ({ s with rd := { s.rd with accCnt := k, bitsRead := b } } : State).undelivered := by
  simp only [State.undelivered, Reader.accBits, toBits_split s.rd.acc hk, List.append_assoc]

theorem rdBitsLoop_sound (fuel n need v : Nat) (s : State) (hs : s.srcSound) (hi : s.rd.blkIdx ≤ s.rd.blk.length)
    (hf : 0 < fuel) (hn : need ≤ s.rd.accCnt + 8 * (fuel - 1)) :
    (need ≤ s.undelivered.length ∧ ∃ t,
        rdBitsLoop fuel n need v s = .ok (some (v * 2 ^ need + ofBits (s.undelivered.take need))) t ∧
        ReadFrame s t ∧ t.undelivered = s.undelivered.drop need ∧ t.rd.blkIdx ≤ t.rd.blk.length ∧
        t.rd.bitsRead = s.rd.bitsRead + BitVec.ofNat 64 n ∧ t.rd.eos = s.rd.eos) ∨
    (s.undelivered.length < need ∧ ∃ t,
        rdBitsLoop fuel n need v s = .ok none t ∧ ReadFrame s t ∧ t.undelivered = [] ∧
        t.rd.blkIdx ≤ t.rd.blk.length ∧ t.rd.bitsRead = s.rd.bitsRead ∧ t.rd.eos = true) := by
  induction fuel generalizing need v s with
  | zero => omega
  | succ fuel ih =>
    rw [rdBitsLoop]
    by_cases hle : need ≤ s.rd.accCnt
    · rw [if_pos hle]
      left
      have hu := undelivered_set_rd s (s.rd.accCnt - need) (by omega) (s.rd.bitsRead + BitVec.ofNat 64 n)
      rw [Nat.sub_sub_self hle] at hu
      refine ⟨by rw [hu]; simp,
        { s with rd :=
          { s.rd with accCnt := s.rd.accCnt - need, bitsRead := s.rd.bitsRead + BitVec.ofNat 64 n } },
        ?_, readFrame_rd _ _ rfl, ?_, hi, rfl, rfl⟩
      · rw [hu, List.take_left' (by simp), ofBits_toBits, Nat.mod_eq_of_lt (field_lt _ _ _)]
      · conv_rhs => rw [hu, List.drop_left' (by simp)]
    · rw [if_neg hle]
      have hu := undelivered_set_rd s 0 (by omega) s.rd.bitsRead
      rw [Nat.sub_zero] at hu
      obtain ⟨t, h1, h2, h3, h4, h5, h6, h7, h8⟩ :=
        rdRefillAcc_sound (s := { s with rd := { s.rd with accCnt := 0 } }) hs hi rfl
      have hsu : s.undelivered = toBits s.rd.accCnt (field s.rd.acc 0 s.rd.accCnt) ++ t.undelivered := by rw [h3, hu]
      have hfr : ReadFrame s t := ReadFrame.trans _ _ _ (readFrame_rd s _ rfl) h2
      rw [h1, ok_andThen]
      by_cases hz : t.rd.accCnt = 0
      · rw [if_pos hz]
        right
        refine ⟨by rw [hsu, h5 hz]; simp; omega, _, rfl, hfr.set_rd _ rfl, ?_, h4, h7, rfl⟩
        exact h5 hz
      · rw [if_neg hz]
        have hst : t.srcSound := by unfold State.srcSound; rw [hfr.1]; exact hs
        have hlt : field s.rd.acc 0 s.rd.accCnt < 2 ^ s.rd.accCnt := field_lt _ _ _
        rcases ih (need - s.rd.accCnt) (v * 2 ^ s.rd.accCnt + field s.rd.acc 0 s.rd.accCnt) t hst h4 (by omega)
          (by omega) with ⟨hl, u, g1, g2, g3, g4, g5, g6⟩ | ⟨hl, u, g1, g2, g3, g4, g5, g6⟩
        · left
          refine ⟨by rw [hsu]; simp; omega, u, ?_, hfr.trans _ _ _ g2, ?_, g4, by rw [g5, h7], by rw [g6, h8]⟩
          · rw [g1]
            have e1 : s.undelivered.take need = toBits s.rd.accCnt (field s.rd.acc 0 s.rd.accCnt) ++
                t.undelivered.take (need - s.rd.accCnt) := by
              rw [hsu, List.take_append, toBits_length, List.take_of_length_le (by simp; omega)]
            have e2 : 2 ^ need = 2 ^ s.rd.accCnt * 2 ^ (need - s.rd.accCnt) := by rw [← pow_add]; congr 1; omega
            rw [e1, ofBits_append, ofBits_toBits, Nat.mod_eq_of_lt hlt, List.length_take, Nat.min_eq_left hl, e2]
            congr 2; ring
          · have e3 : (toBits s.rd.accCnt (field s.rd.acc 0 s.rd.accCnt)).drop need = [] :=
              List.drop_eq_nil_of_le (by rw [toBits_length]; omega)
            rw [g3, hsu, List.drop_append, toBits_length, e3, List.nil_append]
        · right
          refine ⟨by rw [hsu]; simp; omega, u, g1, hfr.trans _ _ _ g2, g3, g4, by rw [g5, h7], g6⟩

/-- `RdBits(n)` over the undelivered stream when the source is sound (40 R124): its first n bits as a number, or EOS
when fewer are left, which are then consumed. -/
theorem rdBits_sound {n : Nat} {s : State} (hn : n ≤ 32) (hs : s.srcSound) (hi : s.rd.blkIdx ≤ s.rd.blk.length) :
    (n ≤ s.undelivered.length ∧ ∃ t,
        rdBits n s = .ok (some (ofBits (s.undelivered.take n))) t ∧
        ReadFrame s t ∧ t.undelivered = s.undelivered.drop n ∧ t.rd.blkIdx ≤ t.rd.blk.length ∧
        t.rd.bitsRead = s.rd.bitsRead + BitVec.ofNat 64 n ∧ t.rd.eos = s.rd.eos) ∨
    (s.undelivered.length < n ∧ ∃ t,
        rdBits n s = .ok none t ∧ ReadFrame s t ∧ t.undelivered = [] ∧
        t.rd.blkIdx ≤ t.rd.blk.length ∧ t.rd.bitsRead = s.rd.bitsRead ∧ t.rd.eos = true) := by
  have h := rdBitsLoop_sound 6 n n 0 s hs hi (by omega) (by omega)
  unfold rdBits; simpa only [Nat.zero_mul, Nat.zero_add] using h

/-- `RdBits(n)` on a stream that begins with the n bits `bits`. -/
theorem rdBits_take {n : Nat} {s : State} {bits rest : List Bool} (hn : n ≤ 32) (hs : s.srcSound) (hi : s.readerOk)
    (hu : s.undelivered = bits ++ rest) (hb : bits.length = n) :
    ∃ t, rdBits n s = .ok (some (ofBits bits)) t ∧ ReadFrame s t ∧ t.undelivered = rest ∧ t.readerOk ∧
      t.rd.bitsRead = s.rd.bitsRead + BitVec.ofNat 64 n ∧ t.rd.eos = s.rd.eos := by
  rcases rdBits_sound hn hs hi with ⟨-, t, h1, h2, h3, h4, h5, h6⟩ | ⟨h, -⟩
  · rw [hu, ← hb, List.take_left'] at h1
    · rw [hu, ← hb, List.drop_left'] at h3
      · exact ⟨t, hb ▸ h1, h2, h3, h4, h5, h6⟩
      · rfl
    · rfl
  · rw [hu, List.length_append] at h; omega

/-- `RdBits(n)` on a stream of fewer than n bits. -/
theorem rdBits_end {n : Nat} {s : State} (hn : n ≤ 32) (hs : s.srcSound) (hi : s.readerOk)
    (hu : s.undelivered.length < n) :
    ∃ t, rdBits n s = .ok none t ∧ ReadFrame s t ∧ t.undelivered = [] ∧ t.readerOk ∧
      t.rd.bitsRead = s.rd.bitsRead ∧ t.rd.eos = true := by
  rcases rdBits_sound hn hs hi with ⟨h, -⟩ | ⟨-, h⟩
  · omega
  · exact h

/-! ### A fetch that fails -/

/-- A refill takes all that is left in RD_BLK when that is at most 8 bytes (40 R126). -/
theorem load_rest {r : Reader} {a : BitVec 64} (h : 0 < r.blk.length - r.blkIdx) (h8 : r.blk.length - r.blkIdx ≤ 8) :
    ∃ acc, r.load a =
      { r with acc := acc, accAbove := a, accCnt := 8 * (r.blk.length - r.blkIdx), blkIdx := r.blk.length } := by
  have e : (List.take 8 (List.drop r.blkIdx r.blk)).length = r.blk.length - r.blkIdx := by simp; omega
  unfold Reader.load
  dsimp only
  rw [if_neg (by omega), e, show r.blkIdx + (r.blk.length - r.blkIdx) = r.blk.length by omega]
  exact ⟨_, rfl⟩

/-- The reader after a failed fetch: RD_BLK held the bytes `b`, all of them and RD_ACC's bits are taken (40 R124). -/
def State.lost (s : State) (b : List Byte) (t : State) : Prop :=
  t.rd = { s.rd with acc := t.rd.acc, accAbove := t.rd.accAbove, accCnt := 0, blk := b, blkIdx := b.length }

/-- The read primitive where the next fetch fails, RD_BLK used up (40 R125). -/
theorem rdBitsLoop_fetchFails {fuel n need v : Nat} {s : State} (h1 : s.rd.accCnt < need)
    (h2 : s.rd.blkIdx = s.rd.blk.length) (h3 : s.rd.srcEnd = false) (h4 : s.srcFails = true) :
    ∃ (t : State) (p : Nat), rdBitsLoop (fuel + 1) n need v s = .raised ⟨.resource, 2, 0⟩ t ∧ s.lost s.rd.blk t ∧
      t = { s with rd := t.rd, src := { s.src with pos := t.src.pos, txs := s.src.txs + 1 },
                   log := s.log ++ [.srcFetch 8192 (.fail p)] } := by
  have hfa : ({ s with rd := { s.rd with accCnt := 0 } } : State).fetchAnswer 8192 =
      .fail (Config.failedFetchPos s.log.length) := by
    unfold State.fetchAnswer
    rw [show ({ s with rd := { s.rd with accCnt := 0 } } : State).srcFails = true from h4]; rfl
  unfold rdBitsLoop
  rw [if_neg (by omega)]
  unfold rdRefillAcc
  rw [if_pos (by exact h2)]
  unfold rdRefillBlock
  rw [if_neg (by simp [h3])]
  simp only [Config.rdBlockBytes, hfa, raised_andThen]
  exact ⟨_, Config.failedFetchPos s.log.length, rfl, by simp [State.lost, h2], rfl⟩

/-- The read primitive from a reader with bytes left, after the first refill has taken all of them. -/
theorem rdBitsLoop_takeRest {fuel n need v : Nat} {s : State} (h0 : s.rd.blkIdx < s.rd.blk.length)
    (h1 : s.rd.accCnt + 8 * (s.rd.blk.length - s.rd.blkIdx) < need) (hn : need ≤ 32) :
    ∃ (acc above : BitVec 64) (w : Nat), rdBitsLoop (fuel + 1) n need v s =
      rdBitsLoop fuel n (need - s.rd.accCnt) w
        { s with rd :=
          { s.rd with
            acc := acc, accAbove := above, accCnt := 8 * (s.rd.blk.length - s.rd.blkIdx), blkIdx := s.rd.blk.length } } := by
  obtain ⟨acc, hl⟩ := load_rest (r := { s.rd with accCnt := 0 }) (a := Config.rdAccAbove s.log.length s.rd.blkIdx)
    (by dsimp only; omega) (by dsimp only; omega)
  refine ⟨acc, Config.rdAccAbove s.log.length s.rd.blkIdx, v * 2 ^ s.rd.accCnt + field s.rd.acc 0 s.rd.accCnt, ?_⟩
  rw [rdBitsLoop, if_neg (by omega)]
  unfold rdRefillAcc
  have hne : ¬ s.rd.blkIdx = s.rd.blk.length := by omega
  rw [if_neg (by exact hne)]
  simp only [ok_andThen]
  rw [hl, if_neg (by dsimp only; omega)]

/-- The read primitive where the bits held do not suffice and the next fetch fails (40 R124, R125). -/
theorem rdBits_fetchFails {n : Nat} {s : State} (hn : n ≤ 32) (hi : s.readerOk)
    (h1 : s.rd.accCnt + 8 * (s.rd.blk.length - s.rd.blkIdx) < n) (h3 : s.rd.srcEnd = false) (h4 : s.srcFails = true) :
    ∃ (t : State) (p : Nat), rdBits n s = .raised ⟨.resource, 2, 0⟩ t ∧ s.lost s.rd.blk t ∧
      t = { s with rd := t.rd, src := { s.src with pos := t.src.pos, txs := s.src.txs + 1 },
                   log := s.log ++ [.srcFetch 8192 (.fail p)] } := by
  rcases Nat.lt_or_eq_of_le hi with h | h
  · obtain ⟨acc, above, w, hw⟩ := rdBitsLoop_takeRest (fuel := 5) (n := n) (v := 0) h h1 hn
    unfold rdBits
    rw [hw]
    exact rdBitsLoop_fetchFails (s := { s with rd := { s.rd with acc := acc, accAbove := above, accCnt := _, blkIdx := _ } })
      (by dsimp only; omega) rfl h3 h4
  · exact rdBitsLoop_fetchFails (by omega) h h3 h4

/-- The read primitive where RD_BLK is used up, one fetch brings the last bytes of SRC, they do not suffice and the
second fetch fails. -/
theorem rdBitsLoop_secondFetchFails {fuel n need v : Nat} {s : State} {b : List Byte}
    (h1 : s.rd.accCnt + 8 * b.length < need) (hn : need ≤ 32) (h2 : s.rd.blkIdx = s.rd.blk.length)
    (h3 : s.rd.srcEnd = false) (h4 : s.srcFails = false) (hb : b = s.src.content.drop s.src.pos) (hb0 : b ≠ [])
    (h5 : (s.transact (.srcFetch 8192 (.bytes b))).srcFails = true) :
    ∃ (t : State) (p : Nat), rdBitsLoop (fuel + 2) n need v s = .raised ⟨.resource, 2, 0⟩ t ∧ s.lost b t ∧
      t = { s with rd := t.rd, src := { s.src with pos := t.src.pos, txs := s.src.txs + 2 },
                   log := s.log ++ [.srcFetch 8192 (.bytes b), .srcFetch 8192 (.fail p)] } := by
  have hpos : 0 < b.length := List.length_pos_iff.2 hb0
  have hlen : b.length = s.src.content.length - s.src.pos := by rw [hb]; simp
  have hfa : ({ s with rd := { s.rd with accCnt := 0 } } : State).fetchAnswer 8192 = .bytes b := by
    unfold State.fetchAnswer
    rw [show ({ s with rd := { s.rd with accCnt := 0 } } : State).srcFails = false from h4, if_neg (by simp),
      if_pos (by dsimp only; omega), hb, List.take_of_length_le (by simp; omega)]
  obtain ⟨above, ha⟩ : ∃ a, a = Config.rdAccAbove (s.log ++ [PortEvent.srcFetch 8192 (.bytes b)]).length 0 := ⟨_, rfl⟩
  obtain ⟨acc, hl⟩ := load_rest (r := { s.rd with accCnt := 0, blk := b, blkIdx := 0 }) (a := above)
    (by dsimp only; omega) (by dsimp only; omega)
  have hR : rdRefillAcc { s with rd := { s.rd with accCnt := 0 } } =
      .ok () { s.transact (.srcFetch 8192 (.bytes b)) with
        rd := { s.rd with acc := acc, accAbove := above, accCnt := 8 * (b.length - 0), blk := b, blkIdx := b.length } } := by
    unfold rdRefillAcc
    rw [if_pos (by exact h2)]
    unfold rdRefillBlock
    rw [if_neg (by simp [h3])]
    simp only [Config.rdBlockBytes, hfa, ok_andThen]
    congr 1
    show ({ ({ s with rd := { s.rd with accCnt := 0 } } : State).transact _ with rd := _ } : State) = _
    simp only [transact_rd, transact_log]
    rw [← ha, hl]; rfl
  obtain ⟨t, p, g1, g2, g3⟩ := rdBitsLoop_fetchFails (fuel := fuel) (n := n) (need := need - s.rd.accCnt)
    (v := v * 2 ^ s.rd.accCnt + field s.rd.acc 0 s.rd.accCnt)
    (s := { s.transact (.srcFetch 8192 (.bytes b)) with
      rd := { s.rd with acc := acc, accAbove := above, accCnt := 8 * (b.length - 0), blk := b, blkIdx := b.length } })
    (by dsimp only; omega) rfl h3 h5
  refine ⟨t, p, ?_, g2, ?_⟩
  · rw [rdBitsLoop, if_neg (by omega), hR, ok_andThen, if_neg (by dsimp only; omega)]; exact g1
  · conv_lhs => rw [g3]
    simp [State.transact, Source.after, Sink.after]

/-- The read primitive where the bits held and the last bytes of SRC do not suffice and the second fetch fails (40 R124,
R125). -/
theorem rdBits_secondFetchFails {n : Nat} {s : State} {b : List Byte} (hn : n ≤ 32) (hi : s.readerOk)
    (h1 : s.rd.accCnt + 8 * (s.rd.blk.length - s.rd.blkIdx) + 8 * b.length < n) (h3 : s.rd.srcEnd = false)
    (h4 : s.srcFails = false) (hb : b = s.src.content.drop s.src.pos) (hb0 : b ≠ [])
    (h5 : (s.transact (.srcFetch 8192 (.bytes b))).srcFails = true) :
    ∃ (t : State) (p : Nat), rdBits n s = .raised ⟨.resource, 2, 0⟩ t ∧ s.lost b t ∧
      t = { s with rd := t.rd, src := { s.src with pos := t.src.pos, txs := s.src.txs + 2 },
                   log := s.log ++ [.srcFetch 8192 (.bytes b), .srcFetch 8192 (.fail p)] } := by
  rcases Nat.lt_or_eq_of_le hi with h | h
  · obtain ⟨acc, above, w, hw⟩ := rdBitsLoop_takeRest (fuel := 5) (n := n) (v := 0) h (by omega) hn
    unfold rdBits
    rw [hw]
    exact rdBitsLoop_secondFetchFails
      (s := { s with rd := { s.rd with acc := acc, accAbove := above, accCnt := _, blkIdx := _ } })
      (by dsimp only; omega) (by omega) rfl h3 h4 hb hb0 h5
  · exact rdBitsLoop_secondFetchFails (by omega) hn h h3 h4 hb hb0 h5

/-! ### What the frame keeps -/

theorem ReadFrame.srcSound {s t : State} (h : ReadFrame s t) (hs : s.srcSound) : t.srcSound := by
  unfold State.srcSound; rw [h.1]; exact hs

theorem ReadFrame.node {s t : State} (h : ReadFrame s t) : t.node = s.node := by rw [h.1]

theorem ReadFrame.nodeCnt {s t : State} (h : ReadFrame s t) : t.nodeCnt = s.nodeCnt := by rw [h.1]

theorem ReadFrame.nodeAt {s t : State} (h : ReadFrame s t) (i : NodeIx) : t.nodeAt i = s.nodeAt i := by rw [h.1]; rfl

theorem ReadFrame.root {s t : State} (h : ReadFrame s t) : t.root = s.root := by rw [h.1]

theorem ReadFrame.codeOf {s t : State} (h : ReadFrame s t) (y : Symbol) : t.codeOf y = s.codeOf y := by rw [h.1]; rfl

theorem ReadFrame.wr {s t : State} (h : ReadFrame s t) : t.wr = s.wr := by rw [h.1]

theorem ReadFrame.snk {s t : State} (h : ReadFrame s t) : t.snk = s.snk := by rw [h.1]

theorem ReadFrame.written {s t : State} (h : ReadFrame s t) : t.written = s.written := by
  unfold State.written; rw [h.wr, h.snk]

end Sys2Proof.Machine
end

