-- ==== Sys2Proof/Laws/Writing.lean ====
section
/-! SUPPORT. What the write primitives can do (41_bit_writer_fifo.md R144, R145, R147, R149): their frame, that they
never stop, and what they append to the written stream of 10_state.md R50. -/

namespace Sys2Proof.Machine

/-- What the writing procedures may change: the writer but for WR_OPEN, the sink's content and count, the log. -/
def WriteFrame (s t : State) : Prop :=
  t = { s with wr := t.wr, snk := { s.snk with content := t.snk.content, txs := t.snk.txs }, log := t.log } ∧
    t.wr.isOpen = s.wr.isOpen

theorem WriteFrame.refl (s : State) : WriteFrame s s := ⟨rfl, rfl⟩

theorem WriteFrame.trans (a b c : State) (h : WriteFrame a b) (h' : WriteFrame b c) : WriteFrame a c := by
  obtain ⟨h1, h2⟩ := h
  obtain ⟨h3, h4⟩ := h'
  refine ⟨?_, h4.trans h2⟩
  rw [h3]
  conv_lhs => rw [h1]

theorem writeFrame_wr (s : State) (w : Writer) (h : w.isOpen = s.wr.isOpen) : WriteFrame s { s with wr := w } :=
  ⟨rfl, h⟩

theorem WriteFrame.set_wr {s t : State} (h : WriteFrame s t) (w : Writer) (hw : w.isOpen = t.wr.isOpen) :
    WriteFrame s { t with wr := w } :=
  WriteFrame.trans _ _ _ h (writeFrame_wr t w hw)

theorem writeFrame_put (s : State) (b : List Byte) (a : PutAnswer) : WriteFrame s (s.transact (.snkPut b a)) := by
  refine ⟨?_, rfl⟩
  cases a <;> rfl

theorem wrPutBlock_frame (s : State) : (wrPutBlock s).All (WriteFrame s) := by
  unfold wrPutBlock
  have h := (writeFrame_put s s.wr.blk s.putAnswer).set_wr
    { (s.transact (.snkPut s.wr.blk s.putAnswer)).wr with blk := [] } rfl
  dsimp only
  split <;> exact h

/-- The frame of `WrBits` (41 R144), whatever the device answers. -/
theorem wrBits_frame (n v : Nat) (s : State) : (wrBits n v s).All (WriteFrame s) := by
  unfold wrBits
  dsimp only
  split
  · exact writeFrame_wr _ _ rfl
  · split
    · exact (wrPutBlock_frame _).imp fun t ht => WriteFrame.trans _ _ _ (writeFrame_wr _ _ rfl) ht
    · exact writeFrame_wr _ _ rfl

/-- The frame of `WrFlush()` (41 R147), whatever the device answers. -/
theorem wrFlush_frame (s : State) : (wrFlush s).All (WriteFrame s) := by
  unfold wrFlush
  dsimp only
  split
  · exact (wrPutBlock_frame _).imp fun t ht => WriteFrame.trans _ _ _ (writeFrame_wr _ _ rfl) ht
  · exact writeFrame_wr _ _ rfl

theorem wrPutBlock_notStuck (s : State) : (wrPutBlock s).NotStuck := by
  intro f; unfold wrPutBlock; dsimp only; split <;> simp

theorem wrBits_notStuck (n v : Nat) (s : State) : (wrBits n v s).NotStuck := by
  intro f; unfold wrBits; dsimp only
  split
  · simp
  · split
    · exact wrPutBlock_notStuck _ f
    · simp

theorem wrFlush_notStuck (s : State) : (wrFlush s).NotStuck := by
  intro f; unfold wrFlush; dsimp only
  split
  · exact wrPutBlock_notStuck _ f
  · simp

theorem wrClose_notStuck (s : State) : (wrClose s).NotStuck := by
  intro f; unfold wrClose
  split
  · have h := wrFlush_notStuck s
    cases hr : wrFlush s with
    | ok a t => simp
    | raised e t => simp
    | stuck g => exact absurd hr (h g)
  · simp

/-! ### What is written -/

/-- A put of a sound sink moves the block to the sink (41 R145). -/
theorem wrPutBlock_sound {s : State} (hs : s.snkSound) :
    wrPutBlock s = .ok () { s.transact (.snkPut s.wr.blk .ok) with wr := { s.wr with blk := [] } } := by
  have ha : s.putAnswer = .ok := by simp [State.putAnswer, snkFails_of_sound hs]
  simp only [wrPutBlock, ha, transact_wr]

theorem wrPutBlock_written (s : State) :
    ({ s.transact (.snkPut s.wr.blk .ok) with wr := { s.wr with blk := [] } } : State).written = s.written := by
  simp [State.written, Sink.after, Writer.accBits]

/-- The bits `WrBits` has collected are the old ones and then the low n bits of the value (41 R144). -/
theorem wrBits_collects {n v : Nat} {w : BitVec 64} {k : Nat} (h : k + n ≤ 64) :
    toBits (k + n) (BitVec.ofNat 64 (field w 0 k * 2 ^ n + v % 2 ^ n)).toNat = toBits k w.toNat ++ toBits n v := by
  rw [toBits_ofNat64 h, toBits_mul_add _ _ _ _ (Nat.mod_lt _ (by positivity)), toBits_field, toBits_mod]
  simp

/-- `WrBits(n, v)` appends the low n bits of v to the written stream (41 R144), a sound sink. -/
theorem wrBits_sound {n : Nat} (v : Nat) {s : State} (hn : n ≤ 32) (hs : s.snkSound) (hw : s.writerOk) :
    ∃ t, wrBits n v s = .ok () t ∧ WriteFrame s t ∧ t.written = s.written ++ toBits n v ∧ t.writerOk ∧
      t.wr.bitsWritten = s.wr.bitsWritten + BitVec.ofNat 64 n := by
  obtain ⟨h1, h2, h3⟩ := hw
  have hf := wrBits_frame n v s
  unfold wrBits at hf ⊢
  dsimp only at hf ⊢
  by_cases hlt : n < 64 - s.wr.accCnt
  · rw [if_pos hlt] at hf ⊢
    refine ⟨_, rfl, hf, ?_, ⟨by dsimp only; omega, h2, h3⟩, rfl⟩
    simp only [State.written, Writer.accBits, wrBits_collects (show s.wr.accCnt + n ≤ 64 by omega), List.append_assoc]
  · rw [if_neg hlt] at hf ⊢
    obtain ⟨room, hroom⟩ : ∃ r, r = 64 - s.wr.accCnt := ⟨_, rfl⟩
    obtain ⟨rest, hrest⟩ : ∃ r, r = n - (64 - s.wr.accCnt) := ⟨_, rfl⟩
    rw [← hrest, ← hroom] at hf ⊢
    have hnr : n = room + rest := by omega
    have hx : v % 2 ^ n / 2 ^ rest < 2 ^ room := by
      rw [Nat.div_lt_iff_lt_mul (by positivity), ← pow_add, ← hnr]; exact Nat.mod_lt _ (by positivity)
    have hfull : bytesBits (beBytes 8 (field s.wr.acc 0 s.wr.accCnt * 2 ^ room + v % 2 ^ n / 2 ^ rest)) =
        toBits s.wr.accCnt s.wr.acc.toNat ++ toBits room (v % 2 ^ n / 2 ^ rest) := by
      rw [bytesBits_beBytes, show 8 * 8 = s.wr.accCnt + room by omega, toBits_mul_add _ _ _ _ hx, toBits_field]
      simp
    have hcut : toBits room (v % 2 ^ n / 2 ^ rest) ++ toBits rest (BitVec.ofNat 64 (v % 2 ^ n % 2 ^ rest)).toNat =
        toBits n v := by
      rw [toBits_ofNat64 (by omega), toBits_mod, ← toBits_add, ← hnr, toBits_mod]
    split at hf
    · rename_i hfullblk
      rw [if_pos hfullblk]
      obtain ⟨u, hu⟩ : ∃ u : State, u =
          { s with wr :=
            { s.wr with
              acc := BitVec.ofNat 64 (v % 2 ^ n % 2 ^ rest),
              accAbove := Config.wrAccAbove s.log.length (8 * s.wr.blkLen + s.wr.accCnt), accCnt := rest,
              bitsWritten := s.wr.bitsWritten + BitVec.ofNat 64 n,
              blk := s.wr.blk ++ beBytes 8 (field s.wr.acc 0 s.wr.accCnt * 2 ^ room + v % 2 ^ n / 2 ^ rest) } } :=
        ⟨_, rfl⟩
      rw [← hu] at hf ⊢
      have hus : u.snkSound := by rw [hu]; exact hs
      rw [wrPutBlock_sound hus] at hf ⊢
      refine ⟨_, rfl, hf, ?_, ⟨by rw [hu]; dsimp only; omega, by simp, by simp⟩, by rw [hu]⟩
      rw [wrPutBlock_written, hu]
      simp only [State.written, Writer.accBits, bytesBits_append, hfull, List.append_assoc, hcut]
    · rename_i hfullblk
      rw [if_neg hfullblk]
      simp only [Writer.blkLen, List.length_append, beBytes_length, Config.wrBlockBytes] at hfullblk
      refine ⟨_, rfl, hf, ?_, ⟨by dsimp only; omega, by simp; omega, by simp; omega⟩, rfl⟩
      simp only [State.written, Writer.accBits, bytesBits_append, hfull, List.append_assoc, hcut]

/-- `WrFlush()` pads with zero bits to a byte and puts everything in the sink (41 R147), a sound sink. -/
theorem wrFlush_sound {s : State} (hs : s.snkSound) :
    ∃ t, wrFlush s = .ok () t ∧ WriteFrame s t ∧
      bytesBits t.snk.content =
        s.written ++ List.replicate (8 * ((s.wr.accCnt + 7) / 8) - s.wr.accCnt) false ∧
      t.wr.accCnt = 0 ∧ t.wr.blk = [] ∧ t.wr.bitsWritten = s.wr.bitsWritten := by
  have hf := wrFlush_frame s
  have hz : ∀ k, toBits k 0 = List.replicate k false := fun k => by
    induction k with
    | zero => rfl
    | succ k ih => simp [toBits, ih, List.replicate_succ]
  have hp : bytesBits (beBytes ((s.wr.accCnt + 7) / 8)
        (field s.wr.acc 0 s.wr.accCnt * 2 ^ (8 * ((s.wr.accCnt + 7) / 8) - s.wr.accCnt))) =
      toBits s.wr.accCnt s.wr.acc.toNat ++
        List.replicate (8 * ((s.wr.accCnt + 7) / 8) - s.wr.accCnt) false := by
    have h := toBits_mul_add s.wr.accCnt (8 * ((s.wr.accCnt + 7) / 8) - s.wr.accCnt)
      (field s.wr.acc 0 s.wr.accCnt) 0 (by positivity)
    rw [Nat.add_sub_cancel' (by omega), toBits_field, hz, pow_zero, Nat.div_one] at h
    rw [bytesBits_beBytes, ← h]; rfl
  obtain ⟨b, hb'⟩ : ∃ b, b = s.wr.blk ++ beBytes ((s.wr.accCnt + 7) / 8)
      (field s.wr.acc 0 s.wr.accCnt * 2 ^ (8 * ((s.wr.accCnt + 7) / 8) - s.wr.accCnt)) := ⟨_, rfl⟩
  obtain ⟨u, hu⟩ : ∃ u : State, u = { s with wr := { s.wr with accCnt := 0, blk := b } } := ⟨_, rfl⟩
  have hw : wrFlush s = if 0 < u.wr.blkLen then wrPutBlock u else .ok () u := by rw [hu, hb']; rfl
  rw [hw] at hf ⊢
  have hus : u.snkSound := by rw [hu]; exact hs
  split at hf
  · rename_i hlen
    rw [if_pos hlen]
    rw [wrPutBlock_sound hus] at hf ⊢
    refine ⟨_, rfl, hf, ?_, by rw [hu], rfl, by rw [hu]⟩
    rw [hu, hb']
    simp only [transact_snk, Sink.after, bytesBits_append, hp, State.written, Writer.accBits, List.append_assoc]
  · rename_i hlen
    rw [if_neg hlen]
    have hl : u.wr.blk.length = 0 := Nat.eq_zero_of_not_pos hlen
    have hub : u.wr.blk = [] := List.length_eq_zero_iff.1 hl
    rw [hu, hb'] at hl
    dsimp only at hl
    rw [List.length_append, beBytes_length] at hl
    have hb : s.wr.blk = [] := List.length_eq_zero_iff.1 (by omega)
    have ha : s.wr.accCnt = 0 := by omega
    exact ⟨u, rfl, hf, by rw [hu]; simp [State.written, Writer.accBits, hb, ha], by rw [hu], hub, by rw [hu]⟩

/-- `WrClose()` on an open writer and a sound sink (41 R149). -/
theorem wrClose_sound {s : State} (hs : s.snkSound) (ho : s.wr.isOpen = true) :
    ∃ t u, wrFlush s = .ok () u ∧ wrClose s = .ok () t ∧ t = wrRelease u := by
  obtain ⟨u, h1, -⟩ := wrFlush_sound hs
  exact ⟨_, u, h1, by simp [wrClose, ho, h1], rfl⟩

theorem WriteFrame.snkSound {s t : State} (h : WriteFrame s t) (hs : s.snkSound) : t.snkSound := by
  unfold State.snkSound; rw [h.1]; exact hs

theorem WriteFrame.node {s t : State} (h : WriteFrame s t) : t.node = s.node := by rw [h.1]

theorem WriteFrame.nodeAt {s t : State} (h : WriteFrame s t) (i : NodeIx) : t.nodeAt i = s.nodeAt i := by
  rw [h.1]; rfl

theorem WriteFrame.root {s t : State} (h : WriteFrame s t) : t.root = s.root := by rw [h.1]

theorem WriteFrame.codeOf {s t : State} (h : WriteFrame s t) (y : Symbol) : t.codeOf y = s.codeOf y := by
  rw [h.1]; rfl

theorem WriteFrame.rd {s t : State} (h : WriteFrame s t) : t.rd = s.rd := by rw [h.1]

theorem WriteFrame.src {s t : State} (h : WriteFrame s t) : t.src = s.src := by rw [h.1]

theorem WriteFrame.undelivered {s t : State} (h : WriteFrame s t) : t.undelivered = s.undelivered := by
  unfold State.undelivered; rw [h.rd, h.src]

end Sys2Proof.Machine
end

