-- ==== Sys2Proof/Laws/Serial.lean ====
section
/-! SUPPORT. What the serialisation of a tree writes and its mirror builds (44_tree_serializer.md R187, R189, R191). -/

namespace Sys2Proof.Machine

/-- `Ser` of a tree in the node memory appends its serialisation (44 R187, R188), a sound sink. -/
theorem ser_sound (tr : CodeTree) : ∀ {room : Nat} {i : NodeIx} {ixs : List NodeIx} {s : State},
    TreeAt s.node tr i ixs → tr.depth < room → s.snkSound → s.writerOk →
      ∃ t, ser room i s = .ok () t ∧ WriteFrame s t ∧ t.written = s.written ++ tr.bits ∧ t.writerOk ∧
        t.wr.bitsWritten = s.wr.bitsWritten + BitVec.ofNat 64 tr.bits.length := by
  induction tr with
  | leaf y =>
    intro room i ixs s h hr hs hw
    obtain ⟨-, w, hi⟩ := h
    obtain ⟨room, rfl⟩ : ∃ k, room = k + 1 := ⟨room - 1, by omega⟩
    obtain ⟨t, h1, f1, w1, k1, b1⟩ := wrBits_sound (n := 1) 1 (by omega) hs hw
    obtain ⟨u, h2, f2, w2, k2, b2⟩ := wrBits_sound (n := 9) y.val (by omega) (f1.snkSound hs) k1
    refine ⟨u, ?_, WriteFrame.trans _ _ _ f1 f2, ?_, k2, ?_⟩
    · simp only [ser, show s.nodeAt i = .leaf (some y) w from hi, h1, ok_andThen, h2]
    · rw [w2, w1, List.append_assoc]; rfl
    · rw [b2, b1, BitVec.add_assoc, ← BitVec.ofNat_add]; simp [CodeTree.bits]
  | node l r hl hr =>
    intro room i ixs s h hroom hs hw
    obtain ⟨w, a, b, as, bs, hi, ha, hb, -⟩ := h
    simp only [CodeTree.depth] at hroom
    obtain ⟨room, rfl⟩ : ∃ k, room = k + 1 := ⟨room - 1, by omega⟩
    obtain ⟨t, h1, f1, w1, k1, b1⟩ := wrBits_sound (n := 1) 0 (by omega) hs hw
    obtain ⟨u, h2, f2, w2, k2, b2⟩ := hl (room := room) (f1.node ▸ ha) (by omega) (f1.snkSound hs) k1
    have f12 := WriteFrame.trans _ _ _ f1 f2
    obtain ⟨v, h3, f3, w3, k3, b3⟩ := hr (room := room) (f12.node ▸ hb) (by omega) (f12.snkSound hs) k2
    refine ⟨v, ?_, WriteFrame.trans _ _ _ f12 f3, ?_, k3, ?_⟩
    · simp only [ser, show s.nodeAt i = .internal w a b from hi, h1, ok_andThen, h2, h3]
    · rw [w3, w2, w1]; simp [CodeTree.bits, toBits]
    · rw [b3, b2, b1, BitVec.add_assoc, BitVec.add_assoc, ← BitVec.ofNat_add, ← BitVec.ofNat_add]
      congr 2; simp [CodeTree.bits]; omega

/-- What `Des` may change: the reader, the fetch position and count, the log, NODE and NODE_CNT. -/
def DesFrame (s t : State) : Prop :=
  t = { s with rd := t.rd, src := { s.src with pos := t.src.pos, txs := t.src.txs }, log := t.log, node := t.node,
               nodeCnt := t.nodeCnt } ∧
    t.rd.isOpen = s.rd.isOpen

theorem DesFrame.trans (a b c : State) (h : DesFrame a b) (h' : DesFrame b c) : DesFrame a c := by
  obtain ⟨h1, h2⟩ := h
  obtain ⟨h3, h4⟩ := h'
  refine ⟨?_, h4.trans h2⟩
  rw [h3]
  conv_lhs => rw [h1]

theorem ReadFrame.des {s t : State} (h : ReadFrame s t) : DesFrame s t := by
  obtain ⟨h1, h2⟩ := h
  refine ⟨?_, h2⟩
  rw [h1]

theorem desFrame_node (s : State) (m : Vector Node 513) (k : Nat) : DesFrame s { s with node := m, nodeCnt := k } :=
  ⟨rfl, rfl⟩

theorem DesFrame.srcSound {s t : State} (h : DesFrame s t) (hs : s.srcSound) : t.srcSound := by
  unfold State.srcSound; rw [h.1]; exact hs

/-- Record numbers of a run of `n` records from `k` on. -/
def ixRange (k n : Nat) : List NodeIx := (List.range' k n).map nodeIxOf

theorem mem_ixRange {k n : Nat} {i : NodeIx} (h : k + n ≤ 513) : i ∈ ixRange k n ↔ k ≤ i.val ∧ i.val < k + n := by
  simp only [ixRange, List.mem_map, List.mem_range'_1]
  constructor
  · rintro ⟨j, hj, rfl⟩
    rw [nodeIxOf_val (by omega)]; exact hj
  · intro hi
    exact ⟨i.val, hi, nodeIxOf_val_self i⟩

theorem ixRange_nodup {k n : Nat} (h : k + n ≤ 513) : (ixRange k n).Nodup := by
  refine List.Nodup.map_on ?_ List.nodup_range'
  intro a ha b hb hab
  rw [List.mem_range'_1] at ha hb
  have := congrArg Fin.val hab
  rwa [nodeIxOf_val (by omega), nodeIxOf_val (by omega)] at this

theorem ixRange_node (k n m : Nat) : ixRange k (n + m + 1) = nodeIxOf k :: (ixRange (k + 1) n ++ ixRange (k + 1 + n) m) := by
  simp only [ixRange, ← List.map_append, List.range'_append_1]
  rfl

/-- What `Des` leaves when it has built `tr` from record `k` on (44 R189). -/
structure DesResult (s t : State) (tr : CodeTree) : Prop where
  frame : DesFrame s t
  readerOk : t.readerOk
  bitsRead : t.rd.bitsRead = s.rd.bitsRead + BitVec.ofNat 64 tr.bits.length
  eos : t.rd.eos = s.rd.eos
  nodeCnt : t.nodeCnt = s.nodeCnt + tr.size
  tree : TreeAt t.node tr (nodeIxOf s.nodeCnt) (ixRange s.nodeCnt tr.size)
  others : ∀ k : NodeIx, k.val < s.nodeCnt ∨ s.nodeCnt + tr.size ≤ k.val → t.nodeAt k = s.nodeAt k
  weights : ∀ k : NodeIx, s.nodeCnt ≤ k.val → k.val < s.nodeCnt + tr.size → weightOf (t.nodeAt k) = 0
  lefts : ∀ (k a b : NodeIx) (w : Weight), s.nodeCnt ≤ k.val → k.val < s.nodeCnt + tr.size →
    t.nodeAt k = .internal w a b → a.val = k.val + 1

/-- `Des` on a stream that begins with a tree's serialisation builds that tree, in pre-order, and consumes exactly its
bits (44 R189, R191), a sound source. -/
theorem des_sound (tr : CodeTree) : ∀ {fuel : Nat} {s : State} {rest : List Bool}, s.srcSound → s.readerOk →
    s.undelivered = tr.bits ++ rest → s.nodeCnt + tr.size ≤ 513 → tr.depth < fuel →
      ∃ t, des fuel s = .ok (nodeIxOf s.nodeCnt) t ∧ t.undelivered = rest ∧ DesResult s t tr := by
  induction tr with
  | leaf y =>
    intro fuel s rest hs hi hu hc hf
    obtain ⟨fuel, rfl⟩ : ∃ k, fuel = k + 1 := ⟨fuel - 1, by omega⟩
    simp only [CodeTree.size] at hc
    obtain ⟨t, h1, f1, u1, k1, b1, e1⟩ := rdBits_take (n := 1) (bits := [true]) (rest := toBits 9 y.val ++ rest)
      (by omega) hs hi (by rw [hu]; rfl) rfl
    obtain ⟨u, h2, f2, u2, k2, b2, e2⟩ := rdBits_take (n := 9) (by omega) (f1.srcSound hs) k1 u1 (by simp)
    have hy : ofBits (toBits 9 y.val) = y.val := by
      rw [ofBits_toBits]; exact Nat.mod_eq_of_lt (by have := y.isLt; omega)
    rw [hy] at h2
    replace h1 : rdBits 1 s = .ok (some 1) t := h1
    have f12 := ReadFrame.trans _ _ _ f1 f2
    have hcn : u.nodeCnt = s.nodeCnt := f12.nodeCnt
    have hpush : ∀ k : NodeIx, (u.pushNode (.leaf (some y) 0)).nodeAt k =
        if nodeIxOf s.nodeCnt = k then .leaf (some y) 0 else s.nodeAt k := by
      intro k; rw [nodeAt_pushNode, hcn, f12.nodeAt]
    refine ⟨u.pushNode (.leaf (some y) 0), ?_, u2, ?_⟩
    · have h256 : ¬ 256 < y.val := by have := y.isLt; omega
      have hcap : ¬ u.nodeCnt = Config.nodeCap := by rw [hcn]; simp only [Config.nodeCap]; omega
      simp [des, h1, h2, h256, hcap]
      rw [hcn]
    · refine ⟨DesFrame.trans _ _ _ f12.des ⟨rfl, rfl⟩, k2, ?_, e2.trans e1, ?_, ⟨?_, 0, ?_⟩, ?_, ?_, ?_⟩
      · show u.rd.bitsRead = _
        rw [b2, b1, BitVec.add_assoc, ← BitVec.ofNat_add]; simp [CodeTree.bits]
      · show u.nodeCnt + 1 = _
        rw [hcn]; rfl
      · rfl
      · exact (hpush _).trans (if_pos rfl)
      · intro k hk
        rw [hpush, if_neg]
        rintro rfl
        rw [nodeIxOf_val (by omega)] at hk; simp [CodeTree.size] at hk
      · intro k hk1 hk2
        rw [hpush, if_pos]; rfl
        apply Fin.ext; rw [nodeIxOf_val (by omega)]; simp [CodeTree.size] at hk2; omega
      · intro k a b w hk1 hk2 hk
        rw [hpush, if_pos] at hk
        · simp at hk
        · apply Fin.ext; rw [nodeIxOf_val (by omega)]; simp [CodeTree.size] at hk2; omega
  | node l r hl hr =>
    intro fuel s rest hs hi hu hc hf
    obtain ⟨fuel, rfl⟩ : ∃ k, fuel = k + 1 := ⟨fuel - 1, by omega⟩
    simp only [CodeTree.size] at hc
    simp only [CodeTree.depth] at hf
    obtain ⟨t, h1, f1, u1, k1, b1, e1⟩ := rdBits_take (n := 1) (bits := [false]) (rest := l.bits ++ (r.bits ++ rest))
      (by omega) hs hi (by rw [hu]; simp [CodeTree.bits]) rfl
    replace h1 : rdBits 1 s = .ok (some 0) t := h1
    have hcn : t.nodeCnt = s.nodeCnt := f1.nodeCnt
    have f1' : DesFrame s { t with nodeCnt := t.nodeCnt + 1 } := DesFrame.trans _ _ _ f1.des ⟨rfl, rfl⟩
    obtain ⟨u, h2, u2, d2⟩ := hl (fuel := fuel) (s := { t with nodeCnt := t.nodeCnt + 1 }) (f1'.srcSound hs) k1 u1
      (by dsimp only; omega) (by omega)
    have f2' := DesFrame.trans _ _ _ f1' d2.frame
    have hun : u.nodeCnt = s.nodeCnt + 1 + l.size := by rw [d2.nodeCnt]; dsimp only; rw [hcn]
    obtain ⟨v, h3, u3, d3⟩ := hr (fuel := fuel) (f2'.srcSound hs) d2.readerOk u2 (by omega) (by omega)
    have hvn : v.nodeCnt = s.nodeCnt + (l.size + r.size + 1) := by rw [d3.nodeCnt, hun]; omega
    have hset : ∀ k : NodeIx, (v.setNode (nodeIxOf s.nodeCnt) (.internal 0 (nodeIxOf (s.nodeCnt + 1))
        (nodeIxOf (s.nodeCnt + 1 + l.size)))).nodeAt k =
        if nodeIxOf s.nodeCnt = k then
          .internal 0 (nodeIxOf (s.nodeCnt + 1)) (nodeIxOf (s.nodeCnt + 1 + l.size)) else v.nodeAt k :=
      fun k => nodeAt_setNode _ _ _ _
    have hne : ∀ k : NodeIx, s.nodeCnt < k.val → nodeIxOf s.nodeCnt ≠ k := by
      rintro k hk rfl
      rw [nodeIxOf_val (by omega)] at hk; omega
    have hl' : ∀ k : NodeIx, s.nodeCnt < k.val → k.val < s.nodeCnt + 1 + l.size → v.nodeAt k = u.nodeAt k :=
      fun k _ hk => d3.others k (Or.inl (by omega))
    have d2t := d2.tree
    have d3t := d3.tree
    dsimp only at d2t
    rw [hcn] at d2t
    rw [hun] at d3t
    refine ⟨v.setNode (nodeIxOf s.nodeCnt)
      (.internal 0 (nodeIxOf (s.nodeCnt + 1)) (nodeIxOf (s.nodeCnt + 1 + l.size))), ?_, u3, ?_⟩
    · have hcap : ¬ t.nodeCnt = Config.nodeCap := by rw [hcn]; simp only [Config.nodeCap]; omega
      simp [des, h1, hcap, h2, h3]
      simp [hun, hcn]
    · refine ⟨DesFrame.trans _ _ _ f2' (DesFrame.trans _ _ _ d3.frame ⟨rfl, rfl⟩), d3.readerOk, ?_, ?_, ?_, ?_, ?_,
        ?_, ?_⟩
      · show v.rd.bitsRead = _
        rw [d3.bitsRead, d2.bitsRead]
        show t.rd.bitsRead + _ + _ = _
        rw [b1, BitVec.add_assoc, BitVec.add_assoc, ← BitVec.ofNat_add, ← BitVec.ofNat_add]
        congr 2; simp [CodeTree.bits]; omega
      · exact d3.eos.trans (d2.eos.trans e1)
      · exact hvn
      · refine ⟨0, _, _, _, _, (hset _).trans (if_pos rfl), ?_, ?_, ixRange_node _ _ _⟩
        · refine treeAt_congr d2t fun j hj => ?_
          rw [mem_ixRange (by omega)] at hj
          exact ((hset j).trans (if_neg (hne j (by omega)))).trans (hl' j (by omega) hj.2)
        · refine treeAt_congr d3t fun j hj => ?_
          rw [mem_ixRange (by omega)] at hj
          exact (hset j).trans (if_neg (hne j (by omega)))
      · intro k hk
        simp only [CodeTree.size] at hk
        rw [hset, if_neg]
        · rw [d3.others k (by omega), d2.others k (by dsimp only; omega)]
          exact f1.nodeAt k
        · rintro rfl
          rw [nodeIxOf_val (by omega)] at hk; omega
      · intro k hk1 hk2
        simp only [CodeTree.size] at hk2
        rw [hset]
        split
        · rfl
        · rename_i hk
          have hk3 : k.val ≠ s.nodeCnt := fun h => hk (Fin.ext (by rw [nodeIxOf_val (by omega), h]))
          by_cases hk4 : k.val < s.nodeCnt + 1 + l.size
          · rw [hl' k (by omega) hk4]
            exact d2.weights k (by dsimp only; omega) (by dsimp only; omega)
          · exact d3.weights k (by omega) (by omega)
      · intro k a b w hk1 hk2 hk
        simp only [CodeTree.size] at hk2
        rw [hset] at hk
        split at hk
        · rename_i hk5
          simp only [Node.internal.injEq] at hk
          have h1 := leaves_pos l
          have h2 := size_eq l
          rw [← hk.2.1, ← hk5, nodeIxOf_val (by omega), nodeIxOf_val (by omega)]
        · rename_i hk5
          have hk3 : k.val ≠ s.nodeCnt := fun h => hk5 (Fin.ext (by rw [nodeIxOf_val (by omega), h]))
          by_cases hk4 : k.val < s.nodeCnt + 1 + l.size
          · rw [hl' k (by omega) hk4] at hk
            exact d2.lefts k a b w (by dsimp only; omega) (by dsimp only; omega) hk
          · exact d3.lefts k a b w (by omega) (by omega) hk

theorem ofBits_singleton (b : Bool) : ofBits [b] = b.toNat := by cases b <;> rfl

/-- `Des` on a serialisation cut between two nodes comes to the next node with the records so far taken and exactly their
bits consumed; what it raises there it raises (44 R189), a sound source. -/
theorem des_prefix (n : Nat) : ∀ {ts : List TreeToken} {fuel p : Nat} {s : State} {tail : List Bool} {e : Raise}
    {Q : State → Prop}, ts.length ≤ n → subtreesLeft 1 ts = some (p + 1) → ts.length < fuel → s.srcSound → s.readerOk →
    s.undelivered = ts.flatMap TreeToken.bits ++ tail → s.nodeCnt + ts.length ≤ 513 →
    (∀ (room : Nat) (t : State), 0 < room → DesFrame s t → t.readerOk → t.undelivered = tail →
      t.nodeCnt = s.nodeCnt + ts.length → ∃ u, des room t = .raised e u ∧ Q u) →
    ∃ u, des fuel s = .raised e u ∧ Q u := by
  induction n with
  | zero =>
    intro ts fuel p s tail e Q hn _ hf hs hi hu hc h
    obtain rfl := List.length_eq_zero_iff.1 (Nat.le_zero.1 hn)
    exact h fuel s (by omega) ⟨rfl, rfl⟩ hi hu rfl
  | succ n ih =>
    intro ts fuel p s tail e Q hn hp hf hs hi hu hc h
    match ts with
    | [] => exact h fuel s (by omega) ⟨rfl, rfl⟩ hi hu rfl
    | .leaf y :: ts => cases ts <;> simp [subtreesLeft] at hp
    | .internal :: ts =>
      simp only [List.length_cons] at hn hf hc h
      replace hp : subtreesLeft (1 + 1) ts = some (p + 1) := hp
      obtain ⟨fuel, rfl⟩ : ∃ k, fuel = k + 1 := ⟨fuel - 1, by omega⟩
      obtain ⟨t, h1, f1, u1, k1, -, -⟩ := rdBits_take (n := 1) (bits := [false])
        (rest := ts.flatMap TreeToken.bits ++ tail) (by omega) hs hi (by rw [hu]; rfl) rfl
      have hcn : t.nodeCnt = s.nodeCnt := f1.nodeCnt
      have f1' : DesFrame s { t with nodeCnt := t.nodeCnt + 1 } := DesFrame.trans _ _ _ f1.des ⟨rfl, rfl⟩
      have hcap : ¬ t.nodeCnt = Config.nodeCap := by rw [hcn]; simp only [Config.nodeCap]; omega
      rw [des, h1]
      simp only [ok_andThen, ofBits_singleton, Bool.toNat_false]
      rw [if_neg hcap]
      rcases subtreesLeft_split n (by omega) hp with ⟨j, hj⟩ | ⟨l, us, rfl, hus⟩
      · obtain ⟨u, g1, g2⟩ := ih (s := { t with nodeCnt := t.nodeCnt + 1 }) (fuel := fuel) (Q := Q) (by omega) hj
          (by omega) (f1'.srcSound hs) k1 u1 (by dsimp only; omega) fun room v hr fv kv uv cv =>
            h room v hr (DesFrame.trans _ _ _ f1' fv) kv uv (by rw [cv]; dsimp only; omega)
        rw [g1]; exact ⟨u, rfl, g2⟩
      · rw [List.length_append, tokens_length] at hn hf hc h
        have := size_eq l
        have := leaves_pos l
        have := depth_lt_leaves l
        obtain ⟨u, g1, g2, g3⟩ := des_sound l (fuel := fuel) (s := { t with nodeCnt := t.nodeCnt + 1 })
          (rest := us.flatMap TreeToken.bits ++ tail) (f1'.srcSound hs) k1
          (by show t.undelivered = _; rw [u1, List.flatMap_append, tokens_bits, List.append_assoc])
          (by dsimp only; omega) (by omega)
        have f2 := DesFrame.trans _ _ _ f1' g3.frame
        have hun : u.nodeCnt = s.nodeCnt + 1 + l.size := by rw [g3.nodeCnt]; dsimp only; omega
        obtain ⟨v, k1, k2⟩ := ih (s := u) (fuel := fuel) (Q := Q) (by omega) hus (by omega) (f2.srcSound hs) g3.readerOk
          g2 (by omega) fun room v hr fv kv uv cv => h room v hr (DesFrame.trans _ _ _ f2 fv) kv uv (by omega)
        rw [g1, ok_andThen, k1]; exact ⟨v, rfl, k2⟩

/-! ### The serialiser at an UNSET leaf -/

theorem node_map_get (m : Vector Node 513) (i : NodeIx) : (m.map fillUnset).get i = fillUnset (m.get i) := by
  simp [Vector.get_eq_getElem]

theorem fillUnset_internal {x : Node} {w : Weight} {a b : NodeIx} (h : fillUnset x = .internal w a b) :
    x = .internal w a b := by
  cases x with
  | leaf y c => cases y <;> simp [fillUnset] at h
  | internal => exact h

/-- A tree whose records are none of them UNSET leaves is held as it stands, and their bits are its serialisation. -/
theorem treeAt_of_filled {m : Vector Node 513} (tr : CodeTree) : ∀ {i : NodeIx} {ixs : List NodeIx},
    TreeAt (m.map fillUnset) tr i ixs → (∀ k ∈ ixs, isUnsetLeaf (m.get k) = false) →
      TreeAt m tr i ixs ∧ (ixs.flatMap fun k => recordBits (m.get k)) = tr.bits := by
  induction tr with
  | leaf y =>
    rintro i ixs ⟨rfl, w, hi⟩ hk
    have h := hk i (by simp)
    rw [node_map_get] at hi
    cases hx : m.get i with
    | internal => rw [hx] at hi; simp [fillUnset] at hi
    | leaf z c =>
      rw [hx] at hi h
      cases z with
      | none => simp [isUnsetLeaf] at h
      | some z =>
        simp only [fillUnset, Node.leaf.injEq, Option.some.injEq] at hi
        obtain ⟨rfl, rfl⟩ := hi
        exact ⟨⟨rfl, c, hx⟩, by simp [hx, recordBits, CodeTree.bits]⟩
  | node l r hl hr =>
    rintro i ixs ⟨w, a, b, as, bs, hi, ha, hb, rfl⟩ hk
    rw [node_map_get] at hi
    have hi' := fillUnset_internal hi
    obtain ⟨ha1, ha2⟩ := hl ha fun k h => hk k (by simp [h])
    obtain ⟨hb1, hb2⟩ := hr hb fun k h => hk k (by simp [h])
    exact ⟨⟨w, a, b, as, bs, hi', ha1, hb1, rfl⟩, by
      rw [List.flatMap_cons, hi', List.flatMap_append, ha2, hb2]; rfl⟩

/-- `Ser` raises INTERNAL sub 1 at the first UNSET leaf in pre-order, the bits of the records before it written
(44 R187), a sound sink. -/
theorem ser_unset (tr : CodeTree) : ∀ {room : Nat} {i j : NodeIx} {before after : List NodeIx} {s : State},
    TreeAt (s.node.map fillUnset) tr i (before ++ j :: after) → tr.depth < room → s.snkSound → s.writerOk →
    (∀ k ∈ before, isUnsetLeaf (s.nodeAt k) = false) → isUnsetLeaf (s.nodeAt j) = true →
      ∃ t, ser room i s = .raised ⟨.internal, 1, BitVec.ofNat 32 j.val⟩ t ∧ WriteFrame s t ∧
        t.written = s.written ++ (before.flatMap fun k => recordBits (s.nodeAt k)) ∧
        t.wr.bitsWritten =
          s.wr.bitsWritten + BitVec.ofNat 64 (before.flatMap fun k => recordBits (s.nodeAt k)).length := by
  induction tr with
  | leaf y =>
    intro room i j before after s h hroom hs hw hb hj
    obtain ⟨room, rfl⟩ : ∃ k, room = k + 1 := ⟨room - 1, by omega⟩
    obtain ⟨h, -⟩ := h
    have hl := congrArg List.length h
    simp only [List.length_append, List.length_cons, List.length_nil] at hl
    obtain rfl := List.length_eq_zero_iff.1 (show before.length = 0 by omega)
    simp only [List.nil_append, List.cons.injEq] at h
    obtain ⟨rfl, -⟩ := h
    refine ⟨s, ?_, WriteFrame.refl s, by simp, by simp⟩
    unfold ser
    split <;> simp_all [isUnsetLeaf]
  | node l r hl hr =>
    intro room i j before after s h hroom hs hw hbs hj
    obtain ⟨room, rfl⟩ : ∃ k, room = k + 1 := ⟨room - 1, by omega⟩
    simp only [CodeTree.depth] at hroom
    obtain ⟨w, a, b, as, bs, hi, ha, hb, h⟩ := h
    rw [node_map_get] at hi
    have hi' : s.nodeAt i = .internal w a b := fillUnset_internal hi
    obtain ⟨t, h1, f1, w1, k1, b1⟩ := wrBits_sound (n := 1) 0 (by omega) hs hw
    cases before with
    | nil =>
      simp only [List.nil_append, List.cons.injEq] at h
      rw [h.1, hi'] at hj; simp [isUnsetLeaf] at hj
    | cons x before =>
      simp only [List.cons_append, List.cons.injEq] at h
      obtain ⟨rfl, h⟩ := h
      have hx : ∀ k ∈ before, isUnsetLeaf (t.nodeAt k) = false := fun k hk => by
        rw [f1.nodeAt]; exact hbs k (by simp [hk])
      rw [ser, hi']
      simp only [h1, ok_andThen]
      have hbits : ∀ L : List NodeIx, (L.flatMap fun k => recordBits (t.nodeAt k)) =
          L.flatMap fun k => recordBits (s.nodeAt k) := fun L => by
        congr 1; funext k; rw [f1.nodeAt]
      have hpos : (∃ after', as = before ++ j :: after') ∨ ∃ cs, before = as ++ cs ∧ bs = cs ++ j :: after := by
        rcases List.append_eq_append_iff.1 h with ⟨cs, has, hcs⟩ | h
        · cases cs with
          | cons c cs => simp only [List.cons_append, List.cons.injEq] at hcs; exact .inl ⟨cs, by rw [has, hcs.1]⟩
          | nil => exact .inr ⟨[], by simpa using has.symm, by simpa using hcs.symm⟩
        · exact .inr h
      rcases hpos with ⟨after', rfl⟩ | ⟨cs, rfl, rfl⟩
      · -- in the left subtree
        obtain ⟨u, g1, g2, g3, g4⟩ := hl (room := room) (f1.node ▸ ha) (by omega) (f1.snkSound hs) k1 hx
          (by rw [f1.nodeAt]; exact hj)
        refine ⟨u, by rw [g1]; rfl, WriteFrame.trans _ _ _ f1 g2, ?_, ?_⟩
        · rw [g3, w1, hbits]; simp [hi', recordBits, toBits]
        · rw [g4, b1, hbits, BitVec.add_assoc, ← BitVec.ofNat_add]; simp [hi', recordBits, Nat.add_comm]
      · -- in the right subtree, after all of the left one
        obtain ⟨hat, hab⟩ := treeAt_of_filled l ha fun k hk => hbs k (by simp [hk])
        obtain ⟨u, g1, g2, g3, g4, g5⟩ := ser_sound l (room := room) (f1.node ▸ hat) (by omega) (f1.snkSound hs) k1
        have f12 := WriteFrame.trans _ _ _ f1 g2
        obtain ⟨v, e1, e2, e3, e4⟩ := hr (room := room) (f12.node ▸ hb) (by omega) (f12.snkSound hs) g4
          (fun k hk => by rw [f12.nodeAt]; exact hbs k (by simp [hk])) (by rw [f12.nodeAt]; exact hj)
        have hcb : (cs.flatMap fun k => recordBits (u.nodeAt k)) = cs.flatMap fun k => recordBits (s.nodeAt k) := by
          congr 1; funext k; rw [f12.nodeAt]
        have hall : ((x :: (as ++ cs)).flatMap fun k => recordBits (s.nodeAt k)) =
            false :: (l.bits ++ cs.flatMap fun k => recordBits (s.nodeAt k)) := by
          rw [List.flatMap_cons, hi', List.flatMap_append]
          show [false] ++ ((as.flatMap fun k => recordBits (s.node.get k)) ++ _) = _
          rw [hab]; rfl
        refine ⟨v, by rw [g1, ok_andThen, e1], WriteFrame.trans _ _ _ f12 e2, ?_, ?_⟩
        · rw [e3, g3, w1, hcb, hall]; simp [toBits]
        · rw [e4, g5, b1, hcb, hall, BitVec.add_assoc, BitVec.add_assoc, ← BitVec.ofNat_add, ← BitVec.ofNat_add]
          congr 2; simp; omega

end Sys2Proof.Machine
end

