-- ==== Sys2Proof/Laws/Codec.lean ====
section
/-! SUPPORT. What the loops of the codec do over the two streams: FCOUNT (42 R161), CTAB (45 R202), ENCODE (45 R203) and
DECODE (46 R223, R225). -/

namespace Sys2Proof.Machine

/-! ### The stream in groups of eight bits -/

theorem octets_of_lt {l : List Bool} (h : l.length < 8) : octets l = [] := by
  match l, h with
  | [], _ | [_], _ | [_, _], _ | [_, _, _], _ | [_, _, _, _], _ | [_, _, _, _, _], _ | [_, _, _, _, _, _], _
  | [_, _, _, _, _, _, _], _ => rfl
  | _ :: _ :: _ :: _ :: _ :: _ :: _ :: _ :: _, h => simp only [List.length_cons] at h; omega

theorem octets_of_le {l : List Bool} (h : 8 ≤ l.length) : octets l = ofBits (l.take 8) :: octets (l.drop 8) := by
  match l, h with
  | [], h | [_], h | [_, _], h | [_, _, _], h | [_, _, _, _], h | [_, _, _, _, _], h | [_, _, _, _, _, _], h
  | [_, _, _, _, _, _, _], h => simp at h
  | _ :: _ :: _ :: _ :: _ :: _ :: _ :: _ :: _, _ => rfl

theorem octets_lt (l : List Bool) : ∀ v ∈ octets l, v < 256 := by
  induction hn : l.length using Nat.strong_induction_on generalizing l with
  | _ n ih =>
    by_cases h : l.length < 8
    · simp [octets_of_lt h]
    · have h8 : 8 ≤ l.length := by omega
      rw [octets_of_le h8]
      intro v hv
      rcases List.mem_cons.1 hv with rfl | hv
      · have := ofBits_lt (l.take 8)
        rwa [List.length_take, Nat.min_eq_left h8] at this
      · exact ih (l.drop 8).length (by rw [List.length_drop]; omega) _ rfl v hv

theorem octets_length (l : List Bool) : (octets l).length = l.length / 8 := by
  induction hn : l.length using Nat.strong_induction_on generalizing l with
  | _ n ih =>
    by_cases h : l.length < 8
    · rw [octets_of_lt h]; simp only [List.length_nil]; omega
    · rw [octets_of_le (by omega), List.length_cons, ih (l.drop 8).length (by rw [List.length_drop]; omega) _ rfl,
        List.length_drop]
      omega

theorem undelivered_length_le (s : State) : s.undelivered.length ≤ s.bitsLeft := by
  unfold State.undelivered State.bitsLeft Reader.accBits
  simp only [List.length_append, toBits_length, bytesBits_length, List.length_drop]
  split <;> simp

/-! ### FCOUNT -/

/-- What the counting loop may change: the reader, the fetch position and count, the log and FREQ. -/
def CountFrame (s t : State) : Prop :=
  t = { s with rd := t.rd, src := { s.src with pos := t.src.pos, txs := t.src.txs }, log := t.log, freq := t.freq } ∧
    t.rd.isOpen = s.rd.isOpen

theorem CountFrame.trans (a b c : State) (h : CountFrame a b) (h' : CountFrame b c) : CountFrame a c := by
  obtain ⟨h1, h2⟩ := h
  obtain ⟨h3, h4⟩ := h'
  refine ⟨?_, h4.trans h2⟩
  rw [h3]
  conv_lhs => rw [h1]

theorem ReadFrame.count {s t : State} (h : ReadFrame s t) : CountFrame s t := by
  obtain ⟨h1, h2⟩ := h
  refine ⟨?_, h2⟩
  rw [h1]

theorem CountFrame.srcSound {s t : State} (h : CountFrame s t) (hs : s.srcSound) : t.srcSound := by
  unfold State.srcSound; rw [h.1]; exact hs

theorem ReadFrame.freqOf {s t : State} (h : ReadFrame s t) (y : Symbol) : t.freqOf y = s.freqOf y := by rw [h.1]; rfl

/-- The counting loop over the groups `before`, none of whose counters is full (42 R161), a sound source. -/
theorem fCountLoop_prefix (before after : List Nat) : ∀ {fuel : Nat} {s : State}, s.srcSound → s.readerOk →
    octets s.undelivered = before ++ after →
    (∀ y : Symbol, (s.freqOf y).toNat + before.count y.val < 2 ^ 64) →
      ∃ t, fCountLoop (fuel + before.length) s = fCountLoop fuel t ∧ CountFrame s t ∧ t.readerOk ∧
        octets t.undelivered = after ∧ t.undelivered = s.undelivered.drop (8 * before.length) ∧
        (∀ y : Symbol, (t.freqOf y).toNat = (s.freqOf y).toNat + before.count y.val) ∧
        t.rd.bitsRead = s.rd.bitsRead + BitVec.ofNat 64 (8 * before.length) ∧ t.rd.eos = s.rd.eos := by
  induction before with
  | nil => intro fuel s hs hi hu hc; exact ⟨s, rfl, ⟨rfl, rfl⟩, hi, hu, rfl, by simp, by simp, rfl⟩
  | cons v before ih =>
    intro fuel s hs hi hu hc
    have h8 : 8 ≤ s.undelivered.length := by
      by_contra h
      rw [octets_of_lt (by omega)] at hu; simp at hu
    rw [octets_of_le h8] at hu
    simp only [List.cons_append, List.cons.injEq] at hu
    obtain ⟨hv, hu⟩ := hu
    have hv256 : v < 256 := by
      have := ofBits_lt (s.undelivered.take 8)
      rw [List.length_take, Nat.min_eq_left h8] at this; omega
    obtain ⟨t, h1, f1, u1, k1, b1, e1⟩ := rdBits_take (n := 8) (bits := s.undelivered.take 8)
      (rest := s.undelivered.drop 8) (by omega) hs hi (List.take_append_drop _ _).symm (by simp; omega)
    rw [hv] at h1
    have hyv : (symbolOf v).val = v := symbolOf_val (by omega)
    have hcy := hc (symbolOf v)
    rw [hyv, List.count_cons_self] at hcy
    have hfull : ¬ t.freqOf (symbolOf v) = BitVec.allOnes 64 := by
      rw [f1.freqOf]; intro h; rw [h] at hcy; simp at hcy; omega
    have hstep : ∀ y : Symbol, ((t.setFreq (symbolOf v) (t.freqOf (symbolOf v) + 1)).freqOf y).toNat =
        (s.freqOf y).toNat + if v = y.val then 1 else 0 := by
      intro y
      rw [freqOf_setFreq, f1.freqOf, f1.freqOf]
      by_cases h : v = y.val
      · have h' : symbolOf v = y := Fin.ext (by rw [hyv, h])
        rw [if_pos h', if_pos h, h', BitVec.toNat_add]
        rw [h'] at hcy
        show ((s.freqOf y).toNat + 1) % 2 ^ 64 = _
        rw [Nat.mod_eq_of_lt (by omega)]
      · have h' : symbolOf v ≠ y := fun h' => h (by rw [← h', hyv])
        rw [if_neg h', if_neg h]; rfl
    have f1' : CountFrame s (t.setFreq (symbolOf v) (t.freqOf (symbolOf v) + 1)) :=
      CountFrame.trans _ _ _ f1.count ⟨rfl, rfl⟩
    obtain ⟨u, g1, g2, g3, g4, g5, g6, g7, g8⟩ := ih (fuel := fuel) (f1'.srcSound hs) k1 (by
        show octets t.undelivered = _
        rw [u1]; exact hu) (by
        intro y
        have := hc y
        rw [List.count_cons] at this
        rw [hstep]
        by_cases h : v = y.val <;> simp [h] at this ⊢ <;> omega)
    refine ⟨u, ?_, CountFrame.trans _ _ _ f1' g2, g3, g4, ?_, ?_, ?_, ?_⟩
    · rw [List.length_cons, ← Nat.add_assoc, fCountLoop, h1, ok_andThen]
      dsimp only
      rw [if_neg hfull, g1]
    · rw [g5]
      show t.undelivered.drop _ = _
      rw [u1, List.drop_drop, List.length_cons]; congr 1; omega
    · intro y
      rw [g6, hstep, List.count_cons]
      by_cases h : v = y.val
      · simp [h]; omega
      · simp [h]
    · rw [g7]
      show t.rd.bitsRead + _ = _
      rw [b1, BitVec.add_assoc, ← BitVec.ofNat_add, List.length_cons]; congr 2; omega
    · rw [g8]; exact e1

/-- The counting loop at the end of the stream (42 R161). -/
theorem fCountLoop_end {fuel : Nat} {s : State} (hs : s.srcSound) (hi : s.readerOk) (hu : octets s.undelivered = []) :
    ∃ t, fCountLoop (fuel + 1) s = .ok () t ∧ ReadFrame s t ∧ t.undelivered = [] ∧ t.readerOk ∧
      t.rd.bitsRead = s.rd.bitsRead ∧ t.rd.eos = true := by
  have h8 : s.undelivered.length < 8 := by
    by_contra h
    rw [octets_of_le (by omega)] at hu; simp at hu
  obtain ⟨t, h1, h2⟩ := rdBits_end (n := 8) (by omega) hs hi h8
  exact ⟨t, by simp [fCountLoop, h1], h2⟩

/-- The counting loop at a full counter (42 R162). -/
theorem fCountLoop_full {fuel v : Nat} {after : List Nat} {s : State} (hs : s.srcSound) (hi : s.readerOk)
    (hu : octets s.undelivered = v :: after) (hv : s.freqOf (symbolOf v) = BitVec.allOnes 64) :
    ∃ t, fCountLoop (fuel + 1) s = .raised ⟨.capacity, 1, BitVec.ofNat 32 v⟩ t ∧ ReadFrame s t := by
  have h8 : 8 ≤ s.undelivered.length := by
    by_contra h
    rw [octets_of_lt (by omega)] at hu; simp at hu
  rw [octets_of_le h8] at hu
  simp only [List.cons.injEq] at hu
  obtain ⟨t, h1, f1, -⟩ := rdBits_take (n := 8) (bits := s.undelivered.take 8)
    (rest := s.undelivered.drop 8) (by omega) hs hi (List.take_append_drop _ _).symm (by simp; omega)
  rw [hu.1] at h1
  exact ⟨t, by simp [fCountLoop, h1, f1.freqOf, hv], f1⟩

/-! ### CTAB -/

/-- `Walk` sets the codes of the leaves below a record, in pre-order, and nothing else (45 R202). -/
theorem walk_sound (tr : CodeTree) : ∀ {room : Nat} {i : NodeIx} {ixs : List NodeIx} {path : List Bool} {s : State},
    TreeAt s.node tr i ixs → tr.depth < room →
      walk room i path s =
        .ok () { s with code := tr.codes.foldl (fun c p => c.set p.1 (path ++ p.2)) s.code } := by
  induction tr with
  | leaf y =>
    intro room i ixs path s h hr
    obtain ⟨-, w, hi⟩ := h
    obtain ⟨room, rfl⟩ : ∃ k, room = k + 1 := ⟨room - 1, by omega⟩
    simp [walk, show s.nodeAt i = .leaf (some y) w from hi, CodeTree.codes, State.setCode]
  | node l r hl hr =>
    intro room i ixs path s h hroom
    obtain ⟨w, a, b, as, bs, hi, ha, hb, -⟩ := h
    simp only [CodeTree.depth] at hroom
    obtain ⟨room, rfl⟩ : ∃ k, room = k + 1 := ⟨room - 1, by omega⟩
    simp only [walk, show s.nodeAt i = .internal w a b from hi, hl (room := room) (path := path ++ [false]) ha (by omega), ok_andThen]
    rw [hr (room := room) (path := path ++ [true]) (by exact hb) (by omega)]
    simp [CodeTree.codes, List.foldl_append, List.foldl_map]

theorem foldl_set_get (l : List (Symbol × List Bool)) (c : Vector (List Bool) 257) (y : Symbol) :
    (l.foldl (fun c p => c.set p.1 p.2) c).get y =
      ((l.reverse.find? fun p => p.1 = y).map Prod.snd).getD (c.get y) := by
  induction l using List.reverseRecOn with
  | nil => rfl
  | append_singleton l p ih =>
    simp only [List.foldl_append, List.foldl_cons, List.foldl_nil, List.reverse_append, List.reverse_cons,
      List.reverse_nil, List.nil_append, List.cons_append, List.find?_cons]
    by_cases h : p.1 = y
    · subst h; simp [Vector.get_eq_getElem]
    · have h' : p.1.val ≠ y.val := fun h' => h (Fin.ext h')
      have hd : decide (p.1 = y) = false := by simpa using h
      rw [hd]
      dsimp only
      rw [← ih]
      simp [Vector.get_eq_getElem, h']

/-- `CTab` with a tree in the node memory makes each symbol's entry the tree's (45 R202). -/
theorem cTab_sound {s : State} {tr : CodeTree} (h : s.holdsTree tr) :
    ∃ c, cTab s = .ok () { s with code := c, tableValid := true } ∧ ∀ y, c.get y = tr.entry y := by
  obtain ⟨-, ixs, ht, hn, -⟩ := h
  have hd := depth_le_of_nodup ht hn
  have hw := walk_sound tr (room := Config.traversalStack) (path := [])
    (s := { s with tableValid := false, code := Vector.replicate 257 [] }) ht (by simp only [Config.traversalStack]; omega)
  refine ⟨tr.codes.foldl (fun c p => c.set p.1 p.2) (Vector.replicate 257 []), ?_, fun y => ?_⟩
  · unfold cTab; rw [hw]; rfl
  · rw [foldl_set_get]
    simp [CodeTree.entry, Vector.get_eq_getElem]

/-! ### ENCODE -/

/-- What ENCODE and DECODE may change: both units but for their open flags, the positions and contents the devices have
for them, the log. -/
def CodecFrame (s t : State) : Prop :=
  t = { s with rd := t.rd, src := { s.src with pos := t.src.pos, txs := t.src.txs }, wr := t.wr,
               snk := { s.snk with content := t.snk.content, txs := t.snk.txs }, log := t.log } ∧
    t.rd.isOpen = s.rd.isOpen ∧ t.wr.isOpen = s.wr.isOpen

theorem CodecFrame.refl (s : State) : CodecFrame s s := ⟨rfl, rfl, rfl⟩

theorem CodecFrame.trans (a b c : State) (h : CodecFrame a b) (h' : CodecFrame b c) : CodecFrame a c := by
  obtain ⟨h1, h2, h3⟩ := h
  obtain ⟨h4, h5, h6⟩ := h'
  refine ⟨?_, h5.trans h2, h6.trans h3⟩
  rw [h4]
  conv_lhs => rw [h1]

theorem ReadFrame.codec {s t : State} (h : ReadFrame s t) : CodecFrame s t := by
  obtain ⟨h1, h2⟩ := h
  exact ⟨by rw [h1], h2, by rw [h1]⟩

theorem WriteFrame.codec {s t : State} (h : WriteFrame s t) : CodecFrame s t := by
  obtain ⟨h1, h2⟩ := h
  exact ⟨by rw [h1], by rw [h1], h2⟩

theorem CodecFrame.srcSound {s t : State} (h : CodecFrame s t) (hs : s.srcSound) : t.srcSound := by
  unfold State.srcSound; rw [h.1]; exact hs

theorem CodecFrame.snkSound {s t : State} (h : CodecFrame s t) (hs : s.snkSound) : t.snkSound := by
  unfold State.snkSound; rw [h.1]; exact hs

theorem CodecFrame.codeOf {s t : State} (h : CodecFrame s t) (y : Symbol) : t.codeOf y = s.codeOf y := by
  rw [h.1]; rfl

theorem CodecFrame.node {s t : State} (h : CodecFrame s t) : t.node = s.node := by rw [h.1]

theorem CodecFrame.root {s t : State} (h : CodecFrame s t) : t.root = s.root := by rw [h.1]

/-- `WrCode` of a bit string appends it, however it is cut (45 R204), a sound sink. -/
theorem wrPieces_sound : ∀ (fuel : Nat) (bits : List Bool) {s : State}, bits.length ≤ fuel → s.snkSound → s.writerOk →
    ∃ t, wrPieces fuel bits s = .ok () t ∧ WriteFrame s t ∧ t.written = s.written ++ bits ∧ t.writerOk ∧
      t.wr.bitsWritten = s.wr.bitsWritten + BitVec.ofNat 64 bits.length := by
  intro fuel
  induction fuel with
  | zero =>
    intro bits s hb hs hw
    obtain rfl := List.length_eq_zero_iff.1 (Nat.le_zero.1 hb)
    exact ⟨s, rfl, WriteFrame.refl s, by simp, hw, by simp⟩
  | succ fuel ih =>
    intro bits s hb hs hw
    cases bits with
    | nil => exact ⟨s, rfl, WriteFrame.refl s, by simp, hw, by simp⟩
    | cons b bits =>
      obtain ⟨t, h1, f1, w1, k1, b1⟩ := wrBits_sound (n := ((b :: bits).take 32).length)
        (ofBits ((b :: bits).take 32)) (by rw [List.length_take]; omega) hs hw
      rw [toBits_ofBits] at w1
      obtain ⟨u, h2, f2, w2, k2, b2⟩ := ih ((b :: bits).drop 32) (s := t)
        (by rw [List.length_drop]; simp only [List.length_cons] at hb ⊢; omega) (f1.snkSound hs) k1
      refine ⟨u, ?_, WriteFrame.trans _ _ _ f1 f2, ?_, k2, ?_⟩
      · simp only [wrPieces, h1, ok_andThen, h2]
      · rw [w2, w1, List.append_assoc, List.take_append_drop]
      · rw [b2, b1, BitVec.add_assoc, ← BitVec.ofNat_add, ← List.length_append, List.take_append_drop]

/-- One symbol of ENCODE with an entry (45 R203, R204), a sound sink. -/
theorem encodeSymbol_sound {y : Symbol} {s : State} (hy : s.codeOf y ≠ []) (hs : s.snkSound) (hw : s.writerOk) :
    ∃ t, encodeSymbol y s = .ok () t ∧ WriteFrame s t ∧ t.written = s.written ++ s.codeOf y ∧ t.writerOk ∧
      t.wr.bitsWritten = s.wr.bitsWritten + BitVec.ofNat 64 (s.codeOf y).length := by
  obtain ⟨t, h⟩ := wrPieces_sound _ (s.codeOf y) (le_refl _) hs hw
  exact ⟨t, by simp only [encodeSymbol, if_neg hy, wrCode]; exact h.1, h.2⟩

/-- The encoding loop over groups that have entries (45 R203), sound devices. -/
theorem encodeLoop_prefix (before after : List Nat) : ∀ {fuel : Nat} {s : State}, s.srcSound → s.snkSound →
    s.readerOk → s.writerOk → octets s.undelivered = before ++ after →
    (∀ v ∈ before, s.codeOf (symbolOf v) ≠ []) →
      ∃ t, encodeLoop (fuel + before.length) s = encodeLoop fuel t ∧ CodecFrame s t ∧ t.readerOk ∧ t.writerOk ∧
        octets t.undelivered = after ∧
        t.written = s.written ++ before.flatMap (fun v => s.codeOf (symbolOf v)) ∧
        t.wr.bitsWritten = s.wr.bitsWritten +
          BitVec.ofNat 64 (before.map fun v => (s.codeOf (symbolOf v)).length).sum ∧
        t.rd.bitsRead = s.rd.bitsRead + BitVec.ofNat 64 (8 * before.length) ∧ t.rd.eos = s.rd.eos := by
  induction before with
  | nil =>
    intro fuel s hs hk hi hw hu hc
    exact ⟨s, rfl, CodecFrame.refl s, hi, hw, hu, by simp, by simp, by simp, rfl⟩
  | cons v before ih =>
    intro fuel s hs hk hi hw hu hc
    have h8 : 8 ≤ s.undelivered.length := by
      by_contra h
      rw [octets_of_lt (by omega)] at hu; simp at hu
    rw [octets_of_le h8] at hu
    simp only [List.cons_append, List.cons.injEq] at hu
    obtain ⟨hv, hu⟩ := hu
    obtain ⟨t, h1, f1, u1, k1, b1, e1⟩ := rdBits_take (n := 8) (bits := s.undelivered.take 8)
      (rest := s.undelivered.drop 8) (by omega) hs hi (List.take_append_drop _ _).symm (by simp; omega)
    rw [hv] at h1
    have hwt : t.writerOk := by unfold State.writerOk; rw [f1.wr]; exact hw
    obtain ⟨u, h2, f2, w2, k2, b2⟩ := encodeSymbol_sound (y := symbolOf v) (s := t)
      (by rw [f1.codeOf]; exact hc v (by simp)) (f1.codec.snkSound hk) hwt
    have f12 := CodecFrame.trans _ _ _ f1.codec f2.codec
    obtain ⟨x, g1, g2, g3, g4, g5, g6, g7, g8, g9⟩ := ih (fuel := fuel) (f12.srcSound hs) (f12.snkSound hk)
      (by unfold State.readerOk; rw [f2.rd]; exact k1) k2 (by rw [f2.undelivered, u1]; exact hu)
      (fun w hw => by rw [f12.codeOf]; exact hc w (by simp [hw]))
    refine ⟨x, ?_, CodecFrame.trans _ _ _ f12 g2, g3, g4, g5, ?_, ?_, ?_, ?_⟩
    · rw [List.length_cons, ← Nat.add_assoc, encodeLoop, h1, ok_andThen]
      dsimp only
      rw [h2, ok_andThen, g1]
    · rw [g6, w2, f1.written, f1.codeOf, List.flatMap_cons, List.append_assoc]
      simp only [f12.codeOf]
    · rw [g7, b2, f1.wr, f1.codeOf, BitVec.add_assoc, ← BitVec.ofNat_add, List.map_cons, List.sum_cons]
      simp only [f12.codeOf]
    · rw [g8, f2.rd, b1, BitVec.add_assoc, ← BitVec.ofNat_add, List.length_cons]; congr 2; omega
    · rw [g9, f2.rd, e1]

/-- The encoding loop at the end of the stream (45 R203). -/
theorem encodeLoop_end {fuel : Nat} {s : State} (hs : s.srcSound) (hi : s.readerOk) (hu : octets s.undelivered = []) :
    ∃ t, encodeLoop (fuel + 1) s = .ok () t ∧ ReadFrame s t ∧ t.undelivered = [] ∧ t.readerOk ∧
      t.rd.bitsRead = s.rd.bitsRead ∧ t.rd.eos = true := by
  have h8 : s.undelivered.length < 8 := by
    by_contra h
    rw [octets_of_le (by omega)] at hu; simp at hu
  obtain ⟨t, h1, h2⟩ := rdBits_end (n := 8) (by omega) hs hi h8
  exact ⟨t, by simp [encodeLoop, h1], h2⟩

/-- The encoding loop at a group without an entry (45 R203). -/
theorem encodeLoop_missing {fuel v : Nat} {after : List Nat} {s : State} (hs : s.srcSound) (hi : s.readerOk)
    (hu : octets s.undelivered = v :: after) (hv : s.codeOf (symbolOf v) = []) :
    ∃ t, encodeLoop (fuel + 1) s = .raised ⟨.internal, 2, BitVec.ofNat 32 v⟩ t ∧ ReadFrame s t := by
  have hv256 : v < 256 := octets_lt s.undelivered v (by rw [hu]; simp)
  have h8 : 8 ≤ s.undelivered.length := by
    by_contra h
    rw [octets_of_lt (by omega)] at hu; simp at hu
  rw [octets_of_le h8] at hu
  simp only [List.cons.injEq] at hu
  obtain ⟨t, h1, f1, -⟩ := rdBits_take (n := 8) (bits := s.undelivered.take 8)
    (rest := s.undelivered.drop 8) (by omega) hs hi (List.take_append_drop _ _).symm (by simp; omega)
  rw [hu.1] at h1
  exact ⟨t, by simp [encodeLoop, h1, encodeSymbol, f1.codeOf, hv, symbolOf_val (show v < 257 by omega)], f1⟩

/-! ### DECODE -/

/-- The decoding loop from an internal record down one code of its subtree (46 R223), a sound source: it then stops at
the terminator or writes the byte and goes on from the root. -/
theorem decodeLoop_code (tr : CodeTree) : ∀ {l r : CodeTree} {fuel : Nat} {cur : NodeIx} {ixs : List NodeIx}
    {y : Symbol} {c rest : List Bool} {s : State}, tr = .node l r → TreeAt s.node tr cur ixs → s.srcSound →
    s.readerOk → (y, c) ∈ tr.codes → s.undelivered = c ++ rest →
      ∃ t, decodeLoop (fuel + c.length) cur s =
          (if y = terminator then .ok () t
          else (wrBits 8 y.val t).andThen fun _ u => decodeLoop fuel u.root u) ∧
        ReadFrame s t ∧ t.undelivered = rest ∧ t.readerOk ∧
        t.rd.bitsRead = s.rd.bitsRead + BitVec.ofNat 64 c.length ∧ t.rd.eos = s.rd.eos := by
  induction tr with
  | leaf z => intro l r fuel cur ixs y c rest s he; cases he
  | node l r hl hr =>
    intro l' r' fuel cur ixs y c rest s he ht hs hi hc hu
    clear he
    obtain ⟨w, a, b, as, bs, hcur, ha, hb, -⟩ := ht
    simp only [CodeTree.codes, List.mem_append, List.mem_map] at hc
    -- one bit, and the child it selects
    have key : ∀ (sub : CodeTree) (child : NodeIx) (bit : Bool) (d : List Bool) (ixs : List NodeIx),
        TreeAt s.node sub child ixs → (y, d) ∈ sub.codes → c = bit :: d →
        (if bit = false then a else b) = child →
        (∀ {l r : CodeTree} {fuel : Nat} {cur : NodeIx} {ixs : List NodeIx} {y : Symbol} {c rest : List Bool}
          {s : State}, sub = .node l r → TreeAt s.node sub cur ixs → s.srcSound → s.readerOk → (y, c) ∈ sub.codes →
          s.undelivered = c ++ rest →
          ∃ t, decodeLoop (fuel + c.length) cur s =
              (if y = terminator then .ok () t
              else (wrBits 8 y.val t).andThen fun _ u => decodeLoop fuel u.root u) ∧
            ReadFrame s t ∧ t.undelivered = rest ∧ t.readerOk ∧
            t.rd.bitsRead = s.rd.bitsRead + BitVec.ofNat 64 c.length ∧ t.rd.eos = s.rd.eos) →
        ∃ t, decodeLoop (fuel + c.length) cur s =
            (if y = terminator then .ok () t
            else (wrBits 8 y.val t).andThen fun _ u => decodeLoop fuel u.root u) ∧
          ReadFrame s t ∧ t.undelivered = rest ∧ t.readerOk ∧
          t.rd.bitsRead = s.rd.bitsRead + BitVec.ofNat 64 c.length ∧ t.rd.eos = s.rd.eos := by
      intro sub child bit d ixs htr hd hcd hchild ih
      subst hcd
      obtain ⟨t, h1, f1, u1, k1, b1, e1⟩ := rdBits_take (n := 1) (bits := [bit]) (rest := d ++ rest) (by omega) hs hi
        (by rw [hu]; rfl) rfl
      have hnext : (if ofBits [bit] = 0 then a else b) = child := by rw [← hchild]; cases bit <;> rfl
      have hcur' : t.nodeAt cur = .internal w a b := by rw [f1.nodeAt]; exact hcur
      cases sub with
      | leaf z =>
        obtain ⟨-, wz, hz⟩ := htr
        simp only [CodeTree.codes, List.mem_singleton, Prod.mk.injEq] at hd
        obtain ⟨rfl, rfl⟩ := hd
        have hz' : t.nodeAt child = .leaf (some y) wz := by rw [f1.nodeAt]; exact hz
        have hsym : (symField (some y)).toNat = y.val := by
          simp only [symField, BitVec.toNat_ofNat]
          exact Nat.mod_eq_of_lt (by have := y.isLt; omega)
        refine ⟨t, ?_, f1, u1, k1, b1, e1⟩
        rw [List.length_cons, List.length_nil, decodeLoop, h1, ok_andThen]
        dsimp only
        rw [hcur']
        dsimp only
        rw [hnext, hz']
        dsimp only
        rw [hsym]
        simp only [Option.some.injEq]
      | node l r =>
        have f1n := f1.node
        have htr0 := htr
        obtain ⟨wz, az, bz, -, -, hz, -⟩ := htr
        have hz' : t.nodeAt child = .internal wz az bz := by rw [f1.nodeAt]; exact hz
        obtain ⟨u, g1, g2, g3, g4, g5, g6⟩ := ih (fuel := fuel) (s := t) rfl (by rw [f1n]; exact htr0) (f1.srcSound hs)
          k1 hd u1
        refine ⟨u, ?_, f1.trans _ _ _ g2, g3, g4, ?_, g6.trans e1⟩
        · rw [List.length_cons, ← Nat.add_assoc, decodeLoop, h1, ok_andThen]
          dsimp only
          rw [hcur']
          dsimp only
          rw [hnext, hz']
          exact g1
        · rw [g5, b1, BitVec.add_assoc, ← BitVec.ofNat_add, List.length_cons, Nat.add_comm]
    rcases hc with ⟨q, hq, he⟩ | ⟨q, hq, he⟩
    · obtain ⟨rfl, rfl⟩ := Prod.mk.inj he
      exact key l a false q.2 as ha hq rfl rfl hl
    · obtain ⟨rfl, rfl⟩ := Prod.mk.inj he
      exact key r b true q.2 bs hb hq rfl rfl hr

/-- The decoding loop on a stream that ends inside a code (46 R223), a sound source. -/
theorem decodeLoop_cut (tr : CodeTree) : ∀ {l r : CodeTree} {fuel : Nat} {cur : NodeIx} {ixs : List NodeIx}
    {p : Symbol × List Bool} {cut : List Bool} {s : State}, tr = .node l r → TreeAt s.node tr cur ixs → s.srcSound →
    s.readerOk → p ∈ tr.codes → cut <+: p.2 → cut ≠ p.2 → s.undelivered = cut →
      ∃ t, decodeLoop (fuel + cut.length + 1) cur s = .raised ⟨.malformed, 2, 0⟩ t ∧ ReadFrame s t ∧
        t.rd.eos = true := by
  induction tr with
  | leaf z => intro l r fuel cur ixs p cut s he; cases he
  | node l r hl hr =>
    intro l' r' fuel cur ixs p cut s he ht hs hi hp hpre hne hu
    clear he
    cases cut with
    | nil =>
      obtain ⟨t, h1, f1, -, -, -, e1⟩ := rdBits_end (n := 1) (by omega) hs hi (by rw [hu]; simp)
      exact ⟨t, by simp [decodeLoop, h1], f1, e1⟩
    | cons bit cut =>
      obtain ⟨w, a, b, as, bs, hcur, ha, hb, -⟩ := ht
      simp only [CodeTree.codes, List.mem_append, List.mem_map] at hp
      have key : ∀ (sub : CodeTree) (child : NodeIx) (q : Symbol × List Bool) (ixs : List NodeIx),
          TreeAt s.node sub child ixs → q ∈ sub.codes → p.2 = bit :: q.2 →
          (if bit = false then a else b) = child →
          (∀ {l r : CodeTree} {fuel : Nat} {cur : NodeIx} {ixs : List NodeIx}
            {p : Symbol × List Bool} {cut : List Bool} {s : State}, sub = .node l r → TreeAt s.node sub cur ixs →
            s.srcSound → s.readerOk → p ∈ sub.codes → cut <+: p.2 → cut ≠ p.2 → s.undelivered = cut →
            ∃ t, decodeLoop (fuel + cut.length + 1) cur s = .raised ⟨.malformed, 2, 0⟩ t ∧ ReadFrame s t ∧
              t.rd.eos = true) →
          ∃ t, decodeLoop (fuel + (bit :: cut).length + 1) cur s = .raised ⟨.malformed, 2, 0⟩ t ∧ ReadFrame s t ∧
            t.rd.eos = true := by
        intro sub child q ixs htr hq hpq hchild ih
        rw [hpq] at hpre hne
        have hpre' : cut <+: q.2 := by simpa using hpre
        have hne' : cut ≠ q.2 := fun h => hne (by rw [h])
        obtain ⟨t, h1, f1, u1, k1, b1, e1⟩ := rdBits_take (n := 1) (bits := [bit]) (rest := cut) (by omega) hs hi hu rfl
        have hnext : (if ofBits [bit] = 0 then a else b) = child := by rw [← hchild]; cases bit <;> rfl
        have hcur' : t.nodeAt cur = .internal w a b := by rw [f1.nodeAt]; exact hcur
        cases sub with
        | leaf z =>
          simp only [CodeTree.codes, List.mem_singleton] at hq
          subst hq
          exact absurd (List.eq_nil_of_prefix_nil hpre') hne'
        | node l r =>
          have f1n := f1.node
          have htr0 := htr
          obtain ⟨wz, az, bz, -, -, hz, -⟩ := htr
          have hz' : t.nodeAt child = .internal wz az bz := by rw [f1.nodeAt]; exact hz
          obtain ⟨u, g1, g2, g3⟩ := ih (fuel := fuel) (s := t) rfl (by rw [f1n]; exact htr0) (f1.srcSound hs) k1 hq
            hpre' hne' u1
          refine ⟨u, ?_, f1.trans _ _ _ g2, g3⟩
          rw [List.length_cons, ← Nat.add_assoc, decodeLoop, h1, ok_andThen]
          dsimp only
          rw [hcur']
          dsimp only
          rw [hnext, hz']
          exact g1
      rcases hp with ⟨q, hq, he⟩ | ⟨q, hq, he⟩
      · have hp2 : p.2 = false :: q.2 := by rw [← he]
        have hbit : bit = false := by rw [hp2] at hpre; exact (List.cons_prefix_cons.1 hpre).1
        subst hbit
        exact key l a q as ha hq hp2 rfl hl
      · have hp2 : p.2 = true :: q.2 := by rw [← he]
        have hbit : bit = true := by rw [hp2] at hpre; exact (List.cons_prefix_cons.1 hpre).1
        subst hbit
        exact key r b q bs hb hq hp2 rfl hr

/-- The decoding loop from the root over the codes of a run of byte symbols (46 R223, R225), sound devices. -/
theorem decodeLoop_codes {l r : CodeTree} (ps : List (Symbol × List Bool)) : ∀ {fuel : Nat} {ixs : List NodeIx}
    {rest : List Bool} {s : State}, TreeAt s.node (.node l r) s.root ixs → s.srcSound → s.snkSound → s.readerOk →
    s.writerOk → (∀ p ∈ ps, p ∈ (CodeTree.node l r).codes ∧ p.1 ≠ terminator) →
    s.undelivered = ps.flatMap Prod.snd ++ rest →
      ∃ t, decodeLoop (fuel + (ps.flatMap Prod.snd).length) s.root s = decodeLoop fuel t.root t ∧ CodecFrame s t ∧
        t.readerOk ∧ t.writerOk ∧ t.undelivered = rest ∧
        t.written = s.written ++ (ps.flatMap fun p => toBits 8 p.1.val) ∧
        t.wr.bitsWritten = s.wr.bitsWritten + BitVec.ofNat 64 (8 * ps.length) ∧
        t.rd.bitsRead = s.rd.bitsRead + BitVec.ofNat 64 (ps.flatMap Prod.snd).length ∧ t.rd.eos = s.rd.eos := by
  induction ps with
  | nil =>
    intro fuel ixs rest s ht hs hk hi hw hp hu
    exact ⟨s, rfl, CodecFrame.refl s, hi, hw, hu, by simp, by simp, by simp, rfl⟩
  | cons p ps ih =>
    intro fuel ixs rest s ht hs hk hi hw hp hu
    obtain ⟨hpm, hpt⟩ := hp p (by simp)
    obtain ⟨t, h1, f1, u1, k1, b1, e1⟩ := decodeLoop_code _ (fuel := fuel + (ps.flatMap Prod.snd).length) (c := p.2)
      (y := p.1) (rest := ps.flatMap Prod.snd ++ rest) rfl ht hs hi hpm (by rw [hu]; simp)
    rw [if_neg hpt] at h1
    obtain ⟨u, h2, f2, w2, k2, b2⟩ := wrBits_sound (n := 8) p.1.val (s := t) (by omega) (f1.codec.snkSound hk)
      (by unfold State.writerOk; rw [f1.wr]; exact hw)
    have f12 := CodecFrame.trans _ _ _ f1.codec f2.codec
    have hroot := f12.root
    obtain ⟨x, g1, g2, g3, g4, g5, g6, g7, g8, g9⟩ := ih (fuel := fuel) (s := u) (rest := rest) (ixs := ixs)
      (by rw [f12.node, hroot]; exact ht)
      (f12.srcSound hs) (f12.snkSound hk) (by unfold State.readerOk; rw [f2.rd]; exact k1) k2
      (fun q hq => hp q (by simp [hq])) (by rw [f2.undelivered, u1])
    refine ⟨x, ?_, CodecFrame.trans _ _ _ f12 g2, g3, g4, g5, ?_, ?_, ?_, ?_⟩
    · rw [List.flatMap_cons, List.length_append, Nat.add_comm p.2.length, ← Nat.add_assoc, h1, h2, ok_andThen, g1]
    · rw [g6, w2, f1.written, List.flatMap_cons, List.append_assoc]
    · rw [g7, b2, f1.wr, BitVec.add_assoc, ← BitVec.ofNat_add, List.length_cons]; congr 2; omega
    · rw [g8, f2.rd, b1, BitVec.add_assoc, ← BitVec.ofNat_add, List.flatMap_cons, List.length_append]
    · rw [g9, f2.rd, e1]

end Sys2Proof.Machine
end

