-- ==== Sys2Proof/Laws/Effects.lean ====
section
/-! SUPPORT. What every procedure does whatever the devices answer: it acts on the devices by the transactions it logs
alone and touches none of ERR, MAGIC, the response and the host's inputs (Effect); which errors it can raise; and that it
does not end in one of the model's stops. -/

namespace Sys2Proof.Machine

/-! ### The transactions -/

/-- Each fetch that was answered with bytes took them from the source's rest (20_memory.md R62). -/
def FetchesOk (d : Source) : List PortEvent → Prop
  | [] => True
  | e :: es =>
    (∀ m b, e = .srcFetch m (.bytes b) → m = 8192 ∧ 1 ≤ b.length ∧ b.length ≤ 8192 ∧ b <+: d.content.drop d.pos) ∧
      FetchesOk (d.after e) es

theorem FetchesOk.append {es fs : List PortEvent} {d : Source} (h : FetchesOk d es)
    (h' : FetchesOk (es.foldl Source.after d) fs) : FetchesOk d (es ++ fs) := by
  induction es generalizing d with
  | nil => exact h'
  | cons e es ih => exact ⟨h.1, ih h.2 h'⟩

theorem FetchesOk.prefix {es fs : List PortEvent} {d : Source} (h : FetchesOk d (es ++ fs)) : FetchesOk d es := by
  induction es generalizing d with
  | nil => trivial
  | cons e es ih => exact ⟨h.1, ih h.2⟩

theorem FetchesOk.at {es : List PortEvent} {d : Source} (h : FetchesOk d es) {before after : List PortEvent} {m : Nat}
    {b : List Byte} (he : es = before ++ .srcFetch m (.bytes b) :: after) :
    m = 8192 ∧ 1 ≤ b.length ∧ b.length ≤ 8192 ∧ b <+: d.content.drop (before.foldl Source.after d).pos := by
  induction before generalizing es d with
  | nil => subst he; exact h.1 m b rfl
  | cons e before ih =>
    subst he
    have := ih h.2 rfl
    rwa [after_content] at this

theorem foldl_after_content (es : List PortEvent) : ∀ d : Source, (es.foldl Source.after d).content = d.content := by
  induction es with
  | nil => intro d; rfl
  | cons e es ih => intro d; rw [List.foldl_cons, ih, after_content]

theorem foldl_after_failAt (es : List PortEvent) : ∀ d : Source, (es.foldl Source.after d).failAt = d.failAt := by
  induction es with
  | nil => intro d; rfl
  | cons e es ih => intro d; rw [List.foldl_cons, ih, after_failAt]

theorem foldl_sink_after_failAt (es : List PortEvent) : ∀ d : Sink, (es.foldl Sink.after d).failAt = d.failAt := by
  induction es with
  | nil => intro d; rfl
  | cons e es ih => intro d; rw [List.foldl_cons, ih, sink_after_failAt]

/-- The source stays within its content (20_memory.md R61). -/
theorem FetchesOk.pos_le {es : List PortEvent} {d : Source} (h : FetchesOk d es) (hp : d.pos ≤ d.content.length) :
    (es.foldl Source.after d).pos ≤ d.content.length := by
  induction es generalizing d with
  | nil => exact hp
  | cons e es ih =>
    rw [List.foldl_cons, ← after_content d e]
    refine ih h.2 ?_
    rw [after_content]
    have hf := h.1
    unfold Source.after
    split <;> (try dsimp only) <;> try omega
    obtain ⟨-, -, -, hb⟩ := hf _ _ rfl
    have := hb.length_le
    rw [List.length_drop] at this; omega

/-- What every procedure keeps, and its only way to act on the devices. -/
structure Effect (s t : State) : Prop where
  err : t.err = s.err
  magic : t.magic = s.magic
  host : t.host = s.host
  rsp : t.rsp = s.rsp
  trace : ∃ es, t.log = s.log ++ es ∧ t.src = es.foldl Source.after s.src ∧ t.snk = es.foldl Sink.after s.snk ∧
    FetchesOk s.src es

theorem Effect.refl (s : State) : Effect s s := ⟨rfl, rfl, rfl, rfl, [], by simp, rfl, rfl, trivial⟩

theorem Effect.trans (a b c : State) (h : Effect a b) (h' : Effect b c) : Effect a c := by
  obtain ⟨es, h1, h2, h3, h4⟩ := h.trace
  obtain ⟨fs, h5, h6, h7, h8⟩ := h'.trace
  refine ⟨h'.err.trans h.err, h'.magic.trans h.magic, h'.host.trans h.host, h'.rsp.trans h.rsp, es ++ fs, ?_, ?_, ?_, ?_⟩
  · rw [h5, h1, List.append_assoc]
  · rw [h6, h2, List.foldl_append]
  · rw [h7, h3, List.foldl_append]
  · exact h4.append (h2 ▸ h8)

/-- An update that leaves the devices, the log, ERR, MAGIC, the response and the inputs alone. -/
theorem Effect.of_eq {s t : State} (h1 : t.err = s.err) (h2 : t.magic = s.magic) (h3 : t.host = s.host)
    (h4 : t.rsp = s.rsp) (h5 : t.log = s.log) (h6 : t.src = s.src) (h7 : t.snk = s.snk) : Effect s t :=
  ⟨h1, h2, h3, h4, [], by simp [h5], by simp [h6], by simp [h7], trivial⟩

/-- A transaction that is no fetch of bytes. -/
theorem effect_transact (s : State) (e : PortEvent) (h : ∀ m b, e ≠ .srcFetch m (.bytes b)) : Effect s (s.transact e) :=
  ⟨rfl, rfl, rfl, rfl, [e], rfl, rfl, rfl, fun m b he => absurd he (h m b), trivial⟩

/-- A fetch. -/
theorem effect_fetch (s : State) : Effect s (s.transact (.srcFetch 8192 (s.fetchAnswer 8192))) := by
  refine ⟨rfl, rfl, rfl, rfl, [_], rfl, rfl, rfl, fun m b he => ?_, trivial⟩
  simp only [PortEvent.srcFetch.injEq] at he
  obtain ⟨rfl, he⟩ := he
  unfold State.fetchAnswer at he
  split at he
  · simp at he
  · split at he
    · rename_i hlt
      simp only [FetchAnswer.bytes.injEq] at he
      subst he
      refine ⟨rfl, ?_, ?_, List.take_prefix _ _⟩
      · rw [List.length_take, List.length_drop]; omega
      · rw [List.length_take]; omega
    · simp at he

/-- The effect of a procedure, in whichever of the two ways it ends. -/
abbrev Res.Effects {α : Type} (r : Res α) (s : State) : Prop := r.All (Effect s)

theorem Res.Effects.andThen {α β : Type} {s : State} {r : Res α} {k : α → State → Res β} (h : r.Effects s)
    (hk : ∀ a t, (k a t).Effects t) : (r.andThen k).Effects s :=
  Res.All.seq Effect.trans h hk

theorem Res.Effects.from {α : Type} {s t : State} {r : Res α} (h : r.Effects t) (hst : Effect s t) : r.Effects s :=
  h.imp fun _ hu => Effect.trans _ _ _ hst hu

/-- An update of the core's own state. -/
theorem effect_rd (s : State) (r : Reader) : Effect s { s with rd := r } := .of_eq rfl rfl rfl rfl rfl rfl rfl

theorem effect_wr (s : State) (w : Writer) : Effect s { s with wr := w } := .of_eq rfl rfl rfl rfl rfl rfl rfl

theorem rdRefillBlock_effect (s : State) : (rdRefillBlock s).Effects s := by
  unfold rdRefillBlock
  split
  · exact Effect.refl s
  · dsimp only
    split
    · exact effect_fetch s
    · exact Effect.trans _ _ _ (effect_fetch s) (effect_rd _ _)
    · exact Effect.trans _ _ _ (effect_fetch s) (effect_rd _ _)

theorem rdRefillAcc_effect (s : State) : (rdRefillAcc s).Effects s := by
  unfold rdRefillAcc
  refine Res.Effects.andThen ?_ fun _ t => effect_rd t _
  split
  · exact rdRefillBlock_effect s
  · exact Effect.refl s

theorem rdBitsLoop_effect (fuel n need v : Nat) (s : State) : (rdBitsLoop fuel n need v s).Effects s := by
  induction fuel generalizing need v s with
  | zero => trivial
  | succ fuel ih =>
    unfold rdBitsLoop
    split
    · exact effect_rd _ _
    · refine Res.Effects.from (Res.Effects.andThen (rdRefillAcc_effect _) fun _ t => ?_) (effect_rd s _)
      split
      · exact effect_rd _ _
      · exact ih _ _ t

theorem rdBits_effect (n : Nat) (s : State) : (rdBits n s).Effects s := rdBitsLoop_effect 6 n n 0 s

theorem rdReset_effect (s : State) : (rdReset s).Effects s := by
  unfold rdReset
  dsimp only
  split
  · exact effect_transact _ _ (by simp)
  · exact Effect.trans _ _ _ (effect_transact _ _ (by simp)) (effect_rd _ _)

theorem rdOpen_effect (s : State) : (rdOpen s).Effects s := by
  unfold rdOpen
  dsimp only
  split
  · exact effect_transact _ _ (by simp)
  · exact Effect.trans _ _ _ (effect_transact _ _ (by simp)) (effect_rd _ _)

theorem rdClose_effect (s : State) : Effect s (rdClose s) := by
  unfold rdClose
  split
  · exact Effect.trans _ _ _ (effect_transact _ _ (by simp)) (effect_rd _ _)
  · exact Effect.refl s

theorem wrPutBlock_effect (s : State) : (wrPutBlock s).Effects s := by
  unfold wrPutBlock
  have h := Effect.trans _ _ _ (effect_transact s (.snkPut s.wr.blk s.putAnswer) (by simp))
    (effect_wr _ { s.wr with blk := [] })
  dsimp only
  split <;> exact h

theorem wrBits_effect (n v : Nat) (s : State) : (wrBits n v s).Effects s := by
  unfold wrBits
  dsimp only
  split
  · exact effect_wr _ _
  · split
    · exact Res.Effects.from (wrPutBlock_effect _) (effect_wr _ _)
    · exact effect_wr _ _

theorem wrFlush_effect (s : State) : (wrFlush s).Effects s := by
  unfold wrFlush
  dsimp only
  split
  · exact Res.Effects.from (wrPutBlock_effect _) (effect_wr _ _)
  · exact effect_wr _ _

theorem wrRelease_effect (s : State) : Effect s (wrRelease s) :=
  Effect.trans _ _ _ (effect_transact _ _ (by simp)) (effect_wr _ _)

theorem wrClose_effect (s : State) : (wrClose s).Effects s := by
  unfold wrClose
  split
  · have h := wrFlush_effect s
    cases hr : wrFlush s with
    | ok a t => rw [hr] at h; exact Effect.trans _ _ _ h (wrRelease_effect t)
    | raised e t => rw [hr] at h; exact Effect.trans _ _ _ h (wrRelease_effect t)
    | stuck f => trivial
  · exact Effect.refl s

theorem wrOpen_effect (s : State) : (wrOpen s).Effects s := by
  unfold wrOpen
  dsimp only
  split
  · exact effect_transact _ _ (by simp)
  · exact Effect.trans _ _ _ (effect_transact _ _ (by simp)) (effect_wr _ _)

theorem effect_chained : Chained Effect := .of Effect.refl Effect.trans

theorem effect_tables : TablesKeep Effect := fun _ _ _ _ _ _ _ _ _ => .of_eq rfl rfl rfl rfl rfl rfl rfl

theorem effect_writes : WritesKeep Effect := fun n v s _ => wrBits_effect n v s

theorem fCount_effect (s : State) : (fCount s).Effects s := effect_chained.fCount rdBits_effect effect_tables s

theorem tBuild_effect (s : State) : (tBuild s).Effects s := effect_chained.tBuild effect_tables s

theorem magicW_effect (s : State) : (magicW s).Effects s := wrBits_effect _ _ _

theorem serRoot_effect (s : State) : (serRoot s).Effects s := effect_chained.serRoot effect_writes s

theorem tDes_effect (s : State) : (tDes s).Effects s := effect_chained.tDes rdBits_effect effect_tables s

theorem cTab_effect (s : State) : (cTab s).Effects s := effect_chained.cTab effect_tables s

theorem encodeBody_effect (s : State) : (encodeBody s).Effects s :=
  effect_chained.encodeBody rdBits_effect effect_writes s

theorem magicR_effect (s : State) : (magicR s).Effects s := effect_chained.magicR rdBits_effect s

theorem decodeBody_effect (s : State) : (decodeBody s).Effects s :=
  effect_chained.decodeBody rdBits_effect effect_writes s

/-! ### Frames -/

theorem readFrame_chained : Chained ReadFrame := .of ReadFrame.refl ReadFrame.trans

theorem writeFrame_chained : Chained WriteFrame := .of WriteFrame.refl WriteFrame.trans

theorem writeFrame_writes : WritesKeep WriteFrame := fun n v s _ => wrBits_frame n v s

theorem magicR_frame (s : State) : (magicR s).All (ReadFrame s) := readFrame_chained.magicR rdBits_frame s

theorem ser_frame (room : Nat) (i : NodeIx) (s : State) : (ser room i s).All (WriteFrame s) :=
  writeFrame_chained.ser writeFrame_writes room i s

theorem encodeSymbol_frame (y : Symbol) (s : State) : (encodeSymbol y s).All (WriteFrame s) :=
  writeFrame_chained.encodeSymbol writeFrame_writes y s

theorem codecFrame_chained : Chained CodecFrame := .of CodecFrame.refl CodecFrame.trans

theorem codecFrame_reads : ReadsKeep CodecFrame := fun n s => Res.All.imp (rdBits_frame n s) fun _ h => h.codec

theorem codecFrame_writes : WritesKeep CodecFrame := fun n v s _ => Res.All.imp (wrBits_frame n v s) fun _ h => h.codec

theorem encodeBody_frame (s : State) : (encodeBody s).All (CodecFrame s) :=
  codecFrame_chained.encodeBody codecFrame_reads codecFrame_writes s

theorem decodeBody_frame (s : State) : (decodeBody s).All (CodecFrame s) :=
  codecFrame_chained.decodeBody codecFrame_reads codecFrame_writes s

/-! ### No stops -/

/-- Each group of bits read is taken from those the reader can still deliver (10_state.md R49), whatever the device
answers; so the loops that end with the stream end within their bound (70 R293). -/
theorem rdRefillAcc_bitsLeft {s t : State} (h0 : s.rd.accCnt = 0) (h : rdRefillAcc s = .ok () t) :
    t.bitsLeft = s.bitsLeft := by
  have hload : ∀ (r : Reader) (a : BitVec 64), (r.load a).accCnt + 8 * ((r.load a).blk.length - (r.load a).blkIdx) =
      8 * (r.blk.length - r.blkIdx) := by
    intro r a
    rw [load_accCnt, load_blk]
    unfold Reader.load
    dsimp only
    split
    · rename_i h; rw [List.length_take, List.length_drop] at h
      show 8 * min 8 (r.blk.length - r.blkIdx) + 8 * (r.blk.length - r.blkIdx) = _
      omega
    · dsimp only; rw [List.length_take, List.length_drop]; omega
  unfold rdRefillAcc at h
  obtain ⟨_, u, hu, ht⟩ := andThen_eq_ok.1 h
  simp only [Res.ok.injEq, true_and] at ht
  subst ht
  have hu' : u.rd.accCnt = 0 ∧ u.bitsLeft = s.bitsLeft := by
    split at hu
    · rename_i hi
      have hi' : s.rd.blk.length - s.rd.blkIdx = 0 := by rw [hi]; exact Nat.sub_self _
      unfold rdRefillBlock at hu
      split at hu
      · simp only [Res.ok.injEq, true_and] at hu; subst hu; exact ⟨h0, rfl⟩
      · dsimp only at hu
        unfold State.fetchAnswer at hu
        by_cases hf : s.srcFails = true
        · simp [hf] at hu
        · by_cases hp : s.src.pos < s.src.content.length
          · simp only [hf, hp, if_true, if_false, Bool.false_eq_true, Res.ok.injEq, true_and] at hu
            subst hu
            refine ⟨h0, ?_⟩
            simp only [State.bitsLeft, transact_rd, transact_src, Source.after, List.length_take, List.length_drop,
              hi', h0]
            omega
          · simp only [hf, hp, if_false, Bool.false_eq_true, Res.ok.injEq, true_and] at hu
            subst hu
            refine ⟨h0, ?_⟩
            simp only [State.bitsLeft, transact_rd, transact_src, Source.after, List.length_nil, hi', h0]
    · simp only [Res.ok.injEq, true_and] at hu; subst hu; exact ⟨h0, rfl⟩
  rw [← hu'.2]
  have := hload u.rd (Config.rdAccAbove u.log.length u.rd.blkIdx)
  unfold State.bitsLeft
  dsimp only
  rw [hu'.1]; omega

theorem rdBitsLoop_bitsLeft (fuel n need v : Nat) {s t : State} {w : Nat}
    (h : rdBitsLoop fuel n need v s = .ok (some w) t) : t.bitsLeft + need = s.bitsLeft := by
  induction fuel generalizing need v s with
  | zero => simp [rdBitsLoop] at h
  | succ fuel ih =>
    unfold rdBitsLoop at h
    split at h
    · simp only [Res.ok.injEq] at h
      obtain ⟨-, rfl⟩ := h
      simp only [State.bitsLeft]; omega
    · rename_i hlt
      obtain ⟨_, u, hu, h⟩ := andThen_eq_ok.1 h
      have := rdRefillAcc_bitsLeft rfl hu
      split at h
      · simp at h
      · have := ih _ _ h
        simp only [State.bitsLeft] at *; omega

theorem rdBits_bitsLeft {n v : Nat} {s t : State} (h : rdBits n s = .ok (some v) t) : t.bitsLeft + n = s.bitsLeft :=
  rdBitsLoop_bitsLeft 6 n n 0 h

theorem fCountLoop_notStuck (fuel : Nat) (s : State) (h : s.bitsLeft < 8 * fuel) : (fCountLoop fuel s).NotStuck := by
  induction fuel generalizing s with
  | zero => omega
  | succ fuel ih =>
    unfold fCountLoop
    refine Res.NotStuck.andThen (rdBits_notStuck s (by omega)) fun r t hr => ?_
    intro f
    split
    · simp
    · split
      · simp
      · have := rdBits_bitsLeft hr
        exact ih (t.setFreq _ _) (by show t.bitsLeft < _; omega) f

theorem fCount_notStuck (s : State) : (fCount s).NotStuck := by
  unfold fCount
  exact Res.NotStuck.andThen (fCountLoop_notStuck _ _ (by omega)) fun _ _ _ f => by simp

theorem wrPieces_notStuck (fuel : Nat) (bits : List Bool) (s : State) (h : bits.length ≤ fuel) :
    (wrPieces fuel bits s).NotStuck := by
  induction fuel generalizing bits s with
  | zero => cases bits with
    | nil => intro f; simp [wrPieces]
    | cons b bits => simp at h
  | succ fuel ih =>
    cases bits with
    | nil => intro f; simp [wrPieces]
    | cons b bits =>
      refine Res.NotStuck.andThen (wrBits_notStuck _ _ _) fun _ t _ => ih _ _ ?_
      rw [List.length_drop]
      simp only [List.length_cons] at h ⊢
      omega

theorem encodeSymbol_notStuck (y : Symbol) (s : State) : (encodeSymbol y s).NotStuck := by
  unfold encodeSymbol
  split
  · intro f; simp
  · exact wrPieces_notStuck _ _ _ (Nat.le_refl _)

theorem bitsLeft_of_rd_src {s t : State} (h1 : t.rd = s.rd) (h2 : t.src = s.src) : t.bitsLeft = s.bitsLeft := by
  unfold State.bitsLeft; rw [h1, h2]

theorem encodeLoop_notStuck (fuel : Nat) (s : State) (h : s.bitsLeft < 8 * fuel) : (encodeLoop fuel s).NotStuck := by
  induction fuel generalizing s with
  | zero => omega
  | succ fuel ih =>
    unfold encodeLoop
    refine Res.NotStuck.andThen (rdBits_notStuck s (by omega)) fun r t hr => ?_
    split
    · intro f; simp
    · rename_i v
      have h1 := rdBits_bitsLeft hr
      refine Res.NotStuck.andThen (encodeSymbol_notStuck _ _) fun _ u hu => ih u ?_
      have h2 := encodeSymbol_frame (symbolOf v) t
      rw [hu] at h2
      rw [bitsLeft_of_rd_src (WriteFrame.rd h2) (WriteFrame.src h2)]; omega

theorem encodeBody_notStuck (s : State) : (encodeBody s).NotStuck :=
  Res.NotStuck.andThen (encodeLoop_notStuck _ _ (by omega)) fun _ t _ => encodeSymbol_notStuck _ _

theorem ser_notStuck (tr : CodeTree) : ∀ {room : Nat} {i : NodeIx} {ixs : List NodeIx} {s : State},
    TreeAt s.node tr i ixs → tr.depth < room → (ser room i s).NotStuck := by
  induction tr with
  | leaf y =>
    intro room i ixs s h hr
    obtain ⟨-, w, hi⟩ := h
    obtain ⟨room, rfl⟩ : ∃ k, room = k + 1 := ⟨room - 1, by omega⟩
    simp only [ser, show s.nodeAt i = .leaf (some y) w from hi]
    exact Res.NotStuck.andThen (wrBits_notStuck _ _ _) fun _ _ _ => wrBits_notStuck _ _ _
  | node l r hl hr =>
    intro room i ixs s h hroom
    obtain ⟨w, a, b, as, bs, hi, ha, hb, -⟩ := h
    simp only [CodeTree.depth] at hroom
    obtain ⟨room, rfl⟩ : ∃ k, room = k + 1 := ⟨room - 1, by omega⟩
    simp only [ser, show s.nodeAt i = .internal w a b from hi]
    refine Res.NotStuck.andThen (wrBits_notStuck _ _ _) fun _ t ht => ?_
    have f1 := wrBits_frame 1 0 s
    rw [ht] at f1
    refine Res.NotStuck.andThen (hl (by rw [WriteFrame.node f1]; exact ha) (by omega)) fun _ u hu => ?_
    have f2 := ser_frame room a t
    rw [hu] at f2
    exact hr (by rw [WriteFrame.node f2, WriteFrame.node f1]; exact hb) (by omega)

/-- Each level of `Des` above a call has taken a record. -/
theorem des_nodeCnt (fuel : Nat) : ∀ {s t : State} {r : NodeIx}, des fuel s = .ok r t → s.nodeCnt ≤ t.nodeCnt := by
  induction fuel with
  | zero => intro s t r h; simp [des] at h
  | succ fuel ih =>
    intro s t r h
    unfold des at h
    obtain ⟨b, u, hu, h⟩ := andThen_eq_ok.1 h
    have f1 := rdBits_frame 1 s
    rw [hu] at f1
    have h1 := ReadFrame.nodeCnt f1
    split at h
    · simp at h
    · split at h
      · simp at h
      · obtain ⟨l, v, hv, h⟩ := andThen_eq_ok.1 h
        obtain ⟨r', x, hx, h⟩ := andThen_eq_ok.1 h
        simp only [Res.ok.injEq] at h
        obtain ⟨-, rfl⟩ := h
        have h2 := ih hv
        have h3 := ih hx
        show _ ≤ x.nodeCnt
        dsimp only at h2
        omega
    · obtain ⟨y, v, hv, h⟩ := andThen_eq_ok.1 h
      have f2 := rdBits_frame 9 u
      rw [hv] at f2
      have h2 := ReadFrame.nodeCnt f2
      split at h
      · simp at h
      · split at h
        · simp at h
        · split at h
          · simp at h
          · simp only [Res.ok.injEq] at h
            obtain ⟨-, rfl⟩ := h
            show _ ≤ v.nodeCnt + 1
            omega

theorem des_notStuck (fuel : Nat) : ∀ {s : State}, s.nodeCnt ≤ 513 → 514 ≤ s.nodeCnt + fuel → (des fuel s).NotStuck := by
  have hle : ∀ (fuel : Nat) {s t : State} {r : NodeIx}, s.nodeCnt ≤ 513 → des fuel s = .ok r t → t.nodeCnt ≤ 513 := by
    intro fuel
    induction fuel with
    | zero => intro s t r _ h; simp [des] at h
    | succ fuel ih =>
      intro s t r hs h
      unfold des at h
      obtain ⟨b, u, hu, h⟩ := andThen_eq_ok.1 h
      have f1 := rdBits_frame 1 s
      rw [hu] at f1
      have h1 := ReadFrame.nodeCnt f1
      split at h
      · simp at h
      · split at h
        · simp at h
        · rename_i hc
          simp only [Config.nodeCap] at hc
          obtain ⟨l, v, hv, h⟩ := andThen_eq_ok.1 h
          obtain ⟨r', x, hx, h⟩ := andThen_eq_ok.1 h
          simp only [Res.ok.injEq] at h
          obtain ⟨-, rfl⟩ := h
          have h2 := ih (by dsimp only; omega) hv
          have h3 := ih h2 hx
          exact h3
      · obtain ⟨y, v, hv, h⟩ := andThen_eq_ok.1 h
        have f2 := rdBits_frame 9 u
        rw [hv] at f2
        have h2 := ReadFrame.nodeCnt f2
        split at h
        · simp at h
        · split at h
          · simp at h
          · split at h
            · simp at h
            · rename_i hc
              simp only [Config.nodeCap] at hc
              simp only [Res.ok.injEq] at h
              obtain ⟨-, rfl⟩ := h
              show v.nodeCnt + 1 ≤ _
              omega
  induction fuel with
  | zero => intro s h1 h2; omega
  | succ fuel ih =>
    intro s h1 h2
    unfold des
    refine Res.NotStuck.andThen (rdBits_notStuck s (by omega)) fun b t ht => ?_
    have f1 := rdBits_frame 1 s
    rw [ht] at f1
    have hc := ReadFrame.nodeCnt f1
    split
    · intro f; simp
    · split
      · intro f; simp
      · rename_i hcap
        simp only [Config.nodeCap] at hcap
        refine Res.NotStuck.andThen (ih (by dsimp only; omega) (by dsimp only; omega)) fun l u hu => ?_
        have h3 := hle _ (by dsimp only; omega) hu
        have h4 := des_nodeCnt _ hu
        dsimp only at h4
        exact Res.NotStuck.andThen (ih h3 (by omega)) fun r v hv f => by simp
    · refine Res.NotStuck.andThen (rdBits_notStuck t (by omega)) fun y u hu => ?_
      intro f
      split
      · simp
      · split
        · simp
        · split <;> simp

theorem tDes_notStuck (s : State) : (tDes s).NotStuck := by
  unfold tDes
  refine Res.NotStuck.andThen (des_notStuck _ (by simp) (by simp [Config.nodeCap])) fun r t _ => ?_
  intro f
  split <;> simp

/-- DECODE from an internal record of a tree rooted at ROOT. -/
theorem decodeLoop_notStuck (fuel : Nat) : ∀ {l r l' r' : CodeTree} {cur : NodeIx} {ixs jxs : List NodeIx} {s : State},
    TreeAt s.node (.node l r) s.root ixs → TreeAt s.node (.node l' r') cur jxs → s.bitsLeft < fuel →
      (decodeLoop fuel cur s).NotStuck := by
  induction fuel with
  | zero => intro l r l' r' cur ixs jxs s _ _ h; omega
  | succ fuel ih =>
    intro l r l' r' cur ixs jxs s hroot hcur h
    unfold decodeLoop
    refine Res.NotStuck.andThen (rdBits_notStuck s (by omega)) fun b t ht => ?_
    have f1 := rdBits_frame 1 s
    rw [ht] at f1
    have hn : t.node = s.node := ReadFrame.node f1
    have hr : t.root = s.root := ReadFrame.root f1
    split
    · intro f; simp
    · rename_i b
      have hb := rdBits_bitsLeft ht
      obtain ⟨w, a, c, as, cs, hc, ha, hcc, -⟩ := hcur
      rw [show t.nodeAt cur = .internal w a c by rw [ReadFrame.nodeAt f1]; exact hc]
      dsimp only
      have hsub : ∃ (sub : CodeTree) (kxs : List NodeIx), TreeAt s.node sub (if b = 0 then a else c) kxs := by
        by_cases h0 : b = 0
        · rw [if_pos h0]; exact ⟨l', as, ha⟩
        · rw [if_neg h0]; exact ⟨r', cs, hcc⟩
      obtain ⟨sub, kxs, hsub⟩ := hsub
      generalize (if b = 0 then a else c) = next at hsub
      cases sub with
      | leaf y =>
        obtain ⟨-, wy, hy⟩ := hsub
        rw [show t.nodeAt next = .leaf (some y) wy by rw [ReadFrame.nodeAt f1]; exact hy]
        dsimp only
        split
        · intro f; simp
        · refine Res.NotStuck.andThen (wrBits_notStuck _ _ _) fun _ u hu => ?_
          have f2 := wrBits_frame 8 (symField (some y)).toNat t
          rw [hu] at f2
          have hu1 : u.node = s.node := (WriteFrame.node f2).trans hn
          have hu2 : u.root = s.root := (WriteFrame.root f2).trans hr
          refine ih (s := u) (by rw [hu1, hu2]; exact hroot) (by rw [hu1, hu2]; exact hroot) ?_
          rw [bitsLeft_of_rd_src (WriteFrame.rd f2) (WriteFrame.src f2)]; omega
      | node l2 r2 =>
        have hs2 := hsub
        obtain ⟨w2, a2, b2, -, -, h2, -⟩ := hsub
        rw [show t.nodeAt next = .internal w2 a2 b2 by rw [ReadFrame.nodeAt f1]; exact h2]
        exact ih (s := t) (by rw [hn, hr]; exact hroot) (by rw [hn]; exact hs2) (by omega)

/-- With a tree in the node memory TSER, CTAB and DECODE do not stop (44 R185, 46 R223 (e)). -/
theorem holdsTree_notStuck {s : State} {tr : CodeTree} (h : s.holdsTree tr) :
    (serRoot s).NotStuck ∧ (cTab s).NotStuck ∧ (decodeBody s).NotStuck := by
  have hh := h
  obtain ⟨⟨l, r, rfl⟩, ixs, ht, hn, -⟩ := h
  have hd := depth_le_of_nodup ht hn
  refine ⟨ser_notStuck _ ht (by simp only [Config.traversalStack]; omega), ?_, decodeLoop_notStuck _ ht ht (by omega)⟩
  obtain ⟨c, hc, -⟩ := cTab_sound hh
  intro f
  rw [hc]; simp

end Sys2Proof.Machine
end

