-- ==== Sys2Proof/Laws/Tables.lean ====
section
/-! SUPPORT. The codec tables while their valid flags are 0 (10_state.md R52, 93 I7): being the same but for them, and what
forgetting them keeps. -/

namespace Sys2Proof.Machine

theorem State.SameValidTables.refl (s : State) : s.SameValidTables s := ⟨rfl, fun _ => rfl, fun _ => ⟨rfl, rfl, rfl⟩, fun _ => rfl⟩

theorem State.SameValidTables.symm {s t : State} (h : s.SameValidTables t) : t.SameValidTables s := by
  have h1 : t.freqValid = s.freqValid := by rw [h.rest]
  have h2 : t.treeValid = s.treeValid := by rw [h.rest]
  have h3 : t.tableValid = s.tableValid := by rw [h.rest]
  refine ⟨?_, fun hv => (h.freq (h1 ▸ hv)).symm, fun hv => ?_, fun hv => (h.code (h3 ▸ hv)).symm⟩
  · rw [h.rest]
  · obtain ⟨a, b, c⟩ := h.tree (h2 ▸ hv)
    exact ⟨a.symm, b.symm, c.symm⟩

theorem State.SameValidTables.trans {s t u : State} (h : s.SameValidTables t) (h' : t.SameValidTables u) :
    s.SameValidTables u := by
  have h1 : t.freqValid = s.freqValid := by rw [h.rest]
  have h2 : t.treeValid = s.treeValid := by rw [h.rest]
  have h3 : t.tableValid = s.tableValid := by rw [h.rest]
  refine ⟨?_, fun hv => (h'.freq (h1.trans hv)).trans (h.freq hv), fun hv => ?_,
    fun hv => (h'.code (h3.trans hv)).trans (h.code hv)⟩
  · conv_lhs => rw [h'.rest, h.rest]
  · obtain ⟨a, b, c⟩ := h.tree hv
    obtain ⟨a', b', c'⟩ := h'.tree (h2.trans hv)
    exact ⟨a'.trans a, b'.trans b, c'.trans c⟩

/-- Forgetting the tables whose flags are 0 (93 I7). -/
theorem forgetTables_same (op : BitVec 8) (s : State) : s.SameValidTables (s.forgetTables op) :=
  ⟨rfl, forgetTables_freq, fun h => ⟨forgetTables_node h, forgetTables_nodeCnt h, forgetTables_root h⟩,
    forgetTables_code⟩

theorem tableOf_get {α : Type} {n : Nat} (f : Nat → α) (i : Fin n) : (tableOf f : Vector α n).get i = f i.val := by
  simp [tableOf, Vector.get]; rfl

theorem forgetTables_holdsTree {op : BitVec 8} {s : State} {tr : CodeTree} (hv : s.treeValid = true)
    (h : s.holdsTree tr) : (s.forgetTables op).holdsTree tr := by
  unfold State.holdsTree at h ⊢
  rw [forgetTables_root hv, forgetTables_node hv, forgetTables_nodeCnt hv]
  exact h

/-- The invariant asks of a table whose flag is 0 only the ranges of NODE_CNT and LEN (R36, R37). -/
theorem forgetTables_inv {op : BitVec 8} {s : State} (h : s.Inv) : (s.forgetTables op).Inv :=
  { h with
    freqTerm := fun (hv : s.freqValid = true) => by rw [forgetTables_freq hv]; exact h.freqTerm hv
    nodeCntLe := by
      show (if s.treeValid then s.nodeCnt else _) ≤ _
      split
      · exact h.nodeCntLe
      · exact Nat.le_of_lt_succ (Fin.isLt _)
    tree := fun hv => (h.tree hv).imp fun _ => forgetTables_holdsTree hv
    codeLen := fun y => by
      show ((if s.tableValid then s.code else _ : Vector (List Bool) 257).get y).length ≤ 256
      split
      · exact h.codeLen y
      · rw [tableOf_get, List.length_take]; exact Nat.min_le_left _ _
    tablePrefix := fun (hv : s.tableValid = true) => by rw [forgetTables_code hv]; exact h.tablePrefix hv }

/-- Forgetting draws alike in states that differ at most in what is unspecified (70 R282). -/
theorem forgetTables_sameMeaning {op : BitVec 8} {s t : State} (h : s.SameMeaning t) :
    (s.forgetTables op).SameMeaning (t.forgetTables op) :=
  { h with
    freq := fun (hv : s.freqValid = true) => by rw [forgetTables_freq hv, forgetTables_freq (h.freqValid ▸ hv)]; exact h.freq hv
    tree := fun (hv : s.treeValid = true) => by
      have ht : t.treeValid = true := h.treeValid ▸ hv
      rw [forgetTables_node hv, forgetTables_node ht, forgetTables_nodeCnt hv, forgetTables_nodeCnt ht,
        forgetTables_root hv, forgetTables_root ht]
      exact h.tree hv
    code := fun (hv : s.tableValid = true) => by rw [forgetTables_code hv, forgetTables_code (h.tableValid ▸ hv)]; exact h.code hv }

end Sys2Proof.Machine
end

