-- ==== Sys2Proof/Laws/Macro.lean ====
section
/-! SUPPORT. What a macro command leaves when one of its lines raises (45_huffman_encoder.md R206,
46_huffman_decoder.md R226), and that a run which completed is the run of devices that do not fail. -/

namespace Sys2Proof.Machine

/-! ### Nothing is flushed or closed but by a flush or a close -/

/-- What every procedure but the flush and the close does to the writer and the sink: WR_OPEN stays, only whole blocks
are put, nothing is released; on a sound sink bits are appended to what was written, without padding, and BITS_WRITTEN
counts them (20_memory.md R73, 41 R144). -/
structure Appends (s t : State) : Prop where
  isOpen : t.wr.isOpen = s.wr.isOpen
  failAt : t.snk.failAt = s.snk.failAt
  puts : ∃ es, t.log = s.log ++ es ∧ .snkRelease ∉ es ∧ ∀ b a, .snkPut b a ∈ es → b.length = 8192
  written : s.snkSound → s.writerOk → ∃ more, t.written = s.written ++ more ∧
    t.wr.bitsWritten = s.wr.bitsWritten + BitVec.ofNat 64 more.length ∧ t.writerOk

theorem Appends.of_eq {s t : State} (hw : t.wr = s.wr) (hk : t.snk = s.snk) (es : List PortEvent)
    (hl : t.log = s.log ++ es) (hr : .snkRelease ∉ es) (hp : ∀ b a, .snkPut b a ∉ es) : Appends s t :=
  ⟨by rw [hw], by rw [hk], ⟨es, hl, hr, fun b a h => absurd h (hp b a)⟩, fun _ h =>
    ⟨[], by simp [State.written, hw, hk], by simp [hw], by simpa [State.writerOk, hw] using h⟩⟩

/-- A change that is neither of the writer, nor of the sink, nor logged. -/
theorem Appends.quiet {s t : State} (hw : t.wr = s.wr) (hk : t.snk = s.snk) (hl : t.log = s.log) : Appends s t :=
  .of_eq hw hk [] (by simp [hl]) (by simp) (by simp)

theorem appends_chained : Chained Appends := by
  refine .of (fun _ => .quiet rfl rfl rfl) ?_
  rintro a b c ⟨h1, h2, ⟨es, h3, h4, h5⟩, h6⟩ ⟨g1, g2, ⟨fs, g3, g4, g5⟩, g6⟩
  refine ⟨g1.trans h1, g2.trans h2, ⟨es ++ fs, by rw [g3, h3, List.append_assoc], ?_, ?_⟩, ?_⟩
  · simp [h4, g4]
  · intro x y h
    rcases List.mem_append.1 h with h | h
    · exact h5 x y h
    · exact g5 x y h
  · intro hs hw
    obtain ⟨m, e1, e2, e3⟩ := h6 hs hw
    obtain ⟨n, d1, d2, d3⟩ := g6 (by unfold State.snkSound; rw [h2]; exact hs) e3
    exact ⟨m ++ n, by rw [d1, e1, List.append_assoc], by
      rw [d2, e2, BitVec.add_assoc, ← BitVec.ofNat_add, List.length_append], d3⟩

theorem appends_tables : TablesKeep Appends := fun _ _ _ _ _ _ _ _ _ => .quiet rfl rfl rfl

theorem appends_fetch (s : State) (m : Nat) (a : FetchAnswer) : Appends s (s.transact (.srcFetch m a)) :=
  .of_eq rfl (by cases a <;> rfl) [_] rfl (by simp) (by simp)

theorem rdRefillAcc_appends (s : State) : (rdRefillAcc s).All (Appends s) := by
  unfold rdRefillAcc
  refine appends_chained.andThen ?_ fun _ t => Appends.quiet rfl rfl rfl
  split
  · unfold rdRefillBlock
    split
    · exact appends_chained.refl s
    · have h := appends_fetch s Config.rdBlockBytes (s.fetchAnswer Config.rdBlockBytes)
      dsimp only
      split
      · exact h
      · exact appends_chained.trans _ _ _ h (.quiet rfl rfl rfl)
      · exact appends_chained.trans _ _ _ h (.quiet rfl rfl rfl)
  · exact appends_chained.refl s

theorem rdBits_appends : ReadsKeep Appends := by
  have loop : ∀ (fuel n need v : Nat) (s : State), (rdBitsLoop fuel n need v s).All (Appends s) := by
    intro fuel n
    induction fuel with
    | zero => intro need v s; trivial
    | succ fuel ih =>
      intro need v s
      unfold rdBitsLoop
      split
      · exact .quiet rfl rfl rfl
      · refine appends_chained.after (t := { s with rd := { s.rd with accCnt := 0 } }) (.quiet rfl rfl rfl)
          (appends_chained.andThen (rdRefillAcc_appends _) fun _ t => ?_)
        split
        · exact .quiet rfl rfl rfl
        · exact ih _ _ t
  exact fun n s => loop 6 n n 0 s

theorem rdReset_appends (s : State) : (rdReset s).All (Appends s) := by
  have h : ∀ a, Appends s (s.transact (.srcRewind a)) := fun a =>
    .of_eq rfl (by cases a <;> rfl) [_] rfl (by simp) (by simp)
  unfold rdReset
  dsimp only
  split
  · exact h _
  · exact appends_chained.trans _ _ _ (h _) (.quiet rfl rfl rfl)

/-- `WrBits` makes no transaction, or puts one whole block (41 R144, R145). -/
theorem wrBits_puts (n v : Nat) (s : State) :
    (wrBits n v s).All fun t => ∃ es, t.log = s.log ++ es ∧ .snkRelease ∉ es ∧ ∀ b a, .snkPut b a ∈ es → b.length = 8192 := by
  unfold wrBits
  dsimp only
  split
  · exact ⟨[], by simp⟩
  · split
    · rename_i h
      unfold wrPutBlock
      dsimp only
      split <;> refine ⟨_, rfl, by simp, ?_⟩ <;>
        · intro b a hb
          simp only [List.mem_singleton, PortEvent.snkPut.injEq] at hb
          rw [hb.1]; exact h
    · exact ⟨[], by simp⟩

theorem wrBits_appends : WritesKeep Appends := by
  intro n v s hn
  have hf := wrBits_frame n v s
  have hp := wrBits_puts n v s
  have hs : s.snkSound → s.writerOk → _ := fun h h' => wrBits_sound v hn h h'
  cases hr : wrBits n v s with
  | ok a t =>
    rw [hr] at hf hp
    refine ⟨hf.2, by rw [hf.1], hp, fun h h' => ?_⟩
    obtain ⟨u, h1, -, h3, h4, h5⟩ := hs h h'
    rw [hr] at h1
    obtain ⟨-, rfl⟩ := Res.ok.inj h1
    exact ⟨_, h3, by rw [h5, toBits_length], h4⟩
  | raised e t =>
    rw [hr] at hf hp
    refine ⟨hf.2, by rw [hf.1], hp, fun h h' => ?_⟩
    obtain ⟨u, h1, -⟩ := hs h h'
    rw [hr] at h1; cases h1
  | stuck f => trivial

theorem fCount_appends (s : State) : (fCount s).All (Appends s) := appends_chained.fCount rdBits_appends appends_tables s

theorem tBuild_appends (s : State) : (tBuild s).All (Appends s) := appends_chained.tBuild appends_tables s

theorem magicW_appends (s : State) : (magicW s).All (Appends s) := wrBits_appends _ _ _ (Nat.le_refl 32)

theorem serRoot_appends (s : State) : (serRoot s).All (Appends s) := appends_chained.serRoot wrBits_appends s

theorem tDes_appends (s : State) : (tDes s).All (Appends s) := appends_chained.tDes rdBits_appends appends_tables s

theorem cTab_appends (s : State) : (cTab s).All (Appends s) := appends_chained.cTab appends_tables s

theorem encodeBody_appends (s : State) : (encodeBody s).All (Appends s) :=
  appends_chained.encodeBody rdBits_appends wrBits_appends s

theorem magicR_appends (s : State) : (magicR s).All (Appends s) := appends_chained.magicR rdBits_appends s

theorem decodeBody_appends (s : State) : (decodeBody s).All (Appends s) :=
  appends_chained.decodeBody rdBits_appends wrBits_appends s

/-! ### A macro command and its primitives -/

theorem errClass_code_inj (c c' : ErrClass) : c.code = c'.code → c = c' := by cases c <;> cases c' <;> decide

theorem packErr_inj {e e' : Raise} {op mop : BitVec 8} (h : packErr e op mop = packErr e' op mop) : e = e' := by
  have h1 := congrArg errCode h
  have h2 := congrArg errSub h
  have h3 := congrArg errInfo h
  simp only [errCode_packErr, errSub_packErr, errInfo_packErr] at h1 h2 h3
  obtain ⟨c, b, i⟩ := e
  obtain ⟨c', b', i'⟩ := e'
  have hc : c = c' := errClass_code_inj c c' h1
  simp_all

theorem packResponse_ok {ok ok' eos eos' : Bool} {d d' : BitVec 64}
    (h : packResponse ok eos d = packResponse ok' eos' d') : ok = ok' := by
  have bit : ∀ (o s : Bool) (x : BitVec 64), (packResponse o s x).getLsbD 65 = o := fun o s x => by
    rw [packResponse, BitVec.getLsbD_append, if_neg (by decide), BitVec.getLsbD_append, if_neg (by decide)]
    cases o <;> rfl
  rw [← bit ok eos d, h, bit]

/-- Two results that differ in the response alone are one, where neither procedure wrote it. -/
theorem respond_inj {s t : State} {ok eos : Bool} {d : BitVec 64} (h : s.respond ok eos d = t.respond ok eos d)
    (hr : s.rsp = t.rsp) : s = t := by
  cases s; cases t
  simp only [State.respond, State.mk.injEq] at h hr ⊢
  simp [h, hr]

/-- A primitive that completed ran its procedure to the end. -/
theorem finishDone_completed {i : Instr} {r : Res Unit} {f : State → State} {s u : State} (he : r.Effects s)
    (hr : u.rsp = s.rsp) (h : finishDone i (r.onRaise f) = .next (u.respond true false 0)) : r = .ok () u := by
  rcases finishDone_eq_next.1 h with ⟨t, ht, hu⟩ | ⟨e, t, -, hu⟩
  · rw [onRaise_eq_ok] at ht
    subst ht
    rw [respond_inj hu (hr.trans (Effect.rsp he).symm)]
  · have h1 := congrArg State.rsp hu
    rw [respond_rsp, raiseErr_rsp, Option.some.injEq] at h1
    exact absurd (packResponse_ok h1) (by decide)

/-- A primitive that failed raised what ERR says, and the macro that has it as a line leaves the same but for
ERR.MOP and the tables whose flags are 0. -/
theorem finishDone_failed {i : Instr} {r : Res Unit} {f : State → State} {s t : State} {cls : ErrClass}
    {sub : BitVec 4} {info : BitVec 32} (he : r.Effects s) (hf : ∀ u : State, u.SameValidTables (f u))
    (hh : s.halted = false) (h : finishDone i (r.onRaise f) = .next (t.failed i.opcode i.opcode cls sub info)) :
    ∃ u, r = .raised ⟨cls, sub, info⟩ u ∧ ∀ mop, ∃ v : State,
      raiseErr i.opcode mop ⟨cls, sub, info⟩ (u.forgetTables mop) = v.failed i.opcode mop cls sub info ∧
        t.SameValidTables v := by
  rcases finishDone_eq_next.1 h with ⟨u, -, hu⟩ | ⟨e, w, hw, hu⟩
  · have h1 := congrArg State.rsp hu
    rw [respond_rsp] at h1
    exact absurd (packResponse_ok (Option.some.inj h1)) (by decide)
  · obtain ⟨u, rfl, rfl⟩ := onRaise_eq_raised.1 hw
    have hhu : u.halted = false := by unfold State.halted; rw [Effect.err he]; exact hh
    have hfu : (f u).halted = false := by unfold State.halted; rw [(hf u).rest]; exact hhu
    rw [raiseErr_failed _ _ _ hfu] at hu
    obtain rfl : e = ⟨cls, sub, info⟩ := (packErr_inj (congrArg State.err hu)).symm
    refine ⟨u, rfl, fun mop => ⟨{ u.forgetTables mop with err := t.err, rsp := t.rsp }, ?_, ?_⟩⟩
    · rw [raiseErr_failed (s := u.forgetTables mop) _ _ _ hhu]; rfl
    · have ht : t = { f u with err := t.err, rsp := t.rsp } := by
        cases t
        simp only [State.failed, State.mk.injEq] at hu ⊢
        simp [hu]
      have hs := (hf u).symm.trans (forgetTables_same mop u)
      rw [ht]
      exact ⟨by conv_lhs => rw [hs.rest], hs.freq, hs.tree, hs.code⟩

/-- A primitive as a line of a macro command. -/
structure PrimLine where
  instr : Instr
  procedure : State → Res Unit

/-- The line itself. -/
def PrimLine.line (p : PrimLine) : MacroLine := ⟨p.instr.opcode, p.procedure⟩

/-- From `s` on the checks of each primitive hold when its turn comes ("they hold by construction", 45 R206). -/
def ChecksHold : List PrimLine → State → Prop
  | [], _ => True
  | p :: ps, s =>
    (∃ f : State → State, (∀ u : State, u.SameValidTables (f u)) ∧
      exec p.instr s = finishDone p.instr ((p.procedure s).onRaise f)) ∧ (p.procedure s).Effects s ∧
      ∀ t, p.procedure s = .ok () t → ChecksHold ps t

/-- A macro command whose primitives all complete. -/
theorem runMacro_completes (i : Instr) (ps : List PrimLine) : ∀ {s t : State}, ChecksHold ps s →
    Completes (ps.map PrimLine.instr) s t → ∃ v : State,
      runMacro i (ps.map PrimLine.line) s = .next (v.respond true false 0) ∧
        ({ t with freqValid := false, treeValid := false, tableValid := false } : State).SameValidTables v := by
  induction ps with
  | nil => rintro s t - rfl; exact ⟨_, rfl, forgetTables_same _ _⟩
  | cons p ps ih =>
    rintro s t ⟨⟨f, -, h1⟩, h2, h3⟩ ⟨u, hu, hx, hc⟩
    rw [h1] at hx
    have hp := finishDone_completed h2 hu hx
    rw [List.map_cons, runMacro_cons_ok hp]
    exact ih (h3 u hp) hc

/-- A macro command one of whose primitives fails, those before it completing. -/
theorem runMacro_fails (i : Instr) (done : List Instr) : ∀ {ps : List PrimLine} {later : List Instr} {j : Instr}
    {s u t : State} {cls : ErrClass} {sub : BitVec 4} {info : BitVec 32}, ChecksHold ps s → s.halted = false →
    ps.map PrimLine.instr = done ++ j :: later → Completes done s u →
    exec j u = .next (t.failed j.opcode j.opcode cls sub info) →
      ∃ v : State, runMacro i (ps.map PrimLine.line) s = .next (v.failed j.opcode i.opcode cls sub info) ∧
        t.SameValidTables v := by
  induction done with
  | nil =>
    rintro (_ | ⟨p, ps⟩) later j s u t cls sub info hk hh hl hc hx
    · simp at hl
    · simp only [List.map_cons, List.nil_append, List.cons.injEq] at hl
      obtain ⟨rfl, -⟩ := hl
      obtain rfl : u = s := hc
      obtain ⟨⟨f, hf, h1⟩, h2, -⟩ := hk
      rw [h1] at hx
      obtain ⟨v, hv, hm⟩ := finishDone_failed h2 hf hh hx
      obtain ⟨w, hw, ht⟩ := hm i.opcode
      rw [List.map_cons, runMacro_cons_raised hv]
      exact ⟨w, congrArg Host.Outcome.next hw, ht⟩
  | cons a done ih =>
    rintro (_ | ⟨p, ps⟩) later j s u t cls sub info hk hh hl hc hx
    · simp at hl
    · simp only [List.map_cons, List.cons_append, List.cons.injEq] at hl
      obtain ⟨rfl, hl⟩ := hl
      obtain ⟨⟨f, -, h1⟩, h2, h3⟩ := hk
      obtain ⟨v, hv, hvx, hc⟩ := hc
      rw [h1] at hvx
      have hp := finishDone_completed h2 hv hvx
      rw [hp] at h2
      rw [List.map_cons, runMacro_cons_ok hp]
      exact ih (h3 v hp) (by unfold State.halted; rw [Effect.err h2]; exact hh) hl hc hx

/-- A WRCLOSE that raises has closed the writer all the same (41 R149). -/
theorem wrClose_raised {s v : State} {e : Raise} (h : wrClose s = .raised e v) : v.wr.isOpen = false := by
  unfold wrClose at h
  split at h
  · split at h
    · cases h
    · obtain ⟨-, rfl⟩ := Res.raised.inj h; rfl
    · cases h
  · cases h

/-- A macro command that fails does so in one of its lines, those before it having appended to what was written, where
each of them does. -/
theorem runMacro_raised {i : Instr} : ∀ {ps : List PrimLine} {s t : State}, s.halted = false →
    runMacro i (ps.map PrimLine.line) s = .next t → t.halted = true → (∀ p ∈ ps, ∀ u, (p.procedure u).Effects u) →
    ∃ pre p post u v e, ps = pre ++ p :: post ∧ p.procedure u = .raised e v ∧
      t = raiseErr p.instr.opcode i.opcode e (v.forgetTables i.opcode) ∧ v.halted = false ∧
      ((∀ q ∈ pre, ∀ u, (q.procedure u).All (Appends u)) → Appends s u) := by
  intro ps
  induction ps with
  | nil =>
    intro s t hs h ht _
    obtain rfl := Host.Outcome.next.inj h
    exact absurd (show s.halted = true from ht) (by rw [hs]; decide)
  | cons p ps ih =>
    intro s t hs h ht he
    have he1 := he p (by simp) s
    cases hp : p.procedure s with
    | ok a u =>
      rw [List.map_cons, runMacro_cons_ok hp] at h
      rw [hp] at he1
      obtain ⟨pre, q, post, x, y, e, h1, h2, h3, h4, h5⟩ := ih
        (by unfold State.halted; rw [Effect.err he1]; exact hs) h ht (fun q hq => he q (by simp [hq]))
      refine ⟨p :: pre, q, post, x, y, e, by rw [h1]; rfl, h2, h3, h4, fun ha => ?_⟩
      have hpu := ha p (by simp) s
      rw [hp] at hpu
      exact appends_chained.trans _ _ _ hpu (h5 fun q hq => ha q (by simp [hq]))
    | raised e v =>
      rw [List.map_cons, runMacro_cons_raised hp] at h
      rw [hp] at he1
      exact ⟨[], p, ps, s, v, e, rfl, hp, (Host.Outcome.next.inj h).symm,
        by unfold State.halted; rw [Effect.err he1]; exact hs, fun _ => appends_chained.refl s⟩
    | stuck f => rw [List.map_cons] at h; simp [runMacro, PrimLine.line, hp] at h

/-- The units stay open and no error is recorded. -/
structure Running (s : State) : Prop where
  halted : s.halted = false
  rdOpen : s.rd.isOpen = true
  wrOpen : s.wr.isOpen = true

/-- What is open stays open and ERR stays as it is. -/
def KeepsRunning (s t : State) : Prop := t.err = s.err ∧ t.rd.isOpen = s.rd.isOpen ∧ t.wr.isOpen = s.wr.isOpen

theorem KeepsRunning.running {s t : State} (h : KeepsRunning s t) (hs : Running s) : Running t :=
  ⟨by unfold State.halted; rw [h.1]; exact hs.halted, h.2.1.trans hs.rdOpen, h.2.2.trans hs.wrOpen⟩

theorem keepsRunning_chained : Chained KeepsRunning :=
  .of (fun _ => ⟨rfl, rfl, rfl⟩) fun _ _ _ h h' => ⟨h'.1.trans h.1, h'.2.1.trans h.2.1, h'.2.2.trans h.2.2⟩

theorem CodecFrame.keepsRunning {s t : State} (h : CodecFrame s t) : KeepsRunning s t := ⟨by rw [h.1], h.2.1, h.2.2⟩

theorem keepsRunning_reads : ReadsKeep KeepsRunning := fun n s => Res.All.imp (codecFrame_reads n s) fun _ h => h.keepsRunning

theorem keepsRunning_tables : TablesKeep KeepsRunning := fun _ _ _ _ _ _ _ _ _ => ⟨rfl, rfl, rfl⟩

theorem WriteFrame.keepsRunning {s t : State} (h : WriteFrame s t) : KeepsRunning s t := h.codec.keepsRunning

theorem WriteFrame.treeValid {s t : State} (h : WriteFrame s t) : t.treeValid = s.treeValid := by rw [h.1]

/-- `RdReset()` touches the reader, the source and the log only (40 R127). -/
theorem rdReset_frame (s : State) : (rdReset s).All fun t => KeepsRunning s t ∧ t.treeValid = s.treeValid := by
  unfold rdReset
  dsimp only
  split <;> exact ⟨⟨rfl, rfl, rfl⟩, rfl⟩

theorem fCount_ok {s t : State} (h : fCount s = .ok () t) : KeepsRunning s t ∧ t.freqValid = true := by
  refine ⟨(keepsRunning_chained.fCount keepsRunning_reads keepsRunning_tables s).ok h, ?_⟩
  obtain ⟨_, u, -, hu⟩ := andThen_eq_ok.1 h
  rw [← (Res.ok.inj hu).2]

theorem tBuild_ok {s t : State} (h : tBuild s = .ok () t) : KeepsRunning s t ∧ t.treeValid = true := by
  refine ⟨(keepsRunning_chained.tBuild keepsRunning_tables s).ok h, ?_⟩
  obtain ⟨_, u, -, hu⟩ := andThen_eq_ok.1 h
  rw [← (Res.ok.inj hu).2]

theorem cTab_ok {s t : State} (h : cTab s = .ok () t) : KeepsRunning s t ∧ t.tableValid = true := by
  refine ⟨(keepsRunning_chained.cTab keepsRunning_tables s).ok h, ?_⟩
  obtain ⟨_, u, -, hu⟩ := andThen_eq_ok.1 h
  rw [← (Res.ok.inj hu).2]

theorem tDes_ok {s t : State} (h : tDes s = .ok () t) : KeepsRunning s t ∧ t.treeValid = true := by
  refine ⟨(keepsRunning_chained.tDes keepsRunning_reads keepsRunning_tables s).ok h, ?_⟩
  obtain ⟨r, u, -, hu⟩ := andThen_eq_ok.1 h
  split at hu
  · cases hu
  · rw [← (Res.ok.inj hu).2]

/-- The lines of COMPRESS with the commands they are (45 R206). -/
def compressPrims : List PrimLine :=
  [⟨.fcount, fCount⟩, ⟨.tbuild, tBuild⟩, ⟨.rdrst, rdReset⟩, ⟨.magicw, magicW⟩, ⟨.tser, serRoot⟩, ⟨.ctab, cTab⟩,
    ⟨.encode, encodeBody⟩, ⟨.wrclose, wrClose⟩]

/-- The lines of DECOMPRESS with the commands they are (46 R226). -/
def decompressPrims : List PrimLine :=
  [⟨.magicr, magicR⟩, ⟨.tdes, tDes⟩, ⟨.decode, decodeBody⟩, ⟨.wrclose, wrClose⟩]

/-- A primitive whose checks pass, its end being that of any command or that of a producer. -/
theorem Running.run {u : State} (h : Running u) (i : Instr) (p : State → Res Unit) (ha : argCheck i = none)
    (hq : seqCheck i u = none) : ∃ f : State → State, (∀ v : State, v.SameValidTables (f v)) ∧
      guarded i u (fun v => finishDone i (p v)) = finishDone i ((p u).onRaise f) :=
  ⟨id, State.SameValidTables.refl, (guarded_run (.inl h.halted) ha hq).trans (by cases p u <;> rfl)⟩

theorem Running.runProducer {u : State} (h : Running u) (i : Instr) (p : State → Res Unit) (ha : argCheck i = none)
    (hq : seqCheck i u = none) : ∃ f : State → State, (∀ v : State, v.SameValidTables (f v)) ∧
      guarded i u (fun v => finishProducer i (p v)) = finishDone i ((p u).onRaise f) :=
  ⟨State.forgetTables i.opcode, forgetTables_same _, guarded_run (.inl h.halted) ha hq⟩

theorem compress_checks {s : State} (h : Running s) : ChecksHold compressPrims s := by
  refine ⟨h.runProducer .fcount fCount rfl (by simp [seqCheck, needs, Need.holds, h.rdOpen]), fCount_effect s, fun t1 e1 => ?_⟩
  obtain ⟨k1, f1⟩ := fCount_ok e1
  have r1 := k1.running h
  refine ⟨r1.run .tbuild tBuild rfl (by simp [seqCheck, needs, Need.holds, f1]), tBuild_effect _, fun t2 e2 => ?_⟩
  obtain ⟨k2, f2⟩ := tBuild_ok e2
  have r2 := k2.running r1
  refine ⟨r2.run .rdrst rdReset rfl (by simp [seqCheck, needs, Need.holds, r2.rdOpen]), rdReset_effect _, fun t3 e3 => ?_⟩
  obtain ⟨k3, f3⟩ := (rdReset_frame t2).ok e3
  have r3 := k3.running r2
  refine ⟨r3.run .magicw magicW rfl (by simp [seqCheck, needs, Need.holds, r3.wrOpen]), magicW_effect _, fun t4 e4 => ?_⟩
  have w4 : WriteFrame t3 t4 := (wrBits_frame _ _ _).ok e4
  have r4 := w4.keepsRunning.running r3
  have f4 : t4.treeValid = true := w4.treeValid.trans (f3.trans f2)
  refine ⟨r4.run .tser serRoot rfl (by simp [seqCheck, needs, Need.holds, r4.wrOpen, f4]), serRoot_effect _, fun t5 e5 => ?_⟩
  have w5 : WriteFrame t4 t5 := (ser_frame _ _ _).ok e5
  have r5 := w5.keepsRunning.running r4
  have f5 : t5.treeValid = true := w5.treeValid.trans f4
  refine ⟨r5.run .ctab cTab rfl (by simp [seqCheck, needs, Need.holds, f5]), cTab_effect _, fun t6 e6 => ?_⟩
  obtain ⟨k6, f6⟩ := cTab_ok e6
  have r6 := k6.running r5
  refine ⟨r6.run .encode encodeBody rfl (by simp [seqCheck, needs, Need.holds, r6.rdOpen, r6.wrOpen, f6]), encodeBody_effect _,
    fun t7 e7 => ?_⟩
  have r7 := ((encodeBody_frame _).ok e7).keepsRunning.running r6
  exact ⟨r7.run .wrclose wrClose rfl rfl, wrClose_effect _, fun _ _ => trivial⟩

theorem decompress_checks {s : State} (h : Running s) : ChecksHold decompressPrims s := by
  refine ⟨h.run .magicr magicR rfl (by simp [seqCheck, needs, Need.holds, h.rdOpen]), magicR_effect s, fun t1 e1 => ?_⟩
  have r1 := ((magicR_frame _).ok e1).codec.keepsRunning.running h
  refine ⟨r1.runProducer .tdes tDes rfl (by simp [seqCheck, needs, Need.holds, r1.rdOpen]), tDes_effect _, fun t2 e2 => ?_⟩
  obtain ⟨k2, f2⟩ := tDes_ok e2
  have r2 := k2.running r1
  refine ⟨r2.run .decode decodeBody rfl (by simp [seqCheck, needs, Need.holds, r2.rdOpen, r2.wrOpen, f2]), decodeBody_effect _,
    fun t3 e3 => ?_⟩
  have r3 := ((decodeBody_frame _).ok e3).keepsRunning.running r2
  exact ⟨r3.run .wrclose wrClose rfl rfl, wrClose_effect _, fun _ _ => trivial⟩

end Sys2Proof.Machine
end

