-- ==== Sys2Proof/Laws/Calm.lean ====
section
/-! SUPPORT. A procedure that completed met no failing transaction; so it is the run of the same state with devices that
do not fail (20_memory.md R64). -/

namespace Sys2Proof.Machine

/-- The same state with devices that do not fail. -/
def State.calm (s : State) : State :=
  { s with src := { s.src with failAt := none }, snk := { s.snk with failAt := none } }

@[simp] theorem calm_rd (s : State) : s.calm.rd = s.rd := rfl
@[simp] theorem calm_wr (s : State) : s.calm.wr = s.wr := rfl
@[simp] theorem calm_node (s : State) : s.calm.node = s.node := rfl
@[simp] theorem calm_nodeCnt (s : State) : s.calm.nodeCnt = s.nodeCnt := rfl
@[simp] theorem calm_root (s : State) : s.calm.root = s.root := rfl
@[simp] theorem calm_freq (s : State) : s.calm.freq = s.freq := rfl
@[simp] theorem calm_magic (s : State) : s.calm.magic = s.magic := rfl
@[simp] theorem calm_log (s : State) : s.calm.log = s.log := rfl
@[simp] theorem calm_nodeAt (s : State) (i : NodeIx) : s.calm.nodeAt i = s.nodeAt i := rfl
@[simp] theorem calm_codeOf (s : State) (y : Symbol) : s.calm.codeOf y = s.codeOf y := rfl
@[simp] theorem calm_freqOf (s : State) (y : Symbol) : s.calm.freqOf y = s.freqOf y := rfl
@[simp] theorem calm_bitsLeft (s : State) : s.calm.bitsLeft = s.bitsLeft := rfl
@[simp] theorem calm_srcFails (s : State) : s.calm.srcFails = false := rfl
@[simp] theorem calm_snkFails (s : State) : s.calm.snkFails = false := rfl

theorem calm_sound (s : State) : s.calm.srcSound ∧ s.calm.snkSound := ⟨rfl, rfl⟩

theorem calm_transact (s : State) (e : PortEvent) : (s.transact e).calm = s.calm.transact e := by
  have h1 : ({ s.src.after e with failAt := none } : Source) = Source.after { s.src with failAt := none } e := by
    unfold Source.after; split <;> rfl
  have h2 : ({ s.snk.after e with failAt := none } : Sink) = Sink.after { s.snk with failAt := none } e := by
    unfold Sink.after; split <;> rfl
  simp only [State.calm, State.transact, h1, h2]

/-- Where the procedure completes, it completes alike on devices that do not fail. -/
def Calms {α : Type} (f : State → Res α) : Prop := ∀ s a t, f s = .ok a t → f s.calm = .ok a t.calm

theorem Calms.andThen {α β : Type} {f : State → Res α} {k : α → State → Res β} (hf : Calms f) (hk : ∀ a, Calms (k a)) :
    Calms fun s => (f s).andThen k := by
  intro s b u h
  obtain ⟨a, t, h1, h2⟩ := andThen_eq_ok.1 h
  show (f s.calm).andThen k = _
  rw [hf s a t h1, ok_andThen]; exact hk a t b u h2

theorem Calms.ok {α : Type} (a : α) : Calms (Res.ok a) := by
  intro s b t h
  obtain ⟨rfl, rfl⟩ := Res.ok.inj h; rfl

theorem Calms.raised {α : Type} (e : State → Raise) : Calms fun s => (Res.raised (e s) s : Res α) := by
  intro s b t h; cases h

theorem Calms.stuck {α : Type} (f : Fault) : Calms fun _ => (Res.stuck f : Res α) := by
  intro s b t h; cases h

/-- A procedure after an update that commutes with `calm`. -/
theorem Calms.comp {α : Type} {f : State → Res α} {g : State → State} (hf : Calms f) (hg : ∀ s, (g s).calm = g s.calm) :
    Calms fun s => f (g s) := by
  intro s a t h
  show f (g s.calm) = _
  rw [← hg]; exact hf _ a t h

/-- A test that devices do not decide. -/
theorem Calms.ite {α : Type} {p : State → Prop} [DecidablePred p] {f g : State → Res α} (hp : ∀ s, p s.calm ↔ p s)
    (hf : Calms f) (hg : Calms g) : Calms fun s => if p s then f s else g s := by
  intro s a t h
  dsimp only at h ⊢
  by_cases hs : p s
  · rw [if_pos hs] at h; rw [if_pos ((hp s).2 hs)]; exact hf s a t h
  · rw [if_neg hs] at h; rw [if_neg fun h' => hs ((hp s).1 h')]; exact hg s a t h

theorem rdRefillBlock_calms : Calms rdRefillBlock := by
  intro s a t h
  unfold rdRefillBlock at h ⊢
  rw [calm_rd]
  split at h
  · rename_i he; rw [if_pos he]; exact Calms.ok () s a t h
  · rename_i he
    rw [if_neg he]
    dsimp only at h ⊢
    have hc : s.srcFails = false → s.calm.fetchAnswer Config.rdBlockBytes = s.fetchAnswer Config.rdBlockBytes := fun hf => by
      unfold State.fetchAnswer; rw [hf, calm_srcFails]; rfl
    cases hf : s.srcFails with
    | true => simp [State.fetchAnswer, hf] at h
    | false =>
      rw [hc hf, ← calm_transact]
      split at h
      · cases h
      · obtain ⟨-, rfl⟩ := Res.ok.inj h; rfl
      · obtain ⟨-, rfl⟩ := Res.ok.inj h; rfl

theorem rdRefillAcc_calms : Calms rdRefillAcc := by
  refine Calms.andThen (f := fun s => if s.rd.blkIdx = s.rd.blkLen then rdRefillBlock s else .ok () s)
    (Calms.ite (fun _ => Iff.rfl) rdRefillBlock_calms (Calms.ok ())) fun _ => ?_
  exact (Calms.ok ()).comp fun _ => rfl

theorem rdBits_calms (n : Nat) : Calms (rdBits n) := by
  have loop : ∀ (fuel need v : Nat), Calms (rdBitsLoop fuel n need v) := by
    intro fuel
    induction fuel with
    | zero => intro need v; exact Calms.stuck _
    | succ fuel ih =>
      intro need v s a t h
      unfold rdBitsLoop at h ⊢
      rw [calm_rd]
      split at h
      · rename_i hle
        rw [if_pos hle]
        obtain ⟨rfl, rfl⟩ := Res.ok.inj h; rfl
      · rename_i hle
        rw [if_neg hle]
        obtain ⟨_, u, h1, h2⟩ := andThen_eq_ok.1 h
        have h1' := rdRefillAcc_calms _ _ _ h1
        rw [show ({ s.calm with rd := { s.rd with accCnt := 0 } } : State) =
          ({ s with rd := { s.rd with accCnt := 0 } } : State).calm from rfl, h1', ok_andThen, calm_rd]
        split at h2
        · rename_i hz
          rw [if_pos hz]
          obtain ⟨rfl, rfl⟩ := Res.ok.inj h2; rfl
        · rename_i hz
          rw [if_neg hz]; exact ih _ _ u a t h2
  exact loop 6 n 0

theorem wrPutBlock_calms : Calms wrPutBlock := by
  intro s a t h
  unfold wrPutBlock at h ⊢
  cases hf : s.snkFails with
  | true => simp [State.putAnswer, hf] at h
  | false =>
    simp only [State.putAnswer, hf, Bool.false_eq_true, if_false, calm_snkFails, calm_wr, ← calm_transact] at h ⊢
    obtain ⟨rfl, rfl⟩ := Res.ok.inj h; rfl

theorem wrBits_calms (n v : Nat) : Calms (wrBits n v) := by
  intro s a t h
  unfold wrBits at h ⊢
  dsimp only at h ⊢
  rw [calm_wr]
  split at h
  · rename_i hc; rw [if_pos hc]; obtain ⟨rfl, rfl⟩ := Res.ok.inj h; rfl
  · rename_i hc
    rw [if_neg hc]
    split at h
    · rename_i hb; rw [if_pos (by exact hb)]; exact wrPutBlock_calms _ a t h
    · rename_i hb; rw [if_neg (by exact hb)]; obtain ⟨rfl, rfl⟩ := Res.ok.inj h; rfl

theorem wrFlush_calms : Calms wrFlush := by
  intro s a t h
  unfold wrFlush at h ⊢
  dsimp only at h ⊢
  rw [calm_wr]
  split at h
  · rename_i hb; rw [if_pos (by exact hb)]; exact wrPutBlock_calms _ a t h
  · rename_i hb; rw [if_neg (by exact hb)]; obtain ⟨rfl, rfl⟩ := Res.ok.inj h; rfl

theorem wrClose_calms : Calms wrClose := by
  intro s a t h
  unfold wrClose at h ⊢
  rw [calm_wr]
  split at h
  · rename_i ho
    rw [if_pos ho]
    split at h
    · rename_i u hu
      rw [wrFlush_calms _ _ _ hu]
      obtain ⟨rfl, rfl⟩ := Res.ok.inj h
      simp only [wrRelease, ← calm_transact]; rfl
    · cases h
    · cases h
  · rename_i ho; rw [if_neg ho]; obtain ⟨rfl, rfl⟩ := Res.ok.inj h; rfl

theorem rdReset_calms : Calms rdReset := by
  intro s a t h
  unfold rdReset at h ⊢
  cases hf : s.srcFails with
  | true => simp [openAnswer, hf] at h
  | false =>
    simp only [openAnswer, hf, Bool.false_eq_true, if_false, calm_srcFails, ← calm_transact] at h ⊢
    obtain ⟨rfl, rfl⟩ := Res.ok.inj h; rfl

theorem fCount_calms : Calms fCount := by
  have loop : ∀ fuel, Calms (fCountLoop fuel) := by
    intro fuel
    induction fuel with
    | zero => exact Calms.stuck _
    | succ fuel ih =>
      refine Calms.andThen (rdBits_calms 8) fun r => ?_
      cases r with
      | none => exact Calms.ok ()
      | some v => exact Calms.ite (fun _ => Iff.rfl) (Calms.raised _) (ih.comp fun _ => rfl)
  have body : ∀ fuel, Calms fun s => (fCountLoop fuel s).andThen fun _ u =>
      .ok () { u.setFreq terminator 1 with freqValid := true } :=
    fun fuel => (loop fuel).andThen fun _ => (Calms.ok ()).comp fun _ => rfl
  exact fun s a t h => body _ (fCountStart s) a t h

theorem tBuild_calms : Calms tBuild := by
  have least : ∀ (s : State) (i : NodeIx) (q : List NodeIx), leastOf s.calm i q = leastOf s i q := fun _ _ _ => rfl
  have loop : ∀ (fuel : Nat) (q : List NodeIx), Calms (mergeLoop fuel q) := by
    intro fuel
    induction fuel with
    | zero =>
      intro q
      match q with
      | [] => exact Calms.stuck _
      | [r] => exact Calms.ok r
      | _ :: _ :: _ => exact Calms.stuck _
    | succ fuel ih =>
      intro q
      match q with
      | [] => exact Calms.stuck _
      | [r] => exact Calms.ok r
      | i :: j :: q =>
        intro s a t h
        rw [mergeLoop] at h ⊢
        dsimp only at h ⊢
        rw [least]
        split at h
        · cases h
        · exact ih _ _ a t h
  have push : ∀ (xs : List Node) (s : State), (xs.foldl State.pushNode s).calm = xs.foldl State.pushNode s.calm := by
    intro xs
    induction xs with
    | nil => intro s; rfl
    | cons x xs ih => intro s; exact ih _
  have leaves : ∀ s : State, (tBuildLeaves s).calm = tBuildLeaves s.calm := by
    intro s
    have h := push (leavesOf s.freq) { s with treeValid := false, tableValid := false, nodeCnt := 0 }
    unfold tBuildLeaves
    dsimp only
    rw [show ({ s.calm with treeValid := false, tableValid := false, nodeCnt := 0 } : State) =
      ({ s with treeValid := false, tableValid := false, nodeCnt := 0 } : State).calm from rfl, calm_freq, ← h, calm_nodeCnt]
    split <;> rfl
  have body : ∀ fuel q, Calms fun s => (mergeLoop fuel q s).andThen fun r u =>
      .ok () { u with root := r, treeValid := true } :=
    fun fuel q => (loop fuel q).andThen fun _ => (Calms.ok ()).comp fun _ => rfl
  intro s a t h
  unfold tBuild at h ⊢
  dsimp only at h ⊢
  rw [← leaves]
  exact body _ _ _ a t h

theorem magicW_calms : Calms magicW := fun s a t h => wrBits_calms 32 s.magic.toNat s a t h

theorem serRoot_calms : Calms serRoot := by
  have loop : ∀ (room : Nat) (i : NodeIx), Calms (ser room i) := by
    intro room
    induction room with
    | zero => intro i; exact Calms.stuck _
    | succ room ih =>
      intro i s a t h
      unfold ser at h ⊢
      rw [calm_nodeAt]
      split at h
      · exact Calms.andThen (wrBits_calms 1 0) (fun _ => Calms.andThen (ih _) fun _ => ih _) s a t h
      · cases h
      · exact Calms.andThen (wrBits_calms 1 1) (fun _ => wrBits_calms 9 _) s a t h
  exact fun s a t h => loop _ s.root s a t h

theorem cTab_calms : Calms cTab := by
  have loop : ∀ (room : Nat) (i : NodeIx) (path : List Bool), Calms (walk room i path) := by
    intro room
    induction room with
    | zero => intro i path; exact Calms.stuck _
    | succ room ih =>
      intro i path s a t h
      unfold walk at h ⊢
      rw [calm_nodeAt]
      split at h
      · exact Calms.andThen (ih _ _) (fun _ => ih _ _) s a t h
      · exact Calms.ok () s a t h
      · obtain ⟨rfl, rfl⟩ := Res.ok.inj h; rfl
  have body : ∀ room i, Calms fun s => (walk room i [] s).andThen fun _ u => .ok () { u with tableValid := true } :=
    fun room i => (loop room i []).andThen fun _ => (Calms.ok ()).comp fun _ => rfl
  exact fun s a t h => body _ s.root { s with tableValid := false, code := Vector.replicate 257 [] } a t h

theorem encodeBody_calms : Calms encodeBody := by
  have pieces : ∀ (fuel : Nat) (bits : List Bool), Calms (wrPieces fuel bits) := by
    intro fuel
    induction fuel with
    | zero => intro bits; cases bits <;> first | exact Calms.ok () | exact Calms.stuck _
    | succ fuel ih =>
      intro bits
      cases bits with
      | nil => exact Calms.ok ()
      | cons b bits => exact Calms.andThen (wrBits_calms _ _) fun _ => ih _
  have symbol : ∀ y, Calms (encodeSymbol y) := by
    intro y
    exact Calms.ite (fun _ => Iff.rfl) (Calms.raised _) fun s a t h => pieces _ (s.codeOf y) s a t h
  have loop : ∀ fuel, Calms (encodeLoop fuel) := by
    intro fuel
    induction fuel with
    | zero => exact Calms.stuck _
    | succ fuel ih =>
      refine Calms.andThen (rdBits_calms 8) fun r => ?_
      cases r with
      | none => exact Calms.ok ()
      | some v => exact Calms.andThen (symbol _) fun _ => ih
  exact fun s a t h => Calms.andThen (loop (s.bitsLeft + 1)) (fun _ => symbol terminator) s a t h

/-- A macro command that completed is the same command on devices that do not fail. -/
theorem runMacro_calms {i : Instr} (lines : List MacroLine) : ∀ {s t : State}, (∀ l ∈ lines, Calms l.procedure) →
    runMacro i lines s = .next t → t.completed →
      ∃ u : State, t = u.respond true false 0 ∧ runMacro i lines s.calm = .next (u.calm.respond true false 0) := by
  induction lines with
  | nil =>
    intro s t _ h _
    exact ⟨_, (Host.Outcome.next.inj h).symm, rfl⟩
  | cons l lines ih =>
    intro s t hl h hc
    cases hp : l.procedure s with
    | ok a u =>
      rw [runMacro_cons_ok hp] at h
      rw [runMacro_cons_ok (hl l (by simp) _ _ _ hp)]
      exact ih (fun x hx => hl x (by simp [hx])) h hc
    | raised e u =>
      rw [runMacro_cons_raised hp] at h
      obtain rfl := Host.Outcome.next.inj h
      obtain ⟨eos, data, hr⟩ := hc
      rw [raiseErr_rsp] at hr
      exact absurd (packResponse_ok (Option.some.inj hr)) (by decide)
    | stuck f => simp [runMacro, hp] at h

theorem compressLines_calm : ∀ l ∈ compressLines, Calms l.procedure := by
  simp [compressLines, fCount_calms, tBuild_calms, rdReset_calms, magicW_calms, serRoot_calms, cTab_calms,
    encodeBody_calms, wrClose_calms]

end Sys2Proof.Machine
end

