-- ==== Sys2Proof/Laws/Decode.lean ====
section
/-! SUPPORT. The fields of an encoded word (30_encoding.md R91, R98), field by field. -/

namespace Sys2Proof

open Sys2Proof.Machine

@[simp] theorem opField_packWord (op : BitVec 8) (n : BitVec 6) (v : BitVec 32) : opField (packWord op n v) = op := by
  unfold opField packWord
  rw [extract_append_high _ _ _ _ (by omega), extract_append_high _ _ _ _ (by omega),
    extract_append_high _ _ _ _ (by omega)]
  exact extract_full op

@[simp] theorem rsvField_packWord (op : BitVec 8) (n : BitVec 6) (v : BitVec 32) : rsvField (packWord op n v) = 0 := by
  unfold rsvField packWord
  rw [extract_append_high _ _ _ _ (by omega), extract_append_high _ _ _ _ (by omega),
    extract_append_low _ _ _ _ (by omega)]
  exact extract_full _

@[simp] theorem nField_packWord (op : BitVec 8) (n : BitVec 6) (v : BitVec 32) : nField (packWord op n v) = n := by
  unfold nField packWord
  rw [extract_append_high _ _ _ _ (by omega), extract_append_low _ _ _ _ (by omega)]
  exact extract_full _

@[simp] theorem valField_packWord (op : BitVec 8) (n : BitVec 6) (v : BitVec 32) : valField (packWord op n v) = v := by
  unfold valField packWord
  rw [extract_append_low _ _ _ _ (by omega)]
  exact extract_full _

/-- A word whose RSV is 0 is the word of its fields. -/
theorem packWord_fields (w : CmdWord) (h : rsvField w = 0) : packWord (opField w) (nField w) (valField w) = w := by
  unfold packWord
  rw [← (show rsvField w = 0#2 from h)]
  unfold opField rsvField nField valField
  rw [BitVec.extractLsb'_append_extractLsb'_eq_extractLsb' (by omega),
    BitVec.extractLsb'_append_extractLsb'_eq_extractLsb' (by omega),
    BitVec.extractLsb'_append_extractLsb'_eq_extractLsb' (by omega)]
  exact extract_full w

/-- `OP * 2^40 + N * 2^32 + VAL` (R98). -/
theorem packWord_toNat (op : BitVec 8) (n : BitVec 6) (v : BitVec 32) :
    (packWord op n v).toNat = op.toNat * 2 ^ 40 + n.toNat * 2 ^ 32 + v.toNat := by
  unfold packWord
  simp only [BitVec.toNat_append]
  rw [← Nat.shiftLeft_add_eq_or_of_lt v.isLt, ← Nat.shiftLeft_add_eq_or_of_lt n.isLt,
    ← Nat.shiftLeft_add_eq_or_of_lt (0#2).isLt]
  simp only [Nat.shiftLeft_eq]
  simp; ring

end Sys2Proof
end

