-- ==== Sys2Proof/Laws/Failures.lean ====
section
/-! SUPPORT. A transaction answered `Fail` ends the procedure that made it with the RESOURCE raise of that transaction,
and nothing else raises RESOURCE (60_exceptions.md R256). -/

namespace Sys2Proof.Machine

/-- None of the transactions is answered `Fail`. -/
def NoneFails (es : List PortEvent) : Prop := ∀ e ∈ es, e.failSub = none

theorem NoneFails.nil : NoneFails [] := by simp [NoneFails]

theorem NoneFails.append {es fs : List PortEvent} (h : NoneFails es) (h' : NoneFails fs) : NoneFails (es ++ fs) := by
  intro e he
  rcases List.mem_append.1 he with he | he
  · exact h e he
  · exact h' e he

/-- From `s` to `t` no transaction is answered `Fail`. -/
def Clean (s t : State) : Prop := ∃ es, t.log = s.log ++ es ∧ NoneFails es

/-- From `s` to `t` transactions are made of which one is answered `Fail`, the last but for `tail`, and `e` is its
raise. -/
def Broken (tail : List PortEvent) (s : State) (e : Raise) (t : State) : Prop :=
  ∃ es p sub, t.log = s.log ++ (es ++ p :: tail) ∧ NoneFails es ∧ p.failSub = some sub ∧ e = ⟨.resource, sub, 0⟩

/-- How a procedure comes to raise `e`: by a transaction answered `Fail`, or without any and then not as RESOURCE. -/
def Blames (s : State) (e : Raise) (t : State) : Prop :=
  (e.cls ≠ .resource ∧ Clean s t) ∨ Broken [] s e t

theorem Clean.of_log {s t : State} (h : t.log = s.log) : Clean s t := ⟨[], by simp [h], .nil⟩

theorem Clean.refl (s : State) : Clean s s := .of_log rfl

theorem Clean.trans (a b c : State) (h : Clean a b) (h' : Clean b c) : Clean a c := by
  obtain ⟨es, h1, h2⟩ := h
  obtain ⟨fs, h3, h4⟩ := h'
  exact ⟨es ++ fs, by rw [h3, h1, List.append_assoc], h2.append h4⟩

theorem Clean.blames {a b c : State} {e : Raise} (h : Clean a b) (h' : Blames b e c) : Blames a e c := by
  rcases h' with ⟨hn, h'⟩ | ⟨fs, p, sub, h3, h4, h5, h6⟩
  · exact .inl ⟨hn, h.trans _ _ _ h'⟩
  · obtain ⟨es, h1, h2⟩ := h
    exact .inr ⟨es ++ fs, p, sub, by rw [h3, h1]; simp, h2.append h4, h5, h6⟩

theorem blames_closed : Closed Clean Blames where
  refl := Clean.refl
  trans := Clean.trans
  raise _ _ _ _ h h' := h.blames h'
  own s _ h := .inl ⟨h, .refl s⟩

/-- A procedure that raises RESOURCE exactly for a transaction answered `Fail`, its last. -/
abbrev Res.Faithful {α : Type} (r : Res α) (s : State) : Prop := r.Ends (Clean s) (Blames s)

theorem Clean.transact {s : State} {e : PortEvent} (h : e.failSub = none) : Clean s (s.transact e) :=
  ⟨[e], rfl, by simpa [NoneFails] using h⟩

theorem Broken.transact {s : State} {p : PortEvent} {sub : BitVec 4} (h : p.failSub = some sub) :
    Broken [] s ⟨.resource, sub, 0⟩ (s.transact p) :=
  ⟨[], p, sub, rfl, .nil, h, rfl⟩

/-- A later change that logs nothing. -/
theorem Broken.of_log {tail : List PortEvent} {s t u : State} {e : Raise} (h : Broken tail s e t) (hl : u.log = t.log) :
    Broken tail s e u := by
  obtain ⟨es, p, sub, h1, h2⟩ := h
  exact ⟨es, p, sub, hl.trans h1, h2⟩

theorem clean_tables : TablesKeep Clean := fun _ _ _ _ _ _ _ _ _ => .of_log rfl

theorem rdRefillAcc_faithful (s : State) : (rdRefillAcc s).Faithful s := by
  unfold rdRefillAcc
  refine blames_closed.andThen ?_ fun _ t => Clean.of_log rfl
  split
  · unfold rdRefillBlock
    split
    · exact Clean.refl s
    · dsimp only
      cases ha : s.fetchAnswer Config.rdBlockBytes with
      | fail => exact .inr (Broken.transact rfl)
      | endOfSource => exact Clean.trans _ _ _ (Clean.transact rfl) (.of_log rfl)
      | bytes b => exact Clean.trans _ _ _ (Clean.transact rfl) (.of_log rfl)
  · exact Clean.refl s

theorem rdBits_faithful : ReadsKeep Clean Blames := by
  have loop : ∀ (fuel n need v : Nat) (s : State), (rdBitsLoop fuel n need v s).Faithful s := by
    intro fuel n
    induction fuel with
    | zero => intro need v s; trivial
    | succ fuel ih =>
      intro need v s
      unfold rdBitsLoop
      split
      · exact Clean.of_log rfl
      · refine blames_closed.after (t := { s with rd := { s.rd with accCnt := 0 } }) (.of_log rfl)
          (blames_closed.andThen (rdRefillAcc_faithful _) fun _ t => ?_)
        split
        · exact Clean.of_log rfl
        · exact ih _ _ t
  exact fun n s => loop 6 n n 0 s

theorem wrPutBlock_faithful (s : State) : (wrPutBlock s).Faithful s := by
  unfold wrPutBlock
  dsimp only
  cases ha : s.putAnswer with
  | ok => exact Clean.trans _ _ _ (Clean.transact rfl) (.of_log rfl)
  | fail left => exact .inr ((Broken.transact rfl).of_log rfl)

theorem wrBits_faithful (n v : Nat) (s : State) : (wrBits n v s).Faithful s := by
  unfold wrBits
  dsimp only
  split
  · exact Clean.of_log rfl
  · split
    · exact blames_closed.after (.of_log rfl) (wrPutBlock_faithful _)
    · exact Clean.of_log rfl

theorem wrBits_keeps : WritesKeep Clean Blames := fun n v s _ => wrBits_faithful n v s

theorem wrFlush_faithful (s : State) : (wrFlush s).Faithful s := by
  unfold wrFlush
  dsimp only
  split
  · exact blames_closed.after (.of_log rfl) (wrPutBlock_faithful _)
  · exact Clean.of_log rfl

/-- A flush raises nothing but RESOURCE. -/
theorem wrFlush_broken {s t : State} {e : Raise} (h : wrFlush s = .raised e t) : Broken [] s e t := by
  rcases (wrFlush_faithful s).raised h with ⟨hn, -⟩ | hb
  · unfold wrFlush at h
    dsimp only at h
    split at h
    · unfold wrPutBlock at h
      dsimp only at h
      split at h
      · cases h
      · obtain ⟨rfl, -⟩ := Res.raised.inj h
        exact absurd rfl hn
    · cases h
  · exact hb

/-- A WRCLOSE whose flush raises releases the sink after the failed put (41 R149). -/
theorem wrClose_faithful (s : State) : (wrClose s).Ends (Clean s) (Broken [.snkRelease] s) := by
  unfold wrClose
  split
  · cases hr : wrFlush s with
    | ok a t =>
      have h : Clean t (wrRelease t) := Clean.trans _ _ _ (Clean.transact rfl) (.of_log rfl)
      exact ((wrFlush_faithful s).ok hr).trans _ _ _ h
    | raised e t =>
      obtain ⟨es, p, sub, h1, h2⟩ := wrFlush_broken hr
      refine ⟨es, p, sub, ?_, h2⟩
      show t.log ++ [.snkRelease] = _
      rw [h1]; simp
    | stuck f => trivial
  · exact Clean.refl s

theorem rdOpen_faithful (s : State) : (rdOpen s).Faithful s := by
  unfold rdOpen
  dsimp only
  cases ha : openAnswer s.srcFails s.log.length with
  | ok => exact Clean.trans _ _ _ (Clean.transact rfl) (.of_log rfl)
  | fail took => exact .inr (Broken.transact rfl)

theorem rdReset_faithful (s : State) : (rdReset s).Faithful s := by
  unfold rdReset
  dsimp only
  cases ha : openAnswer s.srcFails s.log.length with
  | ok => exact Clean.trans _ _ _ (Clean.transact rfl) (.of_log rfl)
  | fail took => exact .inr (Broken.transact rfl)

theorem wrOpen_faithful (s : State) : (wrOpen s).Faithful s := by
  unfold wrOpen
  dsimp only
  cases ha : openAnswer s.snkFails s.log.length with
  | ok => exact Clean.trans _ _ _ (Clean.transact rfl) (.of_log rfl)
  | fail took => exact .inr (Broken.transact rfl)

theorem rdClose_clean (s : State) : Clean s (rdClose s) := by
  unfold rdClose
  split
  · exact Clean.trans _ _ _ (Clean.transact rfl) (.of_log rfl)
  · exact Clean.refl s

theorem fCount_faithful (s : State) : (fCount s).Faithful s := blames_closed.fCount rdBits_faithful clean_tables s

theorem tBuild_faithful (s : State) : (tBuild s).Faithful s := blames_closed.tBuild clean_tables s

theorem magicW_faithful (s : State) : (magicW s).Faithful s := wrBits_faithful _ _ _

theorem serRoot_faithful (s : State) : (serRoot s).Faithful s := blames_closed.serRoot wrBits_keeps s

theorem tDes_faithful (s : State) : (tDes s).Faithful s := blames_closed.tDes rdBits_faithful clean_tables s

theorem cTab_faithful (s : State) : (cTab s).Faithful s := blames_closed.cTab clean_tables s

theorem encodeBody_faithful (s : State) : (encodeBody s).Faithful s :=
  blames_closed.encodeBody rdBits_faithful wrBits_keeps s

theorem magicR_faithful (s : State) : (magicR s).Faithful s := blames_closed.magicR rdBits_faithful s

theorem decodeBody_faithful (s : State) : (decodeBody s).Faithful s :=
  blames_closed.decodeBody rdBits_faithful wrBits_keeps s

/-- The line of a macro command: a faithful procedure, or the close. -/
abbrev Res.LineFaithful {α : Type} (r : Res α) (s : State) : Prop :=
  r.Ends (Clean s) fun e t => Blames s e t ∨ Broken [.snkRelease] s e t

theorem Res.Faithful.line {α : Type} {r : Res α} {s : State} (h : r.Faithful s) : r.LineFaithful s :=
  h.imp (fun _ h => h) fun _ _ h => .inl h

theorem wrClose_line (s : State) : (wrClose s).LineFaithful s :=
  (wrClose_faithful s).imp (fun _ h => h) fun _ _ h => .inr h

/-- A failed transaction followed by `tail` is the only one among those made. -/
theorem NoneFails.split {es tail before after : List PortEvent} {p e : PortEvent} (hn : NoneFails es)
    (ht : NoneFails tail) (he : e.failSub ≠ none) (h : es ++ p :: tail = before ++ e :: after) :
    before = es ∧ e = p ∧ after = tail := by
  induction es generalizing before with
  | nil =>
    cases before with
    | nil =>
      simp only [List.nil_append, List.cons.injEq] at h
      exact ⟨rfl, h.1.symm, h.2.symm⟩
    | cons b bs =>
      simp only [List.nil_append, List.cons_append, List.cons.injEq] at h
      exact absurd (ht e (by rw [h.2]; simp)) he
  | cons x xs ih =>
    cases before with
    | nil =>
      simp only [List.nil_append, List.cons_append, List.cons.injEq] at h
      exact absurd (hn e (by simp [h.1])) he
    | cons b bs =>
      simp only [List.cons_append, List.cons.injEq] at h
      obtain ⟨rfl, h2, h3⟩ := ih (fun y hy => hn y (by simp [hy])) h.2
      exact ⟨by rw [h.1], h2, h3⟩

/-- What a macro command does to the devices, and how it comes to raise. -/
theorem runMacro_faithful {i : Instr} {lines : List MacroLine}
    (hl : ∀ l ∈ lines, ∀ u, (l.procedure u).LineFaithful u ∧ (l.procedure u).Effects u) :
    ∀ {s t : State}, runMacro i lines s = .next t →
      (∃ u, t = u.respond true false 0 ∧ Clean s u ∧ Effect s u) ∨
      ∃ e u op, t = raiseErr op i.opcode e (u.forgetTables i.opcode) ∧ Effect s u ∧ (Blames s e u ∨ Broken [.snkRelease] s e u) := by
  induction lines with
  | nil =>
    intro s t h
    exact .inl ⟨_, (Host.Outcome.next.inj h).symm, .of_log rfl, .of_eq rfl rfl rfl rfl rfl rfl rfl⟩
  | cons l lines ih =>
    intro s t h
    obtain ⟨h0, h1⟩ := hl l (by simp) s
    cases hp : l.procedure s with
    | ok a u =>
      have hc : Clean s u := h0.ok hp
      have he : Effect s u := h1.ok hp
      rw [runMacro_cons_ok hp] at h
      rcases ih (fun x hx => hl x (by simp [hx])) h with ⟨v, q1, q2, q3⟩ | ⟨e, v, op, q1, q2, q3⟩
      · exact .inl ⟨v, q1, hc.trans _ _ _ q2, he.trans _ _ _ q3⟩
      · refine .inr ⟨e, v, op, q1, he.trans _ _ _ q2, q3.imp hc.blames fun hb => ?_⟩
        obtain ⟨es, g1, g2⟩ := hc
        obtain ⟨fs, p, sub, g3, g4, g5⟩ := hb
        exact ⟨es ++ fs, p, sub, by rw [g3, g1]; simp, g2.append g4, g5⟩
    | raised e u =>
      rw [runMacro_cons_raised hp] at h
      exact .inr ⟨e, u, _, (Host.Outcome.next.inj h).symm, h1.raised hp, h0.raised hp⟩
    | stuck f => simp [runMacro, hp] at h

theorem compressLines_faithful : ∀ l ∈ compressLines, ∀ u,
    (l.procedure u).LineFaithful u ∧ (l.procedure u).Effects u := by
  simp only [compressLines, List.mem_cons, List.not_mem_nil, or_false]
  rintro l (rfl | rfl | rfl | rfl | rfl | rfl | rfl | rfl) u
  exacts [⟨(fCount_faithful u).line, fCount_effect u⟩, ⟨(tBuild_faithful u).line, tBuild_effect u⟩,
    ⟨(rdReset_faithful u).line, rdReset_effect u⟩, ⟨(magicW_faithful u).line, magicW_effect u⟩,
    ⟨(serRoot_faithful u).line, serRoot_effect u⟩, ⟨(cTab_faithful u).line, cTab_effect u⟩,
    ⟨(encodeBody_faithful u).line, encodeBody_effect u⟩, ⟨wrClose_line u, wrClose_effect u⟩]

theorem decompressLines_faithful : ∀ l ∈ decompressLines, ∀ u,
    (l.procedure u).LineFaithful u ∧ (l.procedure u).Effects u := by
  simp only [decompressLines, List.mem_cons, List.not_mem_nil, or_false]
  rintro l (rfl | rfl | rfl | rfl) u
  exacts [⟨(magicR_faithful u).line, magicR_effect u⟩, ⟨(tDes_faithful u).line, tDes_effect u⟩,
    ⟨(decodeBody_faithful u).line, decodeBody_effect u⟩, ⟨wrClose_line u, wrClose_effect u⟩]

end Sys2Proof.Machine
end

