-- ==== Sys2Proof/Laws/PerInstr.lean ====
section
/-! SUPPORT. Statements about every command as syntax: the fields of its word and its row of the opcode map. -/

namespace Sys2Proof.Laws.Fields

/-- The word of a command has the command's opcode and operands in its fields and RSV = 0 (30_encoding.md R91, R98),
and the command's row of the opcode map (R95), whose unused fields are 0 in that word (R92), gives the command back. -/
def Statement (i : Instr) : Prop :=
  (opField (encode i) = i.opcode ∧ rsvField (encode i) = 0 ∧ nField (encode i) = i.nOperand ∧
    valField (encode i) = i.valOperand) ∧
  ∃ r, opcodeMap.find? (fun r => r.op == i.opcode) = some r ∧ r.format.unusedZero (encode i) = true ∧
    r.command i.nOperand i.valOperand = i

/-- The first half, for every command. -/
theorem fields (i : Instr) : opField (encode i) = i.opcode ∧ rsvField (encode i) = 0 ∧
    nField (encode i) = i.nOperand ∧ valField (encode i) = i.valOperand := by
  simp [Sys2Proof.encode]

theorem getcsr (n : BitVec 6) : Statement (.getcsr n) :=
  ⟨fields _, _, rfl, by simp [Format.unusedZero, Sys2Proof.encode, Instr.opcode, Instr.nOperand, Instr.valOperand], rfl⟩

theorem rdopen : Statement .rdopen :=
  ⟨fields _, _, rfl, by simp [Format.unusedZero, Sys2Proof.encode, Instr.opcode, Instr.nOperand, Instr.valOperand], rfl⟩

theorem rdbits (n : BitVec 6) : Statement (.rdbits n) :=
  ⟨fields _, _, rfl, by simp [Format.unusedZero, Sys2Proof.encode, Instr.opcode, Instr.nOperand, Instr.valOperand], rfl⟩

theorem rdcnt : Statement .rdcnt :=
  ⟨fields _, _, rfl, by simp [Format.unusedZero, Sys2Proof.encode, Instr.opcode, Instr.nOperand, Instr.valOperand], rfl⟩

theorem rdrst : Statement .rdrst :=
  ⟨fields _, _, rfl, by simp [Format.unusedZero, Sys2Proof.encode, Instr.opcode, Instr.nOperand, Instr.valOperand], rfl⟩

theorem rdclose : Statement .rdclose :=
  ⟨fields _, _, rfl, by simp [Format.unusedZero, Sys2Proof.encode, Instr.opcode, Instr.nOperand, Instr.valOperand], rfl⟩

theorem wropen : Statement .wropen :=
  ⟨fields _, _, rfl, by simp [Format.unusedZero, Sys2Proof.encode, Instr.opcode, Instr.nOperand, Instr.valOperand], rfl⟩

theorem wrbits (n : BitVec 6) (val : BitVec 32) : Statement (.wrbits n val) :=
  ⟨fields _, _, rfl, by simp [Format.unusedZero, Sys2Proof.encode, Instr.opcode, Instr.nOperand, Instr.valOperand], rfl⟩

theorem wrcnt : Statement .wrcnt :=
  ⟨fields _, _, rfl, by simp [Format.unusedZero, Sys2Proof.encode, Instr.opcode, Instr.nOperand, Instr.valOperand], rfl⟩

theorem wrflush : Statement .wrflush :=
  ⟨fields _, _, rfl, by simp [Format.unusedZero, Sys2Proof.encode, Instr.opcode, Instr.nOperand, Instr.valOperand], rfl⟩

theorem wrclose : Statement .wrclose :=
  ⟨fields _, _, rfl, by simp [Format.unusedZero, Sys2Proof.encode, Instr.opcode, Instr.nOperand, Instr.valOperand], rfl⟩

theorem fcount : Statement .fcount :=
  ⟨fields _, _, rfl, by simp [Format.unusedZero, Sys2Proof.encode, Instr.opcode, Instr.nOperand, Instr.valOperand], rfl⟩

theorem tbuild : Statement .tbuild :=
  ⟨fields _, _, rfl, by simp [Format.unusedZero, Sys2Proof.encode, Instr.opcode, Instr.nOperand, Instr.valOperand], rfl⟩

theorem magicw : Statement .magicw :=
  ⟨fields _, _, rfl, by simp [Format.unusedZero, Sys2Proof.encode, Instr.opcode, Instr.nOperand, Instr.valOperand], rfl⟩

theorem tser : Statement .tser :=
  ⟨fields _, _, rfl, by simp [Format.unusedZero, Sys2Proof.encode, Instr.opcode, Instr.nOperand, Instr.valOperand], rfl⟩

theorem ctab : Statement .ctab :=
  ⟨fields _, _, rfl, by simp [Format.unusedZero, Sys2Proof.encode, Instr.opcode, Instr.nOperand, Instr.valOperand], rfl⟩

theorem encode : Statement .encode :=
  ⟨fields _, _, rfl, by simp [Format.unusedZero, Sys2Proof.encode, Instr.opcode, Instr.nOperand, Instr.valOperand], rfl⟩

theorem magicr : Statement .magicr :=
  ⟨fields _, _, rfl, by simp [Format.unusedZero, Sys2Proof.encode, Instr.opcode, Instr.nOperand, Instr.valOperand], rfl⟩

theorem tdes : Statement .tdes :=
  ⟨fields _, _, rfl, by simp [Format.unusedZero, Sys2Proof.encode, Instr.opcode, Instr.nOperand, Instr.valOperand], rfl⟩

theorem decode : Statement .decode :=
  ⟨fields _, _, rfl, by simp [Format.unusedZero, Sys2Proof.encode, Instr.opcode, Instr.nOperand, Instr.valOperand], rfl⟩

theorem compress : Statement .compress :=
  ⟨fields _, _, rfl, by simp [Format.unusedZero, Sys2Proof.encode, Instr.opcode, Instr.nOperand, Instr.valOperand], rfl⟩

theorem decompress : Statement .decompress :=
  ⟨fields _, _, rfl, by simp [Format.unusedZero, Sys2Proof.encode, Instr.opcode, Instr.nOperand, Instr.valOperand], rfl⟩

end Sys2Proof.Laws.Fields
end

