-- ==== Sys2Proof/Laws/Procedures.lean ====
section
/-! SUPPORT. What the whole procedures of FCOUNT, ENCODE, DECODE and MAGICR do on devices that do not fail; fresh units;
the symbols of the tree TBUILD makes. -/

namespace Sys2Proof.Machine

/-- In a list that holds some value `n` times there is a first entry that is the `n`-th of its value. -/
theorem exists_first_full {n : Nat} (hn : 0 < n) (l : List Nat) (h : ∃ v, n ≤ l.count v) :
    ∃ before y rest, l = before ++ y :: rest ∧ before.count y = n - 1 ∧ ∀ v, before.count v < n := by
  induction l using List.reverseRecOn with
  | nil =>
    obtain ⟨v, hv⟩ := h
    rw [List.count_nil] at hv; omega
  | append_singleton l a ih =>
    by_cases h' : ∃ w, n ≤ l.count w
    · obtain ⟨b, y, r, h1, h2, h3⟩ := ih h'
      exact ⟨b, y, r ++ [a], by rw [h1]; simp, h2, h3⟩
    · have hlt : ∀ w, l.count w < n := fun w => Nat.lt_of_not_le fun hc => h' ⟨w, hc⟩
      obtain ⟨v, hv⟩ := h
      have hl := hlt v
      rw [List.count_append, List.count_singleton] at hv
      by_cases hva : a = v
      · subst hva
        simp only [beq_self_eq_true, if_true] at hv
        exact ⟨l, a, [], rfl, by omega, hlt⟩
      · simp only [beq_iff_eq, hva, if_false] at hv
        omega

/-- A counting loop that completed met no full counter (42 R162), a sound source. -/
theorem fCountLoop_counts (fuel : Nat) : ∀ {s t : State}, s.srcSound → s.readerOk → fCountLoop fuel s = .ok () t →
    ∀ y : Symbol, (s.freqOf y).toNat + (octets s.undelivered).count y.val < 2 ^ 64 := by
  induction fuel with
  | zero => intro s t _ _ h; cases h
  | succ fuel ih =>
    intro s t hs hi h y
    rcases Nat.lt_or_ge s.undelivered.length 8 with h8 | h8
    · rw [octets_of_lt h8]; exact (s.freqOf y).isLt
    · obtain ⟨u, h1, f1, u1, k1, -, -⟩ := rdBits_take (n := 8) (bits := s.undelivered.take 8)
        (rest := s.undelivered.drop 8) (by omega) hs hi (List.take_append_drop _ _).symm (by simp; omega)
      obtain ⟨v, hv⟩ : ∃ v, v = ofBits (s.undelivered.take 8) := ⟨_, rfl⟩
      have hv256 : v < 256 := by
        have := ofBits_lt (s.undelivered.take 8)
        rw [List.length_take, Nat.min_eq_left h8] at this; omega
      rw [fCountLoop, h1, ok_andThen, ← hv] at h
      dsimp only at h
      split at h
      · cases h
      · rename_i hfull
        have hlt : (u.freqOf (symbolOf v)).toNat ≠ 2 ^ 64 - 1 := fun e => hfull (BitVec.eq_of_toNat_eq (by rw [e]; rfl))
        have hy := ih (s := u.setFreq (symbolOf v) (u.freqOf (symbolOf v) + 1)) (f1.srcSound hs) k1 h y
        rw [freqOf_setFreq, show (u.setFreq (symbolOf v) (u.freqOf (symbolOf v) + 1)).undelivered = u.undelivered from rfl,
          u1] at hy
        rw [octets_of_le h8, ← hv, List.count_cons]
        rw [← f1.freqOf]
        have hval : (symbolOf v).val = v := symbolOf_val (by omega)
        by_cases he : symbolOf v = y
        · subst he
          rw [if_pos rfl, BitVec.toNat_add] at hy
          have hb := (u.freqOf (symbolOf v)).isLt
          rw [show (1 : BitVec 64).toNat = 1 from rfl, Nat.mod_eq_of_lt (by omega)] at hy
          rw [hval] at hy ⊢
          simp only [beq_self_eq_true, if_true]; omega
        · rw [if_neg he] at hy
          have hne : ¬ v = y.val := fun e => he (Fin.ext (by rw [hval, e]))
          simpa [hne] using hy

/-- An FCOUNT that completed met fewer than 2^64 groups of each value (42 R162), a sound source. -/
theorem fCount_counts {s t : State} (hs : s.srcSound) (hi : s.readerOk) (h : fCount s = .ok () t) (y : Symbol) :
    (octets s.undelivered).count y.val < 2 ^ 64 := by
  obtain ⟨_, u, h1, -⟩ := andThen_eq_ok.1 h
  have := fCountLoop_counts _ (s := fCountStart s) hs hi h1 y
  have hu : (fCountStart s).undelivered = s.undelivered := rfl
  rw [hu] at this; omega

/-- `FCount()` over fewer than 2^64 groups of each value (42 R161), a sound source. -/
theorem fCount_sound {s : State} (hs : s.srcSound) (hi : s.readerOk)
    (hl : ∀ y : Symbol, (octets s.undelivered).count y.val < 2 ^ 64) :
    ∃ t, fCount s = .ok () t ∧ 
        (∀ y : Symbol, y ≠ 256 → (t.freqOf y).toNat = (octets s.undelivered).count y.val) ∧
        t.freqOf 256 = 1 ∧ t.freqValid = true ∧ t.treeValid = false ∧ t.tableValid = false ∧
        t.rd.eos = true ∧ t.undelivered = [] ∧ t.rd.isOpen = s.rd.isOpen ∧ t.readerOk ∧
        t.rd.bitsRead = s.rd.bitsRead + BitVec.ofNat 64 (8 * (octets s.undelivered).length) ∧
        t = { s with rd := t.rd, src := { s.src with pos := t.src.pos, txs := t.src.txs }, log := t.log,
                     freq := t.freq, freqValid := true, treeValid := false, tableValid := false } := by
  have hu : (fCountStart s).undelivered = s.undelivered := rfl
  have hb : (octets s.undelivered).length ≤ (fCountStart s).bitsLeft := by
    have h1 := undelivered_length_le (fCountStart s)
    rw [octets_length]; rw [hu] at h1; omega
  have hz : ∀ y, (fCountStart s).freqOf y = 0 := by
    intro y; simp [fCountStart, State.freqOf, Vector.get]
  obtain ⟨t, h1, h2, h3, h4, h5, h6, h7, h8⟩ := fCountLoop_prefix (octets s.undelivered) []
      (fuel := (fCountStart s).bitsLeft - (octets s.undelivered).length + 1) (s := fCountStart s) hs hi
      (by rw [hu]; simp) (by
    intro y; rw [hz]; simpa using hl y)
  obtain ⟨u, g1, g2, g3, g4, g5, g6⟩ := fCountLoop_end
      (fuel := (fCountStart s).bitsLeft - (octets s.undelivered).length) (h2.srcSound hs) h3 h4
  have he : (fCountStart s).bitsLeft + 1 = (fCountStart s).bitsLeft - (octets s.undelivered).length + 1 +
      (octets s.undelivered).length := by omega
  have hfr := CountFrame.trans _ _ _ h2 g2.count
  have huf : ∀ y, u.freqOf y = t.freqOf y := by intro y; unfold State.freqOf; rw [g2.1]
  refine ⟨{ u.setFreq terminator 1 with freqValid := true }, ?_, ?_, ?_, rfl, ?_, ?_, g6, g3, ?_, g4, ?_, ?_⟩
  · unfold fCount; dsimp only; rw [he, h1, g1]; rfl
  · intro y hy
    show ((u.setFreq terminator 1).freqOf y).toNat = _
    rw [freqOf_setFreq, if_neg (by intro h; exact hy h.symm), huf, h6, hz]; simp
  · show (u.setFreq terminator 1).freqOf 256 = 1
    rw [freqOf_setFreq, if_pos (by decide)]
  · simp [State.setFreq]; rw [hfr.1]; rfl
  · simp [State.setFreq]; rw [hfr.1]; rfl
  · exact hfr.2
  · show u.rd.bitsRead = _; rw [g5, h7]; rfl
  · have := hfr.1; simp only [State.setFreq]; conv_lhs => rw [this]
    rfl

/-- `Encode()` when every symbol has an entry (45 R203), sound devices. -/
theorem encodeBody_sound {s : State} (hs : s.srcSound) (hk : s.snkSound) (hi : s.readerOk) (hw : s.writerOk)
    (hc : ∀ v ∈ octets s.undelivered, s.codeOf (symbolOf v) ≠ []) (ht : s.codeOf terminator ≠ []) :
    ∃ t, encodeBody s = .ok () t ∧ CodecFrame s t ∧ t.readerOk ∧ t.writerOk ∧
        t.written = s.written ++ ((octets s.undelivered).flatMap fun v => s.codeOf (symbolOf v)) ++
          s.codeOf terminator ∧
        t.wr.bitsWritten = s.wr.bitsWritten + BitVec.ofNat 64
          (((octets s.undelivered).map fun v => (s.codeOf (symbolOf v)).length).sum +
            (s.codeOf terminator).length) ∧
        t.undelivered = [] ∧ t.rd.eos = true ∧
        t.rd.bitsRead = s.rd.bitsRead + BitVec.ofNat 64 (8 * (octets s.undelivered).length) := by
  have hb : (octets s.undelivered).length ≤ s.bitsLeft := by
    have h1 := undelivered_length_le s
    rw [octets_length]; omega
  obtain ⟨t, h1, h2, h3, h4, h5, h6, h7, h8, h9⟩ := encodeLoop_prefix (octets s.undelivered) []
      (fuel := s.bitsLeft - (octets s.undelivered).length + 1) hs hk hi hw (by simp) hc
  obtain ⟨u, g1, g2, g3, g4, g5, g6⟩ := encodeLoop_end (fuel := s.bitsLeft - (octets s.undelivered).length)
      (h2.srcSound hs) h3 h5
  have he : s.bitsLeft + 1 = s.bitsLeft - (octets s.undelivered).length + 1 + (octets s.undelivered).length := by omega
  have hcu : u.codeOf terminator = s.codeOf terminator := by rw [g2.codeOf, h2.codeOf]
  have hfr := CodecFrame.trans _ _ _ h2 g2.codec
  obtain ⟨v, k1, k2, k3, k4, k5⟩ := encodeSymbol_sound (y := terminator) (s := u) (by rw [hcu]; exact ht)
      (hfr.snkSound hk) (by unfold State.writerOk; rw [g2.wr]; exact h4)
  refine ⟨v, ?_, CodecFrame.trans _ _ _ hfr k2.codec, ?_, k4, ?_, ?_, ?_, ?_, ?_⟩
  · unfold encodeBody; rw [he, h1, g1]; exact k1
  · unfold State.readerOk; rw [k2.1]; exact g4
  · rw [k3, hcu, g2.written, h6]
  · rw [k5, hcu, g2.wr, h7]
    rw [BitVec.add_assoc]; congr 1
    exact (BitVec.ofNat_add _ _).symm
  · rw [k2.undelivered]; exact g3
  · rw [k2.1]; exact g6
  · rw [k2.1]; show u.rd.bitsRead = _; rw [g5, h8]

/-- `Decode()` on codes and a terminator (46 R223), sound devices. -/
theorem decodeBody_sound {s : State} {l r : CodeTree} (ps : List (Symbol × List Bool)) {last rest : List Bool} {ixs}
   (ht : TreeAt s.node (.node l r) s.root ixs) (hs : s.srcSound) (hk : s.snkSound) (hi : s.readerOk) (hw : s.writerOk)
   (hp : ∀ p ∈ ps, p ∈ (CodeTree.node l r).codes ∧ p.1 ≠ terminator)
       (hl : (terminator, last) ∈ (CodeTree.node l r).codes)
   (hu : s.undelivered = ps.flatMap Prod.snd ++ last ++ rest) :
      ∃ t : State, decodeBody s = .ok () t ∧ CodecFrame s t ∧
        t.written = s.written ++ (ps.flatMap fun p => toBits 8 p.1.val) ∧ t.undelivered = rest ∧
        t.wr.bitsWritten = s.wr.bitsWritten + BitVec.ofNat 64 (8 * ps.length) ∧
        t.rd.bitsRead = s.rd.bitsRead + BitVec.ofNat 64 (ps.flatMap Prod.snd ++ last).length ∧
        t.rd.eos = s.rd.eos ∧ t.readerOk ∧ t.writerOk := by
  have hb : (ps.flatMap Prod.snd ++ last).length ≤ s.bitsLeft := by
    have h1 := undelivered_length_le s
    rw [hu] at h1; simp at h1 ⊢; omega
  rw [List.length_append] at hb
  obtain ⟨t, h1, h2, h3, h4, h5, h6, h7, h8, h9⟩ := decodeLoop_codes ps
      (fuel := s.bitsLeft + 1 - (ps.flatMap Prod.snd).length) (rest := last ++ rest) ht hs hk hi hw hp
      (by rw [hu]; simp)
  have htn : t.node = s.node := by rw [h2.1]
  have htr : t.root = s.root := by rw [h2.1]
  obtain ⟨u, g1, g2, g3, g4, g5, g6⟩ := decodeLoop_code (.node l r) (l := l) (r := r)
      (fuel := s.bitsLeft + 1 - (ps.flatMap Prod.snd).length - last.length) (cur := t.root) (ixs := ixs)
      (rest := rest) rfl (by rw [htn, htr]; exact ht) (h2.srcSound hs) h3 hl h5
  rw [if_pos rfl] at g1
  have e1 : s.bitsLeft + 1 = s.bitsLeft + 1 - (ps.flatMap Prod.snd).length + (ps.flatMap Prod.snd).length := by omega
  have e2 : s.bitsLeft + 1 - (ps.flatMap Prod.snd).length = s.bitsLeft + 1 - (ps.flatMap Prod.snd).length -
      last.length + last.length := by omega
  refine ⟨u, ?_, CodecFrame.trans _ _ _ h2 g2.codec, ?_, g3, ?_, ?_, ?_, g4, ?_⟩
  · unfold decodeBody; rw [e1, h1, e2, g1]
  · rw [g2.written, h6]
  · rw [g2.wr, h7]
  · rw [g5, h8, List.length_append, BitVec.add_assoc]; congr 1; exact (BitVec.ofNat_add _ _).symm
  · rw [g6, h9]
  · unfold State.writerOk; rw [g2.wr]; exact h4

/-- `MagicR()` on the magic number (46 R221), a sound source. -/
theorem magicR_sound {s : State} {rest} (hs : s.srcSound) (hi : s.readerOk)
    (hu : s.undelivered = toBits 32 s.magic.toNat ++ rest) :
  ∃ t, magicR s = .ok () t ∧ ReadFrame s t ∧ t.undelivered = rest ∧ t.readerOk ∧ t.rd.bitsRead = s.rd.bitsRead + 32 ∧
      t.rd.eos = s.rd.eos := by
  obtain ⟨t, h1, h2, h3, h4, h5, h6⟩ := rdBits_take (n := 32) (by omega) hs hi hu (by simp)
  refine ⟨t, ?_, h2, h3, h4, h5, h6⟩
  unfold magicR; rw [h1]; simp only [ok_andThen]
  have hm : t.magic = s.magic := by rw [h2.1]
  rw [ofBits_toBits, Nat.mod_eq_of_lt s.magic.isLt, BitVec.ofNat_toNat, hm]; simp

theorem freshReader_undelivered {s : State} (h : s.freshReader) : s.undelivered = bytesBits s.src.content := by
  obtain ⟨h1, h2, h3, h4, h5, h6, h7, h8⟩ := h
  simp [State.undelivered, Reader.accBits, h4, h5, h6, h7, h8]

theorem freshReader_ok {s : State} (h : s.freshReader) : s.readerOk := by
  obtain ⟨h1, h2, h3, h4, h5, h6, h7, h8⟩ := h
  simp [State.readerOk, h6, h7]

theorem freshWriter_ok {s : State} (h : s.freshWriter) : s.writerOk ∧ s.written = [] := by
  obtain ⟨h1, h2, h3, h4, h5⟩ := h
  simp [State.writerOk, State.written, Writer.accBits, h3, h4, h5]

/-- The symbols that get a leaf (43 R172, R173). -/
theorem mem_expectedLeaves {freq : Vector (BitVec 64) 257} (h : freq.get terminator = 1) (y : Symbol) :
   y ∈ (expectedLeaves freq).map Prod.fst ↔ freq.get y ≠ 0 ∨ ((∀ z, z ≠ terminator → freq.get z = 0) ∧ y = 0) := by
  unfold expectedLeaves
  have hm : terminator ∈ counted freq := mem_counted.2 (by rw [h]; decide)
  split
  · rename_i h1
    obtain ⟨z, hz⟩ := List.length_eq_one_iff.1 h1
    have hz' : z = terminator := by rw [hz] at hm; simp at hm; exact hm.symm
    subst hz'
    have hz0 : ∀ z, z ≠ terminator → freq.get z = 0 := by
      intro z hne
      by_contra hc
      have : z ∈ counted freq := mem_counted.2 hc
      rw [hz] at this; simp at this; exact hne this
    constructor
    · intro hy; simp at hy
      rcases hy with rfl | rfl
      · exact Or.inr ⟨hz0, rfl⟩
      · left; rw [h]; decide
    · rintro (hy | ⟨-, rfl⟩)
      · have : y = terminator := by by_contra hc; exact hy (hz0 y hc)
        simp [this]
      · simp
  · rename_i h1
    simp only [List.map_map]
    rw
        [show ((Prod.fst : Symbol × Nat → Symbol) ∘ fun y => (y, (freq.get y).toNat)) = id from rfl, List.map_id, mem_counted]
    constructor
    · exact Or.inl
    · rintro (hy | ⟨hz, rfl⟩)
      · exact hy
      · exfalso; apply h1
        have : counted freq = [terminator] := by
          have hnd : (counted freq).Nodup := (List.nodup_finRange 257).filter _
          have hall : ∀ z ∈ counted freq, z = terminator := by
            intro z hzz; by_contra hc; exact (mem_counted.1 hzz) (hz z hc)
          rcases hcf : counted freq with _ | ⟨a, as⟩
          · rw [hcf] at hm; simp at hm
          · rw [hcf] at hnd hall
            have ha := hall a (by simp)
            subst ha
            cases as with
            | nil => rfl
            | cons b bs => exfalso; have := hall b (by simp); subst this; simp at hnd
        rw [this]; rfl

theorem expectedLeaves_nodup (freq : Vector (BitVec 64) 257) : ((expectedLeaves freq).map Prod.fst).Nodup := by
  unfold expectedLeaves
  split
  · simp; decide
  · simp only [List.map_map]
    rw [show ((Prod.fst : Symbol × Nat → Symbol) ∘ fun y => (y, (freq.get y).toNat)) = id from rfl, List.map_id]
    exact (List.nodup_finRange 257).filter _

end Sys2Proof.Machine
end

