-- ==== Sys2Proof/Tests/Slice0.lean ====
section
/-! SUPPORT. Tests. The words are written out from 30_encoding.md R91, R95; the expected results are the vectors of
95_test_vectors.md, or follow by hand from the rule named. The theorems named witness_ show a concrete state and
    operands
that meet the hypotheses of the statement of that name. -/

namespace Sys2Proof.Tests

-- One theorem after the other: so many kernel evaluations at once take more threads than the memory limit allows.
set_option Elab.async false

open Sys2Proof Sys2Proof.Machine

/-! ### Helpers -/

def bytes (l : List Nat) : List Byte := l.map (BitVec.ofNat 8)

/-- The state after RDOPEN and WROPEN of a run over `src`, but for the log and the counts of transactions. -/
def opened (src : List Nat) : State :=
  { State.reset with
    rd := { State.reset.rd with isOpen := true }
    wr := { State.reset.wr with isOpen := true }
    src := { State.reset.src with content := bytes src } }

/-- The next transaction of each device fails. -/
def failing (s : State) : State :=
  { s with src := { s.src with failAt := some s.src.txs }, snk := { s.snk with failAt := some s.snk.txs } }

/-- The tree of SRC = 41, as TBUILD leaves it (95_test_vectors.md 2.7). -/
def withTree (s : State) : State :=
  { s with
    node := (((Vector.replicate 513 (.leaf none 0)).set 0 (.leaf (some 0x41) 1)).set 1 (.leaf (some 256) 1)).set 2
      (.internal 2 0 1)
    nodeCnt := 3
    root := 2
    treeValid := true }

/-- Its encoding table (95 2.9). -/
def withTable (s : State) : State :=
  { s with code := ((Vector.replicate 257 []).set 0x41 [false]).set 256 [true], tableValid := true }

/-- The counts of SRC = 41 (95 2.6). -/
def withFreq (s : State) : State :=
  { s with freq := ((Vector.replicate 257 0).set 0x41 1).set 256 1, freqValid := true }

/-- A core halted by TBUILD without counts (95 2.2). -/
def haltedState : State := { State.reset with err := 0x313156 }

def smallTree : CodeTree := .node (.leaf 0x41) (.leaf 256)

/-- The tree of SRC = 41 42. -/
def tree3 : CodeTree := .node (.leaf 256) (.node (.leaf 0x41) (.leaf 0x42))

/-- The answer is a next state with the given property. -/
def after (a : Answer) (p : State → Bool) : Bool :=
  match a with
  | .next t => p t
  | .fault _ => false
  | .refused _ => false

theorem after_next {a : Answer} {p : State → Bool} (h : after a p = true) : ∃ t, a = .next t ∧ p t = true := by
  cases a <;> simp_all [after]

/-- The response is (OK, EOS, DATA). -/
def answers (ok eos : Bool) (data : BitVec 64) (t : State) : Bool := t.rsp == some (packResponse ok eos data)

/-- The command completed with EOS = 0, DATA = 0. -/
def okay (t : State) : Bool := answers true false 0 t

theorem okay_completed {t : State} (h : okay t = true) : t.completed := ⟨false, 0, by simpa [okay, answers] using h⟩

theorem withTree_holds (s : State) : (withTree s).holdsTree smallTree := by
  refine ⟨⟨_, _, rfl⟩, [2, 0, 1], ?_, by decide, ?_⟩
  · exact ⟨2, 0, 1, [0], [1], rfl, ⟨rfl, 1, rfl⟩, ⟨rfl, 1, rfl⟩, rfl⟩
  · intro i
    show i ∈ [2, 0, 1] ↔ i.val < 3
    revert i
    decide +kernel

/-! ### WellFormed and decoding -/

theorem test_wellFormed_csr6 : (Instr.getcsr 6).wellFormed = true := by decide
theorem test_wellFormed_csr7_refused : (Instr.getcsr 7).wellFormed = false := by decide
theorem test_wellFormed_rdbits0 : (Instr.rdbits 0).wellFormed = true := by decide

theorem test_decode_getcsr : decode 0x010600000000 = .command (.getcsr 6) := by decide
theorem test_decode_rdopen : decode 0x100000000000 = .command .rdopen := by decide
theorem test_decode_rdbits : decode 0x112000000000 = .command (.rdbits 32) := by decide
theorem test_decode_rdbits63 : decode 0x113F00000000 = .command (.rdbits 63) := by decide
theorem test_decode_rdcnt : decode 0x120000000000 = .command .rdcnt := by decide
theorem test_decode_rdrst : decode 0x130000000000 = .command .rdrst := by decide
theorem test_decode_rdclose : decode 0x140000000000 = .command .rdclose := by decide
theorem test_decode_wropen : decode 0x200000000000 = .command .wropen := by decide
theorem test_decode_wrbits : decode 0x2104FFFFFFFA = .command (.wrbits 4 0xFFFFFFFA) := by decide
theorem test_decode_wrcnt : decode 0x220000000000 = .command .wrcnt := by decide
theorem test_decode_wrflush : decode 0x230000000000 = .command .wrflush := by decide
theorem test_decode_wrclose : decode 0x240000000000 = .command .wrclose := by decide
theorem test_decode_fcount : decode 0x300000000000 = .command .fcount := by decide
theorem test_decode_tbuild : decode 0x310000000000 = .command .tbuild := by decide
theorem test_decode_magicw : decode 0x320000000000 = .command .magicw := by decide
theorem test_decode_tser : decode 0x330000000000 = .command .tser := by decide
theorem test_decode_ctab : decode 0x340000000000 = .command .ctab := by decide
theorem test_decode_encode : decode 0x350000000000 = .command .encode := by decide
theorem test_decode_magicr : decode 0x400000000000 = .command .magicr := by decide
theorem test_decode_tdes : decode 0x410000000000 = .command .tdes := by decide
theorem test_decode_decode : decode 0x420000000000 = .command .decode := by decide
theorem test_decode_compress : decode 0x500000000000 = .command .compress := by decide
theorem test_decode_decompress : decode 0x510000000000 = .command .decompress := by decide
theorem test_decode_illegal_op00 : decode 0x000000000000 = .illegal 1 := by decide
theorem test_decode_illegal_op15 : decode 0x150000000000 = .illegal 1 := by decide
theorem test_decode_illegal_opFF : decode 0xFFFFFFFFFFFF = .illegal 1 := by decide
theorem test_decode_illegal_compress_n : decode 0x500100000000 = .illegal 2 := by decide
theorem test_decode_illegal_rdopen_val : decode 0x100000000001 = .illegal 2 := by decide
theorem test_decode_illegal_rdbits_rsv : decode 0x114800000000 = .illegal 2 := by decide
theorem test_decode_illegal_rdbits_val : decode 0x110800000001 = .illegal 2 := by decide
theorem test_decode_illegal_wrbits_rsv : decode 0x218100000000 = .illegal 2 := by decide
theorem test_decode_illegal_csr7 : decode 0x010700000000 = .illegal 3 := by decide
theorem test_decodeTableWord : decodeTableWord 48 0x210300000005 = some (.wrbits 3 5) := by decide
theorem test_encode_wrbits : encode (.wrbits 32 0xDEADBEEF) = 0x2120DEADBEEF := by decide
theorem test_withFetchWord :
    after (step (State.reset.withFetchWord 48 0x010000000000)) (answers true false 0x4855464600000007) = true := by
  decide +kernel

/-! ### One step of each command -/

theorem test_getcsr_halted_status :
    after (exec (.getcsr 1) haltedState)
      (answers true false 0x40) = true := by
  decide +kernel

theorem test_getcsr_treeinfo :
    after (exec (.getcsr 5) (withTree State.reset))
      (answers true false 0x20003) = true := by
  decide +kernel

theorem test_rdopen :
    after (exec .rdopen State.reset)
      (fun t => okay t && t.rd.isOpen && t.log == [.srcOpen .ok]) = true := by
  decide +kernel

theorem test_rdopen_twice :
    after (exec .rdopen (opened []))
      (answers false false 0x101036) = true := by
  decide +kernel

theorem test_rdbits_first :
    after (exec (.rdbits 20) (opened [0xA5, 0x3C, 0xFF]))
      (fun t => answers true false 0xA53CF t && t.rd.bitsRead == 20 && t.rd.accCnt == 4) = true := by
  decide +kernel

/-- 4 bits of the first load of RD_ACC and 4 of the second (95 2.4, row 6). -/
theorem test_rdbits_across_loads :
    after (exec (.rdbits 8)
        { opened [] with rd :=
          { (opened []).rd with acc := 0x0123456789ABCDEF, accCnt := 4, bitsRead := 60,
                                blk := bytes [0x01, 0x23, 0x45, 0x67, 0x89, 0xAB, 0xCD, 0xEF, 0x5A], blkIdx := 8 } })
      (fun t => answers true false 0xF5 t && t.rd.accCnt == 4 && t.rd.blkIdx == 9 && t.rd.bitsRead == 68) = true := by
  decide +kernel

theorem test_rdcnt :
    after (exec .rdcnt { opened [] with rd := { (opened []).rd with bitsRead := 45 } })
      (answers true false 45) = true := by
  decide +kernel

theorem test_rdrst :
    after (exec .rdrst { opened [0xA5] with rd := { (opened []).rd with eos := true, srcEnd := true, bitsRead := 8 } })
      (fun t => okay t && !t.rd.eos && !t.rd.srcEnd && t.rd.bitsRead == 0 && t.log == [.srcRewind .ok]) = true := by
  decide +kernel

theorem test_rdrst_fails :
    after (exec .rdrst (failing (opened [])))
      (answers false false 0x131335) = true := by
  decide +kernel

theorem test_rdclose_keeps_count :
    after (exec .rdclose { opened [] with rd := { (opened []).rd with bitsRead := 3 } })
      (fun t => okay t && !t.rd.isOpen && t.rd.bitsRead == 3 && t.log == [.srcRelease]) = true := by
  decide +kernel

theorem test_wropen :
    after (exec .wropen State.reset)
      (fun t => okay t && t.wr.isOpen && t.log == [.snkOpen .ok]) = true := by
  decide +kernel

theorem test_wropen_fails :
    after (exec .wropen (failing State.reset))
      (fun t => answers false false 0x202045 t && !t.wr.isOpen) = true := by
  decide +kernel

/-- The write that fills WR_ACC (95 2.5, row 6). -/
theorem test_wrbits_fills_accumulator :
    after (exec (.wrbits 8 0xFF)
        { opened [] with wr := { (opened []).wr with acc := 0x0FFFFFFFC0000000, accCnt := 60, bitsWritten := 60 } })
      (fun t => okay t && t.wr.blk == bytes [0xFF, 0xFF, 0xFF, 0xFC, 0x00, 0x00, 0x00, 0x0F] && t.wr.accCnt == 4 &&
        t.wr.accBits == [true, true, true, true] && t.wr.bitsWritten == 68) = true := by
  decide +kernel

theorem test_wrbits_argument :
    after (exec (.wrbits 40 0) State.reset)
      (answers false false 0x2800212121) = true := by
  decide +kernel

theorem test_wrcnt :
    after (exec .wrcnt { opened [] with wr := { (opened []).wr with bitsWritten := 65 } })
      (answers true false 65) = true := by
  decide +kernel

theorem test_wrflush :
    after (exec .wrflush { opened [] with wr := { (opened []).wr with acc := 5, accCnt := 3, bitsWritten := 3 } })
      (fun t => okay t && t.snk.content == bytes [0xA0] && t.wr.accCnt == 0 && t.wr.bitsWritten == 3) = true := by
  decide +kernel

theorem test_wrclose :
    after (exec .wrclose { opened [] with wr := { (opened []).wr with acc := 0x1601BD5B7DDF, accCnt := 45 } })
      (fun t => okay t && t.snk.content == bytes [0xB0, 0x0D, 0xEA, 0xDB, 0xEE, 0xF8] && !t.wr.isOpen) = true := by
  decide +kernel

theorem test_wrclose_nothing_pending :
    after (exec .wrclose (opened []))
      (fun t => okay t && t.log == [.snkRelease] && !t.wr.isOpen) = true := by
  decide +kernel

theorem test_fcount_misaligned :
    after (exec .fcount { opened [] with rd := { (opened []).rd with acc := 0x53CFF, accCnt := 20, srcEnd := true } })
      (fun t => okay t && t.freqOf 0x53 == 1 && t.freqOf 0xCF == 1 && t.freqOf 0xFF == 0 && t.freqOf 256 == 1 && t.rd.eos) = true := by
  decide +kernel

theorem test_fcount_repeated :
    after (exec .fcount (opened [0x41, 0x41, 0x41, 0x41]))
      (fun t => okay t && t.freqOf 0x41 == 4 && t.freqOf 256 == 1 && t.rd.bitsRead == 32 && t.status == 0x0F) = true
      := by
  decide +kernel

theorem test_tbuild_empty :
    after (exec .tbuild { State.reset with freq := (Vector.replicate 257 0).set 256 1, freqValid := true })
      (fun t => okay t && t.nodeAt 0 == .leaf (some 0) 0 && t.nodeAt 2 == .internal 1 0 1 && t.treeInfo == 0x20003) =
      true := by
  decide +kernel

theorem test_tbuild_tie :
    after
        (exec .tbuild { State.reset with freq := (((Vector.replicate 257 0).set 0x41 1).set 0x42 1).set 256 1, freqValid := true })
      (fun t => okay t && t.nodeAt 3 == .internal 2 0 1 && t.nodeAt 4 == .internal 3 2 3 && t.treeInfo == 0x40005) =
      true := by
  decide +kernel

theorem test_magicw :
    after (exec .magicw (opened []))
      (fun t => okay t && t.wr.accBits == toBits 32 0xFACE8201 && t.wr.accCnt == 32 && t.wr.bitsWritten == 32) = true
      := by
  decide +kernel

theorem test_tser :
    after (exec .tser (withTree (opened [])))
      (fun t => okay t && t.wr.accBits == toBits 21 0x90700 && t.wr.accCnt == 21) = true := by
  decide +kernel

theorem test_tser_no_tree :
    after (exec .tser (opened []))
      (answers false false 0x333366) = true := by
  decide +kernel

theorem test_ctab :
    after (exec .ctab (withTree State.reset))
      (fun t => okay t && t.codeOf 0x41 == [false] && t.codeOf 256 == [true] && t.codeOf 0 == [] && t.tableValid) =
      true := by
  decide +kernel

theorem test_ctab_no_tree :
    after (exec .ctab State.reset)
      (answers false false 0x343466) = true := by
  decide +kernel

theorem test_encode :
    after (exec .encode (withTable (opened [0x41])))
      (fun t => okay t && t.wr.accBits == [false, true] && t.rd.bitsRead == 8 && t.rd.eos) = true := by
  decide +kernel

theorem test_encode_no_entry :
    after (exec .encode (withTable (opened [0x41, 0x43])))
      (fun t => answers false false 0x4300353524 t && t.wr.accBits == [false]) = true := by
  decide +kernel

theorem test_magicr :
    after (exec .magicr (opened [0xFA, 0xCE, 0x82, 0x01, 0x40]))
      (fun t => okay t && t.rd.bitsRead == 32) = true := by
  decide +kernel

theorem test_magicr_other :
    after (exec .magicr (opened [0xFA, 0xCE, 0x82, 0x00]))
      (answers false false 0xFACE820000404012) = true := by
  decide +kernel

theorem test_tdes :
    after (exec .tdes (opened [0x60, 0x09, 0x06, 0x42]))
      (fun t => okay t && t.nodeAt 0 == .internal 0 1 2 && t.nodeAt 1 == .leaf (some 256) 0 && t.nodeAt 4 == .leaf (some 0x42) 0 && t.treeInfo == 5) = true := by
  decide +kernel

theorem test_tdes_one_leaf :
    after (exec .tdes (opened [0x90, 0x40]))
      (fun t => answers false false 0x4100414153 t && !t.treeValid) = true := by
  decide +kernel

theorem test_decode :
    after (exec .decode (withTree (opened [0x20])))
      (fun t => okay t && t.wr.accBits == toBits 16 0x4141 && t.rd.bitsRead == 3 && !t.rd.eos) = true := by
  decide +kernel

theorem test_decode_no_terminator :
    after (exec .decode (withTree (opened [0x00])))
      (answers false false 0x424223) = true := by
  decide +kernel

theorem test_compress_two_bytes :
    after (exec .compress (opened [0x41, 0x42]))
      (fun t => okay t && t.snk.content == bytes [0xFA, 0xCE, 0x82, 0x01, 0x60, 0x09, 0x06, 0x42, 0xB0] && t.wr.bitsWritten == 69 && t.status == 0x03) = true := by
  decide +kernel

theorem test_compress_abracadabra :
    after (exec .compress (opened [0x41, 0x42, 0x52, 0x41, 0x43, 0x41, 0x44, 0x41, 0x42, 0x52, 0x41]))
      (fun t => okay t && t.snk.content == bytes [0xFA, 0xCE, 0x82, 0x01, 0x48, 0x26, 0x01, 0x21, 0x25, 0x24, 0x87, 0x22, 0x2E, 0x73, 0xD7, 0x20]) = true := by
  decide +kernel

theorem test_decompress_repeated_symbol :
    after (exec .decompress (opened [0xFA, 0xCE, 0x82, 0x01, 0x48, 0x29, 0x07, 0x00, 0x4C]))
      (fun t => okay t && t.snk.content == bytes [0x41, 0x41, 0x41] && t.rd.bitsRead == 70 && t.status == 0x01) =
      true := by
  decide +kernel

theorem test_decompress_symbol_257 :
    after (exec .decompress (opened [0xFA, 0xCE, 0x82, 0x01, 0x60, 0x38, 0x04]))
      (fun t => answers false false 0x10100514133 t && t.rd.bitsRead == 43 && t.wr.isOpen) = true := by
  decide +kernel

theorem test_reset_during_compress :
    after (step { opened [0x41] with host := [.commandCutByReset 0x500000000000 3 ⟨none, none⟩] })
      (fun t => t.rsp == none && t.err == 0 && !t.rd.isOpen && t.src.pos == 0 && t.snk.content == [] &&
        t.log == [.srcFetch 8192 (.bytes [0x41]), .srcFetch 8192 .endOfSource, .srcRewind .ok]) = true := by
  decide +kernel

/-! ### Witnesses of the statements' hypotheses -/

theorem witness_DecodeOfEncodeIsTheCommand : (Instr.getcsr 6).wellFormed = true ∧
    (Instr.wrbits 63 0xFFFFFFFF).wellFormed = true := by
  decide

theorem witness_EncodeOfDecodeIsTheWord : decode 0x21203FFFFFFF = .command (.wrbits 32 0x3FFFFFFF) := by decide

theorem witness_DecodingIsMaskAndMatch :
    decode 0x010600000000 = .command (.getcsr 6) ∧ decode 0x520000000000 = .illegal 1 ∧
      decode 0x200000000001 = .illegal 2 ∧ decode 0x013F00000000 = .illegal 3 := by decide

theorem witness_StepRunsTheIssuedCommand :
    ({ State.reset with host := [.command 0x010600000000] } : State).host = .command 0x010600000000 :: [] ∧
      decode 0x010600000000 = .command (.getcsr 6) := by decide

theorem witness_StepIdlesOrRaisesIllegal :
    State.reset.host = [] ∧
      ({ State.reset with host := [.command 0x010700000000] } : State).host = .command 0x010700000000 :: [] ∧
      decode 0x010700000000 = .illegal 3 ∧ State.reset.halted = false := by decide

theorem witness_HaltedCoreRefusesAllButFive :
    haltedState.halted = true ∧ decode 0x100000000000 = .command .rdopen ∧ decode 0 = .illegal 1 ∧
      decode 0x010000000000 = .command (.getcsr 0) ∧ decode 0x120000000000 = .command .rdcnt ∧
      decode 0x220000000000 = .command .wrcnt ∧ decode 0x140000000000 = .command .rdclose ∧
      decode 0x240000000000 = .command .wrclose := by decide

theorem witness_OnlyBitCountsOutOfRangeRaiseArgument :
    State.reset.halted = false ∧ ((0 : BitVec 6).toNat = 0 ∨ 32 < (0 : BitVec 6).toNat) ∧
      ((33 : BitVec 6).toNat = 0 ∨ 32 < (33 : BitVec 6).toNat) ∧
      ∃ t, exec (.wrbits 33 0) State.reset = .next t ∧ errCode t.err = 1 := by
  refine ⟨by decide, by decide, by decide, ?_⟩
  obtain ⟨t, h, hp⟩ := after_next (p := fun t => errCode t.err == 1)
    (show after (exec (.wrbits 33 0) State.reset) (fun t => errCode t.err == 1) = true by decide +kernel)
  exact ⟨t, h, by simpa using hp⟩

/-- The second precondition of ENCODE fails, and a command whose preconditions hold. -/
theorem witness_FirstFailingPreconditionRaisesSequence :
    (withTable { opened [] with wr := State.reset.wr }).halted = false ∧
      ((withTable { opened [] with wr := State.reset.wr }).preconditions .encode).find? (fun p => !p.1) =
        some (false, 2) ∧
      (∀ n : BitVec 6, (Instr.encode = .rdbits n ∨ ∃ v, Instr.encode = .wrbits n v) → 1 ≤ n.toNat ∧ n.toNat ≤ 32) ∧
      (∀ n : BitVec 6, (Instr.rdbits 32 = .rdbits n ∨ ∃ v, Instr.rdbits 32 = .wrbits n v) →
        1 ≤ n.toNat ∧ n.toNat ≤ 32) ∧
      (∀ p ∈ (opened []).preconditions (.rdbits 32), p.1 = true) ∧ ∃ t, exec (.rdbits 32) (opened []) = .next t := by
  refine ⟨by decide +kernel, by decide +kernel, by simp, by simp, by decide +kernel, ?_⟩
  obtain ⟨t, h, -⟩ := after_next (p := fun _ => true)
    (show after (exec (.rdbits 32) (opened [])) (fun _ => true) = true by decide +kernel)
  exact ⟨t, h⟩

theorem witness_ErrRecordsAListedCause :
    (opened [0xFA]).halted = false ∧ ∃ t, exec .decompress (opened [0xFA]) = .next t ∧ errCode t.err ≠ 0 := by
  refine ⟨by decide, ?_⟩
  obtain ⟨t, h, hp⟩ := after_next (p := fun t => errCode t.err != 0)
    (show after (exec .decompress (opened [0xFA])) (fun t => errCode t.err != 0) = true by decide +kernel)
  exact ⟨t, h, by simpa using hp⟩

theorem witness_OnlyResetLeavesTheHaltedState :
    haltedState.halted = true ∧ (∃ t, step haltedState = .next t) ∧
        (∀ plan rest, haltedState.host ≠ .reset plan :: rest) ∧
      ∀ w k plan rest, haltedState.host ≠ .commandCutByReset w k plan :: rest :=
  ⟨by decide, ⟨_, rfl⟩, fun _ _ => by simp [haltedState, State.reset], fun _ _ _ _ => by simp [haltedState, State.reset]⟩

/-- A command that completes, one at the end of the stream, and one that raises. -/
theorem witness_EveryCommandAnswers :
    (∃ t, exec .rdopen State.reset = .next t) ∧ (∃ t, exec (.rdbits 1) (opened []) = .next t) ∧
      ∃ t, exec .tbuild State.reset = .next t := by
  refine ⟨?_, ?_, ?_⟩
  · obtain ⟨t, h, -⟩ := after_next (p := fun _ => true)
      (show after (exec .rdopen State.reset) (fun _ => true) = true by decide +kernel)
    exact ⟨t, h⟩
  · obtain ⟨t, h, -⟩ := after_next (p := fun _ => true)
      (show after (exec (.rdbits 1) (opened [])) (fun _ => true) = true by decide +kernel)
    exact ⟨t, h⟩
  · obtain ⟨t, h, -⟩ := after_next (p := fun _ => true)
      (show after (exec .tbuild State.reset) (fun _ => true) = true by decide +kernel)
    exact ⟨t, h⟩

theorem witness_GetcsrAnswersTheRegister : (6 : BitVec 6).toNat ≤ 6 ∧ (withTree State.reset).nodeCnt ≤ 513 := by
  decide +kernel

theorem witness_RdopenOpensAFreshReader :
    State.reset.halted = false ∧ State.reset.rd.isOpen = false ∧ State.reset.srcFails = false ∧
      (failing State.reset).halted = false ∧ (failing State.reset).rd.isOpen = false ∧
      (failing State.reset).srcFails = true := by decide

theorem witness_RdrstRewindsToAFreshReader :
    (opened [1]).halted = false ∧ (opened [1]).rd.isOpen = true ∧ (opened [1]).srcFails = false ∧
      (failing (opened [1])).halted = false ∧ (failing (opened [1])).rd.isOpen = true ∧
      (failing (opened [1])).srcFails = true := by decide

/-- Exactly 32 bits left, and 31 asked of 24. -/
theorem witness_RdbitsDeliversTheNextBitsOrEos :
    (opened [1, 2, 3, 4]).halted = false ∧ (opened [1, 2, 3, 4]).rd.isOpen = true ∧ (opened [1, 2, 3, 4]).srcSound ∧
      (opened [1, 2, 3, 4]).readerOk ∧ (32 : BitVec 6).toNat ≤ (opened [1, 2, 3, 4]).undelivered.length ∧
      (opened [1, 2, 3]).halted = false ∧ (opened [1, 2, 3]).rd.isOpen = true ∧ (opened [1, 2, 3]).srcSound ∧
      (opened [1, 2, 3]).readerOk ∧ (opened [1, 2, 3]).undelivered.length < (31 : BitVec 6).toNat := by
  unfold State.srcSound State.readerOk; decide +kernel

/-- Three bits in RD_ACC and one byte in RD_BLK; the transaction number `fails` fails. -/
def shortReader (src : List Nat) (fails : Nat) : State :=
  { opened src with
    rd := { (opened src).rd with acc := 5, accCnt := 3, blk := [1, 2], blkIdx := 1 }
    src := { (opened src).src with failAt := some fails } }

/-- The first fetch fails, with something held and with nothing; and the second does, after one of the last two bytes. -/
theorem witness_RdbitsRaisesResourceOnAFailedFetch :
    ((shortReader [] 0).halted = false ∧ (shortReader [] 0).rd.isOpen = true ∧ (shortReader [] 0).readerOk ∧
        (shortReader [] 0).rd.srcEnd = false ∧
        (shortReader [] 0).rd.accCnt + 8 * ((shortReader [] 0).rd.blk.length - (shortReader [] 0).rd.blkIdx) <
          (12 : BitVec 6).toNat ∧ (shortReader [] 0).srcFails = true) ∧
      ((failing (opened [])).readerOk ∧ 0 + 8 * (0 - 0) < (1 : BitVec 6).toNat ∧
        (failing (opened [])).rd.srcEnd = false ∧ (failing (opened [])).srcFails = true) ∧
      (shortReader [7, 9] 1).readerOk ∧
        bytes [7, 9] = (shortReader [7, 9] 1).src.content.drop (shortReader [7, 9] 1).src.pos ∧ bytes [7, 9] ≠ [] ∧
        (shortReader [7, 9] 1).rd.accCnt +
          8 * ((shortReader [7, 9] 1).rd.blk.length - (shortReader [7, 9] 1).rd.blkIdx) + 8 * (bytes [7, 9]).length <
            (28 : BitVec 6).toNat ∧
        (shortReader [7, 9] 1).srcFails = false ∧
        ((shortReader [7, 9] 1).transact (.srcFetch 8192 (.bytes (bytes [7, 9])))).srcFails = true := by
  unfold State.readerOk; decide +kernel

theorem witness_RdcloseReleasesTheSource : (opened []).rd.isOpen = true ∧ State.reset.rd.isOpen = false := by decide

theorem witness_NoFetchAfterEnd :
    ∃ t, exec .fcount { opened [] with rd := { (opened []).rd with srcEnd := true } } = .next t := by
  obtain ⟨t, h, -⟩ := after_next (p := fun _ => true)
    (show after (exec .fcount { opened [] with rd := { (opened []).rd with srcEnd := true } }) (fun _ => true) = true by
      decide +kernel)
  exact ⟨t, h⟩

theorem witness_WropenOpensAFreshWriter :
    State.reset.halted = false ∧ State.reset.wr.isOpen = false ∧ State.reset.snkFails = false ∧
      (failing State.reset).snkFails = true := by decide

/-- The writer at its fullest. -/
def fullWriter : State :=
  { opened [] with wr := { (opened []).wr with acc := 0x7FFFFFFFFFFFFFFF, accCnt := 63, blk := List.replicate 8184 0 } }

theorem witness_WrbitsAppendsTheLowBits :
    fullWriter.halted = false ∧ fullWriter.wr.isOpen = true ∧ fullWriter.snkSound ∧ fullWriter.writerOk ∧
      1 ≤ (32 : BitVec 6).toNat ∧ (32 : BitVec 6).toNat ≤ 32 := by
  unfold State.snkSound State.writerOk
  have h : fullWriter.wr.blk.length = 8184 := List.length_replicate
  exact ⟨by decide, rfl, rfl, ⟨by decide, by rw [h], by rw [h]⟩, by decide, by decide⟩

theorem witness_WrbitsRaisesResourceOnAFailedPut :
    (failing fullWriter).halted = false ∧ (failing fullWriter).wr.isOpen = true ∧ (failing fullWriter).writerOk ∧
      1 ≤ (1 : BitVec 6).toNat ∧ (1 : BitVec 6).toNat ≤ 32 ∧
      64 ≤ (failing fullWriter).wr.accCnt + (1 : BitVec 6).toNat ∧ (failing fullWriter).wr.blk.length = 8184 ∧
      (failing fullWriter).snkFails = true := by
  unfold State.writerOk
  have h : (failing fullWriter).wr.blk.length = 8184 := List.length_replicate
  exact ⟨by decide, rfl, ⟨by decide, by rw [h], by rw [h]⟩, by decide, by decide, by decide, h, by decide⟩

/-- Bits pending, and nothing pending. -/
theorem witness_WrflushPadsAndPutsEverything :
    fullWriter.halted = false ∧ fullWriter.wr.isOpen = true ∧ fullWriter.snkSound ∧ fullWriter.writerOk ∧
      (opened []).halted = false ∧ (opened []).wr.isOpen = true ∧ (opened []).snkSound ∧ (opened []).writerOk ∧
      (opened []).wr.accCnt = 0 ∧ (opened []).wr.blk = [] := by
  have h := witness_WrbitsAppendsTheLowBits
  refine ⟨h.1, h.2.1, h.2.2.1, h.2.2.2.1, by decide, rfl, rfl, ?_, rfl, rfl⟩
  unfold State.writerOk; decide

theorem witness_WrcloseFlushesAndReleases :
    fullWriter.wr.isOpen = true ∧ fullWriter.snkSound ∧ fullWriter.writerOk ∧ State.reset.wr.isOpen = false := by
  have h := witness_WrbitsAppendsTheLowBits
  exact ⟨h.2.1, h.2.2.1, h.2.2.2.1, rfl⟩

/-- Not halted, and halted. -/
theorem witness_WrcloseReleasesEvenWhenTheFlushFails :
    (failing fullWriter).wr.isOpen = true ∧
      (0 < (failing fullWriter).wr.accCnt ∨ (failing fullWriter).wr.blk ≠ []) ∧
      (failing fullWriter).snkFails = true ∧ (failing fullWriter).halted = false ∧
      ({ failing fullWriter with err := 0x313156 } : State).halted = true ∧
      ({ failing fullWriter with err := 0x313156 } : State).snkFails = true :=
  ⟨rfl, Or.inl (by decide), by decide, by decide, by decide, by decide⟩

theorem witness_SinkGrowsByWholeBlocksOutsideAFlush :
    fullWriter.snkSound ∧ ∃ t, exec (.wrbits 1 1) fullWriter = .next t := by
  refine ⟨rfl, ?_⟩
  obtain ⟨t, h, -⟩ := after_next (p := fun _ => true)
    (show after (exec (.wrbits 1 1) fullWriter) (fun _ => true) = true by decide +kernel)
  exact ⟨t, h⟩

theorem witness_FcountCountsEveryByte :
    (opened [1, 2]).halted = false ∧ (opened [1, 2]).rd.isOpen = true ∧ (opened [1, 2]).srcSound ∧
      (opened [1, 2]).readerOk ∧ (∀ v, (octets (opened [1, 2]).undelivered).count v < 2 ^ 64) ∧ (255 : Symbol) ≠ 256 := by
  refine ⟨by decide, rfl, rfl, Nat.le_refl 0, fun v => Nat.lt_of_le_of_lt List.count_le_length ?_, by decide⟩
  decide +kernel

/-- A source of `n` zero bytes. -/
def zeros (n : Nat) : State := { opened [] with src := { (opened []).src with content := List.replicate n 0 } }

theorem zeros_groups (n : Nat) : (octets (zeros n).undelivered).count 0 = n := by
  rw [freshReader_undelivered ⟨rfl, rfl, rfl, rfl, rfl, rfl, rfl, rfl⟩, octets_bytesBits]
  show ((List.replicate n (0 : Byte)).map BitVec.toNat).count 0 = n
  rw [List.map_replicate, show BitVec.toNat (0 : Byte) = 0 from rfl, List.count_replicate_self]

/-- With 2^64 zero bytes FCOUNT meets a full counter; no run could show it (95 2.6). -/
theorem witness_FcountRaisesCapacityBeforeACounterWraps (n : Nat) (h : 2 ^ 64 ≤ n) :
    (zeros n).halted = false ∧ (zeros n).rd.isOpen = true ∧ (zeros n).srcSound ∧ (zeros n).readerOk ∧
      ∃ v, 2 ^ 64 ≤ (octets (zeros n).undelivered).count v :=
  ⟨rfl, rfl, rfl, Nat.le_refl 0, 0, by rw [zeros_groups]; exact h⟩

/-- The empty input's counts, and those of SRC = 41. -/
theorem witness_TbuildJoinsTheTwoLightestRecords :
    (withFreq State.reset).halted = false ∧ (withFreq State.reset).freqValid = true ∧
      (withFreq State.reset).freqOf terminator = 1 ∧
      (expectedLeaves (withFreq State.reset).freq)[1]? = some (terminator, 1) ∧
      (expectedLeaves ((Vector.replicate 257 0).set 256 1))[0]? = some (0, 0) := by decide +kernel

theorem witness_TbuildLeavesACodeTree :
    (withFreq State.reset).halted = false ∧ (withFreq State.reset).freqValid = true ∧
      (withFreq State.reset).freqOf terminator = 1 := by decide +kernel

theorem witness_TserWritesTheTree :
    (withTree (opened [])).halted = false ∧ (withTree (opened [])).wr.isOpen = true ∧
      (withTree (opened [])).treeValid = true ∧ (withTree (opened [])).holdsTree smallTree ∧
      (withTree (opened [])).snkSound ∧ (withTree (opened [])).writerOk := by
  refine ⟨by decide +kernel, rfl, rfl, withTree_holds _, rfl, ?_⟩
  unfold State.writerOk; decide +kernel

/-- The state `withTree` with the right leaf UNSET, and one whose root is an UNSET leaf. -/
def unsetRight : State :=
  { withTree (opened []) with node := (withTree (opened [])).node.set 1 (.leaf none 1) }

def unsetRoot : State :=
  { opened [] with node := Vector.replicate 513 (.leaf none 7), nodeCnt := 1, root := 0, treeValid := true }

/-- An UNSET leaf at the root, and one to the right of a leaf that has its symbol. -/
theorem witness_TserRaisesInternalAtAnUnsetLeaf :
    (unsetRoot.halted = false ∧ unsetRoot.wr.isOpen = true ∧ unsetRoot.treeValid = true ∧
        unsetRoot.nodeAt unsetRoot.root = .leaf none 7) ∧
      unsetRight.halted = false ∧ unsetRight.wr.isOpen = true ∧ unsetRight.treeValid = true ∧
        unsetRight.holdsShape ([2, 0] ++ 1 :: []) ∧ (∀ k ∈ ([2, 0] : List NodeIx), isUnsetLeaf (unsetRight.nodeAt k) = false) ∧
        isUnsetLeaf (unsetRight.nodeAt 1) = true ∧ unsetRight.snkSound ∧ unsetRight.writerOk := by
  refine ⟨by decide +kernel, rfl, rfl, rfl, ⟨.node (.leaf 0x41) (.leaf 0), ?_, by decide⟩, by decide +kernel,
    by decide +kernel, rfl, ?_⟩
  · exact ⟨2, 0, 1, [0], [1], by decide +kernel, ⟨rfl, 1, by decide +kernel⟩, ⟨rfl, 1, by decide +kernel⟩, rfl⟩
  · unfold State.writerOk; decide +kernel

theorem witness_TdesBuildsTheSerializedTree :
    (opened [0x60, 0x09, 0x06, 0x42, 0xB0]).halted = false ∧ (opened [0x60, 0x09, 0x06, 0x42, 0xB0]).rd.isOpen = true ∧
      (opened [0x60, 0x09, 0x06, 0x42, 0xB0]).srcSound ∧ (opened [0x60, 0x09, 0x06, 0x42, 0xB0]).readerOk ∧
      tree3.size ≤ 513 ∧
      (opened [0x60, 0x09, 0x06, 0x42, 0xB0]).undelivered = tree3.bits ++ toBits 8 0xB0 := by
  unfold State.srcSound State.readerOk; decide +kernel

/-- An open reader whose source holds the given bits, with zero bits to a byte. -/
def streaming (bits : List Bool) : State :=
  opened (octets (bits ++ List.replicate 7 false))

/-- An open reader that has the last `n` bits of its source, those of `v`, in RD_ACC. -/
def atEnd (n : Nat) (v : BitVec 64) : State :=
  { opened [] with rd := { (opened []).rd with acc := v, accCnt := n } }

theorem opened_ready (l : List Nat) :
    (opened l).halted = false ∧ (opened l).rd.isOpen = true ∧ (opened l).srcSound ∧ (opened l).readerOk :=
  ⟨rfl, rfl, rfl, Nat.le_refl 0⟩

/-- Cut before the first bit; between two nodes; inside a symbol field with all its bits 1; after 513 internal nodes. -/
theorem witness_TdesRejectsACutTree :
    (subtreesLeft 1 [] = some 1 ∧ (opened []).undelivered = [] ++ []) ∧
      (subtreesLeft 1 [.internal, .leaf 0x41] = some 1 ∧
        (atEnd 11 0x241).undelivered = [TreeToken.internal, .leaf 0x41].flatMap TreeToken.bits ++ []) ∧
      (subtreesLeft 1 [.internal] = some 2 ∧ (List.replicate 8 true).length < 9 ∧
        (atEnd 10 0x1FF).undelivered = [TreeToken.internal].flatMap TreeToken.bits ++ true :: List.replicate 8 true) ∧
      (subtreesLeft 1 (List.replicate 513 .internal) = some 514 ∧ (List.replicate 513 TreeToken.internal).length ≤ 513 ∧
        ({ opened (List.replicate 64 0) with rd := (atEnd 1 0).rd } : State).undelivered =
          (List.replicate 513 TreeToken.internal).flatMap TreeToken.bits ++ []) ∧
      ∀ n v, (atEnd n v).halted = false ∧ (atEnd n v).rd.isOpen = true ∧ (atEnd n v).srcSound ∧ (atEnd n v).readerOk := by
  refine ⟨by decide +kernel, by decide +kernel, by decide +kernel, by decide +kernel, fun n v => ?_⟩
  exact ⟨rfl, rfl, rfl, Nat.le_refl 0⟩

/-- 513 nodes of both kinds: 256 times an internal one and a leaf, and an internal one. -/
def mixed513 : List TreeToken :=
  (List.replicate 256 [TreeToken.internal, TreeToken.leaf 7]).flatten ++ [.internal]

/-- A value above 256 at the second leaf and with all 513 records in use, a 514th node of each kind after nodes of both
kinds, a tree of one leaf. -/
theorem witness_TdesRejectsReservedValues :
    (subtreesLeft 1 [.internal, .leaf 0x41] = some 1 ∧
        (streaming ([TreeToken.internal, .leaf 0x41].flatMap TreeToken.bits ++ true :: toBits 9 257)).undelivered =
          [TreeToken.internal, .leaf 0x41].flatMap TreeToken.bits ++ true :: toBits 9 257 ++ List.replicate 3 false) ∧
      (subtreesLeft 1 mixed513 = some 2 ∧ mixed513.length = 513) ∧
      (streaming (mixed513.flatMap TreeToken.bits ++ true :: toBits 9 511)).undelivered =
        mixed513.flatMap TreeToken.bits ++ true :: toBits 9 511 ++ List.replicate 5 false ∧
      (streaming (mixed513.flatMap TreeToken.bits ++ true :: toBits 9 256)).undelivered =
        mixed513.flatMap TreeToken.bits ++ true :: toBits 9 256 ++ List.replicate 5 false ∧
      (streaming (mixed513.flatMap TreeToken.bits ++ [false])).undelivered =
        mixed513.flatMap TreeToken.bits ++ false :: List.replicate 6 false ∧
      (opened [0xC0, 0x00]).undelivered = true :: toBits 9 256 ++ toBits 6 0 ∧
      ∀ l, (opened l).halted = false ∧ (opened l).rd.isOpen = true ∧ (opened l).srcSound ∧ (opened l).readerOk := by
  refine ⟨?_, ?_, ?_, ?_, ?_, ?_, opened_ready⟩ <;> decide +kernel

theorem witness_MagicwWritesTheMagicField :
    (opened []).halted = false ∧ (opened []).wr.isOpen = true ∧ (opened []).snkSound ∧ (opened []).writerOk := by
  unfold State.snkSound State.writerOk; decide

theorem witness_CtabDerivesTheCodes :
    (withTree State.reset).halted = false ∧ (withTree State.reset).treeValid = true ∧
      (withTree State.reset).holdsTree smallTree ∧ ((0x41 : Symbol), [false]) ∈ smallTree.codes :=
  ⟨by decide +kernel, rfl, withTree_holds _, by decide⟩

theorem witness_EncodeWritesTheCodes :
    (withTable (opened [0x41])).halted = false ∧ (withTable (opened [0x41])).rd.isOpen = true ∧
      (withTable (opened [0x41])).wr.isOpen = true ∧ (withTable (opened [0x41])).tableValid = true ∧
      (withTable (opened [0x41])).srcSound ∧ (withTable (opened [0x41])).snkSound ∧
      (withTable (opened [0x41])).readerOk ∧ (withTable (opened [0x41])).writerOk ∧
      (∀ v ∈ octets (withTable (opened [0x41])).undelivered, (withTable (opened [0x41])).codeOf (symbolOf v) ≠ []) ∧
      (withTable (opened [0x41])).codeOf terminator ≠ [] := by
  unfold State.srcSound State.snkSound State.readerOk State.writerOk; decide +kernel

/-- A byte without an entry after one with, and a terminator without an entry. -/
theorem witness_EncodeRaisesInternalAtAMissingEntry :
    (octets (withTable (opened [0x41, 0x43])).undelivered = [0x41] ++ 0x43 :: [] ∧
      (∀ u ∈ [0x41], (withTable (opened [0x41, 0x43])).codeOf (symbolOf u) ≠ []) ∧
      (withTable (opened [0x41, 0x43])).codeOf (symbolOf 0x43) = []) ∧
      (octets (opened []).undelivered = [] ∧
        ({ opened [] with code := Vector.replicate 257 [], tableValid := true } : State).codeOf terminator = []) ∧
      ∀ l, (withTable (opened l)).halted = false ∧ (withTable (opened l)).rd.isOpen = true ∧
        (withTable (opened l)).wr.isOpen = true ∧ (withTable (opened l)).tableValid = true ∧
        (withTable (opened l)).srcSound ∧ (withTable (opened l)).snkSound ∧ (withTable (opened l)).readerOk ∧
        (withTable (opened l)).writerOk := by
  refine ⟨by decide +kernel, by decide +kernel, fun l => ?_⟩
  exact ⟨rfl, rfl, rfl, rfl, rfl, rfl, Nat.le_refl 0, by show (0 ≤ 63 ∧ 0 % 8 = 0 ∧ 0 ≤ 8184); decide⟩

theorem opened_fresh (l : List Nat) : (opened l).freshReader ∧ (opened l).freshWriter :=
  ⟨⟨rfl, rfl, rfl, rfl, rfl, rfl, rfl, rfl⟩, ⟨rfl, rfl, rfl, rfl, rfl⟩⟩

theorem witness_CompressWritesACompressedFile :
    (opened [1, 2]).halted = false ∧ (opened [1, 2]).freshReader ∧ (opened [1, 2]).freshWriter ∧
      (opened [1, 2]).srcSound ∧ (opened [1, 2]).snkSound ∧ ∀ b : Byte, (opened [1, 2]).src.content.count b < 2 ^ 64 :=
  ⟨by decide, (opened_fresh _).1, (opened_fresh _).2, rfl, rfl, fun _ =>
    Nat.lt_of_le_of_lt List.count_le_length (by decide)⟩

theorem opened_compresses : ∃ t, exec .compress (opened [0x41]) = .next t ∧ t.completed := by
  obtain ⟨t, h, hp⟩ := after_next (p := okay)
    (show after (exec .compress (opened [0x41])) okay = true by decide +kernel)
  exact ⟨t, h, okay_completed hp⟩

theorem witness_CompressIsDeterministic :
    (opened [0x41]).halted = false ∧ (opened [0x41]).freshReader ∧ (opened [0x41]).freshWriter ∧
      (opened [0x41]).srcSound ∧ (opened [0x41]).snkSound ∧
      ∃ t, exec .compress (opened [0x41]) = .next t ∧ t.completed :=
  ⟨by decide, (opened_fresh _).1, (opened_fresh _).2, rfl, rfl, opened_compresses⟩

/-- The magic number, another one, and too few bits. -/
theorem witness_MagicrAcceptsOnlyTheMagicNumber :
    (opened [0xFA, 0xCE, 0x82, 0x01, 0x48]).undelivered =
        toBits 32 (opened [0xFA, 0xCE, 0x82, 0x01, 0x48]).magic.toNat ++ toBits 8 0x48 ∧
      ((0xFACE8200 : Nat) < 2 ^ 32 ∧ 0xFACE8200 ≠ (opened [0xFA, 0xCE, 0x82, 0x00]).magic.toNat ∧
        (opened [0xFA, 0xCE, 0x82, 0x00]).undelivered = toBits 32 0xFACE8200 ++ []) ∧
      (opened [0xFA, 0xCE, 0x82]).undelivered.length < 32 ∧
      ∀ l, (opened l).halted = false ∧ (opened l).rd.isOpen = true ∧ (opened l).srcSound ∧ (opened l).readerOk :=
  ⟨by decide +kernel, by decide +kernel, by decide +kernel, fun _ => ⟨rfl, rfl, rfl, Nat.le_refl 0⟩⟩

theorem decoding_ready (l : List Nat) :
    (withTree (opened l)).halted = false ∧ (withTree (opened l)).rd.isOpen = true ∧
      (withTree (opened l)).wr.isOpen = true ∧ (withTree (opened l)).treeValid = true ∧
      (withTree (opened l)).holdsTree smallTree ∧ (withTree (opened l)).srcSound ∧ (withTree (opened l)).snkSound ∧
      (withTree (opened l)).readerOk ∧ (withTree (opened l)).writerOk :=
  ⟨rfl, rfl, rfl, rfl, withTree_holds _, rfl, rfl, Nat.le_refl 0,
    by show (0 ≤ 63 ∧ 0 % 8 = 0 ∧ 0 ≤ 8184); decide⟩

theorem witness_DecodeWritesTheCodedBytes :
    (∀ p ∈ [((0x41 : Symbol), [false])], p ∈ smallTree.codes ∧ p.1 ≠ terminator) ∧
      (terminator, [true]) ∈ smallTree.codes ∧
      (withTree (opened [0x40])).undelivered =
        ([((0x41 : Symbol), [false])].flatMap Prod.snd) ++ [true] ++ toBits 6 0 ∧
      (withTree (opened [0x40])).holdsTree smallTree :=
  ⟨by decide, by decide, by decide +kernel, withTree_holds _⟩

/-- The end between two codes: eight codes of 0x41 and nothing more. -/
theorem witness_DecodeRaisesMalformedWithoutATerminator :
    (∀ p ∈ List.replicate 8 ((0x41 : Symbol), [false]), p ∈ smallTree.codes ∧ p.1 ≠ terminator) ∧
      (∃ p ∈ smallTree.codes, [] <+: p.2 ∧ [] ≠ p.2) ∧
      (withTree (opened [0x00])).undelivered = (List.replicate 8 ((0x41 : Symbol), [false])).flatMap Prod.snd ++ [] ∧
      (withTree (opened [0x00])).holdsTree smallTree :=
  ⟨by decide, ⟨(0x41, [false]), by decide, by decide, by decide⟩, by decide +kernel, withTree_holds _⟩

/-- The file of 95 P1. -/
theorem witness_DecompressWritesTheCodedBytes :
    (opened [0xFA, 0xCE, 0x82, 0x01, 0x48, 0x38, 0x02]).undelivered =
        toBits 32 (opened [0xFA, 0xCE, 0x82, 0x01, 0x48, 0x38, 0x02]).magic.toNat ++ smallTree.bits ++
          ([((0x41 : Symbol), [false])].flatMap Prod.snd) ++ [true] ++ [false] ∧
      smallTree.size ≤ 513 ∧ (∀ p ∈ [((0x41 : Symbol), [false])], p ∈ smallTree.codes ∧ p.1 ≠ terminator) ∧
      (terminator, [true]) ∈ smallTree.codes ∧
      ∀ l, (opened l).halted = false ∧ (opened l).rd.isOpen = true ∧ (opened l).wr.isOpen = true ∧
        (opened l).srcSound ∧ (opened l).snkSound ∧ (opened l).readerOk ∧ (opened l).writerOk :=
  ⟨by decide +kernel, by decide, by decide, by decide, fun _ => ⟨rfl, rfl, rfl, rfl, rfl, Nat.le_refl 0,
    by show (0 ≤ 63 ∧ 0 % 8 = 0 ∧ 0 ≤ 8184); decide⟩⟩

/-- A compression whose devices would fail, but later. -/
theorem witness_DecompressUndoesCompress :
    ∃ s t u : State, s.halted = false ∧ s.freshReader ∧ s.freshWriter ∧ s.src.failAt = some 9 ∧
      exec .compress s = .next t ∧ t.completed ∧ u.halted = false ∧ u.freshReader ∧
      u.freshWriter ∧ u.srcSound ∧ u.snkSound ∧ u.src.content = t.snk.content ∧ u.magic = s.magic := by
  let s : State :=
    { opened [0x41] with
      src := { (opened [0x41]).src with failAt := some 9 }, snk := { (opened [0x41]).snk with failAt := some 9 } }
  obtain ⟨t, h, ht⟩ := after_next (p := okay) (show after (exec .compress s) okay = true by decide +kernel)
  exact ⟨s, t, { opened [] with src := { (opened []).src with content := t.snk.content } }, rfl,
    ⟨rfl, rfl, rfl, rfl, rfl, rfl, rfl, rfl⟩, ⟨rfl, rfl, rfl, rfl, rfl⟩, rfl, h, okay_completed ht, rfl,
    ⟨rfl, rfl, rfl, rfl, rfl, rfl, rfl, rfl⟩, ⟨rfl, rfl, rfl, rfl, rfl⟩, rfl, rfl, rfl, rfl⟩

/-- A command of each kind the statements ReaderCommandsTouchOnlyTheReader, WriterCommandsTouchOnlyTheWriter,
TableCommandsTouchOnlyTheirTables and StreamingCommandsKeepTheTables (its first clauses) are about, with a next state. -/
theorem witness_frames :
    (∃ t, exec .magicr (opened [0xFA]) = .next t) ∧ (∃ t, exec (.wrbits 1 1) (failing fullWriter) = .next t) ∧
      (∃ t, exec .fcount (opened [0x41]) = .next t) ∧ (∃ t, exec .tbuild (withFreq State.reset) = .next t) ∧
      (∃ t, exec .tdes (opened [0x60, 0x09]) = .next t) ∧ (∃ t, exec .ctab (withTree State.reset) = .next t) ∧
      (∃ t, exec .decode (withTree (opened [0x40])) = .next t) ∧ (∃ t, exec .compress (opened [0x41]) = .next t) ∧
      ∃ t, exec .decompress (opened [0xFA]) = .next t := by
  have h : ∀ {a : Answer}, after a (fun _ => true) = true → ∃ t, a = .next t := fun h =>
    let ⟨t, ht, _⟩ := after_next h; ⟨t, ht⟩
  exact ⟨h (by decide +kernel), h (by decide +kernel), h (by decide +kernel), h (by decide +kernel),
    h (by decide +kernel), h (by decide +kernel), h (by decide +kernel), h (by decide +kernel), h (by decide +kernel)⟩

/-- What a command leaves, its response apart. -/
def left (i : Instr) (s : State) : State :=
  match exec i s with
  | .next t => { t with rsp := s.rsp }
  | .fault _ => s
  | .refused _ => s

theorem left_completes {i : Instr} {s t : State} {is : List Instr} (h : after (exec i s) okay = true)
    (hc : Completes is (left i s) t) : Completes (i :: is) s t := by
  obtain ⟨u, hu, hp⟩ := after_next h
  refine ⟨left i s, by simp [left, hu], ?_, hc⟩
  have hr : u.rsp = some (packResponse true false 0) := by simpa [okay, answers] using hp
  rw [hu, left, hu]
  simp only [State.respond, ← hr]

/-- The commands complete one after the other. -/
def allComplete : List Instr → State → Bool
  | [], _ => true
  | i :: is, s => after (exec i s) okay && allComplete is (left i s)

theorem allComplete_completes (is : List Instr) : ∀ {s : State}, allComplete is s = true → ∃ t, Completes is s t := by
  induction is with
  | nil => exact fun _ => ⟨_, rfl⟩
  | cons i is ih =>
    intro s h
    simp only [allComplete, Bool.and_eq_true] at h
    obtain ⟨t, ht⟩ := ih h.2
    exact ⟨t, left_completes h.1 ht⟩

theorem failed_of {i : Instr} {s : State} {op mop : BitVec 8} {cls : ErrClass} {sub : BitVec 4} {info : BitVec 32}
    (h : after (exec i s) (fun t => t.err == packErr ⟨cls, sub, info⟩ op mop && answers false false t.err t) = true) :
    ∃ t : State, exec i s = .next (t.failed op mop cls sub info) := by
  obtain ⟨t, ht, hp⟩ := after_next h
  simp only [Bool.and_eq_true, beq_iff_eq, answers] at hp
  refine ⟨t, ht.trans (congrArg _ ?_)⟩
  simp only [State.failed, ← hp.1, ← hp.2]

/-- The two units open over the file of SRC = 41 (95_test_vectors.md 2.11). -/
def file41 : State := opened [0xFA, 0xCE, 0x82, 0x01, 0x48, 0x38, 0x02]

/-- A source that fails its third transaction, the rewind. -/
def failsRewind : State := { opened [0x41] with src := { (opened [0x41]).src with failAt := some 2 } }

/-- All primitives complete; the third of COMPRESS, the second of DECOMPRESS and WRCLOSE of each raise. -/
theorem witness_StreamingCommandsKeepTheTables :
    (∃ t, Completes compressPrimitives (opened [0x41]) t) ∧ (∃ t, Completes decompressPrimitives file41 t) ∧
      (∃ u t : State, compressPrimitives = [.fcount, .tbuild] ++ .rdrst :: [.magicw, .tser, .ctab, .encode, .wrclose] ∧
        Completes [.fcount, .tbuild] failsRewind u ∧
        exec .rdrst u = .next (t.failed (Instr.opcode .rdrst) (Instr.opcode .rdrst) .resource 3 0)) ∧
      (∃ u t : State, decompressPrimitives = [.magicr] ++ .tdes :: [.decode, .wrclose] ∧
        Completes [.magicr] (opened [0xFA, 0xCE, 0x82, 0x01]) u ∧
        exec .tdes u = .next (t.failed (Instr.opcode .tdes) (Instr.opcode .tdes) .malformed 1 0)) ∧
      after (exec .compress (failing (opened [0x41]))) (fun t => t.halted && errOp t.err == 0x30) = true ∧
      after (exec .compress failsRewind) (fun t => t.halted && errOp t.err == 0x13) = true ∧
      after (exec .compress { opened [0x41] with snk := { (opened [0x41]).snk with failAt := some 0 } })
        (fun t => t.halted && errOp t.err == 0x24) = true ∧
      after (exec .decompress { file41 with snk := { file41.snk with failAt := some 0 } })
        (fun t => t.halted && errOp t.err == 0x24) = true ∧
      failsRewind.snkSound ∧ failsRewind.writerOk ∧ failsRewind.halted = false ∧ failsRewind.rd.isOpen = true ∧
      failsRewind.wr.isOpen = true := by
  refine ⟨allComplete_completes _ (by decide +kernel), allComplete_completes _ (by decide +kernel), ?_, ?_,
    by decide +kernel, by decide +kernel, by decide +kernel, by decide +kernel, rfl, ?_, rfl, rfl, rfl⟩
  · obtain ⟨t, ht⟩ := failed_of (i := .rdrst) (s := left .tbuild (left .fcount failsRewind)) (op := 0x13) (mop := 0x13)
      (cls := .resource) (sub := 3) (info := 0) (by decide +kernel)
    exact ⟨_, t, rfl, left_completes (by decide +kernel) (left_completes (by decide +kernel) rfl), ht⟩
  · obtain ⟨t, ht⟩ := failed_of (i := .tdes) (s := left .magicr (opened [0xFA, 0xCE, 0x82, 0x01])) (op := 0x41)
      (mop := 0x41) (cls := .malformed) (sub := 1) (info := 0) (by decide +kernel)
    exact ⟨_, t, rfl, left_completes (by decide +kernel) rfl, ht⟩
  · unfold State.writerOk; decide +kernel

/-- Each clause: a command of its list that does change the flag so, and a halted core that stays so. -/
theorem witness_OnlyTheListedCommandsChangeAFlag :
    after (exec .rdopen State.reset) (fun t => t.rd.isOpen) = true ∧
      after (exec .rdclose (opened [])) (fun t => !t.rd.isOpen) = true ∧
      after (exec (.rdbits 1) (opened [])) (fun t => t.rd.eos) = true ∧
      after (exec .rdrst { opened [] with rd := { (opened []).rd with eos := true } }) (fun t => !t.rd.eos) = true ∧
      after (exec .wropen State.reset) (fun t => t.wr.isOpen) = true ∧
      after (exec .wrclose (opened [])) (fun t => !t.wr.isOpen) = true ∧
      after (exec .fcount (opened [])) (fun t => t.freqValid) = true ∧
      after (exec .compress (withFreq (opened []))) (fun t => !t.freqValid) = true ∧
      after (exec .tbuild (withFreq State.reset)) (fun t => t.treeValid) = true ∧
      after (exec .fcount (withTree (opened []))) (fun t => !t.treeValid) = true ∧
      after (exec .ctab (withTree State.reset)) (fun t => t.tableValid) = true ∧
      after (exec .fcount (withTable (opened []))) (fun t => !t.tableValid) = true ∧
      haltedState.halted = true ∧ after (exec .rdcnt haltedState) (fun t => t.halted) = true := by
  decide +kernel

/-- Some transaction is answered `Fail`, and `sub` is its subcode of RESOURCE. -/
def failedWith (sub : BitVec 4) (l : List PortEvent) : Bool := l.any fun e => e.failSub == some sub

/-- A fetch of bytes; then a failed transaction of each kind, the put of WRCLOSE with the release after it. -/
theorem witness_DevicesSeeExactlyTheLoggedTransactions :
    after (exec (.rdbits 8) (opened [0x41])) (fun t => t.log == [.srcFetch 8192 (.bytes [0x41])]) = true ∧
      after (exec .rdopen (failing State.reset)) (fun t => failedWith 1 t.log && errCode t.err == 5) = true ∧
      after (exec .fcount (failing (opened [0x41]))) (fun t => t.log.length == 1 && failedWith 2 t.log &&
        errCode t.err == 5) = true ∧
      after (exec .rdrst (failing (opened [0x41]))) (fun t => failedWith 3 t.log && errCode t.err == 5) = true ∧
      after (exec .wropen (failing State.reset)) (fun t => failedWith 4 t.log && errCode t.err == 5) = true ∧
      after (exec .wrclose (failing { opened [] with wr := { (opened []).wr with acc := 1, accCnt := 1 } }))
        (fun t => failedWith 5 (t.log.take 1) && t.log.drop 1 == [.snkRelease] && errCode t.err == 5) = true ∧
      (opened [0x41]).halted = false := by decide +kernel

/-- A reset between commands, and one that cuts COMPRESS short after three transactions. -/
theorem witness_ResetStartsOverAndTellsNoDevice :
    ({ opened [] with host := [.reset ⟨none, some 1⟩] } : State).host = .reset ⟨none, some 1⟩ :: [] ∧
      ({ opened [0x41] with host := [.commandCutByReset 0x500000000000 3 ⟨none, none⟩] } : State).host =
        .commandCutByReset 0x500000000000 3 ⟨none, none⟩ :: [] ∧
      (∃ u, execute 0x500000000000 ({ opened [0x41] with host := [] } : State) = .next u) ∧
      ∃ t, step { opened [0x41] with host := [.commandCutByReset 0x500000000000 3 ⟨none, none⟩] } = .next t := by
  have h : ∀ {a : Answer}, after a (fun _ => true) = true → ∃ t, a = .next t := fun h =>
    let ⟨t, ht, _⟩ := after_next h; ⟨t, ht⟩
  exact ⟨rfl, rfl, h (by decide +kernel), h (by decide +kernel)⟩

/-- A state with all three tables valid and a command to come. -/
def busy : State :=
  { withTable (withTree (withFreq (opened [0x41]))) with host := [.command 0x500000000000] }

theorem busy_inv : busy.Inv where
  rdAccCnt := by decide +kernel
  rdBlkLen := by decide +kernel
  rdBlkIdx := by decide +kernel
  rdEos := by decide +kernel
  wrAccCnt := by decide +kernel
  wrBlkLen := by decide +kernel
  srcPos := by decide +kernel
  freqTerm := by decide +kernel
  nodeCntLe := by decide +kernel
  tree := fun _ => ⟨smallTree, withTree_holds (withFreq (opened [0x41]))⟩
  codeLen := by decide +kernel
  tablePrefix := by
    intro _ y z hne hy
    have hk : ∀ y : Symbol, busy.code.get y = [] ∨ y = 0x41 ∨ y = 256 := by decide +kernel
    have h1 : busy.code.get 0x41 = [false] := by decide +kernel
    have h2 : busy.code.get 256 = [true] := by decide +kernel
    rcases hk y with h | rfl | rfl
    · exact absurd h hy
    · rcases hk z with h | rfl | rfl
      · rw [h, h1]; decide
      · exact absurd rfl hne
      · rw [h1, h2]; decide
    · rcases hk z with h | rfl | rfl
      · rw [h, h2]; decide
      · rw [h1, h2]; decide
      · exact absurd rfl hne
  errReserved := by decide +kernel
  errClass := by decide +kernel

theorem busy_steps : ∃ t, step busy = .next t := by
  obtain ⟨t, h, -⟩ := after_next (p := fun _ => true) (show after (step busy) (fun _ => true) = true by decide +kernel)
  exact ⟨t, h⟩

theorem witness_StepKeepsTheInvariant : busy.Inv ∧ ∃ t, step busy = .next t := ⟨busy_inv, busy_steps⟩

theorem witness_StepNeverStopsUnderTheInvariant : busy.Inv := busy_inv

/-- Two states that differ in the part of RD_ACC that has no meaning, on both sides of where the model holds it. -/
theorem witness_UnspecifiedStateIsNeverSeen :
    ∃ s' : State, s' ≠ busy ∧ busy.Inv ∧ s'.Inv ∧ busy.SameMeaning s' ∧ (∃ t, step busy = .next t) ∧
      ∃ t', step s' = .next t' := by
  refine ⟨{ busy with rd := { busy.rd with acc := busy.rd.acc + 1, accAbove := 3 } }, ?_, busy_inv, ?_, ?_, busy_steps, ?_⟩
  · intro h
    have h1 : busy.rd.acc + 1 = busy.rd.acc := congrArg (fun s => s.rd.acc) h
    have h2 := congrArg (fun x => x - busy.rd.acc) h1
    simp at h2
  · exact { busy_inv with }
  · exact ⟨rfl, rfl, rfl, rfl, rfl, fun _ => rfl, rfl, fun _ => ⟨rfl, rfl, fun _ _ => rfl⟩, rfl, fun _ => rfl,
      rfl, rfl, rfl, rfl, rfl, rfl, rfl⟩
  · obtain ⟨t, h, -⟩ := after_next (p := fun _ => true)
      (show after (step { busy with rd := { busy.rd with acc := busy.rd.acc + 1, accAbove := 3 } }) (fun _ => true) = true by
        decide +kernel)
    exact ⟨t, h⟩

end Sys2Proof.Tests
end

namespace Sys2Proof.Machine

/-! ### What a command can do

Every command is its checks and then a few procedures in order (60_exceptions.md R255, 45 R206, 46 R226). `exec_ended`
says once how that can end; the statements about frames, flags, causes and the invariant are read off it. -/

/-- The procedures of a command's Operation, in order, each with the opcode ERR.OP records for it. -/
def linesOf : Instr → List MacroLine
  | .getcsr _ | .rdcnt | .wrcnt => []
  | .rdopen => [⟨0x10, rdOpen⟩]
  | .rdbits n => [⟨0x11, fun s => (rdBits (bitCount n) s).andThen fun _ t => .ok () t⟩]
  | .rdrst => [⟨0x13, rdReset⟩]
  | .rdclose => [⟨0x14, fun s => .ok () (rdClose s)⟩]
  | .wropen => [⟨0x20, wrOpen⟩]
  | .wrbits n v => [⟨0x21, wrBits (bitCount n) v.toNat⟩]
  | .wrflush => [⟨0x23, wrFlush⟩]
  | .wrclose => [⟨0x24, wrClose⟩]
  | .fcount => [⟨0x30, fCount⟩]
  | .tbuild => [⟨0x31, tBuild⟩]
  | .magicw => [⟨0x32, magicW⟩]
  | .tser => [⟨0x33, serRoot⟩]
  | .ctab => [⟨0x34, cTab⟩]
  | .encode => [⟨0x35, encodeBody⟩]
  | .magicr => [⟨0x40, magicR⟩]
  | .tdes => [⟨0x41, tDes⟩]
  | .decode => [⟨0x42, decodeBody⟩]
  | .compress => compressLines
  | .decompress => decompressLines

/-- The Operation of a command: what runs once its checks have passed. -/
def operation : Instr → State → Answer
  | .getcsr n, s => finish (.getcsr n) (.ok ⟨false, s.csr n⟩ s)
  | .rdopen, s => finishDone .rdopen (rdOpen s)
  | .rdbits n, s => finish (.rdbits n) ((rdBits (bitCount n) s).andThen fun r t => .ok (bitsReply r) t)
  | .rdcnt, s => finish .rdcnt (.ok ⟨false, s.rd.bitsRead⟩ s)
  | .rdrst, s => finishDone .rdrst (rdReset s)
  | .rdclose, s => finishDone .rdclose (.ok () (rdClose s))
  | .wropen, s => finishDone .wropen (wrOpen s)
  | .wrbits n v, s => finishDone (.wrbits n v) (wrBits (bitCount n) v.toNat s)
  | .wrcnt, s => finish .wrcnt (.ok ⟨false, s.wr.bitsWritten⟩ s)
  | .wrflush, s => finishDone .wrflush (wrFlush s)
  | .wrclose, s => finishDone .wrclose (wrClose s)
  | .fcount, s => finishProducer .fcount (fCount s)
  | .tbuild, s => finishDone .tbuild (tBuild s)
  | .magicw, s => finishDone .magicw (magicW s)
  | .tser, s => finishDone .tser (serRoot s)
  | .ctab, s => finishDone .ctab (cTab s)
  | .encode, s => finishDone .encode (encodeBody s)
  | .magicr, s => finishDone .magicr (magicR s)
  | .tdes, s => finishProducer .tdes (tDes s)
  | .decode, s => finishDone .decode (decodeBody s)
  | .compress, s => runMacro .compress compressLines s
  | .decompress, s => runMacro .decompress decompressLines s

/-- A command is its checks and its Operation (60_exceptions.md R255); a GETCSR above 6 is no command (30 R96). -/
theorem exec_eq (i : Instr) (s : State) : exec i s = guarded i s (operation i) ∨
    ∃ n, i = .getcsr n ∧ exec i s = .next (illegalWord (encode i) 3 s) := by
  cases i with
  | getcsr n =>
    by_cases hn : (Instr.getcsr n).wellFormed = true
    · exact .inl (if_pos hn)
    · exact .inr ⟨n, rfl, if_neg hn⟩
  | _ => exact .inl rfl

/-- The three valid flags cleared, as at the end of COMPRESS and DECOMPRESS (45 R206, 46 R226). -/
def State.clearFlags (s : State) : State := { s with freqValid := false, treeValid := false, tableValid := false }

/-- What a command leaves when its last procedure has left `u`. -/
def settled : Instr → State → State
  | .compress, u => u.clearFlags.forgetTables 0x50
  | .decompress, u => u.clearFlags.forgetTables 0x51
  | _, u => u

/-- What a command leaves when a procedure of it has raised in `u` (93 I7; assumption log 17). -/
def lost : Instr → State → State
  | .fcount, u => u.forgetTables 0x30
  | .tdes, u => u.forgetTables 0x41
  | .compress, u => u.forgetTables 0x50
  | .decompress, u => u.forgetTables 0x51
  | _, u => u

/-- The checks of R255 let the command through. -/
structure Checked (i : Instr) (s : State) : Prop where
  running : s.halted = false ∨ acceptedWhileHalted i = true
  arg : argCheck i = none
  seq : seqCheck i s = none

/-- The checks of R255 turn the command away with `e`; the last case is the word of a GETCSR above 6 (30 R96). -/
inductive TurnedAway (i : Instr) (s : State) : Raise → Prop
  | arg {e : Raise} (h : argCheck i = some e) : TurnedAway i s e
  | seq {e : Raise} (h : seqCheck i s = some e) : TurnedAway i s e
  | illegal {n : BitVec 6} (h : i = .getcsr n) (info : BitVec 32) : TurnedAway i s ⟨.illegal, 3, info⟩

/-- How a command can end: `F` holds of the state its procedures leave when all complete, `Q` of the line's opcode, the
raise and the state when one raises. -/
inductive Ended (F : State → Prop) (Q : BitVec 8 → Raise → State → Prop) (i : Instr) (s : State) : State → Prop
  | refused (h : s.halted = true) : Ended F Q i s (refuse s)
  | turnedAway {e : Raise} (h : TurnedAway i s e) : Ended F Q i s (raiseErr i.opcode i.opcode e s)
  | completed {u : State} (eos : Bool) (data : BitVec 64) (h : F u) : Ended F Q i s ((settled i u).respond true eos data)
  | raised {u : State} {op : BitVec 8} {e : Raise} (h : Q op e u) : Ended F Q i s (raiseErr op i.opcode e (lost i u))

/-- From states satisfying `P` the lines end in states satisfying `F`, and each that raises does so as `Q` says. -/
def LinesEnd (F : State → Prop) (Q : BitVec 8 → Raise → State → Prop) : List MacroLine → (State → Prop) → Prop
  | [], P => ∀ s, P s → F s
  | l :: ls, P => ∃ P' : State → Prop, (∀ s, P s → (l.procedure s).Ends P' (Q l.op)) ∧ LinesEnd F Q ls P'

/-- A procedure whose value is changed ends as before. -/
theorem ends_andThen_ok {α β : Type} {F : State → Prop} {Q : Raise → State → Prop} {r : Res α} {k : α → β} :
    (r.andThen fun a s => .ok (k a) s).Ends F Q ↔ r.Ends F Q := by
  cases r <;> rfl

section
variable {F : State → Prop} {Q : BitVec 8 → Raise → State → Prop} {i : Instr} {s t : State}

/-- One line, and that is the Operation. -/
theorem LinesEnd.single {l : MacroLine} {P : State → Prop} (h : LinesEnd F Q [l] P) (hs : P s) :
    (l.procedure s).Ends F (Q l.op) := by
  obtain ⟨P', h1, h2⟩ := h
  exact (h1 s hs).imp h2 fun _ _ h => h

theorem LinesEnd.imp {F' : State → Prop} {Q' : BitVec 8 → Raise → State → Prop} (hF : ∀ u, F u → F' u)
    (hQ : ∀ op e u, Q op e u → Q' op e u) {lines : List MacroLine} :
    ∀ {P : State → Prop}, LinesEnd F Q lines P → LinesEnd F' Q' lines P := by
  induction lines with
  | nil => exact fun h u hu => hF u (h u hu)
  | cons l lines ih =>
    rintro P ⟨P', h1, h2⟩
    exact ⟨P', fun u hu => (h1 u hu).imp (fun _ h => h) (hQ l.op), ih h2⟩

theorem guarded_ended {k : State → Answer} (h : guarded i s k = .next t)
    (hk : Checked i s → k s = .next t → Ended F Q i s t) : Ended F Q i s t := by
  rcases guarded_cases i s k with ⟨hh, -, hg⟩ | ⟨hr, ⟨e, ha, hg⟩ | ⟨-, e, hq, hg⟩ | ⟨ha, hq, hg⟩⟩
  · obtain rfl := Host.Outcome.next.inj (hg.symm.trans h); exact .refused hh
  · obtain rfl := Host.Outcome.next.inj (hg.symm.trans h); exact .turnedAway (.arg ha)
  · obtain rfl := Host.Outcome.next.inj (hg.symm.trans h); exact .turnedAway (.seq hq)
  · exact hk ⟨hr, ha, hq⟩ (hg.symm.trans h)

theorem finish_ended {r : Res Reply} (hF : ∀ u, settled i u = u) (hQ : ∀ u, lost i u = u) (hr : r.Ends F (Q i.opcode))
    (h : finish i r = .next t) : Ended F Q i s t := by
  rcases finish_eq_next.1 h with ⟨p, u, h1, rfl⟩ | ⟨e, u, h1, rfl⟩
  · rw [← hF u]; exact .completed _ _ (hr.ok h1)
  · rw [← hQ u]; exact .raised (hr.raised h1)

theorem finishDone_ended {r : Res Unit} (hF : ∀ u, settled i u = u) (hQ : ∀ u, lost i u = u) (hr : r.Ends F (Q i.opcode))
    (h : finishDone i r = .next t) : Ended F Q i s t :=
  finish_ended (r := r.andThen fun _ s => .ok .done s) hF hQ (ends_andThen_ok.2 hr) h

theorem finishProducer_ended {r : Res Unit} (hF : ∀ u, settled i u = u) (hQ : ∀ u, lost i u = u.forgetTables i.opcode)
    (hr : r.Ends F (Q i.opcode)) (h : finishProducer i r = .next t) : Ended F Q i s t := by
  rcases finishProducer_eq_next.1 h with ⟨u, h1, rfl⟩ | ⟨e, u, h1, rfl⟩
  · conv => rw [← hF u]
    exact .completed _ _ (hr.ok h1)
  · rw [← hQ u]; exact .raised (hr.raised h1)

theorem runMacro_ended (hF : ∀ u, settled i u = u.clearFlags.forgetTables i.opcode)
    (hQ : ∀ u, lost i u = u.forgetTables i.opcode) {lines : List MacroLine} :
    ∀ {P : State → Prop} {u : State}, LinesEnd F Q lines P → P u → runMacro i lines u = .next t → Ended F Q i s t := by
  induction lines with
  | nil =>
    intro P u hl hu h
    obtain rfl := Host.Outcome.next.inj h
    have := Ended.completed (Q := Q) (i := i) (s := s) false 0 (hl u hu)
    rwa [hF] at this
  | cons l lines ih =>
    rintro P u ⟨P', h1, h2⟩ hu h
    have hl := h1 u hu
    cases hp : l.procedure u with
    | ok a v => rw [runMacro_cons_ok hp] at h; exact ih h2 (hl.ok hp) h
    | raised e v =>
      rw [runMacro_cons_raised hp] at h
      obtain rfl := Host.Outcome.next.inj h
      rw [← hQ]; exact .raised (hl.raised hp)
    | stuck f => simp [runMacro, hp] at h

/-- The Operation of a command, in whatever way it ends. -/
theorem operation_ended {P : State → Prop} (hs : P s) (hP : LinesEnd F Q (linesOf i) P) (h : operation i s = .next t) :
    Ended F Q i s t := by
  cases i with
  | getcsr | rdcnt | wrcnt => exact finish_ended (fun _ => rfl) (fun _ => rfl) (ends_ok.2 (hP s hs)) h
  | rdbits n =>
    exact finish_ended (fun _ => rfl) (fun _ => rfl) (ends_andThen_ok.2 (ends_andThen_ok.1 (hP.single hs))) h
  | rdopen | rdrst | rdclose | wropen | wrbits | wrflush | wrclose | tbuild | magicw | tser | ctab | encode | magicr
  | decode => exact finishDone_ended (fun _ => rfl) (fun _ => rfl) (hP.single hs) h
  | fcount | tdes => exact finishProducer_ended (fun _ => rfl) (fun _ => rfl) (hP.single hs) h
  | compress | decompress => exact runMacro_ended (fun _ => rfl) (fun _ => rfl) hP hs h

/-- Everything a command can do. -/
theorem exec_ended (hP : Checked i s → ∃ P : State → Prop, P s ∧ LinesEnd F Q (linesOf i) P)
    (h : exec i s = .next t) : Ended F Q i s t := by
  rcases exec_eq i s with he | ⟨n, rfl, he⟩
  · refine guarded_ended (he.symm.trans h) fun hc => ?_
    obtain ⟨P, hs, hl⟩ := hP hc
    exact operation_ended hs hl
  · obtain rfl := Host.Outcome.next.inj (he.symm.trans h)
    unfold illegalWord
    split
    · exact .refused ‹_›
    · rw [(Sys2Proof.Laws.Fields.fields (.getcsr n)).1]; exact .turnedAway (.illegal rfl _)

end

/-- Lines that each keep a relation keep it in turn. -/
theorem linesEnd_of_closed {R : State → State → Prop} {Q : State → Raise → State → Prop} (hR : Closed R Q) {s : State}
    {lines : List MacroLine} (h : ∀ l ∈ lines, ∀ u, (l.procedure u).Ends (R u) (Q u)) :
    LinesEnd (R s) (fun _ => Q s) lines (R s) := by
  induction lines with
  | nil => exact fun _ h => h
  | cons l lines ih =>
    exact ⟨R s, fun u hu => hR.after hu (h l (by simp) u), ih fun x hx => h x (by simp [hx])⟩

/-! Relations between start and end that the primitives a command uses keep, the command keeps. -/

/-- Whether the command reads bits (40 R124). -/
def readsBits : Instr → Bool
  | .rdbits _ | .fcount | .encode | .magicr | .tdes | .decode | .compress | .decompress => true
  | _ => false

/-- Whether the command writes bits (41 R144). -/
def writesBits : Instr → Bool
  | .wrbits _ _ | .magicw | .tser | .encode | .decode | .compress | .decompress => true
  | _ => false

/-- Whether the command writes a codec table. -/
def writesTables : Instr → Bool
  | .fcount | .tbuild | .tdes | .ctab | .compress | .decompress => true
  | _ => false

/-- The primitives that command `i` uses keep the relations. -/
structure Respected (R : State → State → Prop) (Q : State → Raise → State → Prop) (i : Instr) : Prop where
  closed : Closed R Q
  reads : readsBits i = true → ReadsKeep R Q
  writes : writesBits i = true → WritesKeep R Q
  tables : writesTables i = true → TablesKeep R
  rdOpen : i = .rdopen → ∀ s, (rdOpen s).Ends (R s) (Q s)
  rdReset : i = .rdrst ∨ i = .compress → ∀ s, (rdReset s).Ends (R s) (Q s)
  rdClose : i = .rdclose → ∀ s, R s (rdClose s)
  wrOpen : i = .wropen → ∀ s, (wrOpen s).Ends (R s) (Q s)
  wrFlush : i = .wrflush → ∀ s, (wrFlush s).Ends (R s) (Q s)
  wrClose : i = .wrclose ∨ i = .compress ∨ i = .decompress → ∀ s, (wrClose s).Ends (R s) (Q s)

section
variable {R : State → State → Prop} {Q : State → Raise → State → Prop} {i : Instr} {s t : State}

theorem Respected.lines (h : Respected R Q i) (ha : argCheck i = none) :
    ∀ l ∈ linesOf i, ∀ u, (l.procedure u).Ends (R u) (Q u) := by
  have hc := h.closed
  cases i with
  | getcsr | rdcnt | wrcnt => simp [linesOf]
  | wrbits n v =>
    have hn : bitCount n ≤ 32 := by
      by_contra hn
      simp [argCheck, countInRange, hn] at ha
    simpa [linesOf] using fun u => h.writes rfl _ _ u hn
  | rdbits n => simpa [linesOf] using fun u => ends_andThen_ok.2 (h.reads rfl _ u)
  | rdopen => simpa [linesOf] using h.rdOpen rfl
  | rdrst => simpa [linesOf] using h.rdReset (.inl rfl)
  | rdclose => simpa [linesOf] using h.rdClose rfl
  | wropen => simpa [linesOf] using h.wrOpen rfl
  | wrflush => simpa [linesOf] using h.wrFlush rfl
  | wrclose => simpa [linesOf] using h.wrClose (.inl rfl)
  | fcount => simpa [linesOf] using hc.fCount (h.reads rfl) (h.tables rfl)
  | tbuild => simpa [linesOf] using hc.tBuild (h.tables rfl)
  | magicw => simpa [linesOf, magicW] using fun u => h.writes rfl 32 _ u (Nat.le_refl 32)
  | tser => simpa [linesOf] using hc.serRoot (h.writes rfl)
  | ctab => simpa [linesOf] using hc.cTab (h.tables rfl)
  | encode => simpa [linesOf] using hc.encodeBody (h.reads rfl) (h.writes rfl)
  | magicr => simpa [linesOf] using hc.magicR (h.reads rfl)
  | tdes => simpa [linesOf] using hc.tDes (h.reads rfl) (h.tables rfl)
  | decode => simpa [linesOf] using hc.decodeBody (h.reads rfl) (h.writes rfl)
  | compress =>
    simp only [linesOf, compressLines, List.mem_cons, List.not_mem_nil, or_false]
    rintro l (rfl | rfl | rfl | rfl | rfl | rfl | rfl | rfl) u
    exacts [hc.fCount (h.reads rfl) (h.tables rfl) u, hc.tBuild (h.tables rfl) u, h.rdReset (.inr rfl) u,
      h.writes rfl 32 _ u (Nat.le_refl 32), hc.serRoot (h.writes rfl) u, hc.cTab (h.tables rfl) u,
      hc.encodeBody (h.reads rfl) (h.writes rfl) u, h.wrClose (.inr (.inl rfl)) u]
  | decompress =>
    simp only [linesOf, decompressLines, List.mem_cons, List.not_mem_nil, or_false]
    rintro l (rfl | rfl | rfl | rfl) u
    exacts [hc.magicR (h.reads rfl) u, hc.tDes (h.reads rfl) (h.tables rfl) u,
      hc.decodeBody (h.reads rfl) (h.writes rfl) u, h.wrClose (.inr (.inr rfl)) u]

theorem Respected.linesEnd (h : Respected R Q i) (ha : argCheck i = none) :
    LinesEnd (R s) (fun _ => Q s) (linesOf i) (R s) := linesEnd_of_closed h.closed (h.lines ha)

/-- A command whose primitives keep the relations ends as they say. -/
theorem Respected.ended (h : Respected R Q i) (hx : exec i s = .next t) : Ended (R s) (fun _ => Q s) i s t :=
  exec_ended (fun hc => ⟨R s, h.closed.refl s, h.linesEnd hc.arg⟩) hx

/-- The tables are all that the end of a command changes beside the response. -/
theorem settled_eq (i : Instr) (u : State) : ∃ freq freqValid node nodeCnt root treeValid code tableValid,
    settled i u = { u with freq := freq, freqValid := freqValid, node := node, nodeCnt := nodeCnt, root := root,
                           treeValid := treeValid, code := code, tableValid := tableValid } := by
  cases i <;> exact ⟨_, _, _, _, _, _, _, _, rfl⟩

theorem lost_eq (i : Instr) (u : State) : ∃ freq node nodeCnt root code,
    lost i u = { u with freq := freq, node := node, nodeCnt := nodeCnt, root := root, code := code } := by
  cases i <;> exact ⟨_, _, _, _, _, rfl⟩

/-- A relation that does not see the codec tables, ERR and the response holds of a command whose primitives keep it. -/
theorem Respected.rel (h : Respected R (fun s _ t => R s t) i) (ht : TablesKeep R)
    (he : ∀ (s : State) err rsp, R s { s with err := err, rsp := rsp }) (hx : exec i s = .next t) : R s t := by
  have trans := h.closed.trans
  cases h.ended hx with
  | refused => exact he s s.err _
  | turnedAway => rw [raiseErr_eq]; exact he s _ _
  | @completed u eos data hu =>
    obtain ⟨_, _, _, _, _, _, _, _, hs⟩ := settled_eq i u
    rw [hs]
    exact trans _ _ _ hu (trans _ _ _ (ht u _ _ _ _ _ _ _ _) (he _ _ _))
  | @raised u op e hu =>
    obtain ⟨_, _, _, _, _, hs⟩ := lost_eq i u
    rw [raiseErr_eq, hs]
    exact trans _ _ _ hu (trans _ _ _ (ht u _ _ _ _ _ _ _ _) (he _ _ _))

end

end Sys2Proof.Machine

namespace Sys2Proof.Machine

/-! ### What the procedures of the codec tables may change

Whatever the devices answer: the frames of FCOUNT (42 R161), TBUILD (43 R171), TDES (44 R189) and CTAB (45 R202). -/

theorem fCountLoop_frame (fuel : Nat) : ∀ s : State, (fCountLoop fuel s).All (CountFrame s) := by
  induction fuel with
  | zero => intro s; trivial
  | succ fuel ih =>
    intro s
    unfold fCountLoop
    refine Res.All.andThen (Res.All.imp (rdBits_frame 8 s) fun _ h => h.count) (fun _ h => h) fun r t ht => ?_
    split
    · exact ht
    · split
      · exact ht
      · refine (ih _).imp fun u hu => ht.trans _ _ _ (CountFrame.trans _ _ _ ⟨rfl, rfl⟩ hu)

theorem fCount_frame (s : State) :
    (fCount s).Ends (fun t => ∃ u, CountFrame (fCountStart s) u ∧ t = { u.setFreq terminator 1 with freqValid := true })
      fun _ => CountFrame (fCountStart s) := by
  have h := fCountLoop_frame ((fCountStart s).bitsLeft + 1) (fCountStart s)
  unfold fCount
  dsimp only
  cases hr : fCountLoop ((fCountStart s).bitsLeft + 1) (fCountStart s) with
  | ok a u => exact ⟨u, h.ok hr, rfl⟩
  | raised e u => exact h.raised hr
  | stuck f => trivial

/-- TBUILD's loop makes records and raises nothing (43 R172). -/
theorem mergeLoop_frame (fuel : Nat) : ∀ (q : List NodeIx) (s : State),
    (mergeLoop fuel q s).Ends (fun t => t = { s with node := t.node, nodeCnt := t.nodeCnt }) fun _ _ => False := by
  induction fuel with
  | zero =>
    intro q s
    match q with
    | [] => trivial
    | [r] => rfl
    | _ :: _ :: _ => trivial
  | succ fuel ih =>
    intro q s
    match q with
    | [] => trivial
    | [r] => rfl
    | i :: j :: q =>
      rw [mergeLoop]
      dsimp only
      split
      · trivial
      · exact (ih _ _).imp (fun t ht => ht.trans rfl) fun _ _ h => h

theorem tBuild_frame (s : State) :
    (tBuild s).Ends (fun t => t = { s with node := t.node, nodeCnt := t.nodeCnt, root := t.root, treeValid := true,
                                           tableValid := false }) fun _ _ => False := by
  obtain ⟨-, -, -, h0⟩ := tBuildLeaves_sound s
  have h := mergeLoop_frame (tBuildLeaves s).nodeCnt ((List.range (tBuildLeaves s).nodeCnt).map nodeIxOf) (tBuildLeaves s)
  unfold tBuild
  dsimp only
  cases hr : mergeLoop (tBuildLeaves s).nodeCnt ((List.range (tBuildLeaves s).nodeCnt).map nodeIxOf) (tBuildLeaves s) with
  | ok r u =>
    have hu := h.ok hr
    show ({ u with root := r, treeValid := true } : State) = _
    rw [hu, h0]
  | raised e u => exact h.raised hr
  | stuck f => trivial

theorem des_frame (fuel : Nat) : ∀ s : State, (des fuel s).All (DesFrame s) := by
  induction fuel with
  | zero => intro s; trivial
  | succ fuel ih =>
    have hrd : ∀ (n : Nat) (s : State), (rdBits n s).All (DesFrame s) := fun n s =>
      Res.All.imp (rdBits_frame n s) fun _ h => h.des
    intro s
    unfold des
    refine Res.All.seq DesFrame.trans (hrd 1 s) fun b t => ?_
    split
    · exact ⟨rfl, rfl⟩
    · split
      · exact ⟨rfl, rfl⟩
      · refine Res.All.imp (Res.All.seq DesFrame.trans (ih _) fun l u => Res.All.seq DesFrame.trans (ih u) fun r v => ?_)
          fun v hv => DesFrame.trans _ _ _ (desFrame_node t _ _) hv
        exact desFrame_node v _ _
    · refine Res.All.seq DesFrame.trans (hrd 9 t) fun y u => ?_
      split
      · exact ⟨rfl, rfl⟩
      · split
        · exact ⟨rfl, rfl⟩
        · split
          · exact ⟨rfl, rfl⟩
          · exact desFrame_node u _ _

/-- What TDES starts from: the two flags and NODE_CNT cleared (44 R189). -/
def desStart (s : State) : State := { s with treeValid := false, tableValid := false, nodeCnt := 0 }

theorem tDes_frame (s : State) :
    (tDes s).Ends (fun t => ∃ (r : NodeIx) (u : State), des (Config.nodeCap + 1) (desStart s) = .ok r u ∧
        (∃ w a b, u.nodeAt r = .internal w a b) ∧ DesFrame (desStart s) u ∧ t = { u with root := r, treeValid := true })
      fun _ => DesFrame (desStart s) := by
  have h := des_frame (Config.nodeCap + 1) (desStart s)
  unfold tDes
  rw [show ({ s with treeValid := false, tableValid := false, nodeCnt := 0 } : State) = desStart s from rfl]
  cases hr : des (Config.nodeCap + 1) (desStart s) with
  | ok r u =>
    rw [ok_andThen]
    split
    · exact h.ok hr
    · exact ⟨r, u, rfl, ⟨_, _, _, ‹_›⟩, h.ok hr, rfl⟩
  | raised e u => exact h.raised hr
  | stuck f => trivial

/-- CTAB's walk sets codes and raises nothing (45 R202). -/
theorem walk_frame (room : Nat) : ∀ (i : NodeIx) (path : List Bool) (s : State),
    (walk room i path s).Ends (fun t => t = { s with code := t.code }) fun _ _ => False := by
  induction room with
  | zero => intro i path s; trivial
  | succ room ih =>
    intro i path s
    unfold walk
    split
    · rename_i l r _
      have hl := ih l (path ++ [false]) s
      cases hr : walk room l (path ++ [false]) s with
      | ok a t =>
        refine (ih r (path ++ [true]) t).imp (fun u hu => ?_) fun _ _ h => h
        rw [hu, hl.ok hr]
      | raised e t => exact hl.raised hr
      | stuck f => trivial
    · rfl
    · rfl

theorem cTab_frame (s : State) :
    (cTab s).Ends (fun t => t = { s with code := t.code, tableValid := true }) fun _ _ => False := by
  have h := walk_frame Config.traversalStack s.root [] { s with tableValid := false, code := Vector.replicate 257 [] }
  unfold cTab
  cases hr : walk Config.traversalStack s.root [] { s with tableValid := false, code := Vector.replicate 257 [] } with
  | ok a t =>
    show ({ t with tableValid := true } : State) = _
    rw [h.ok hr]
  | raised e t => exact h.raised hr
  | stuck f => trivial

end Sys2Proof.Machine

namespace Sys2Proof.Machine

/-! ### The invariant, part by part -/

/-- The invariant of the reader and the source (10_state.md R25, R27, R28, 20_memory.md R61). -/
structure ReaderOk (s : State) : Prop where
  accCnt : s.rd.accCnt ≤ 64
  blkLen : s.rd.blk.length ≤ 8192
  blkIdx : s.rd.blkIdx ≤ s.rd.blk.length
  eos : s.rd.eos = true → s.rd.accCnt = 0 ∧ s.rd.blkIdx = s.rd.blk.length ∧ s.rd.srcEnd = true
  srcPos : s.src.pos ≤ s.src.content.length

/-- The invariant of the codec tables (10_state.md R34, R36, R37, R38). -/
structure TablesOk (s : State) : Prop where
  freqTerm : s.freqValid = true → s.freq.get terminator = 1
  nodeCntLe : s.nodeCnt ≤ 513
  tree : s.treeValid = true → ∃ t, s.holdsTree t
  codeLen : ∀ y : Symbol, (s.code.get y).length ≤ 256
  tablePrefix : s.tableValid = true → prefixCode s.code

/-- The invariant of ERR (10_state.md R44, 60_exceptions.md R246). -/
structure ErrOk (err : BitVec 64) : Prop where
  reserved : err.extractLsb' 24 8 = 0 ∧ (errCode err = 0 → err = 0)
  code : (errCode err).toNat ≤ 8

theorem inv_iff {s : State} : s.Inv ↔ ReaderOk s ∧ s.writerOk ∧ TablesOk s ∧ ErrOk s.err := by
  constructor
  · rintro ⟨h1, h2, h3, h4, h5, h6, h7, h8, h9, h10, h11, h12, h13, h14⟩
    exact ⟨⟨h1, h2, h3, h4, h7⟩, ⟨h5, h6⟩, ⟨h8, h9, h10, h11, h12⟩, ⟨h13, h14⟩⟩
  · rintro ⟨⟨h1, h2, h3, h4, h7⟩, ⟨h5, h6⟩, ⟨h8, h9, h10, h11, h12⟩, ⟨h13, h14⟩⟩
    exact ⟨h1, h2, h3, h4, h5, h6, h7, h8, h9, h10, h11, h12, h13, h14⟩

theorem errOk_zero : ErrOk 0 := ⟨by decide, by decide⟩

theorem errOk_packErr (e : Raise) (op mop : BitVec 8) : ErrOk (packErr e op mop) :=
  ⟨⟨packErr_reserved e op mop, fun h => absurd (errCode_packErr e op mop ▸ h) (errClass_code_ne _)⟩, by
    rw [errCode_packErr]; exact errClass_code_le _⟩

theorem raiseErr_errOk {s : State} (op mop : BitVec 8) (e : Raise) (h : ErrOk s.err) : ErrOk (raiseErr op mop e s).err := by
  rw [raiseErr_err]
  split
  · exact errOk_packErr e op mop
  · exact h

/-! #### The codec tables as one value -/

/-- The codec tables and their valid flags. -/
structure Tables where
  freq : Vector (BitVec 64) 257
  freqValid : Bool
  node : Vector Node 513
  nodeCnt : Nat
  root : NodeIx
  treeValid : Bool
  code : Vector (List Bool) 257
  tableValid : Bool

/-- The codec tables of a state. -/
def State.tables (s : State) : Tables :=
  ⟨s.freq, s.freqValid, s.node, s.nodeCnt, s.root, s.treeValid, s.code, s.tableValid⟩

theorem ReadFrame.tables {s t : State} (h : ReadFrame s t) : t.tables = s.tables := by rw [h.1]; rfl

theorem WriteFrame.tables {s t : State} (h : WriteFrame s t) : t.tables = s.tables := by rw [h.1]; rfl

/-- The invariant of the tables is about the tables alone. -/
theorem TablesOk.congr {s t : State} (h : TablesOk s) (ht : t.tables = s.tables) : TablesOk t := by
  simp only [State.tables, Tables.mk.injEq] at ht
  obtain ⟨e1, e2, e3, e4, e5, e6, e7, e8⟩ := ht
  obtain ⟨h1, h2, h3, h4, h5⟩ := h
  refine ⟨by rwa [e1, e2], by rwa [e4], fun hv => ?_, by rwa [e7], by rwa [e7, e8]⟩
  obtain ⟨tr, htr⟩ := h3 (e6 ▸ hv)
  exact ⟨tr, by unfold State.holdsTree; rw [e3, e4, e5]; exact htr⟩

/-! #### The reader and the writer keep their invariants -/

theorem rdRefillBlock_readerOk (s : State) :
    (rdRefillBlock s).Ends (fun t => ReaderOk s → ReaderOk t ∧ t.rd.accCnt = s.rd.accCnt ∧
        (t.rd.blkIdx = t.rd.blk.length → t.rd.srcEnd = true)) fun _ t => ReaderOk s → ReaderOk t := by
  unfold rdRefillBlock
  split
  · exact fun h => ⟨h, rfl, fun _ => ‹_›⟩
  · rename_i hend
    unfold State.fetchAnswer
    have heos : ReaderOk s → s.rd.eos = false := fun h => by
      by_contra he
      exact hend (h.eos (by simpa using he)).2.2
    by_cases hf : s.srcFails = true
    · simp only [hf, if_true]
      exact fun h => ⟨h.accCnt, h.blkLen, h.blkIdx, h.eos, by simp [Source.after]⟩
    · by_cases hp : s.src.pos < s.src.content.length
      · simp only [hf, hp, if_true, if_false, Bool.false_eq_true]
        refine fun h => ⟨⟨h.accCnt, by simp [Config.rdBlockBytes], by simp, by simp [heos h], ?_⟩, rfl, ?_⟩
        · simp [Source.after]; omega
        · simp [Config.rdBlockBytes]; omega
      · simp only [hf, hp, if_false, Bool.false_eq_true]
        exact fun h => ⟨⟨h.accCnt, by simp, by simp, by simp [heos h], h.srcPos⟩, rfl, fun _ => rfl⟩

/-- With RD_BLK used up a refill moves nothing (40 R126). -/
theorem load_nothing {r : Reader} (a : BitVec 64) (h : r.blkIdx = r.blk.length) : r.load a = { r with accCnt := 0 } := by
  simp [Reader.load, h]

theorem load_readerOk {s : State} (a : BitVec 64) (h : ReaderOk s) : ReaderOk { s with rd := s.rd.load a } := by
  refine ⟨?_, ?_, ?_, fun he => ?_, h.srcPos⟩
  · simp only [load_accCnt]; omega
  · simpa only [load_blk] using h.blkLen
  · simpa only [load_blk] using load_blkIdx _ _ h.blkIdx
  · obtain ⟨-, hi, hend⟩ := h.eos (by simpa only [load_eos] using he)
    simp only [load_nothing a hi]
    exact ⟨trivial, hi, hend⟩

/-- A refill that leaves RD_ACC empty has come to the end of the source. -/
theorem rdRefillAcc_readerOk (s : State) :
    (rdRefillAcc s).Ends (fun t => ReaderOk s → ReaderOk t ∧
        (t.rd.accCnt = 0 → t.rd.blkIdx = t.rd.blk.length ∧ t.rd.srcEnd = true)) fun _ t => ReaderOk s → ReaderOk t := by
  have hblk : (if s.rd.blkIdx = s.rd.blkLen then rdRefillBlock s else .ok () s).Ends (fun t => ReaderOk s → ReaderOk t ∧
      (t.rd.blkIdx = t.rd.blk.length → t.rd.srcEnd = true)) fun _ t => ReaderOk s → ReaderOk t := by
    split
    · exact (rdRefillBlock_readerOk s).imp (fun t ht h => ⟨(ht h).1, (ht h).2.2⟩) fun _ _ h => h
    · rename_i hne
      exact fun h => ⟨h, fun he => absurd he hne⟩
  unfold rdRefillAcc
  cases hr : (if s.rd.blkIdx = s.rd.blkLen then rdRefillBlock s else .ok () s) with
  | ok a u =>
    intro h
    obtain ⟨hu, hend⟩ := hblk.ok hr h
    refine ⟨load_readerOk _ hu, fun hz => ?_⟩
    have hi : u.rd.blkIdx = u.rd.blk.length := by
      have := hu.blkIdx
      simp only [load_accCnt] at hz; omega
    rw [load_nothing _ hi]
    exact ⟨hi, hend hi⟩
  | raised e u => exact hblk.raised hr
  | stuck f => trivial

theorem rdBits_readerOk (n : Nat) (s : State) : (rdBits n s).All fun t => ReaderOk s → ReaderOk t := by
  have loop : ∀ (fuel need v : Nat) (s : State), (rdBitsLoop fuel n need v s).All fun t => ReaderOk s → ReaderOk t := by
    intro fuel
    induction fuel with
    | zero => intro need v s; trivial
    | succ fuel ih =>
      intro need v s
      unfold rdBitsLoop
      split
      · refine fun h => ⟨?_, h.blkLen, h.blkIdx, fun he => ?_, h.srcPos⟩
        · have := h.accCnt; dsimp only; omega
        · have := h.eos he
          exact ⟨by dsimp only; omega, this.2⟩
      · have h0 : ReaderOk s → ReaderOk { s with rd := { s.rd with accCnt := 0 } } := fun h =>
          ⟨Nat.zero_le _, h.blkLen, h.blkIdx, fun he => ⟨rfl, (h.eos he).2⟩, h.srcPos⟩
        have hra := rdRefillAcc_readerOk { s with rd := { s.rd with accCnt := 0 } }
        cases hr : rdRefillAcc { s with rd := { s.rd with accCnt := 0 } } with
        | ok a t =>
          rw [ok_andThen]
          split
          · rename_i hz
            intro h
            obtain ⟨ht, hend⟩ := hra.ok hr (h0 h)
            exact ⟨ht.accCnt, ht.blkLen, ht.blkIdx, fun _ => ⟨hz, hend hz⟩, ht.srcPos⟩
          · exact (ih _ _ t).imp fun u hu h => hu (hra.ok hr (h0 h)).1
        | raised e t => exact fun h => hra.raised hr (h0 h)
        | stuck f => trivial
  exact loop 6 n 0 s

theorem wrPutBlock_writerOk {s : State} (h : s.wr.accCnt ≤ 63) : (wrPutBlock s).All State.writerOk := by
  unfold wrPutBlock
  dsimp only
  split <;> exact ⟨h, by simp, by simp⟩

theorem wrBits_writerOk {n : Nat} (v : Nat) (s : State) (hn : n ≤ 32) :
    (wrBits n v s).All fun t => s.writerOk → t.writerOk := by
  unfold wrBits
  dsimp only
  split
  · rintro ⟨h1, h2, h3⟩
    exact ⟨by dsimp only; omega, h2, h3⟩
  · split
    · exact (wrPutBlock_writerOk (by dsimp only; omega)).imp fun _ h _ => h
    · rename_i hfull
      rintro ⟨h1, h2, h3⟩
      simp only [Writer.blkLen, List.length_append, beBytes_length, Config.wrBlockBytes] at hfull
      exact ⟨by dsimp only; omega, by simp; omega, by simp; omega⟩

/-- A flush leaves the writer empty (41 R147). -/
theorem wrFlush_writerOk (s : State) : (wrFlush s).All State.writerOk := by
  unfold wrFlush
  dsimp only
  split
  · exact wrPutBlock_writerOk (by simp)
  · rename_i hz
    have hb := List.length_eq_zero_iff.1 (Nat.eq_zero_of_not_pos hz)
    exact ⟨by simp, by rw [hb]; rfl, by rw [hb]; simp⟩
/-! #### Procedures that leave the tables alone keep the invariant -/

/-- The tables stay as they are and the invariant is kept. -/
def KeepsInv (s t : State) : Prop := t.tables = s.tables ∧ (s.Inv → t.Inv)

theorem keepsInv_chained : Chained KeepsInv :=
  .of (fun _ => ⟨rfl, id⟩) fun _ _ _ h h' => ⟨h'.1.trans h.1, h'.2 ∘ h.2⟩

theorem KeepsInv.of {s t : State} (ht : t.tables = s.tables) (he : t.err = s.err) (hr : ReaderOk s → ReaderOk t)
    (hw : s.writerOk → t.writerOk) : KeepsInv s t := by
  refine ⟨ht, fun h => ?_⟩
  obtain ⟨h1, h2, h3, h4⟩ := inv_iff.1 h
  exact inv_iff.2 ⟨hr h1, hw h2, h3.congr ht, he ▸ h4⟩

theorem ReaderOk.congr {s t : State} (h : ReaderOk s) (hr : t.rd = s.rd) (hs : t.src = s.src) : ReaderOk t := by
  obtain ⟨h1, h2, h3, h4, h5⟩ := h
  exact ⟨by rwa [hr], by rwa [hr], by rwa [hr], by rwa [hr], by rwa [hs]⟩

theorem ReadFrame.keepsInv {s t : State} (h : ReadFrame s t) (hr : ReaderOk s → ReaderOk t) : KeepsInv s t :=
  .of h.tables (by rw [h.1]) hr fun hw => by unfold State.writerOk; rw [h.wr]; exact hw

theorem WriteFrame.keepsInv {s t : State} (h : WriteFrame s t) (hw : s.writerOk → t.writerOk) : KeepsInv s t :=
  .of h.tables (by rw [h.1]) (fun hr => hr.congr h.rd h.src) hw

/-- Two facts about the ends of one procedure. -/
theorem Res.Ends.and {α : Type} {P P' : State → Prop} {Q Q' : Raise → State → Prop} {r : Res α} (h : r.Ends P Q)
    (h' : r.Ends P' Q') : r.Ends (fun t => P t ∧ P' t) fun e t => Q e t ∧ Q' e t := by
  cases r with
  | ok a t => exact ⟨h, h'⟩
  | raised e t => exact ⟨h, h'⟩
  | stuck f => trivial

theorem keepsInv_reads : ReadsKeep KeepsInv := fun n s =>
  ((rdBits_frame n s).and (rdBits_readerOk n s)).imp (fun _ h => ReadFrame.keepsInv h.1 h.2) fun _ _ h => ReadFrame.keepsInv h.1 h.2

theorem keepsInv_writes : WritesKeep KeepsInv := fun n v s hn =>
  ((wrBits_frame n v s).and (wrBits_writerOk v s hn)).imp (fun _ h => WriteFrame.keepsInv h.1 h.2) fun _ _ h =>
    WriteFrame.keepsInv h.1 h.2

theorem wrFlush_keepsInv (s : State) : (wrFlush s).All (KeepsInv s) :=
  ((wrFlush_frame s).and (wrFlush_writerOk s)).imp (fun _ h => WriteFrame.keepsInv h.1 fun _ => h.2) fun _ _ h =>
    WriteFrame.keepsInv h.1 fun _ => h.2

theorem wrRelease_keepsInv (s : State) : KeepsInv s (wrRelease s) := .of rfl rfl (fun h => h.congr rfl rfl) id

theorem wrClose_keepsInv (s : State) : (wrClose s).All (KeepsInv s) := by
  have h := wrFlush_keepsInv s
  unfold wrClose
  split
  · cases hr : wrFlush s with
    | ok a t => exact keepsInv_chained.trans _ _ _ (h.ok hr) (wrRelease_keepsInv t)
    | raised e t => exact keepsInv_chained.trans _ _ _ (h.raised hr) (wrRelease_keepsInv t)
    | stuck f => trivial
  · exact keepsInv_chained.refl s

theorem wrOpen_keepsInv (s : State) : (wrOpen s).All (KeepsInv s) := by
  unfold wrOpen
  dsimp only
  split
  · exact .of rfl rfl (fun h => h.congr rfl rfl) id
  · exact .of rfl rfl (fun h => h.congr rfl rfl) fun _ => ⟨by simp, by simp, by simp⟩

/-- An open or a rewind leaves the source within its content (20_memory.md R61). -/
theorem srcOpen_readerOk {s : State} (h : ReaderOk s) (a : OpenAnswer) :
    ReaderOk (s.transact (.srcOpen a)) ∧ ReaderOk (s.transact (.srcRewind a)) := by
  obtain ⟨h1, h2, h3, h4, h5⟩ := h
  rcases a with _ | (_ | _)
  · exact ⟨⟨h1, h2, h3, h4, Nat.zero_le _⟩, ⟨h1, h2, h3, h4, Nat.zero_le _⟩⟩
  · exact ⟨⟨h1, h2, h3, h4, h5⟩, ⟨h1, h2, h3, h4, h5⟩⟩
  · exact ⟨⟨h1, h2, h3, h4, Nat.zero_le _⟩, ⟨h1, h2, h3, h4, Nat.zero_le _⟩⟩

theorem init_readerOk {s : State} (h : ReaderOk s) (o : Bool) : ReaderOk { s with rd := { s.rd.init with isOpen := o } } :=
  ⟨Nat.zero_le _, Nat.zero_le _, Nat.le_refl _, fun he => absurd he (by simp [Reader.init]), h.srcPos⟩

theorem rdOpen_keepsInv (s : State) : (rdOpen s).All (KeepsInv s) := by
  unfold rdOpen
  dsimp only
  split
  · exact .of rfl rfl (fun h => (srcOpen_readerOk h _).1) id
  · exact .of rfl rfl (fun h => init_readerOk (srcOpen_readerOk h _).1 true) id

theorem rdReset_keepsInv (s : State) : (rdReset s).All (KeepsInv s) := by
  unfold rdReset
  dsimp only
  split
  · exact .of rfl rfl (fun h => (srcOpen_readerOk h _).2) id
  · exact .of rfl rfl (fun h => init_readerOk (srcOpen_readerOk h _).2 s.rd.isOpen) id

theorem rdClose_keepsInv (s : State) : KeepsInv s (rdClose s) := by
  unfold rdClose
  split
  · exact .of rfl rfl (fun h => ⟨h.accCnt, h.blkLen, h.blkIdx, h.eos, h.srcPos⟩) id
  · exact keepsInv_chained.refl s

/-- A command that writes no table keeps the invariant in each of its procedures. -/
theorem keepsInv_respected {i : Instr} (hi : writesTables i = false) : Respected KeepsInv (fun s _ t => KeepsInv s t) i where
  closed := keepsInv_chained
  reads _ := keepsInv_reads
  writes _ := keepsInv_writes
  tables h := by rw [hi] at h; cases h
  rdOpen _ := rdOpen_keepsInv
  rdReset _ := rdReset_keepsInv
  rdClose _ := rdClose_keepsInv
  wrOpen _ := wrOpen_keepsInv
  wrFlush _ := wrFlush_keepsInv
  wrClose _ := wrClose_keepsInv

/-! #### The procedures of the tables -/

/-- The invariants of the two units, and ERR as it was: what every procedure keeps whatever it does to the tables. -/
def KeepsUnits (s t : State) : Prop := t.err = s.err ∧ (ReaderOk s ∧ s.writerOk → ReaderOk t ∧ t.writerOk)

theorem keepsUnits_chained : Chained KeepsUnits :=
  .of (fun _ => ⟨rfl, id⟩) fun _ _ _ h h' => ⟨h'.1.trans h.1, h'.2 ∘ h.2⟩

theorem keepsUnits_reads : ReadsKeep KeepsUnits := fun n s => by
  refine ((rdBits_frame n s).and (rdBits_readerOk n s)).imp (fun t h => ?_) fun _ t h => ?_ <;>
  · obtain ⟨hf, hr⟩ := h
    exact ⟨by rw [hf.1], fun ⟨h1, h2⟩ => ⟨hr h1, by unfold State.writerOk; rw [ReadFrame.wr hf]; exact h2⟩⟩

theorem keepsUnits_tables : TablesKeep KeepsUnits := fun _ _ _ _ _ _ _ _ _ =>
  ⟨rfl, fun h => ⟨h.1.congr rfl rfl, h.2⟩⟩

theorem KeepsUnits.inv {s t : State} (h : KeepsUnits s t) (hs : s.Inv) (ht : TablesOk t) : t.Inv := by
  obtain ⟨h1, h2, -, h4⟩ := inv_iff.1 hs
  obtain ⟨g1, g2⟩ := h.2 ⟨h1, h2⟩
  exact inv_iff.2 ⟨g1, g2, ht, h.1 ▸ h4⟩

/-- With the three flags 0 the tables need only the ranges of NODE_CNT and LEN. -/
theorem TablesOk.unflagged {t : State} (h1 : t.freqValid = false) (h2 : t.treeValid = false) (h3 : t.tableValid = false)
    (h4 : t.nodeCnt ≤ 513) (h5 : ∀ y : Symbol, (t.code.get y).length ≤ 256) : TablesOk t :=
  ⟨by simp [h1], h4, by simp [h2], h5, by simp [h3]⟩

theorem fCount_inv {s : State} (h : s.Inv) : (fCount s).Ends (fun t => t.Inv ∧ t.freqValid = true) fun _ t => t.Inv := by
  refine ((keepsUnits_chained.fCount keepsUnits_reads keepsUnits_tables s).and (fCount_frame s)).imp (fun t ht => ?_)
    fun _ t ht => ?_
  · obtain ⟨hk, u, hu, rfl⟩ := ht
    refine ⟨hk.inv h ⟨fun _ => ?_, ?_, fun hv => ?_, ?_, fun hv => ?_⟩, rfl⟩
    · simp [State.setFreq, Vector.get_eq_getElem]
    · rw [hu.1]; exact h.nodeCntLe
    · rw [hu.1] at hv; cases hv
    · rw [hu.1]; exact h.codeLen
    · rw [hu.1] at hv; cases hv
  · obtain ⟨hk, hu⟩ := ht
    refine hk.inv h (TablesOk.unflagged ?_ ?_ ?_ ?_ ?_) <;> rw [hu.1]
    exacts [rfl, rfl, rfl, h.nodeCntLe, h.codeLen]

theorem tBuild_inv {s : State} (h : s.Inv) (hv : s.freqValid = true) :
    (tBuild s).Ends (fun t => t.Inv ∧ t.treeValid = true) fun _ t => t.Inv := by
  have hterm : s.freqOf terminator = 1 := h.freqTerm hv
  obtain ⟨t, x, ht, hf, hfr, hcnt, -, -, hperm, -⟩ := tBuild_sound hterm
  have hk := (keepsUnits_chained.tBuild keepsUnits_tables s).ok ht
  have hle := expectedLeaves_length_le s.freq
  have hge := two_le_expectedLeaves (freq := s.freq) hterm
  have hleaves : 2 ≤ x.tree.leaves := by
    have := hperm.length_eq
    simp only [List.length_map, codes_length] at this; omega
  rw [ht]
  refine ⟨hk.inv h ⟨?_, by omega, fun _ => ⟨x.tree, hf.holdsTree hleaves⟩, ?_, ?_⟩, by rw [hfr]⟩
  · rw [hfr]; exact h.freqTerm
  · rw [hfr]; exact h.codeLen
  · rw [hfr]; simp

/-- No entry of a tree's table is the beginning of another (45 R202 (d)). -/
theorem prefixCode_of_entries {tr : CodeTree} {code : Vector (List Bool) 257} (hc : ∀ y, code.get y = tr.entry y) :
    prefixCode code := by
  intro y z hyz hy hpre
  rw [hc y] at hy hpre
  rw [hc z] at hpre
  have hm : ∀ w, tr.entry w ≠ [] → (w, tr.entry w) ∈ tr.codes := fun w hw => by
    by_contra hn
    exact hw (entry_eq_nil fun h => hn (entry_mem h))
  have hz : tr.entry z ≠ [] := fun h => hy (List.eq_nil_of_prefix_nil (h ▸ hpre))
  exact hyz (congrArg Prod.fst (codes_eq_of_prefix (hm y hy) (hm z hz) hpre))

theorem entry_length_le {tr : CodeTree} (y : Symbol) : (tr.entry y).length ≤ tr.depth := by
  by_cases hy : y ∈ tr.codes.map Prod.fst
  · exact code_length_le tr _ (entry_mem hy)
  · rw [entry_eq_nil hy]; exact Nat.zero_le _

theorem cTab_inv {s : State} (h : s.Inv) (hv : s.treeValid = true) :
    (cTab s).Ends (fun t => t.Inv ∧ t.tableValid = true) fun _ t => t.Inv := by
  obtain ⟨tr, htr⟩ := h.tree hv
  obtain ⟨c, hc, hentry⟩ := cTab_sound htr
  have hk := (keepsUnits_chained.cTab keepsUnits_tables s).ok hc
  obtain ⟨-, ixs, hat, hnd, -⟩ := htr
  have hd := depth_le_of_nodup hat hnd
  rw [hc]
  refine ⟨hk.inv h ⟨h.freqTerm, h.nodeCntLe, h.tree, fun y => ?_, fun _ => prefixCode_of_entries hentry⟩, rfl⟩
  rw [hentry]
  have := entry_length_le (tr := tr) y
  omega

/-! #### What TDES builds, whatever the stream holds -/

/-- `Des` never takes a record beyond the last (44 R189). -/
theorem des_nodeCnt_le (fuel : Nat) : ∀ {s : State}, s.nodeCnt ≤ 513 → (des fuel s).All fun t => t.nodeCnt ≤ 513 := by
  induction fuel with
  | zero => intro s _; trivial
  | succ fuel ih =>
    have hrd : ∀ (n : Nat) {s : State}, s.nodeCnt ≤ 513 → (rdBits n s).All fun t => t.nodeCnt ≤ 513 := fun n s hs =>
      Res.All.imp (rdBits_frame n s) fun t h => by rw [h.nodeCnt]; exact hs
    intro s hs
    unfold des
    refine Res.All.andThen (hrd 1 hs) (fun _ h => h) fun b t ht => ?_
    split
    · exact ht
    · split
      · exact ht
      · rename_i hcap
        refine Res.All.andThen (ih (by simp only [Config.nodeCap] at hcap; dsimp only; omega)) (fun _ h => h) fun l u hu => ?_
        exact Res.All.andThen (ih hu) (fun _ h => h) fun r v hv => hv
    · refine Res.All.andThen (hrd 9 ht) (fun _ h => h) fun y u hu => ?_
      split
      · exact hu
      · split
        · exact hu
        · split
          · exact hu
          · rename_i hcap
            simp only [Config.nodeCap] at hcap
            show u.nodeCnt + 1 ≤ 513
            omega

/-- What a completed `Des` has built from record NODE_CNT on, in pre-order, the other records as they were (44 R189). -/
structure Built (s t : State) (tr : CodeTree) : Prop where
  nodeCnt : t.nodeCnt = s.nodeCnt + tr.size
  bound : t.nodeCnt ≤ 513
  tree : TreeAt t.node tr (nodeIxOf s.nodeCnt) (ixRange s.nodeCnt tr.size)
  others : ∀ k : NodeIx, k.val < s.nodeCnt → t.nodeAt k = s.nodeAt k

/-- A leaf in the next record. -/
theorem built_leaf {s u : State} (y : Symbol) (w : Weight) (hu : u.node = s.node) (hc : u.nodeCnt = s.nodeCnt)
    (h : s.nodeCnt < 513) : Built s (u.pushNode (.leaf (some y) w)) (.leaf y) := by
  have hpush : ∀ k : NodeIx, (u.pushNode (.leaf (some y) w)).nodeAt k =
      if nodeIxOf s.nodeCnt = k then .leaf (some y) w else s.nodeAt k := fun k => by
    rw [nodeAt_pushNode, hc]; simp only [State.nodeAt, hu]
  refine ⟨by rw [pushNode_nodeCnt, hc]; rfl, by rw [pushNode_nodeCnt]; omega, ⟨rfl, w, (hpush _).trans (if_pos rfl)⟩,
    fun k hk => (hpush k).trans (if_neg ?_)⟩
  rintro rfl
  rw [nodeIxOf_val h] at hk; omega

/-- An internal record before its two subtrees. -/
theorem built_node {s t u v : State} {l r : CodeTree} {a b : NodeIx} (w : Weight) (ht : t.node = s.node)
    (hc : t.nodeCnt = s.nodeCnt + 1) (ha : a = nodeIxOf t.nodeCnt) (hb : b = nodeIxOf u.nodeCnt) (hl : Built t u l)
    (hr : Built u v r) : Built s (v.setNode (nodeIxOf s.nodeCnt) (.internal w a b)) (.node l r) := by
  have hu := hl.nodeCnt
  have hv := hr.nodeCnt
  have hle := hr.bound
  have hset : ∀ k : NodeIx, (v.setNode (nodeIxOf s.nodeCnt) (.internal w a b)).nodeAt k =
      if nodeIxOf s.nodeCnt = k then .internal w a b else v.nodeAt k := fun k => nodeAt_setNode _ _ _ _
  have hother : ∀ k : NodeIx, s.nodeCnt ≠ k.val →
      (v.setNode (nodeIxOf s.nodeCnt) (.internal w a b)).nodeAt k = v.nodeAt k := by
    intro k hk
    refine (hset k).trans (if_neg ?_)
    rintro rfl
    exact hk (nodeIxOf_val (by omega)).symm
  have hlt : TreeAt u.node l a (ixRange (s.nodeCnt + 1) l.size) := by rw [ha, ← hc]; exact hl.tree
  have hrt : TreeAt v.node r b (ixRange (s.nodeCnt + 1 + l.size) r.size) := by rw [hb, ← hc, ← hu]; exact hr.tree
  refine ⟨by show v.nodeCnt = _; simp only [CodeTree.size]; omega, hle, ?_, fun k hk => ?_⟩
  · refine ⟨w, a, b, _, _, (hset _).trans (if_pos rfl), treeAt_congr hlt fun j hj => ?_, treeAt_congr hrt fun j hj => ?_,
      ixRange_node _ _ _⟩ <;> rw [mem_ixRange (by omega)] at hj
    · exact (hother j (by omega)).trans (hr.others j (by omega))
    · exact hother j (by omega)
  · rw [hother k (by omega), hr.others k (by omega), hl.others k (by omega)]
    simp only [State.nodeAt, ht]

/-- `Des`, where it completes, has built a tree, in pre-order from record NODE_CNT on (44 R189). -/
theorem des_builds (fuel : Nat) : ∀ {s t : State} {r : NodeIx}, s.nodeCnt ≤ 513 → des fuel s = .ok r t →
    r = nodeIxOf s.nodeCnt ∧ ∃ tr, Built s t tr := by
  induction fuel with
  | zero => intro s t r _ h; cases h
  | succ fuel ih =>
    intro s t r hs h
    unfold des at h
    obtain ⟨b, u, hu, h⟩ := andThen_eq_ok.1 h
    have hf : ReadFrame s u := (rdBits_frame 1 s).ok hu
    have hc := hf.nodeCnt
    split at h
    · cases h
    · split at h
      · cases h
      · rename_i hcap
        simp only [Config.nodeCap] at hcap
        obtain ⟨l, v, hv, h⟩ := andThen_eq_ok.1 h
        obtain ⟨r', x, hx, h⟩ := andThen_eq_ok.1 h
        obtain ⟨rfl, rfl⟩ := Res.ok.inj h
        obtain ⟨rfl, trl, hl⟩ := ih (by dsimp only; omega) hv
        obtain ⟨rfl, trr, hr⟩ := ih hl.bound hx
        have hix : nodeIxOf u.nodeCnt = nodeIxOf s.nodeCnt := by rw [hc]
        rw [hix]
        exact ⟨rfl, .node trl trr, built_node (t := { u with nodeCnt := u.nodeCnt + 1 }) 0 hf.node
          (congrArg (· + 1) hc) rfl rfl hl hr⟩
    · obtain ⟨y, v, hv, h⟩ := andThen_eq_ok.1 h
      have hf2 : ReadFrame s v := hf.trans _ _ _ ((rdBits_frame 9 u).ok hv)
      split at h
      · cases h
      · split at h
        · cases h
        · split at h
          · cases h
          · rename_i hcap
            simp only [Config.nodeCap] at hcap
            have hc2 := hf2.nodeCnt
            obtain ⟨rfl, rfl⟩ := Res.ok.inj h
            rw [hc2]
            exact ⟨rfl, _, built_leaf _ 0 hf2.node hc2 (by omega)⟩

/-- What TDES has built is a tree as R36 says, its root being internal. -/
theorem Built.holdsTree {s t : State} {tr : CodeTree} {w : Weight} {a b : NodeIx} (h : Built s t tr) (hs : s.nodeCnt = 0)
    (hi : t.nodeAt (nodeIxOf 0) = .internal w a b) : ({ t with root := nodeIxOf 0, treeValid := true } : State).holdsTree tr := by
  obtain ⟨hc, hb, ht, -⟩ := h
  rw [hs] at hc ht
  refine ⟨?_, ixRange 0 tr.size, ht, ixRange_nodup (by omega), fun i => ?_⟩
  · cases tr with
    | leaf y =>
      obtain ⟨-, v, hv⟩ := ht
      exact absurd (hi.symm.trans hv) (by simp)
    | node l r => exact ⟨l, r, rfl⟩
  · rw [mem_ixRange (by omega)]
    show _ ↔ i.val < t.nodeCnt
    omega

theorem tDes_inv {s : State} (h : s.Inv) : (tDes s).Ends (fun t => t.Inv ∧ t.treeValid = true) fun _ t => t.Inv := by
  have hcnt : (tDes s).All fun t => t.nodeCnt ≤ 513 := by
    unfold tDes
    refine Res.All.andThen (des_nodeCnt_le _ (Nat.zero_le _)) (fun _ h => h) fun r t ht => ?_
    split <;> exact ht
  refine (((keepsUnits_chained.tDes keepsUnits_reads keepsUnits_tables s).and (tDes_frame s)).and hcnt).imp
    (fun t ht => ?_) fun _ t ht => ?_
  · obtain ⟨⟨hk, r, u, hdes, ⟨w, a, b, hi⟩, hu, rfl⟩, hc⟩ := ht
    obtain ⟨rfl, tr, hb⟩ := des_builds _ (Nat.zero_le _) hdes
    refine ⟨hk.inv h ⟨?_, hc, fun _ => ⟨tr, hb.holdsTree rfl hi⟩, ?_, ?_⟩, rfl⟩
    · rw [hu.1]; exact h.freqTerm
    · rw [hu.1]; exact h.codeLen
    · rw [hu.1]; intro hv; cases hv
  · obtain ⟨⟨hk, hu⟩, hc⟩ := ht
    refine hk.inv h ⟨?_, hc, ?_, ?_, ?_⟩ <;> rw [hu.1]
    exacts [h.freqTerm, fun hv => absurd hv Bool.false_ne_true, h.codeLen, fun hv => absurd hv Bool.false_ne_true]

/-! #### A command keeps the invariant -/

/-- What the checks of R258 have found. -/
theorem Checked.holds {i : Instr} {s : State} (h : Checked i s) : ∀ n ∈ needs i, n.holds s = true := by
  have hf := h.seq
  simpa [seqCheck, List.find?_eq_none] using hf

theorem respond_inv {s : State} (ok eos : Bool) (d : BitVec 64) (h : s.Inv) : (s.respond ok eos d).Inv := { h with }

theorem raiseErr_inv {s : State} (op mop : BitVec 8) (e : Raise) (h : s.Inv) : (raiseErr op mop e s).Inv := by
  have he := raiseErr_errOk op mop e (inv_iff.1 h).2.2.2
  rw [raiseErr_eq]
  exact { h with errReserved := he.reserved, errClass := he.code }

theorem clearFlags_inv {s : State} (h : s.Inv) : s.clearFlags.Inv :=
  { h with
    freqTerm := fun hv => absurd hv Bool.false_ne_true
    tree := fun hv => absurd hv Bool.false_ne_true
    tablePrefix := fun hv => absurd hv Bool.false_ne_true }

theorem settled_inv (i : Instr) {u : State} (h : u.Inv) : (settled i u).Inv := by
  unfold settled
  split
  · exact forgetTables_inv (clearFlags_inv h)
  · exact forgetTables_inv (clearFlags_inv h)
  · exact h

theorem lost_inv (i : Instr) {u : State} (h : u.Inv) : (lost i u).Inv := by
  unfold lost
  split
  · exact forgetTables_inv h
  · exact forgetTables_inv h
  · exact forgetTables_inv h
  · exact forgetTables_inv h
  · exact h

/-- A procedure that keeps the tables and the invariant, with what is known of the tables before and after it. -/
theorem ends_inv {α : Type} {p : State → Res α} (hp : ∀ s, (p s).All (KeepsInv s)) {P : Tables → Prop} {s : State}
    (h : s.Inv ∧ P s.tables) : (p s).Ends (fun t => t.Inv ∧ P t.tables) fun _ => State.Inv :=
  Res.Ends.imp (hp s) (fun _ ht => ⟨ht.2 h.1, ht.1 ▸ h.2⟩) fun _ _ ht => ht.2 h.1

theorem serRoot_keepsInv (s : State) : (serRoot s).All (KeepsInv s) := keepsInv_chained.serRoot keepsInv_writes s

theorem encodeBody_keepsInv (s : State) : (encodeBody s).All (KeepsInv s) :=
  keepsInv_chained.encodeBody keepsInv_reads keepsInv_writes s

theorem decodeBody_keepsInv (s : State) : (decodeBody s).All (KeepsInv s) :=
  keepsInv_chained.decodeBody keepsInv_reads keepsInv_writes s

theorem magicR_keepsInv (s : State) : (magicR s).All (KeepsInv s) := keepsInv_chained.magicR keepsInv_reads s

theorem magicW_keepsInv (s : State) : (magicW s).All (KeepsInv s) := keepsInv_writes 32 _ s (Nat.le_refl 32)

/-- The lines of COMPRESS: the flags that one needs are set by one before it (45 R206). -/
theorem compressLines_inv : LinesEnd State.Inv (fun _ _ => State.Inv) compressLines State.Inv :=
  ⟨_, fun _ h => fCount_inv h, _, fun _ h => tBuild_inv h.1 h.2,
    _, fun _ h => ends_inv rdReset_keepsInv (P := fun x => x.treeValid = true) h,
    _, fun _ h => ends_inv magicW_keepsInv (P := fun x => x.treeValid = true) h,
    _, fun _ h => ends_inv serRoot_keepsInv (P := fun x => x.treeValid = true) h,
    _, fun _ h => cTab_inv h.1 h.2,
    _, fun _ h => ends_inv encodeBody_keepsInv (P := fun x => x.tableValid = true) h,
    _, fun _ h => ends_inv wrClose_keepsInv (P := fun x => x.tableValid = true) h, fun _ h => h.1⟩

/-- The lines of DECOMPRESS (46 R226). -/
theorem decompressLines_inv : LinesEnd State.Inv (fun _ _ => State.Inv) decompressLines State.Inv :=
  ⟨_, fun _ h => ends_inv magicR_keepsInv (P := fun _ => True) ⟨h, trivial⟩, _, fun _ h => tDes_inv h.1,
    _, fun _ h => ends_inv decodeBody_keepsInv (P := fun x => x.treeValid = true) h,
    _, fun _ h => ends_inv wrClose_keepsInv (P := fun x => x.treeValid = true) h, fun _ h => h.1⟩

theorem linesOf_inv {i : Instr} {s : State} (h : s.Inv) (hc : Checked i s) :
    ∃ P : State → Prop, P s ∧ LinesEnd State.Inv (fun _ _ => State.Inv) (linesOf i) P := by
  have hn := hc.holds
  have noTables : writesTables i = false → ∃ P : State → Prop, P s ∧
      LinesEnd State.Inv (fun _ _ => State.Inv) (linesOf i) P := fun hi =>
    ⟨_, keepsInv_chained.refl s,
      ((keepsInv_respected hi).linesEnd hc.arg).imp (fun _ hu => hu.2 h) fun _ _ _ hu => hu.2 h⟩
  cases i with
  | fcount => exact ⟨_, h, _, fun _ h => fCount_inv h, fun _ h => h.1⟩
  | tbuild =>
    exact ⟨fun u => u.Inv ∧ u.freqValid = true, ⟨h, hn .freqValid (by simp [needs])⟩, _, fun _ h => tBuild_inv h.1 h.2,
      fun _ h => h.1⟩
  | ctab =>
    exact ⟨fun u => u.Inv ∧ u.treeValid = true, ⟨h, hn .treeValid (by simp [needs])⟩, _, fun _ h => cTab_inv h.1 h.2,
      fun _ h => h.1⟩
  | tdes => exact ⟨_, h, _, fun _ h => tDes_inv h, fun _ h => h.1⟩
  | compress => exact ⟨_, h, compressLines_inv⟩
  | decompress => exact ⟨_, h, decompressLines_inv⟩
  | _ => exact noTables rfl

/-- Every command keeps the invariant. -/
theorem exec_inv {i : Instr} {s t : State} (h : s.Inv) (hx : exec i s = .next t) : t.Inv := by
  cases exec_ended (fun hc => linesOf_inv h hc) hx with
  | refused => exact respond_inv _ _ _ h
  | turnedAway => exact raiseErr_inv _ _ _ h
  | completed eos data hu => exact respond_inv _ _ _ (settled_inv i hu)
  | raised hu => exact raiseErr_inv _ _ _ (lost_inv i hu)

theorem illegalWord_inv {s : State} (w : CmdWord) (sub : BitVec 4) (h : s.Inv) : (illegalWord w sub s).Inv := by
  unfold illegalWord
  split
  · exact respond_inv _ _ _ h
  · exact raiseErr_inv _ _ _ h

theorem execute_inv {w : CmdWord} {s t : State} (h : s.Inv) (hx : execute w s = .next t) : t.Inv := by
  unfold execute at hx
  split at hx
  · exact exec_inv h hx
  · obtain rfl := Host.Outcome.next.inj hx
    exact illegalWord_inv w _ h

/-! #### The other inputs of the host -/

theorem reset_inv : State.reset.Inv := by
  refine inv_iff.2 ⟨⟨by decide, by decide, by decide, by decide, by decide⟩, ⟨by decide, by decide, by decide⟩,
    TablesOk.unflagged rfl rfl rfl ?_ fun y => ?_, errOk_zero⟩
  · exact Nat.le_of_lt_succ Config.resetNodeCnt.isLt
  · show ((tableOf _ : Vector (List Bool) 257).get y).length ≤ 256
    rw [tableOf_get, List.length_take]
    exact Nat.min_le_left _ _

theorem resetEvent_inv {s : State} (plan : FailPlan) (h : s.src.pos ≤ s.src.content.length) : (resetEvent plan s).Inv :=
  { reset_inv with srcPos := h }

theorem attachSource_inv {s : State} (content : List Byte) (h : s.Inv) : (attachSource content s).Inv :=
  { h with srcPos := Nat.min_le_right _ _ }

/-- The fetches of the earlier transactions alone. -/
theorem FetchesOk.take {es : List PortEvent} : ∀ {d : Source} (k : Nat), FetchesOk d es → FetchesOk d (es.take k) := by
  induction es with
  | nil => intro d k h; rw [List.take_nil]; exact h
  | cons e es ih =>
    intro d k h
    cases k with
    | zero => trivial
    | succ k => exact ⟨h.1, ih k h.2⟩

/-- The devices after a part of a command's transactions (70 R281). -/
theorem cutByReset_inv {s t : State} (k : Nat) (plan : FailPlan) (h : s.Inv)
    (he : ∃ es, t.log = s.log ++ es ∧ FetchesOk s.src es) : (cutByReset k plan s t).Inv := by
  obtain ⟨es, hl, hf⟩ := he
  have hes : (t.log.drop s.log.length).take k = es.take k := by rw [hl, List.drop_left']; rfl
  refine resetEvent_inv plan ?_
  rw [hes]
  exact (FetchesOk.pos_le (hf.take k) h.srcPos).trans_eq
    (congrArg List.length (foldl_after_content (es.take k) s.src)).symm

/-! #### The effect of a command -/

theorem effect_respected (i : Instr) : Respected Effect (fun s _ t => Effect s t) i where
  closed := effect_chained
  reads _ := rdBits_effect
  writes _ := effect_writes
  tables _ := effect_tables
  rdOpen _ := rdOpen_effect
  rdReset _ := rdReset_effect
  rdClose _ := rdClose_effect
  wrOpen _ := wrOpen_effect
  wrFlush _ := wrFlush_effect
  wrClose _ := wrClose_effect

@[simp] theorem settled_log (i : Instr) (u : State) : (settled i u).log = u.log := by cases i <;> rfl
@[simp] theorem settled_err (i : Instr) (u : State) : (settled i u).err = u.err := by cases i <;> rfl
@[simp] theorem lost_log (i : Instr) (u : State) : (lost i u).log = u.log := by cases i <;> rfl
@[simp] theorem lost_err (i : Instr) (u : State) : (lost i u).err = u.err := by cases i <;> rfl

/-- The transactions a command logs take bytes from the source's rest (20_memory.md R62). -/
theorem exec_fetches {i : Instr} {s t : State} (hx : exec i s = .next t) : ∃ es, t.log = s.log ++ es ∧ FetchesOk s.src es := by
  cases (effect_respected i).ended hx with
  | refused => exact ⟨[], by simp, trivial⟩
  | turnedAway => exact ⟨[], by simp, trivial⟩
  | completed eos data hu =>
    obtain ⟨es, h1, -, -, h4⟩ := Effect.trace hu
    exact ⟨es, by simpa using h1, h4⟩
  | raised hu =>
    obtain ⟨es, h1, -, -, h4⟩ := Effect.trace hu
    exact ⟨es, by simpa using h1, h4⟩

theorem execute_fetches {w : CmdWord} {s t : State} (hx : execute w s = .next t) :
    ∃ es, t.log = s.log ++ es ∧ FetchesOk s.src es := by
  unfold execute at hx
  split at hx
  · exact exec_fetches hx
  · obtain rfl := Host.Outcome.next.inj hx
    exact ⟨[], by unfold illegalWord; split <;> simp, trivial⟩

/-- Every input of the host keeps the invariant. -/
theorem step_inv {s t : State} (h : s.Inv) (hs : step s = .next t) : t.Inv := by
  have hrest : ∀ rest, ({ s with host := rest } : State).Inv := fun _ => { h with }
  unfold step at hs
  split at hs
  · obtain rfl := Host.Outcome.next.inj hs; exact h
  · exact execute_inv (hrest _) hs
  · obtain rfl := Host.Outcome.next.inj hs; exact resetEvent_inv _ h.srcPos
  · split at hs
    · rename_i hx
      obtain rfl := Host.Outcome.next.inj hs
      exact cutByReset_inv _ _ (hrest _) (execute_fetches hx)
    · cases hs
    · cases hs
  · obtain rfl := Host.Outcome.next.inj hs; exact attachSource_inv _ (hrest _)

/-- Settles O58. -/
theorem resetMeetsTheInvariant : Obligations.ResetMeetsTheInvariant := reset_inv

/-- Settles O59, command by command from what each procedure keeps. -/
theorem stepKeepsTheInvariant : Obligations.StepKeepsTheInvariant := fun _ _ h hs => step_inv h hs

end Sys2Proof.Machine

namespace Sys2Proof.Machine

/-! ### Commands whose checks pass on devices that do not fail -/

section
variable {s : State} {i : Instr}

theorem seqCheck_eq_none (h : ∀ n ∈ needs i, n.holds s = true) : seqCheck i s = none := by
  simpa [seqCheck] using h

/-- A command whose checks pass runs its Operation. -/
theorem exec_run (hw : i.wellFormed = true) (hr : s.halted = false ∨ acceptedWhileHalted i = true)
    (ha : argCheck i = none) (hn : ∀ n ∈ needs i, n.holds s = true) : exec i s = operation i s := by
  rcases exec_eq i s with he | ⟨n, rfl, -⟩
  · rw [he, guarded_run hr ha (seqCheck_eq_none hn)]
  · exact (if_pos hw).trans (guarded_run hr ha (seqCheck_eq_none hn))

theorem argCheck_rdbits {n : BitVec 6} (h1 : 1 ≤ n.toNat) (h2 : n.toNat ≤ 32) : argCheck (.rdbits n) = none := by
  simp [argCheck, (countInRange_iff n).2 ⟨h1, h2⟩]

theorem argCheck_wrbits {n : BitVec 6} {v : BitVec 32} (h1 : 1 ≤ n.toNat) (h2 : n.toNat ≤ 32) :
    argCheck (.wrbits n v) = none := by
  simp [argCheck, (countInRange_iff n).2 ⟨h1, h2⟩]

end

/-- Settles O55: each element by evaluation of the reset state. -/
theorem resetClearsFlagsCountersAndErr : Obligations.ResetClearsFlagsCountersAndErr :=
  ⟨rfl, rfl, rfl, rfl, rfl, rfl, rfl, rfl, rfl, rfl, rfl, rfl, rfl, rfl, rfl, rfl, rfl⟩

/-! ### GETCSR -/

/-- A GETCSR of 0..6 answers the register, halted or not (47 R236). -/
theorem exec_getcsr {n : BitVec 6} (hn : n.toNat ≤ 6) (s : State) :
    exec (.getcsr n) s = .next (s.respond true false (s.csr n)) := by
  have hw : (Instr.getcsr n).wellFormed = true := by simpa [Instr.wellFormed] using hn
  exact exec_run hw (.inr hw) rfl (by simp [needs])

/-- The number that two fields side by side denote. -/
theorem toNat_append_eq {n m : Nat} (a : BitVec n) (b : BitVec m) : (a ++ b).toNat = a.toNat * 2 ^ m + b.toNat := by
  rw [BitVec.toNat_append, ← Nat.shiftLeft_add_eq_or_of_lt b.isLt, Nat.shiftLeft_eq]

/-- TREEINFO as a number (10_state.md R47). -/
theorem treeInfo_eq {s : State} (h : s.nodeCnt ≤ 513) :
    s.treeInfo = if s.treeValid then BitVec.ofNat 64 (s.root.val * 2 ^ 16 + s.nodeCnt) else 0 := by
  have hr := s.root.isLt
  unfold State.treeInfo
  split
  · apply BitVec.eq_of_toNat_eq
    simp only [toNat_append_eq, BitVec.toNat_ofNat]
    omega
  · rfl

/-- CSR 6 as a number (10_state.md R48). -/
theorem csr_six (s : State) : s.csr 6 = BitVec.ofNat 64 s.magic.toNat := by
  apply BitVec.eq_of_toNat_eq
  change (0#32 ++ s.magic).toNat = _
  have := s.magic.isLt
  simp only [toNat_append_eq, BitVec.toNat_ofNat]
  omega

/-- Settles O13, register by register. -/
theorem getcsrAnswersTheRegister : Obligations.GetcsrAnswersTheRegister := fun s =>
  ⟨fun n hn => ⟨s.csr n, exec_getcsr hn s⟩, exec_getcsr (n := 0) (by decide) s, exec_getcsr (n := 2) (by decide) s,
    exec_getcsr (n := 3) (by decide) s, exec_getcsr (n := 4) (by decide) s,
    fun h => by rw [← treeInfo_eq h]; exact exec_getcsr (n := 5) (by decide) s,
    by rw [← csr_six]; exact exec_getcsr (n := 6) (by decide) s⟩

/-- STATUS, bit by bit (10_state.md R43). -/
theorem status_bits (s : State) : s.status.getLsbD 0 = s.rd.isOpen ∧ s.status.getLsbD 1 = s.rd.eos ∧
    s.status.getLsbD 2 = s.wr.isOpen ∧ s.status.getLsbD 3 = s.freqValid ∧ s.status.getLsbD 4 = s.treeValid ∧
    s.status.getLsbD 5 = s.tableValid ∧ s.status.getLsbD 6 = s.halted ∧ ∀ k, 7 ≤ k → s.status.getLsbD k = false := by
  simp only [State.status, BitVec.getLsbD_append, BitVec.getLsbD_ofBool]
  refine ⟨by simp, by simp, by simp, by simp, by simp, by simp, by simp, fun k hk => ?_⟩
  iterate 7 rw [if_neg (by omega)]
  exact BitVec.getLsbD_zero

/-- Settles O14, from the layout of STATUS. -/
theorem statusBits : Obligations.StatusBits := by
  intro s
  obtain ⟨h0, h1, h2, h3, h4, h5, h6, h7⟩ := status_bits s
  refine ⟨s.csr 1, exec_getcsr (by decide) s, h0, h1, h2, h3, h4, h5, ?_, h7⟩
  rw [show (s.csr 1).getLsbD 6 = s.halted from h6]
  simp [State.halted, errCode]

/-! ### RDOPEN, RDBITS, WRBITS -/

/-- What the source leaves of its answer to an open (20_memory.md R62). -/
theorem transact_srcOpen (s : State) (a : OpenAnswer) : s.transact (.srcOpen a) =
    { s with src := { s.src with pos := (s.src.after (.srcOpen a)).pos, txs := s.src.txs + 1 },
             log := s.log ++ [.srcOpen a] } := by
  rcases a with _ | _ | _ <;> rfl

/-- Settles O15, by the answer of the source. -/
theorem rdopenOpensAFreshReader : Obligations.RdopenOpensAFreshReader := by
  intro s hh ho
  have hx : exec .rdopen s = finishDone .rdopen (rdOpen s) :=
    exec_run rfl (.inl hh) rfl (by simp [needs, Need.holds, ho])
  constructor
  · intro hf
    have hr : rdOpen s = .ok () { s.transact (.srcOpen .ok) with rd := { s.rd.init with isOpen := true } } := by
      simp [rdOpen, openAnswer, hf]
    rw [hr, finishDone_ok] at hx
    exact ⟨_, hx, ⟨rfl, rfl, rfl, rfl, rfl, rfl, rfl, rfl⟩, rfl, rfl⟩
  · intro hf
    have hr : rdOpen s = .raised ⟨.resource, 1, 0⟩ (s.transact (.srcOpen (.fail (Config.failedOpenTook s.log.length)))) := by
      simp [rdOpen, openAnswer, hf]
    rw [hr, finishDone_raised, raiseErr_failed _ _ _ (by exact hh)] at hx
    exact ⟨_, _, hx, transact_srcOpen s _⟩

/-- Settles O17, from what the read primitive delivers. -/
theorem rdbitsDeliversTheNextBitsOrEos : Obligations.RdbitsDeliversTheNextBitsOrEos := by
  intro s n hh ho hs hi h1 h2
  have hx : exec (.rdbits n) s = finish (.rdbits n) ((rdBits n.toNat s).andThen fun r t => .ok (bitsReply r) t) :=
    exec_run rfl (.inl hh) (argCheck_rdbits h1 h2) (by simp [needs, Need.holds, ho])
  rcases rdBits_sound h2 hs hi with
    ⟨hl, t, hr, ⟨hf, hfo⟩, hu, hok, hb, he⟩ | ⟨hl, t, hr, ⟨hf, hfo⟩, hu, hok, hb, he⟩
  · rw [hr, ok_andThen, finish_ok] at hx
    refine ⟨_, hx, hfo.trans ho, hok, ?_, fun _ => ⟨rfl, hu, hb, he⟩, fun h => absurd h (by omega)⟩
    conv_lhs => rw [hf]
    rfl
  · rw [hr, ok_andThen, finish_ok] at hx
    refine ⟨_, hx, hfo.trans ho, hok, ?_, fun h => absurd h (by omega), fun _ => ⟨rfl, hu, hb, he⟩⟩
    conv_lhs => rw [hf]
    rfl

/-- Settles O23, from what the write primitive appends. -/
theorem wrbitsAppendsTheLowBits : Obligations.WrbitsAppendsTheLowBits := by
  intro s n v hh ho hs hi h1 h2
  have hx : exec (.wrbits n v) s = finishDone (.wrbits n v) (wrBits n.toNat v.toNat s) :=
    exec_run rfl (.inl hh) (argCheck_wrbits h1 h2) (by simp [needs, Need.holds, ho])
  obtain ⟨t, hr, ⟨hf, hfo⟩, hw, hok, hb⟩ := wrBits_sound v.toNat h2 hs hi
  rw [hr, finishDone_ok] at hx
  exact ⟨t, hx, by rw [toBits_mod]; exact hw, hb, hfo.trans ho, hok, hf⟩

/-! ### FCOUNT, TBUILD -/

/-- Settles O29, from what the counting loop leaves. -/
theorem fcountCountsEveryByte : Obligations.FcountCountsEveryByte := by
  intro s hh ho hs hi hl
  have hx : exec .fcount s = finishProducer .fcount (fCount s) :=
    exec_run rfl (.inl hh) rfl (by simp [needs, Need.holds, ho])
  obtain ⟨t, hr, hc, ht, hv, htv, hcv, he, hu, hop, -, hb, hf⟩ := fCount_sound hs hi fun y => hl y.val
  rw [hr, finishProducer_ok] at hx
  exact ⟨t, hx, hc, ht, hv, htv, hcv, he, hu, hop.trans ho, hb, hf⟩

/-- Settles O32, from the forest of one tree that the merges leave. -/
theorem tbuildLeavesACodeTree : Obligations.TbuildLeavesACodeTree := by
  intro s hh hv h1
  have hx : exec .tbuild s = finishDone .tbuild (tBuild s) :=
    exec_run rfl (.inl hh) rfl (by simp [needs, Need.holds, hv])
  obtain ⟨t, x, hr, hF, -, hn, -, -, hp, hw⟩ := tBuild_sound h1
  rw [hr, finishDone_ok] at hx
  have hlow := two_le_expectedLeaves (freq := s.freq) h1
  have hhigh := expectedLeaves_length_le s.freq
  have hleaves : x.tree.leaves = (expectedLeaves s.freq).length := by
    rw [← codes_length, ← List.length_map (f := Prod.fst), hp.length_eq, List.length_map]
  exact ⟨t, x.tree, hx, hF.holdsTree (by omega), hp, by omega, by omega, by omega, hw⟩

end Sys2Proof.Machine

namespace Sys2Proof.Machine

/-! ### ERR after a command (60_exceptions.md R252) -/

section
variable {i : Instr} {s t : State}

/-- A raise leaves ERR as it was or records the first error since reset. -/
theorem raiseErr_err_or (op mop : BitVec 8) (e : Raise) (s : State) :
    (raiseErr op mop e s).err = s.err ∨ errCode s.err = 0 ∧ (raiseErr op mop e s).err = packErr e op mop := by
  rw [raiseErr_err]
  split
  · exact .inr ⟨‹_›, rfl⟩
  · exact .inl rfl

/-- A command changes ERR only where it records the first error since reset. -/
theorem exec_err (hx : exec i s = .next t) : t.err = s.err ∨ errCode s.err = 0 ∧ ∃ e op, t.err = packErr e op i.opcode := by
  cases (effect_respected i).ended hx with
  | refused => exact .inl rfl
  | @turnedAway e => exact (raiseErr_err_or _ _ _ s).imp_right fun ⟨h, h'⟩ => ⟨h, e, _, h'⟩
  | completed _ _ hu => exact .inl (by simpa using hu.err)
  | @raised u op e hu =>
    have h := raiseErr_err_or op i.opcode e (lost i u)
    rw [lost_err, hu.err] at h
    exact h.imp_right fun ⟨h, h'⟩ => ⟨h, e, op, h'⟩

/-- A recorded error is not overwritten. -/
theorem exec_err_halted (hs : s.halted = true) (hx : exec i s = .next t) : t.err = s.err := by
  rcases exec_err hx with h | ⟨h, -⟩
  · exact h
  · simp [State.halted, h] at hs

theorem execute_err_halted {w : CmdWord} (hs : s.halted = true) (hx : execute w s = .next t) : t.err = s.err := by
  unfold execute at hx
  split at hx
  · exact exec_err_halted hs hx
  · obtain rfl := Host.Outcome.next.inj hx
    simp [illegalWord, hs]

end

/-- Settles O11: only a command writes ERR, and it keeps the first error. -/
theorem onlyResetLeavesTheHaltedState : Obligations.OnlyResetLeavesTheHaltedState := by
  intro s t hs hx hr hc
  have he : t.err = s.err := by
    unfold step at hx
    split at hx
    · obtain rfl := Host.Outcome.next.inj hx; rfl
    · rename_i rest _
      exact execute_err_halted (s := { s with host := rest }) hs hx
    · exact absurd ‹_› (hr _ _)
    · exact absurd ‹_› (hc _ _ _ _)
    · obtain rfl := Host.Outcome.next.inj hx; rfl
  exact ⟨he, by simpa [State.halted, he] using hs⟩

/-! ### The writing procedures and the sink (20_memory.md R63) -/

/-- What the writing procedures do: they change the writer and the sink, make no transaction but puts and releases, and
what they put comes after the sink's old content. -/
structure Puts (s t : State) : Prop where
  frame : t = { s with wr := t.wr, snk := { s.snk with content := t.snk.content, txs := t.snk.txs }, log := t.log }
  events : ∃ es, t.log = s.log ++ es ∧ ∀ e ∈ es, e.isFetch = false
  grows : s.snk.content <+: t.snk.content

theorem Puts.rd {s t : State} (h : Puts s t) : t.rd = s.rd := by rw [h.frame]

theorem Puts.trans (a b c : State) (h : Puts a b) (h' : Puts b c) : Puts a c := by
  obtain ⟨es, h1, h2⟩ := h.events
  obtain ⟨fs, g1, g2⟩ := h'.events
  refine ⟨?_, ⟨es ++ fs, by rw [g1, h1, List.append_assoc], ?_⟩, h.grows.trans h'.grows⟩
  · rw [h'.frame]
    conv_lhs => rw [h.frame]
  · simpa [or_imp, forall_and] using ⟨h2, g2⟩

theorem puts_wr (s : State) (w : Writer) : Puts s { s with wr := w } := ⟨rfl, ⟨[], by simp⟩, List.prefix_refl _⟩

theorem puts_chained : Chained Puts := .of (fun s => puts_wr s s.wr) Puts.trans

theorem Puts.set_wr {s t : State} (h : Puts s t) (w : Writer) : Puts s { t with wr := w } := h.trans _ _ _ (puts_wr t w)

theorem puts_put (s : State) (b : List Byte) (a : PutAnswer) : Puts s (s.transact (.snkPut b a)) := by
  cases a <;> exact ⟨rfl, ⟨_, rfl, by simp [PortEvent.isFetch]⟩, List.prefix_append _ _⟩

theorem puts_release (s : State) : Puts s (wrRelease s) :=
  ⟨rfl, ⟨_, rfl, by simp [PortEvent.isFetch]⟩, List.prefix_refl _⟩

theorem wrPutBlock_puts (s : State) : (wrPutBlock s).All (Puts s) := by
  unfold wrPutBlock
  dsimp only
  split <;> exact (puts_put s _ _).set_wr _

theorem wrBits_putsOnly (n v : Nat) (s : State) : (wrBits n v s).All (Puts s) := by
  unfold wrBits
  dsimp only
  split
  · exact puts_wr s _
  · split
    · exact puts_chained.after (puts_wr s _) (wrPutBlock_puts _)
    · exact puts_wr s _

theorem wrFlush_puts (s : State) : (wrFlush s).All (Puts s) := by
  unfold wrFlush
  dsimp only
  split
  · exact puts_chained.after (puts_wr s _) (wrPutBlock_puts _)
  · exact puts_wr s _

theorem wrClose_puts (s : State) : (wrClose s).All (Puts s) := by
  have h := wrFlush_puts s
  unfold wrClose
  split
  · cases hr : wrFlush s with
    | ok _ t => exact Puts.trans _ _ _ (h.ok hr) (puts_release t)
    | raised e t => exact Puts.trans _ _ _ (h.raised hr) (puts_release t)
    | stuck f => trivial
  · exact puts_chained.refl s

theorem puts_writes : WritesKeep Puts := fun n v s _ => wrBits_putsOnly n v s

theorem serRoot_puts (s : State) : (serRoot s).All (Puts s) := puts_chained.serRoot puts_writes s

/-! ### No fetch after End (10_state.md R26) -/

/-- RD_SRC_END stays 1, and while it is 1 no fetch is made. -/
def NoFetch (s t : State) : Prop :=
  s.rd.srcEnd = true → t.rd.srcEnd = true ∧ ∃ es, t.log = s.log ++ es ∧ ∀ e ∈ es, e.isFetch = false

theorem NoFetch.trans (a b c : State) (h : NoFetch a b) (h' : NoFetch b c) : NoFetch a c := by
  intro ha
  obtain ⟨hb, es, h1, h2⟩ := h ha
  obtain ⟨hc, fs, g1, g2⟩ := h' hb
  exact ⟨hc, es ++ fs, by rw [g1, h1, List.append_assoc], by simpa [or_imp, forall_and] using ⟨h2, g2⟩⟩

/-- An update that logs nothing and leaves RD_SRC_END. -/
theorem NoFetch.of_eq {s t : State} (h : t.rd.srcEnd = s.rd.srcEnd) (hl : t.log = s.log) : NoFetch s t :=
  fun hs => ⟨h.trans hs, [], by simp [hl], by simp⟩

theorem noFetch_chained : Chained NoFetch := .of (fun _ => .of_eq rfl rfl) NoFetch.trans

theorem noFetch_transact (s : State) {e : PortEvent} (he : e.isFetch = false) : NoFetch s (s.transact e) :=
  fun hs => ⟨hs, [e], rfl, by simpa using he⟩

theorem Puts.noFetch {s t : State} (h : Puts s t) : NoFetch s t := fun hs => ⟨by rw [h.rd]; exact hs, h.events⟩

theorem noFetch_tables : TablesKeep NoFetch := fun _ _ _ _ _ _ _ _ _ => .of_eq rfl rfl

theorem rdRefillBlock_noFetch (s : State) : (rdRefillBlock s).All (NoFetch s) := by
  unfold rdRefillBlock
  split
  · exact noFetch_chained.refl s
  · rename_i hs
    dsimp only
    split <;> exact fun h => absurd h hs

theorem rdRefillAcc_noFetch (s : State) : (rdRefillAcc s).All (NoFetch s) := by
  unfold rdRefillAcc
  refine noFetch_chained.andThen ?_ fun _ t => .of_eq (load_srcEnd _ _) rfl
  split
  · exact rdRefillBlock_noFetch s
  · exact noFetch_chained.refl s

theorem rdBitsLoop_noFetch (fuel n need v : Nat) (s : State) : (rdBitsLoop fuel n need v s).All (NoFetch s) := by
  induction fuel generalizing need v s with
  | zero => trivial
  | succ fuel ih =>
    unfold rdBitsLoop
    split
    · exact .of_eq rfl rfl
    · refine noFetch_chained.after (t := { s with rd := { s.rd with accCnt := 0 } }) (.of_eq rfl rfl)
        (noFetch_chained.andThen (rdRefillAcc_noFetch _) fun _ t => ?_)
      split
      · exact .of_eq rfl rfl
      · exact ih _ _ t

theorem noFetch_reads : ReadsKeep NoFetch := fun n s => rdBitsLoop_noFetch 6 n n 0 s

theorem noFetch_writes : WritesKeep NoFetch := fun n v s _ => Res.All.imp (wrBits_putsOnly n v s) fun _ h => h.noFetch

theorem rdClose_noFetch (s : State) : NoFetch s (rdClose s) := by
  unfold rdClose
  split
  · exact noFetch_transact s rfl
  · exact noFetch_chained.refl s

theorem wrOpen_noFetch (s : State) : (wrOpen s).All (NoFetch s) := by
  unfold wrOpen
  dsimp only
  split <;> exact noFetch_transact s rfl

/-- Settles O21: every primitive but a rewind and an open of the source keeps the relation. -/
theorem noFetchAfterEnd : Obligations.NoFetchAfterEnd := by
  intro s t i hx hs h1 h2 h3
  have hi : Respected NoFetch (fun s _ t => NoFetch s t) i :=
    { closed := noFetch_chained
      reads := fun _ => noFetch_reads
      writes := fun _ => noFetch_writes
      tables := fun _ => noFetch_tables
      rdOpen := fun h => absurd h h1
      rdReset := fun h => by simp [h2, h3] at h
      rdClose := fun _ => rdClose_noFetch
      wrOpen := fun _ => wrOpen_noFetch
      wrFlush := fun _ s => Res.All.imp (wrFlush_puts s) fun _ h => h.noFetch
      wrClose := fun _ s => Res.All.imp (wrClose_puts s) fun _ h => h.noFetch }
  exact hi.rel noFetch_tables (fun _ _ _ => .of_eq rfl rfl) hx hs

/-! ### Frames -/

section
variable {F : State → Prop} {Q : BitVec 8 → Raise → State → Prop} {i : Instr} {s t : State}

/-- How a command of one procedure ends. -/
theorem exec_single {l : MacroLine} (hl : linesOf i = [l]) (hp : (l.procedure s).Ends F (Q l.op))
    (hx : exec i s = .next t) : Ended F Q i s t :=
  exec_ended (fun _ => ⟨(· = s), rfl, by rw [hl]; exact ⟨F, by rintro _ rfl; exact hp, fun _ h => h⟩⟩) hx

theorem settled_of_writesTables {u : State} (h : writesTables i = false) : settled i u = u := by
  cases i with
  | compress | decompress => cases h
  | _ => rfl

theorem lost_of_writesTables {u : State} (h : writesTables i = false) : lost i u = u := by
  cases i with
  | fcount | tdes | compress | decompress => cases h
  | _ => rfl

/-- What a command of one procedure does, that writes no table, beside ERR and the response. -/
theorem exec_frame {l : MacroLine} {R : State → Prop} (hx : exec i s = .next t) (hl : linesOf i = [l])
    (hi : writesTables i = false) (hs : R s) (hp : (l.procedure s).All R) :
    ∃ u, R u ∧ t = { u with err := t.err, rsp := t.rsp } := by
  cases exec_single (F := R) (Q := fun _ _ => R) hl hp hx with
  | refused => exact ⟨s, hs, rfl⟩
  | turnedAway => exact ⟨s, hs, by rw [raiseErr_eq]⟩
  | @completed u _ _ hu => exact ⟨u, hu, by rw [settled_of_writesTables hi]; rfl⟩
  | @raised u _ _ hu => exact ⟨u, hu, by rw [lost_of_writesTables hi, raiseErr_eq]⟩

end

/-- What the commands of the reader change beside ERR and the response (40, 46 R221). -/
def ReadTouch (s t : State) : Prop :=
  t = { s with rd := t.rd, src := { s.src with pos := t.src.pos, txs := t.src.txs }, log := t.log }

theorem ReadFrame.touch {s t : State} (h : ReadFrame s t) : ReadTouch s t := h.1

theorem rdOpen_touch (s : State) : (rdOpen s).All (ReadTouch s) := by
  unfold rdOpen
  dsimp only
  split <;> · rw [transact_srcOpen]; exact rfl

theorem rdReset_touch (s : State) : (rdReset s).All (ReadTouch s) := by
  have h : ∀ a, s.transact (.srcRewind a) = { s with
      src := { s.src with pos := (s.src.after (.srcRewind a)).pos, txs := s.src.txs + 1 }, log := s.log ++ [.srcRewind a] } := by
    rintro (_ | _ | _) <;> rfl
  unfold rdReset
  dsimp only
  split <;> · rw [h]; exact rfl

theorem rdClose_touch (s : State) : ReadTouch s (rdClose s) := by
  unfold rdClose
  split <;> rfl

/-- Settles O49, procedure by procedure. -/
theorem readerCommandsTouchOnlyTheReader : Obligations.ReaderCommandsTouchOnlyTheReader := by
  intro s t i hx hi
  have frame : ∃ u, ReadTouch s u ∧ t = { u with err := t.err, rsp := t.rsp } := by
    rcases hi with rfl | ⟨n, rfl⟩ | rfl | rfl | rfl
    · exact exec_frame hx rfl rfl rfl (rdOpen_touch s)
    · exact exec_frame hx rfl rfl rfl (ends_andThen_ok.2 (Res.All.imp (rdBits_frame _ s) fun _ h => h.touch))
    · exact exec_frame hx rfl rfl rfl (rdReset_touch s)
    · exact exec_frame hx rfl rfl rfl (rdClose_touch s)
    · exact exec_frame hx rfl rfl rfl (Res.All.imp (magicR_frame s) fun _ h => h.touch)
  obtain ⟨u, hu, ht⟩ := frame
  rw [ht]
  conv_lhs => rw [hu]

/-- What the commands of the writer change beside ERR and the response (41, 44 R186, 45 R201). -/
def WriteTouch (s t : State) : Prop :=
  t = { s with wr := t.wr, snk := { s.snk with content := t.snk.content, txs := t.snk.txs }, log := t.log }

theorem wrOpen_touch (s : State) : (wrOpen s).All (WriteTouch s) := by
  have h : ∀ a, s.transact (.snkOpen a) = { s with
      snk := { s.snk with content := (s.snk.after (.snkOpen a)).content, txs := s.snk.txs + 1 },
      log := s.log ++ [.snkOpen a] } := by
    rintro (_ | _ | _) <;> rfl
  unfold wrOpen
  dsimp only
  split <;> · rw [h]; exact rfl

/-- Settles O50, procedure by procedure. -/
theorem writerCommandsTouchOnlyTheWriter : Obligations.WriterCommandsTouchOnlyTheWriter := by
  intro s t i hx hi
  have frame : ∃ u, (WriteTouch s u ∧ (i ≠ .wropen → s.snk.content <+: u.snk.content)) ∧
      t = { u with err := t.err, rsp := t.rsp } := by
    have hs : WriteTouch s s ∧ (i ≠ .wropen → s.snk.content <+: s.snk.content) := ⟨rfl, fun _ => List.prefix_refl _⟩
    have puts : ∀ {r : Res Unit}, r.All (Puts s) →
        r.All fun u => WriteTouch s u ∧ (i ≠ .wropen → s.snk.content <+: u.snk.content) :=
      fun h => Res.All.imp h fun _ h => ⟨h.frame, fun _ => h.grows⟩
    rcases hi with rfl | ⟨n, v, rfl⟩ | rfl | rfl | rfl | rfl
    · exact exec_frame hx rfl rfl hs (Res.All.imp (wrOpen_touch s) fun _ h => ⟨h, fun h => absurd rfl h⟩)
    · exact exec_frame hx rfl rfl hs (puts (wrBits_putsOnly _ _ s))
    · exact exec_frame hx rfl rfl hs (puts (wrFlush_puts s))
    · exact exec_frame hx rfl rfl hs (puts (wrClose_puts s))
    · exact exec_frame hx rfl rfl hs (puts (wrBits_putsOnly _ _ s))
    · exact exec_frame hx rfl rfl hs (puts (serRoot_puts s))
  obtain ⟨u, ⟨hu, hg⟩, ht⟩ := frame
  refine ⟨?_, fun hi => by rw [ht]; exact hg hi⟩
  rw [ht]
  conv_lhs => rw [hu]

/-- A command that raised did not complete. -/
theorem raiseErr_not_completed (op mop : BitVec 8) (e : Raise) (s : State) : ¬ (raiseErr op mop e s).completed := by
  rintro ⟨eos, data, h⟩
  rw [raiseErr_rsp] at h
  exact absurd (packResponse_ok (Option.some.inj h)) (by decide)

/-- How a command ends, beside ERR and the response: turned away, completed, or raised. -/
theorem Ended.frame {F : State → Prop} {Q : BitVec 8 → Raise → State → Prop} {i : Instr} {s t : State}
    (h : Ended F Q i s t) : t = { s with err := t.err, rsp := t.rsp } ∨
      (∃ u, F u ∧ t = { settled i u with rsp := t.rsp }) ∨
      ∃ op e u, Q op e u ∧ ¬ t.completed ∧ t = { lost i u with err := t.err, rsp := t.rsp } := by
  cases h with
  | refused => exact .inl rfl
  | turnedAway => exact .inl (by rw [raiseErr_eq])
  | @completed u _ _ hu => exact .inr (.inl ⟨u, hu, rfl⟩)
  | @raised u op e hu => exact .inr (.inr ⟨op, e, u, hu, raiseErr_not_completed _ _ _ _, by rw [raiseErr_eq]⟩)

/-- What FCOUNT leaves (42 R161). -/
theorem exec_fcount_frame {s t : State} (hx : exec .fcount s = .next t) :
    t = { s with rd := t.rd, src := { s.src with pos := t.src.pos, txs := t.src.txs }, log := t.log, freq := t.freq,
                 freqValid := t.freqValid, node := t.node, nodeCnt := t.nodeCnt, root := t.root,
                 treeValid := t.treeValid, code := t.code, tableValid := t.tableValid, err := t.err,
                 rsp := t.rsp } ∧
    (t.treeValid = true ∨ t.completed → t.node = s.node ∧ t.nodeCnt = s.nodeCnt ∧ t.root = s.root) ∧
    (t.tableValid = true ∨ t.completed → t.code = s.code) := by
  rcases (exec_single rfl (Q := fun _ _ => CountFrame (fCountStart s)) (fCount_frame s) hx).frame with
    ht | ⟨_, ⟨u, ⟨hu, -⟩, rfl⟩, ht⟩ | ⟨_, _, u, ⟨hu, -⟩, hc, ht⟩
  · rw [ht]; exact ⟨rfl, fun _ => ⟨rfl, rfl, rfl⟩, fun _ => rfl⟩
  · rw [ht, hu]; exact ⟨rfl, fun _ => ⟨rfl, rfl, rfl⟩, fun _ => rfl⟩
  · have h1 : t.treeValid = false := by rw [ht, hu]; rfl
    have h2 : t.tableValid = false := by rw [ht, hu]; rfl
    refine ⟨?_, by simp [h1, hc], by simp [h2, hc]⟩
    rw [ht, hu]; rfl

/-- What TDES leaves (44 R189). -/
theorem exec_tdes_frame {s t : State} (hx : exec .tdes s = .next t) :
    t = { s with rd := t.rd, src := { s.src with pos := t.src.pos, txs := t.src.txs }, log := t.log, freq := t.freq,
                 node := t.node, nodeCnt := t.nodeCnt, root := t.root, treeValid := t.treeValid, code := t.code,
                 tableValid := t.tableValid, err := t.err, rsp := t.rsp } ∧
    (t.freqValid = true ∨ t.completed → t.freq = s.freq) ∧
    (t.tableValid = true ∨ t.completed → t.code = s.code) := by
  rcases (exec_single rfl (Q := fun _ _ => DesFrame (desStart s)) (tDes_frame s) hx).frame with
    ht | ⟨_, ⟨r, u, -, -, ⟨hu, -⟩, rfl⟩, ht⟩ | ⟨_, _, u, ⟨hu, -⟩, hc, ht⟩
  · rw [ht]; exact ⟨rfl, fun _ => rfl, fun _ => rfl⟩
  · rw [ht, hu]; exact ⟨rfl, fun _ => rfl, fun _ => rfl⟩
  · have h1 : t.freqValid = s.freqValid := by rw [ht, hu]; rfl
    have h2 : t.tableValid = false := by rw [ht, hu]; rfl
    refine ⟨?_, fun h => ?_, by simp [h2, hc]⟩
    · rw [ht, hu]; rfl
    · have hs : s.freqValid = true := by simpa [h1, hc] using h
      have hv : u.freqValid = true := by rw [hu]; exact hs
      rw [ht]
      exact (forgetTables_freq hv).trans (by rw [hu]; rfl)

/-- What TBUILD leaves (43 R171). -/
theorem exec_tbuild_frame {s t : State} (hx : exec .tbuild s = .next t) :
    t = { s with node := t.node, nodeCnt := t.nodeCnt, root := t.root, treeValid := t.treeValid,
                 tableValid := t.tableValid, err := t.err, rsp := t.rsp } := by
  rcases (exec_single rfl (Q := fun _ _ _ => False) (tBuild_frame s) hx).frame with ht | ⟨u, hu, ht⟩ | ⟨_, _, _, hu, -⟩
  · rw [ht]
  · rw [ht, hu]; rfl
  · exact hu.elim

/-- What CTAB leaves (45 R202). -/
theorem exec_ctab_frame {s t : State} (hx : exec .ctab s = .next t) :
    t = { s with code := t.code, tableValid := t.tableValid, err := t.err, rsp := t.rsp } := by
  rcases (exec_single rfl (Q := fun _ _ _ => False) (cTab_frame s) hx).frame with ht | ⟨u, hu, ht⟩ | ⟨_, _, _, hu, -⟩
  · rw [ht]
  · rw [ht, hu]; rfl
  · exact hu.elim

/-- Settles O51, from the frames of the four procedures. -/
theorem tableCommandsTouchOnlyTheirTables : Obligations.TableCommandsTouchOnlyTheirTables := fun _ _ =>
  ⟨exec_fcount_frame, exec_tbuild_frame, exec_tdes_frame, exec_ctab_frame⟩

/-! ### Flags (10_state.md R40) -/

/-- A flag that has the value `b` keeps it. -/
def Stays (f : State → Bool) (b : Bool) (s t : State) : Prop := f s = b → f t = b

theorem stays_chained (f : State → Bool) (b : Bool) : Chained (Stays f b) :=
  .of (fun _ h => h) fun _ _ _ h h' hs => h' (h hs)

theorem Stays.of_eq {f : State → Bool} {s t : State} (h : f t = f s) (b : Bool) : Stays f b s t := fun hs => h.trans hs

section
variable {f : State → Bool} {b : Bool} {i : Instr} {s t : State}

/-- A command keeps the value of a flag that its procedures and its end keep. -/
theorem exec_stays (hx : exec i s = .next t) (he : ∀ (u : State) err rsp, f { u with err := err, rsp := rsp } = f u)
    (hl : argCheck i = none → ∀ l ∈ linesOf i, ∀ u, (l.procedure u).All (Stays f b u))
    (hs : ∀ u, Stays f b u (settled i u)) (ho : ∀ u, f (lost i u) = f u) : Stays f b s t := by
  have hQ : Ended (Stays f b s) (fun _ _ => Stays f b s) i s t :=
    exec_ended (fun hc => ⟨Stays f b s, id, linesEnd_of_closed (stays_chained f b) (hl hc.arg)⟩) hx
  rcases hQ.frame with ht | ⟨u, hu, ht⟩ | ⟨_, _, u, hu, -, ht⟩
  · rw [ht]; exact .of_eq (he s _ _) b
  · rw [ht]; exact fun h => (he (settled i u) _ _).trans (hs u (hu h))
  · rw [ht]; exact fun h => (he (lost i u) _ _).trans ((ho u).trans (hu h))

/-- A flag of a unit, which the tables, ERR and the response do not touch. -/
theorem exec_stays_unit (hx : exec i s = .next t) (ht : TablesKeep fun s t => f t = f s)
    (he : ∀ (u : State) err rsp, f { u with err := err, rsp := rsp } = f u)
    (hr : Respected (Stays f b) (fun s _ t => Stays f b s t) i) : Stays f b s t :=
  hr.rel (fun _ _ _ _ _ _ _ _ _ => .of_eq (ht _ _ _ _ _ _ _ _ _) b) (fun _ _ _ => .of_eq (he _ _ _) b) hx

end

/-- A flag of the reader, RD_OPEN or RD_EOS, by what the procedures of the reader do to it. -/
theorem exec_stays_rd {g : Reader → Bool} {b : Bool} {i : Instr} {s t : State} (hx : exec i s = .next t)
    (reads : readsBits i = true → ReadsKeep (Stays (fun s => g s.rd) b))
    (rdOpen : i = .rdopen → ∀ s, (rdOpen s).All (Stays (fun s => g s.rd) b s))
    (rdReset : i = .rdrst ∨ i = .compress → ∀ s, (rdReset s).All (Stays (fun s => g s.rd) b s))
    (rdClose : i = .rdclose → ∀ s, Stays (fun s => g s.rd) b s (rdClose s)) : Stays (fun s => g s.rd) b s t := by
  have puts : ∀ {s t : State}, Puts s t → Stays (fun s => g s.rd) b s t := fun h => .of_eq (by rw [h.rd]) b
  exact exec_stays_unit hx (fun _ _ _ _ _ _ _ _ _ => rfl) (fun _ _ _ => rfl)
    { closed := stays_chained _ b
      reads := reads
      writes := fun _ n v s _ => Res.All.imp (wrBits_putsOnly n v s) fun _ => puts
      tables := fun _ _ _ _ _ _ _ _ _ _ h => h
      rdOpen := rdOpen
      rdReset := rdReset
      rdClose := rdClose
      wrOpen := fun _ s => Res.All.imp (wrOpen_touch s) fun _ h => .of_eq (by rw [h]) b
      wrFlush := fun _ s => Res.All.imp (wrFlush_puts s) fun _ => puts
      wrClose := fun _ s => Res.All.imp (wrClose_puts s) fun _ => puts }

/-- WR_OPEN, by what the opens and closes of the writer do to it. -/
theorem exec_stays_wrOpen {b : Bool} {i : Instr} {s t : State} (hx : exec i s = .next t)
    (wrOpen : i = .wropen → ∀ s, (wrOpen s).All (Stays (fun s => s.wr.isOpen) b s))
    (wrClose : i = .wrclose ∨ i = .compress ∨ i = .decompress → ∀ s, (wrClose s).All (Stays (fun s => s.wr.isOpen) b s)) :
    Stays (fun s => s.wr.isOpen) b s t :=
  exec_stays_unit hx (fun _ _ _ _ _ _ _ _ _ => rfl) (fun _ _ _ => rfl)
    { closed := stays_chained _ b
      reads := fun _ n s => Res.All.imp (rdBits_frame n s) fun _ h => .of_eq (by rw [h.1]) b
      writes := fun _ n v s _ => Res.All.imp (wrBits_frame n v s) fun _ h => .of_eq h.2 b
      tables := fun _ _ _ _ _ _ _ _ _ _ h => h
      rdOpen := fun _ s => Res.All.imp (rdOpen_touch s) fun _ h => .of_eq (by rw [h]) b
      rdReset := fun _ s => Res.All.imp (rdReset_touch s) fun _ h => .of_eq (by rw [h]) b
      rdClose := fun _ s => .of_eq (by rw [rdClose_touch s]) b
      wrOpen := wrOpen
      wrFlush := fun _ s => Res.All.imp (wrFlush_frame s) fun _ h => .of_eq h.2 b
      wrClose := wrClose }

/-! What the procedures of the units do to the flags. -/

theorem rdBits_stays_isOpen (b : Bool) : ReadsKeep (Stays (fun s => s.rd.isOpen) b) := fun n s =>
  Res.All.imp (rdBits_frame n s) fun _ h => .of_eq h.2 b

theorem rdReset_stays_isOpen (b : Bool) (s : State) : (rdReset s).All (Stays (fun s => s.rd.isOpen) b s) := by
  unfold rdReset
  dsimp only
  split <;> exact fun h => h

theorem rdOpen_stays_open (s : State) : (rdOpen s).All (Stays (fun s => s.rd.isOpen) true s) := by
  unfold rdOpen
  dsimp only
  split
  · exact fun h => h
  · exact fun _ => rfl

theorem rdClose_stays_closed (s : State) : Stays (fun s => s.rd.isOpen) false s (rdClose s) := by
  unfold rdClose
  split
  · exact fun _ => rfl
  · exact id

theorem rdRefillAcc_eos (s : State) : (rdRefillAcc s).All fun t => t.rd.eos = s.rd.eos := by
  have hc : Chained fun s t : State => t.rd.eos = s.rd.eos := .of (fun _ => rfl) fun _ _ _ h h' => h'.trans h
  unfold rdRefillAcc
  refine hc.andThen ?_ fun _ t => load_eos _ _
  split
  · unfold rdRefillBlock
    dsimp only
    split
    · rfl
    · split <;> rfl
  · rfl

/-- Reading does not clear RD_EOS (40 R124). -/
theorem rdBits_stays_eos : ReadsKeep (Stays (fun s => s.rd.eos) true) := by
  have hc := stays_chained (fun s => s.rd.eos) true
  have loop : ∀ (fuel n need v : Nat) (s : State), (rdBitsLoop fuel n need v s).All (Stays (fun s => s.rd.eos) true s) := by
    intro fuel n
    induction fuel with
    | zero => intro need v s; trivial
    | succ fuel ih =>
      intro need v s
      unfold rdBitsLoop
      split
      · exact fun h => h
      · refine hc.after (t := { s with rd := { s.rd with accCnt := 0 } }) (fun h => h)
          (hc.andThen (Res.All.imp (rdRefillAcc_eos _) fun _ h => .of_eq h true) fun _ t => ?_)
        split
        · exact fun _ => rfl
        · exact ih _ _ t
  exact fun n s => loop 6 n n 0 s

theorem rdOpen_stays_noEos (s : State) : (rdOpen s).All (Stays (fun s => s.rd.eos) false s) := by
  unfold rdOpen
  dsimp only
  split
  · exact fun h => h
  · exact fun _ => rfl

theorem rdReset_stays_noEos (s : State) : (rdReset s).All (Stays (fun s => s.rd.eos) false s) := by
  unfold rdReset
  dsimp only
  split
  · exact fun h => h
  · exact fun _ => rfl

theorem rdClose_stays_eos (b : Bool) (s : State) : Stays (fun s => s.rd.eos) b s (rdClose s) := by
  unfold rdClose
  split <;> exact fun h => h

theorem wrOpen_stays_open (s : State) : (wrOpen s).All (Stays (fun s => s.wr.isOpen) true s) := by
  unfold wrOpen
  dsimp only
  split
  · exact fun h => h
  · exact fun _ => rfl

theorem wrClose_stays_closed (s : State) : (wrClose s).All (Stays (fun s => s.wr.isOpen) false s) := by
  unfold wrClose
  split
  · exact (wrFlush s).rec (fun _ _ _ => rfl) (fun _ _ _ => rfl) fun _ => trivial
  · exact id

/-! What the procedures of the codec tables do to the valid flags. -/

theorem fCount_flags (s : State) : (fCount s).All fun t => t.treeValid = false ∧ t.tableValid = false := by
  refine (fCount_frame s).imp ?_ ?_
  · rintro _ ⟨u, ⟨hu, -⟩, rfl⟩
    rw [hu]
    exact ⟨rfl, rfl⟩
  · rintro _ u ⟨hu, -⟩
    rw [hu]
    exact ⟨rfl, rfl⟩

theorem tBuild_flags (s : State) : (tBuild s).All fun t => t.freqValid = s.freqValid ∧ t.tableValid = false :=
  (tBuild_frame s).imp (by rintro t ht; rw [ht]; exact ⟨rfl, rfl⟩) fun _ _ h => h.elim

theorem tDes_flags (s : State) : (tDes s).All fun t => t.freqValid = s.freqValid ∧ t.tableValid = false := by
  refine (tDes_frame s).imp ?_ ?_
  · rintro _ ⟨_, u, -, -, ⟨hu, -⟩, rfl⟩
    rw [hu]
    exact ⟨rfl, rfl⟩
  · rintro _ u ⟨hu, -⟩
    rw [hu]
    exact ⟨rfl, rfl⟩

theorem cTab_flags (s : State) : (cTab s).All fun t => t.freqValid = s.freqValid ∧ t.treeValid = s.treeValid :=
  (cTab_frame s).imp (by rintro t ht; rw [ht]; exact ⟨rfl, rfl⟩) fun _ _ h => h.elim

/-- A valid flag, by what the procedures of the codec tables do to it. -/
theorem exec_stays_table {g : Tables → Bool} {b : Bool} {i : Instr} {s t : State} (hx : exec i s = .next t)
    (hg : ∀ op (u : State), g (u.forgetTables op).tables = g u.tables) (compress : i ≠ .compress)
    (fCount : i = .fcount → ∀ s, (fCount s).All (Stays (fun s => g s.tables) b s))
    (tBuild : i = .tbuild → ∀ s, (tBuild s).All (Stays (fun s => g s.tables) b s))
    (tDes : i = .tdes ∨ i = .decompress → ∀ s, (tDes s).All (Stays (fun s => g s.tables) b s))
    (cTab : i = .ctab → ∀ s, (cTab s).All (Stays (fun s => g s.tables) b s))
    (clear : i = .decompress → ∀ s : State, Stays (fun s => g s.tables) b s s.clearFlags) :
    Stays (fun s => g s.tables) b s t := by
  have keep : ∀ {s t : State}, KeepsInv s t → Stays (fun s => g s.tables) b s t := fun h => .of_eq (by rw [h.1]) b
  refine exec_stays hx (fun _ _ _ => rfl) (fun ha => ?_) (fun u => ?_) fun u => ?_
  · cases i with
    | compress => exact absurd rfl compress
    | fcount => simpa [linesOf] using fCount rfl
    | tbuild => simpa [linesOf] using tBuild rfl
    | ctab => simpa [linesOf] using cTab rfl
    | tdes => simpa [linesOf] using tDes (.inl rfl)
    | decompress =>
      simp only [linesOf, decompressLines, List.mem_cons, List.not_mem_nil, or_false]
      rintro l (rfl | rfl | rfl | rfl) u
      exacts [Res.All.imp (magicR_keepsInv u) fun _ => keep, tDes (.inr rfl) u,
        Res.All.imp (decodeBody_keepsInv u) fun _ => keep, Res.All.imp (wrClose_keepsInv u) fun _ => keep]
    | _ => exact fun l hl u => Res.All.imp ((keepsInv_respected rfl).lines ha l hl u) fun _ => keep
  · cases i with
    | compress => exact absurd rfl compress
    | decompress => exact fun h => (hg _ _).trans (clear rfl u h)
    | _ => exact fun h => h
  · cases i with
    | fcount | tdes | compress | decompress => exact hg _ u
    | _ => rfl

/-- A flag that every command but the listed ones keeps changes in none but those. -/
theorem Stays.listed {f : State → Bool} {b : Bool} {s t : State} {P : Prop} (h : ¬ P → Stays f b s t) (hs : f s = b)
    (ht : f t = !b) : P := by
  by_contra hP
  rw [h hP hs] at ht
  cases b <;> cases ht

section
variable {i : Instr} {s t : State}

theorem rdOpen_flag_changes (hx : exec i s = .next t) :
    (s.rd.isOpen = false → t.rd.isOpen = true → i = .rdopen) ∧
    (s.rd.isOpen = true → t.rd.isOpen = false → i = .rdclose) := by
  refine ⟨Stays.listed (f := fun s => s.rd.isOpen) fun hi => ?_, Stays.listed (f := fun s => s.rd.isOpen) fun hi => ?_⟩
  · exact exec_stays_rd hx (fun _ => rdBits_stays_isOpen _) (fun h => absurd h hi) (fun _ => rdReset_stays_isOpen _)
      fun _ => rdClose_stays_closed
  · exact exec_stays_rd hx (fun _ => rdBits_stays_isOpen _) (fun _ => rdOpen_stays_open) (fun _ => rdReset_stays_isOpen _)
      fun h => absurd h hi

theorem eos_flag_changes (hx : exec i s = .next t) :
    (s.rd.eos = false → t.rd.eos = true → readsBits i = true) ∧
    (s.rd.eos = true → t.rd.eos = false → i = .rdopen ∨ i = .rdrst ∨ i = .compress) := by
  refine ⟨Stays.listed (f := fun s => s.rd.eos) fun hi => ?_, Stays.listed (f := fun s => s.rd.eos) fun hi => ?_⟩
  · exact exec_stays_rd hx (fun h => absurd h hi) (fun _ => rdOpen_stays_noEos) (fun _ => rdReset_stays_noEos)
      fun _ => rdClose_stays_eos _
  · exact exec_stays_rd hx (fun _ => rdBits_stays_eos) (fun h => absurd (.inl h) hi) (fun h => absurd (.inr h) hi)
      fun _ => rdClose_stays_eos _

theorem wrOpen_flag_changes (hx : exec i s = .next t) :
    (s.wr.isOpen = false → t.wr.isOpen = true → i = .wropen) ∧
    (s.wr.isOpen = true → t.wr.isOpen = false → i = .wrclose ∨ i = .compress ∨ i = .decompress) := by
  refine ⟨Stays.listed (f := fun s => s.wr.isOpen) fun hi => ?_, Stays.listed (f := fun s => s.wr.isOpen) fun hi => ?_⟩
  · exact exec_stays_wrOpen hx (fun h => absurd h hi) fun _ => wrClose_stays_closed
  · exact exec_stays_wrOpen hx (fun _ => wrOpen_stays_open) fun h => absurd h hi

theorem freqValid_flag_changes (hx : exec i s = .next t) :
    (s.freqValid = false → t.freqValid = true → i = .fcount ∨ i = .compress) ∧
    (s.freqValid = true → t.freqValid = false → i = .fcount ∨ i = .compress ∨ i = .decompress) := by
  have hb : ∀ b s, (tBuild s).All (Stays (fun s => s.tables.freqValid) b s) :=
    fun b s => Res.All.imp (tBuild_flags s) fun _ h => .of_eq h.1 b
  have hd : ∀ b s, (tDes s).All (Stays (fun s => s.tables.freqValid) b s) :=
    fun b s => Res.All.imp (tDes_flags s) fun _ h => .of_eq h.1 b
  have hc : ∀ b s, (cTab s).All (Stays (fun s => s.tables.freqValid) b s) :=
    fun b s => Res.All.imp (cTab_flags s) fun _ h => .of_eq h.1 b
  refine ⟨Stays.listed fun hi => ?_, Stays.listed fun hi => ?_⟩
  · exact exec_stays_table (g := Tables.freqValid) hx (fun _ _ => rfl) (fun h => hi (.inr h)) (fun h => absurd (.inl h) hi)
      (fun _ => hb _) (fun _ => hd _) (fun _ => hc _) fun _ _ _ => rfl
  · exact exec_stays_table (g := Tables.freqValid) hx (fun _ _ => rfl) (fun h => hi (.inr (.inl h)))
      (fun h => absurd (.inl h) hi) (fun _ => hb _) (fun _ => hd _) (fun _ => hc _) fun h => absurd (.inr (.inr h)) hi

theorem treeValid_flag_changes (hx : exec i s = .next t) :
    (s.treeValid = false → t.treeValid = true → i = .tbuild ∨ i = .tdes ∨ i = .compress ∨ i = .decompress) ∧
    (s.treeValid = true → t.treeValid = false →
      i = .tbuild ∨ i = .tdes ∨ i = .fcount ∨ i = .compress ∨ i = .decompress) := by
  have hc : ∀ b s, (cTab s).All (Stays (fun s => s.tables.treeValid) b s) :=
    fun b s => Res.All.imp (cTab_flags s) fun _ h => .of_eq h.2 b
  refine ⟨Stays.listed fun hi => ?_, Stays.listed fun hi => ?_⟩ <;> simp only [not_or] at hi
  · obtain ⟨h1, h2, h3, h4⟩ := hi
    exact exec_stays_table (g := Tables.treeValid) hx (fun _ _ => rfl) h3
      (fun _ s => Res.All.imp (fCount_flags s) fun _ h _ => h.1) (fun h => absurd h h1)
      (fun h => absurd h (not_or.2 ⟨h2, h4⟩)) (fun _ => hc _) fun h => absurd h h4
  · obtain ⟨h1, h2, h3, h4, h5⟩ := hi
    exact exec_stays_table (g := Tables.treeValid) hx (fun _ _ => rfl) h4 (fun h => absurd h h3) (fun h => absurd h h1)
      (fun h => absurd h (not_or.2 ⟨h2, h5⟩)) (fun _ => hc _) fun h => absurd h h5

theorem tableValid_flag_changes (hx : exec i s = .next t) :
    (s.tableValid = false → t.tableValid = true → i = .ctab ∨ i = .compress) ∧
    (s.tableValid = true → t.tableValid = false →
      i = .ctab ∨ i = .fcount ∨ i = .tbuild ∨ i = .tdes ∨ i = .compress ∨ i = .decompress) := by
  refine ⟨Stays.listed fun hi => ?_, Stays.listed fun hi => ?_⟩ <;> simp only [not_or] at hi
  · exact exec_stays_table (g := Tables.tableValid) hx (fun _ _ => rfl) hi.2
      (fun _ s => Res.All.imp (fCount_flags s) fun _ h _ => h.2) (fun _ s => Res.All.imp (tBuild_flags s) fun _ h _ => h.2)
      (fun _ s => Res.All.imp (tDes_flags s) fun _ h _ => h.2) (fun h => absurd h hi.1) fun _ _ _ => rfl
  · obtain ⟨h1, h2, h3, h4, h5, h6⟩ := hi
    exact exec_stays_table (g := Tables.tableValid) hx (fun _ _ => rfl) h5 (fun h => absurd h h2) (fun h => absurd h h3)
      (fun h => absurd h (not_or.2 ⟨h4, h6⟩)) (fun h => absurd h h1) fun h => absurd h h6

end

/-- Settles O53, flag by flag: every command but the listed ones keeps it. -/
theorem onlyTheListedCommandsChangeAFlag : Obligations.OnlyTheListedCommandsChangeAFlag := by
  intro s t i hx
  obtain ⟨r1, r2⟩ := rdOpen_flag_changes hx
  obtain ⟨e1, e2⟩ := eos_flag_changes hx
  obtain ⟨w1, w2⟩ := wrOpen_flag_changes hx
  obtain ⟨f1, f2⟩ := freqValid_flag_changes hx
  obtain ⟨n1, n2⟩ := treeValid_flag_changes hx
  obtain ⟨c1, c2⟩ := tableValid_flag_changes hx
  refine ⟨r1, r2, fun h h' => ?_, e2, w1, w2, f1, f2, n1, n2, c1, c2, fun h => ?_⟩
  · have := e1 h h'
    cases i <;> simp_all [readsBits]
  · simpa [State.halted, exec_err_halted h hx] using h

end Sys2Proof.Machine

namespace Sys2Proof.Machine

/-! ### What each procedure can raise (60_exceptions.md R247) -/

/-- The procedure raises nothing but the listed classes and subcodes. -/
def Raises {α : Type} (cs : List (ErrClass × BitVec 4)) (r : Res α) : Prop :=
  r.Ends (fun _ => True) fun e _ => (e.cls, e.sub) ∈ cs

section
variable {α β : Type} {cs cs' : List (ErrClass × BitVec 4)}

theorem raises_ok {a : α} {s : State} : Raises cs (Res.ok a s) := trivial

theorem raises_raised {e : Raise} {s : State} (h : (e.cls, e.sub) ∈ cs) : Raises cs (Res.raised e s : Res α) := h

theorem Raises.mono {r : Res α} (h : Raises cs r) (hs : cs ⊆ cs') : Raises cs' r := h.imp (fun _ h => h) fun _ _ h => hs h

theorem Raises.andThen {r : Res α} {k : α → State → Res β} (h : Raises cs r) (hk : ∀ a t, Raises cs (k a t)) :
    Raises cs (r.andThen k) := by
  cases r with
  | ok a t => exact hk a t
  | raised e t => exact h
  | stuck f => trivial

/-- A procedure that raises nothing. -/
theorem raises_of_never {P : State → Prop} {r : Res α} (h : r.Ends P fun _ _ => False) : Raises cs r :=
  h.imp (fun _ _ => trivial) fun _ _ h => h.elim

end

theorem rdBits_raises (n : Nat) (s : State) : Raises [(.resource, 2)] (rdBits n s) := by
  have block : ∀ s, Raises [(.resource, 2)] (rdRefillBlock s) := by
    intro s
    unfold rdRefillBlock
    split
    · exact raises_ok
    · dsimp only
      split
      · exact raises_raised (by simp)
      · exact raises_ok
      · exact raises_ok
  have acc : ∀ s, Raises [(.resource, 2)] (rdRefillAcc s) := by
    intro s
    unfold rdRefillAcc
    refine Raises.andThen ?_ fun _ _ => raises_ok
    split
    · exact block s
    · exact raises_ok
  have loop : ∀ (fuel need v : Nat) (s : State), Raises [(.resource, 2)] (rdBitsLoop fuel n need v s) := by
    intro fuel
    induction fuel with
    | zero => intro need v s; trivial
    | succ fuel ih =>
      intro need v s
      unfold rdBitsLoop
      split
      · exact raises_ok
      · refine (acc _).andThen fun _ t => ?_
        split
        · exact raises_ok
        · exact ih _ _ t
  exact loop 6 n 0 s

theorem wrPutBlock_raises (s : State) : Raises [(.resource, 5)] (wrPutBlock s) := by
  unfold wrPutBlock
  dsimp only
  split
  · exact raises_ok
  · exact raises_raised (by simp)

theorem wrBits_raises (n v : Nat) (s : State) : Raises [(.resource, 5)] (wrBits n v s) := by
  unfold wrBits
  dsimp only
  split
  · exact raises_ok
  · split
    · exact wrPutBlock_raises _
    · exact raises_ok

theorem wrFlush_raises (s : State) : Raises [(.resource, 5)] (wrFlush s) := by
  unfold wrFlush
  dsimp only
  split
  · exact wrPutBlock_raises _
  · exact raises_ok

theorem wrClose_raises (s : State) : Raises [(.resource, 5)] (wrClose s) := by
  have h := wrFlush_raises s
  unfold wrClose
  split
  · cases hr : wrFlush s with
    | ok _ t => exact raises_ok
    | raised e t => exact raises_raised (h.raised hr)
    | stuck f => trivial
  · exact raises_ok

theorem rdOpen_raises (s : State) : Raises [(.resource, 1)] (rdOpen s) := by
  unfold rdOpen
  dsimp only
  split
  · exact raises_raised (by simp)
  · exact raises_ok

theorem rdReset_raises (s : State) : Raises [(.resource, 3)] (rdReset s) := by
  unfold rdReset
  dsimp only
  split
  · exact raises_raised (by simp)
  · exact raises_ok

theorem wrOpen_raises (s : State) : Raises [(.resource, 4)] (wrOpen s) := by
  unfold wrOpen
  dsimp only
  split
  · exact raises_raised (by simp)
  · exact raises_ok

theorem fCount_raises (s : State) : Raises [(.resource, 2), (.capacity, 1)] (fCount s) := by
  have loop : ∀ (fuel : Nat) (s : State), Raises [(.resource, 2), (.capacity, 1)] (fCountLoop fuel s) := by
    intro fuel
    induction fuel with
    | zero => intro s; trivial
    | succ fuel ih =>
      intro s
      unfold fCountLoop
      refine ((rdBits_raises 8 s).mono (by simp)).andThen fun r t => ?_
      split
      · exact raises_ok
      · split
        · exact raises_raised (by simp)
        · exact ih _
  exact (loop _ _).andThen fun _ _ => raises_ok

theorem serRoot_raises (s : State) : Raises [(.internal, 1), (.resource, 5)] (serRoot s) := by
  have go : ∀ (room : Nat) (i : NodeIx) (s : State), Raises [(.internal, 1), (.resource, 5)] (ser room i s) := by
    intro room
    induction room with
    | zero => intro i s; trivial
    | succ room ih =>
      intro i s
      have bits : ∀ n v s, Raises [(.internal, 1), (.resource, 5)] (wrBits n v s) := fun n v s =>
        (wrBits_raises n v s).mono (by simp)
      unfold ser
      split
      · exact (bits _ _ _).andThen fun _ _ => (ih _ _).andThen fun _ _ => ih _ _
      · exact raises_raised (by simp)
      · exact (bits _ _ _).andThen fun _ _ => bits _ _ _
  exact go _ _ s

theorem des_raises (fuel : Nat) (s : State) :
    Raises [(.malformed, 1), (.malformed, 3), (.malformed, 4), (.resource, 2)] (des fuel s) := by
  induction fuel generalizing s with
  | zero => trivial
  | succ fuel ih =>
    unfold des
    refine ((rdBits_raises 1 s).mono (by simp)).andThen fun b t => ?_
    split
    · exact raises_raised (by simp)
    · split
      · exact raises_raised (by simp)
      · exact (ih _).andThen fun l u => (ih u).andThen fun r v => raises_ok
    · refine ((rdBits_raises 9 t).mono (by simp)).andThen fun y u => ?_
      split
      · exact raises_raised (by simp)
      · split
        · exact raises_raised (by simp)
        · split
          · exact raises_raised (by simp)
          · exact raises_ok

theorem tDes_raises (s : State) :
    Raises [(.malformed, 1), (.malformed, 3), (.malformed, 4), (.malformed, 5), (.resource, 2)] (tDes s) := by
  unfold tDes
  refine ((des_raises _ _).mono (by simp)).andThen fun r t => ?_
  split
  · exact raises_raised (by simp)
  · exact raises_ok

theorem encodeSymbol_raises (y : Symbol) (s : State) : Raises [(.internal, 2), (.resource, 5)] (encodeSymbol y s) := by
  have pieces : ∀ (fuel : Nat) (bits : List Bool) (s : State),
      Raises [(.internal, 2), (.resource, 5)] (wrPieces fuel bits s) := by
    intro fuel
    induction fuel with
    | zero =>
      intro bits s
      cases bits with
      | nil => exact raises_ok
      | cons b bits => trivial
    | succ fuel ih =>
      intro bits s
      cases bits with
      | nil => exact raises_ok
      | cons b bits => exact ((wrBits_raises _ _ s).mono (by simp)).andThen fun _ _ => ih _ _
  unfold encodeSymbol
  split
  · exact raises_raised (by simp)
  · exact pieces _ _ _

theorem encodeBody_raises (s : State) : Raises [(.internal, 2), (.resource, 2), (.resource, 5)] (encodeBody s) := by
  have symbol : ∀ y s, Raises [(.internal, 2), (.resource, 2), (.resource, 5)] (encodeSymbol y s) := fun y s =>
    (encodeSymbol_raises y s).mono (by simp)
  have loop : ∀ (fuel : Nat) (s : State), Raises [(.internal, 2), (.resource, 2), (.resource, 5)] (encodeLoop fuel s) := by
    intro fuel
    induction fuel with
    | zero => intro s; trivial
    | succ fuel ih =>
      intro s
      unfold encodeLoop
      refine ((rdBits_raises 8 s).mono (by simp)).andThen fun r t => ?_
      split
      · exact raises_ok
      · exact (symbol _ _).andThen fun _ _ => ih _
  exact (loop _ _).andThen fun _ _ => symbol _ _

theorem magicR_raises (s : State) : Raises [(.format, 1), (.format, 2), (.resource, 2)] (magicR s) := by
  unfold magicR
  refine ((rdBits_raises 32 s).mono (by simp)).andThen fun r t => ?_
  split
  · exact raises_raised (by simp)
  · split
    · exact raises_ok
    · exact raises_raised (by simp)

theorem decodeBody_raises (s : State) : Raises [(.malformed, 2), (.resource, 2), (.resource, 5)] (decodeBody s) := by
  have loop : ∀ (fuel : Nat) (cur : NodeIx) (s : State),
      Raises [(.malformed, 2), (.resource, 2), (.resource, 5)] (decodeLoop fuel cur s) := by
    intro fuel
    induction fuel with
    | zero => intro cur s; trivial
    | succ fuel ih =>
      intro cur s
      unfold decodeLoop
      refine ((rdBits_raises 1 s).mono (by simp)).andThen fun b t => ?_
      split
      · exact raises_raised (by simp)
      · split
        · trivial
        · dsimp only
          split
          · exact ih _ t
          · split
            · exact raises_ok
            · exact ((wrBits_raises _ _ t).mono (by simp)).andThen fun _ _ => ih _ _
  exact loop _ _ s

/-! ### What each command can raise -/

/-- The raise, by the primitive with opcode `op`, is a cause that R247 lists for the command. -/
def Listed (i : Instr) (op : BitVec 8) (e : Raise) : Prop := ⟨op, e.cls, e.sub⟩ ∈ causes i

theorem Raises.listed {α : Type} {cs : List (ErrClass × BitVec 4)} {r : Res α} {i : Instr} {op : BitVec 8}
    (h : Raises cs r) (hc : ∀ c ∈ cs, ⟨op, c.1, c.2⟩ ∈ causes i) : r.Ends (fun _ => True) fun e _ => Listed i op e :=
  h.imp (fun _ h => h) fun e _ he => hc (e.cls, e.sub) he

/-- A procedure of a command raises only what R247 lists for the command. -/
theorem linesOf_listed (i : Instr) :
    ∀ l ∈ linesOf i, ∀ u, (l.procedure u).Ends (fun _ => True) fun e _ => Listed i l.op e := by
  cases i with
  | getcsr | rdcnt | wrcnt => simp [linesOf]
  | rdopen => simpa [linesOf] using fun u => (rdOpen_raises u).listed (by decide)
  | rdbits n => simpa [linesOf] using fun u => ends_andThen_ok.2 ((rdBits_raises _ u).listed (by simp [causes]))
  | rdrst => simpa [linesOf] using fun u => (rdReset_raises u).listed (by decide)
  | rdclose => simp [linesOf]
  | wropen => simpa [linesOf] using fun u => (wrOpen_raises u).listed (by decide)
  | wrbits n v => simpa [linesOf] using fun u => (wrBits_raises _ _ u).listed (by simp [causes])
  | wrflush => simpa [linesOf] using fun u => (wrFlush_raises u).listed (by decide)
  | wrclose => simpa [linesOf] using fun u => (wrClose_raises u).listed (by decide)
  | fcount => simpa [linesOf] using fun u => (fCount_raises u).listed (by decide)
  | tbuild => simpa [linesOf] using fun u => (raises_of_never (tBuild_frame u)).listed (cs := []) (by decide)
  | magicw => simpa [linesOf, magicW] using fun u => (wrBits_raises _ _ u).listed (by decide)
  | tser => simpa [linesOf] using fun u => (serRoot_raises u).listed (by decide)
  | ctab => simpa [linesOf] using fun u => (raises_of_never (cTab_frame u)).listed (cs := []) (by decide)
  | encode => simpa [linesOf] using fun u => (encodeBody_raises u).listed (by decide)
  | magicr => simpa [linesOf] using fun u => (magicR_raises u).listed (by decide)
  | tdes => simpa [linesOf] using fun u => (tDes_raises u).listed (by decide)
  | decode => simpa [linesOf] using fun u => (decodeBody_raises u).listed (by decide)
  | compress =>
    simp only [linesOf, compressLines, List.mem_cons, List.not_mem_nil, or_false]
    rintro l (rfl | rfl | rfl | rfl | rfl | rfl | rfl | rfl) u
    exacts [(fCount_raises u).listed (by decide), (raises_of_never (tBuild_frame u)).listed (cs := []) (by decide),
      (rdReset_raises u).listed (by decide), (wrBits_raises _ _ u).listed (by decide), (serRoot_raises u).listed (by decide),
      (raises_of_never (cTab_frame u)).listed (cs := []) (by decide), (encodeBody_raises u).listed (by decide),
      (wrClose_raises u).listed (by decide)]
  | decompress =>
    simp only [linesOf, decompressLines, List.mem_cons, List.not_mem_nil, or_false]
    rintro l (rfl | rfl | rfl | rfl) u
    exacts [(magicR_raises u).listed (by decide), (tDes_raises u).listed (by decide), (decodeBody_raises u).listed (by decide),
      (wrClose_raises u).listed (by decide)]

/-- A command lists the SEQUENCE subcode of each of its preconditions (60 R258). -/
theorem needs_listed (i : Instr) : ∀ n ∈ needs i, Listed i i.opcode ⟨.sequence, n.sub, 0⟩ := by
  cases i with
  | getcsr | rdcnt | rdclose | wrcnt | wrclose => simp [needs]
  | rdbits n => exact (by decide : ∀ n ∈ [Need.rdOpen], ⟨0x11, .sequence, n.sub⟩ ∈ causes (.rdbits 0))
  | wrbits n v => exact (by decide : ∀ n ∈ [Need.wrOpen], ⟨0x21, .sequence, n.sub⟩ ∈ causes (.wrbits 0 0))
  | _ => unfold Listed; decide

/-- The checks of a command raise only what R247 lists for it (60 R248, R258). -/
theorem TurnedAway.listed {i : Instr} {s : State} {e : Raise} (h : TurnedAway i s e) : Listed i i.opcode e := by
  cases h with
  | arg h =>
    cases i with
    | rdbits n =>
      simp only [argCheck] at h
      split at h
      · cases h
      · cases h; exact List.mem_cons_self
    | wrbits n v =>
      simp only [argCheck] at h
      split at h
      · cases h
      · cases h; exact List.mem_cons_self
    | _ => cases h
  | seq h =>
    simp only [seqCheck, Option.map_eq_some_iff] at h
    obtain ⟨n, hn, rfl⟩ := h
    exact needs_listed i n (List.mem_of_find?_eq_some hn)
  | illegal h => subst h; exact List.mem_cons_self

/-! ### ERR -/

/-- The fields of ERR as a number (10_state.md R44). -/
theorem packErr_toNat (e : Raise) (op mop : BitVec 8) : (packErr e op mop).toNat =
    e.info.toNat * 2 ^ 32 + mop.toNat * 2 ^ 16 + op.toNat * 2 ^ 8 + e.sub.toNat * 2 ^ 4 + e.cls.code.toNat := by
  simp only [packErr, toNat_append_eq, BitVec.toNat_ofNat]
  omega

/-- Lines that each keep `I` and raise as `Q` says. -/
theorem linesEnd_of_forall {I : State → Prop} {Q : BitVec 8 → Raise → State → Prop} {lines : List MacroLine}
    (h : ∀ l ∈ lines, ∀ u, I u → (l.procedure u).Ends I (Q l.op)) : LinesEnd I Q lines I := by
  induction lines with
  | nil => exact fun _ h => h
  | cons l lines ih => exact ⟨I, h l (by simp), ih fun x hx => h x (by simp [hx])⟩

/-- What a command leaves in ERR: what was there, or a listed cause. -/
theorem exec_cause {i : Instr} {s t : State} (hx : exec i s = .next t) :
    t.err = s.err ∨ ∃ op e, Listed i op e ∧ t.err = packErr e op i.opcode := by
  have ended : Ended (fun u => u.err = s.err) (fun op e u => Listed i op e ∧ u.err = s.err) i s t := by
    refine exec_ended (fun hc => ⟨fun u => u.err = s.err, rfl, linesEnd_of_forall fun l hl u hu => ?_⟩) hx
    exact ((linesOf_listed i l hl u).and ((effect_respected i).lines hc.arg l hl u)).imp
      (fun _ h => h.2.err.trans hu) fun _ _ h => ⟨h.1, h.2.err.trans hu⟩
  cases ended with
  | refused => exact .inl rfl
  | @turnedAway e h => exact (raiseErr_err_or _ _ e s).imp_right fun he => ⟨_, e, h.listed, he.2⟩
  | completed _ _ hu => exact .inl (by simpa using hu)
  | @raised u op e hu =>
    have h := raiseErr_err_or op i.opcode e (lost i u)
    rw [lost_err, hu.2] at h
    exact h.imp_right fun he => ⟨op, e, hu.1, he.2⟩

/-- Settles O10, procedure by procedure. -/
theorem errRecordsAListedCause : Obligations.ErrRecordsAListedCause := by
  refine ⟨packErr_toNat, fun s t i hh hx hc => ?_⟩
  rcases exec_cause hx with he | ⟨op, e, hl, he⟩
  · rw [he] at hc
    exact absurd (by simpa [State.halted] using hh) hc
  · exact ⟨_, hl, e.info, he⟩

end Sys2Proof.Machine

namespace Sys2Proof.Machine

/-! ### Two runs that differ in what is unspecified (70 R282)

Two states with the same meaning are followed through each procedure side by side: they read the same bits, make the same
transactions and raise the same errors, and what they leave has the same meaning again. -/

/-- The two readers differ at most in RD_ACC at and above RD_ACC_CNT (10_state.md R27). -/
structure SameReader (r r' : Reader) : Prop where
  isOpen : r'.isOpen = r.isOpen
  bitsRead : r'.bitsRead = r.bitsRead
  eos : r'.eos = r.eos
  srcEnd : r'.srcEnd = r.srcEnd
  accCnt : r'.accCnt = r.accCnt
  blk : r'.blk = r.blk
  blkIdx : r'.blkIdx = r.blkIdx
  accBits : r.accBits = r'.accBits

/-- The two writers differ at most in WR_ACC at and above WR_ACC_CNT (10_state.md R31). -/
structure SameWriter (w w' : Writer) : Prop where
  isOpen : w'.isOpen = w.isOpen
  bitsWritten : w'.bitsWritten = w.bitsWritten
  accCnt : w'.accCnt = w.accCnt
  blk : w'.blk = w.blk
  accBits : w.accBits = w'.accBits

/-- The tables agree where their valid flags are 1 (10_state.md R52). -/
structure SameTables (x y : Tables) : Prop where
  freqValid : x.freqValid = y.freqValid
  freq : x.freqValid = true → x.freq = y.freq
  treeValid : x.treeValid = y.treeValid
  tree : x.treeValid = true → x.nodeCnt = y.nodeCnt ∧ x.root = y.root ∧
    ∀ i : NodeIx, i.val < x.nodeCnt → x.node.get i = y.node.get i
  tableValid : x.tableValid = y.tableValid
  code : x.tableValid = true → x.code = y.code

/-- Two states that agree in all that has a meaning, their codec tables being related by `T`. -/
structure Twin (T : Tables → Tables → Prop) (s s' : State) : Prop where
  rd : SameReader s.rd s'.rd
  wr : SameWriter s.wr s'.wr
  tables : T s.tables s'.tables
  err : s'.err = s.err
  magic : s'.magic = s.magic
  src : s'.src = s.src
  snk : s'.snk = s.snk
  log : s'.log = s.log
  rsp : s'.rsp = s.rsp
  host : s'.host = s.host

theorem sameMeaning_iff {s s' : State} : s.SameMeaning s' ↔ Twin SameTables s s' := by
  constructor
  · rintro ⟨h1, h2, h3, h4, h5, h6, h7, h8, h9, h10, g1, g2, g3, g4, g5, g6, g7⟩
    exact ⟨⟨by rw [h1], by rw [h1], by rw [h1], by rw [h1], by rw [h1], by rw [h1], by rw [h1], h2⟩,
      ⟨by rw [h3], by rw [h3], by rw [h3], by rw [h3], h4⟩, ⟨h5, h6, h7, h8, h9, h10⟩, g1, g2, g3, g4, g5, g6, g7⟩
  · rintro ⟨h1, h2, ⟨h5, h6, h7, h8, h9, h10⟩, g1, g2, g3, g4, g5, g6, g7⟩
    refine ⟨?_, h1.accBits, ?_, h2.accBits, h5, h6, h7, h8, h9, h10, g1, g2, g3, g4, g5, g6, g7⟩
    · dsimp only
      rw [← h1.isOpen, ← h1.bitsRead, ← h1.eos, ← h1.srcEnd, ← h1.accCnt, ← h1.blk, ← h1.blkIdx]
    · dsimp only
      rw [← h2.isOpen, ← h2.bitsWritten, ← h2.accCnt, ← h2.blk]

section
variable {T T' : Tables → Tables → Prop} {s s' : State}

theorem Twin.imp (h : Twin T s s') (hT : T s.tables s'.tables → T' s.tables s'.tables) : Twin T' s s' :=
  { h with tables := hT h.tables }

theorem Twin.transact (h : Twin T s s') (e : PortEvent) : Twin T (s.transact e) (s'.transact e) :=
  ⟨h.rd, h.wr, h.tables, h.err, h.magic, by simp [h.src], by simp [h.snk], by simp [h.log], h.rsp, h.host⟩

theorem Twin.setRd (h : Twin T s s') {r r' : Reader} (hr : SameReader r r') :
    Twin T { s with rd := r } { s' with rd := r' } := ⟨hr, h.wr, h.tables, h.err, h.magic, h.src, h.snk, h.log, h.rsp, h.host⟩

theorem Twin.setWr (h : Twin T s s') {w w' : Writer} (hw : SameWriter w w') :
    Twin T { s with wr := w } { s' with wr := w' } := ⟨h.rd, hw, h.tables, h.err, h.magic, h.src, h.snk, h.log, h.rsp, h.host⟩

theorem Twin.respond (h : Twin T s s') (ok eos : Bool) (d : BitVec 64) : Twin T (s.respond ok eos d) (s'.respond ok eos d) :=
  ⟨h.rd, h.wr, h.tables, h.err, h.magic, h.src, h.snk, h.log, rfl, h.host⟩

theorem Twin.raiseErr (h : Twin T s s') (op mop : BitVec 8) (e : Raise) :
    Twin T (raiseErr op mop e s) (raiseErr op mop e s') := by
  have he : (Machine.raiseErr op mop e s').err = (Machine.raiseErr op mop e s).err := by rw [raiseErr_err, raiseErr_err, h.err]
  rw [raiseErr_eq, raiseErr_eq s', he]
  exact ⟨h.rd, h.wr, h.tables, rfl, h.magic, h.src, h.snk, h.log, rfl, h.host⟩

theorem Twin.halted (h : Twin T s s') : s'.halted = s.halted := by unfold State.halted; rw [h.err]

end

/-! #### Results side by side -/

/-- Both procedures complete with one value in states related by `R`, or both raise one error in states related by `Q`; a
stop of the model on either side says nothing. -/
def Res.Twins {α : Type} (R : α → State → State → Prop) (Q : State → State → Prop) : Res α → Res α → Prop
  | .ok a t, .ok a' t' => a' = a ∧ R a t t'
  | .raised e t, .raised e' t' => e' = e ∧ Q t t'
  | .stuck _, _ | _, .stuck _ => True
  | .ok _ _, .raised _ _ | .raised _ _, .ok _ _ => False

section
variable {α β : Type} {R R' : α → State → State → Prop} {Q Q' : State → State → Prop} {r r' : Res α}

theorem twins_stuck_right {f : Fault} : r.Twins R Q (.stuck f) := by cases r <;> trivial

/-- The ways two procedures can end side by side. -/
theorem Res.Twins.cases {C : Res α → Res α → Prop} (h : r.Twins R Q r') (ok : ∀ a t t', R a t t' → C (.ok a t) (.ok a t'))
    (raised : ∀ e t t', Q t t' → C (.raised e t) (.raised e t')) (left : ∀ f x, C (.stuck f) x)
    (right : ∀ x f, C x (.stuck f)) : C r r' := by
  cases r with
  | stuck f => exact left f r'
  | ok a t =>
    cases r' with
    | ok a' t' => obtain ⟨rfl, h⟩ := h; exact ok _ t t' h
    | raised e t' => exact h.elim
    | stuck f => exact right _ f
  | raised e t =>
    cases r' with
    | ok a t' => exact h.elim
    | raised e' t' => obtain ⟨rfl, h⟩ := h; exact raised _ t t' h
    | stuck f => exact right _ f

theorem Res.Twins.imp (h : r.Twins R Q r') (hR : ∀ a t t', R a t t' → R' a t t') (hQ : ∀ t t', Q t t' → Q' t t') :
    r.Twins R' Q' r' :=
  h.cases (C := Res.Twins R' Q') (fun _ _ _ h => ⟨rfl, hR _ _ _ h⟩) (fun _ _ _ h => ⟨rfl, hQ _ _ h⟩) (fun _ _ => trivial)
    fun _ _ => twins_stuck_right

theorem Res.Twins.andThen {S : β → State → State → Prop} {k k' : α → State → Res β} (h : r.Twins R Q r')
    (hk : ∀ a t t', R a t t' → (k a t).Twins S Q (k' a t')) : (r.andThen k).Twins S Q (r'.andThen k') :=
  h.cases (C := fun r r' => (r.andThen k).Twins S Q (r'.andThen k')) hk (fun _ _ _ h => ⟨rfl, h⟩) (fun _ _ => trivial)
    fun _ _ => twins_stuck_right

/-- Where both complete, what the first ended in. -/
theorem Res.Twins.withEnd (h : r.Twins R Q r') : r.Twins (fun a t t' => R a t t' ∧ r = .ok a t) Q r' :=
  h.cases (C := fun r r' => r.Twins (fun a t t' => R a t t' ∧ r = .ok a t) Q r') (fun _ _ _ h => ⟨rfl, h, rfl⟩)
    (fun _ _ _ h => ⟨rfl, h⟩) (fun _ _ => trivial) fun _ _ => twins_stuck_right

/-- What the first of the two leaves beside. -/
theorem Res.Twins.and {P : State → Prop} {E : Raise → State → Prop} (h : r.Twins R Q r') (hP : r.Ends P E) :
    r.Twins (fun a t t' => R a t t' ∧ P t) Q r' :=
  h.cases (C := fun r r' => r.Ends P E → r.Twins (fun a t t' => R a t t' ∧ P t) Q r') (fun _ _ _ h hP => ⟨rfl, h, hP⟩)
    (fun _ _ _ h _ => ⟨rfl, h⟩) (fun _ _ _ => trivial) (fun _ _ _ => twins_stuck_right) hP

end

end Sys2Proof.Machine

namespace Sys2Proof.Machine


/-! #### The read primitive -/

/-- A field that lies among the bits that agree. -/
theorem field_congr {w w' : BitVec 64} {cnt lo n : Nat} (h : toBits cnt w.toNat = toBits cnt w'.toNat) (hle : lo + n ≤ cnt) :
    field w lo n = field w' lo n := by
  have hm : w.toNat % 2 ^ cnt = w'.toNat % 2 ^ cnt := by rw [← ofBits_toBits, h, ofBits_toBits]
  rw [field_eq, field_eq]
  apply Nat.eq_of_testBit_eq
  intro i
  have hi := congrArg (fun x => x.testBit (lo + i)) hm
  simp only [Nat.testBit_mod_two_pow, Nat.testBit_div_two_pow, Nat.add_comm lo] at hi ⊢
  by_cases hn : i < n
  · simpa [hn, show i + lo < cnt by omega] using hi
  · simp [hn]

/-- The lower ones of the bits that agree. -/
theorem toBits_low {v v' cnt k : Nat} (h : toBits cnt v = toBits cnt v') (hk : k ≤ cnt) : toBits k v = toBits k v' := by
  have hm : v % 2 ^ cnt = v' % 2 ^ cnt := by rw [← ofBits_toBits, h, ofBits_toBits]
  rw [← toBits_mod_of_le v hk, hm, toBits_mod_of_le v' hk]

section
variable {T : Tables → Tables → Prop} {s s' : State}

theorem SameReader.setCnt {r r' : Reader} (h : SameReader r r') {k : Nat} (hk : k ≤ r.accCnt) (b : BitVec 64) :
    SameReader { r with accCnt := k, bitsRead := b } { r' with accCnt := k, bitsRead := b } :=
  { h with
    bitsRead := rfl
    accCnt := rfl
    accBits := by
      have := h.accBits
      unfold Reader.accBits at this ⊢
      rw [h.accCnt] at this
      exact toBits_low this hk }

theorem SameReader.load {r r' : Reader} (h : SameReader r r') (a : BitVec 64) : SameReader (r.load a) (r'.load a) := by
  have hb : (r'.blk.drop r'.blkIdx).take 8 = (r.blk.drop r.blkIdx).take 8 := by rw [h.blk, h.blkIdx]
  unfold Reader.load
  rw [hb]
  dsimp only
  split
  · exact { h with accCnt := rfl, accBits := rfl }
  · exact { h with accCnt := rfl, blkIdx := congrArg (· + _) h.blkIdx, accBits := rfl }

theorem Twin.fetchAnswer (h : Twin T s s') (m : Nat) : s'.fetchAnswer m = s.fetchAnswer m := by
  unfold State.fetchAnswer State.srcFails
  rw [h.src, h.log]

theorem rdRefillBlock_twins (h : Twin T s s') : (rdRefillBlock s).Twins (fun _ => Twin T) (Twin T) (rdRefillBlock s') := by
  unfold rdRefillBlock
  rw [h.rd.srcEnd, h.fetchAnswer]
  split
  · exact ⟨rfl, h⟩
  · have ht := h.transact (.srcFetch Config.rdBlockBytes (s.fetchAnswer Config.rdBlockBytes))
    dsimp only
    split
    · exact ⟨rfl, ht⟩
    · exact ⟨rfl, ht.setRd { ht.rd with srcEnd := rfl, blk := rfl, blkIdx := rfl }⟩
    · exact ⟨rfl, ht.setRd { ht.rd with blk := rfl, blkIdx := rfl }⟩

theorem rdRefillAcc_twins (h : Twin T s s') : (rdRefillAcc s).Twins (fun _ => Twin T) (Twin T) (rdRefillAcc s') := by
  unfold rdRefillAcc Reader.blkLen
  rw [h.rd.blk, h.rd.blkIdx]
  refine Res.Twins.andThen (R := fun _ => Twin T) ?_ fun _ t t' ht => ?_
  · split
    · exact rdRefillBlock_twins h
    · exact ⟨rfl, h⟩
  · have ha : Config.rdAccAbove t'.log.length t'.rd.blkIdx = Config.rdAccAbove t.log.length t.rd.blkIdx := by
      rw [ht.log, ht.rd.blkIdx]
    rw [ha]
    exact ⟨rfl, ht.setRd (ht.rd.load _)⟩

/-- The read primitive delivers the same value and fetches alike (40 R124). -/
theorem rdBits_twins (n : Nat) (h : Twin T s s') : (rdBits n s).Twins (fun _ => Twin T) (Twin T) (rdBits n s') := by
  have loop : ∀ (fuel need v : Nat) {s s' : State}, Twin T s s' →
      (rdBitsLoop fuel n need v s).Twins (fun _ => Twin T) (Twin T) (rdBitsLoop fuel n need v s') := by
    intro fuel
    induction fuel with
    | zero => intro need v s s' _; trivial
    | succ fuel ih =>
      intro need v s s' h
      have hacc := h.rd.accBits
      unfold Reader.accBits at hacc
      unfold rdBitsLoop
      rw [h.rd.accCnt, h.rd.bitsRead]
      rw [h.rd.accCnt] at hacc
      split
      · rw [field_congr hacc (by omega)]
        exact ⟨rfl, h.setRd (h.rd.setCnt (Nat.sub_le _ _) _)⟩
      · have h0 : Twin T { s with rd := { s.rd with accCnt := 0 } } { s' with rd := { s'.rd with accCnt := 0 } } :=
          h.setRd { h.rd with accCnt := rfl, accBits := rfl }
        refine (rdRefillAcc_twins h0).andThen fun _ t t' ht => ?_
        rw [ht.rd.accCnt, field_congr hacc (by omega)]
        split
        · exact ⟨rfl, ht.setRd { ht.rd with eos := rfl, accBits := ht.rd.accBits }⟩
        · exact ih _ _ ht
  exact loop 6 n 0 h

/-! #### The write primitives -/

theorem wrPutBlock_twins (h : Twin T s s') : (wrPutBlock s).Twins (fun _ => Twin T) (Twin T) (wrPutBlock s') := by
  have ha : s'.putAnswer = s.putAnswer := by unfold State.putAnswer State.snkFails; rw [h.snk, h.log]
  have ht := h.transact (.snkPut s.wr.blk s.putAnswer)
  have hb := ht.setWr (w := { s.wr with blk := [] }) (w' := { s'.wr with blk := [] })
    { ht.wr with blk := rfl, accBits := ht.wr.accBits }
  unfold wrPutBlock
  rw [ha, h.wr.blk]
  dsimp only
  split
  · exact ⟨rfl, hb⟩
  · exact ⟨rfl, hb⟩

/-- The write primitive collects the same bits and puts alike (41 R144). -/
theorem wrBits_twins (n v : Nat) (h : Twin T s s') : (wrBits n v s).Twins (fun _ => Twin T) (Twin T) (wrBits n v s') := by
  have hacc := h.wr.accBits
  unfold Writer.accBits at hacc
  rw [h.wr.accCnt] at hacc
  have hold : field s'.wr.acc 0 s'.wr.accCnt = field s.wr.acc 0 s.wr.accCnt := by
    rw [h.wr.accCnt, field_congr hacc (by omega)]
  have habove : Config.wrAccAbove s'.log.length (8 * s'.wr.blkLen + s'.wr.accCnt) =
      Config.wrAccAbove s.log.length (8 * s.wr.blkLen + s.wr.accCnt) := by
    unfold Writer.blkLen; rw [h.log, h.wr.accCnt, h.wr.blk]
  have hblk : ∀ b, s'.wr.blk ++ b = s.wr.blk ++ b := fun b => by rw [h.wr.blk]
  unfold wrBits
  rw [hold, habove, h.wr.accCnt, h.wr.bitsWritten]
  dsimp only
  split
  · exact ⟨rfl, h.setWr ⟨h.wr.isOpen, rfl, rfl, h.wr.blk, rfl⟩⟩
  · rw [hblk]
    have hw : ∀ (acc above b : BitVec 64) (k : Nat) (blk : List Byte), Twin T
        { s with wr := { s.wr with acc := acc, accAbove := above, accCnt := k, bitsWritten := b, blk := blk } }
        { s' with wr := { s'.wr with acc := acc, accAbove := above, accCnt := k, bitsWritten := b, blk := blk } } :=
      fun _ _ _ _ _ => h.setWr ⟨h.wr.isOpen, rfl, rfl, rfl, rfl⟩
    unfold Writer.blkLen
    dsimp only
    split
    · exact wrPutBlock_twins (hw _ _ _ _ _)
    · exact ⟨rfl, hw _ _ _ _ _⟩

theorem wrFlush_twins (h : Twin T s s') : (wrFlush s).Twins (fun _ => Twin T) (Twin T) (wrFlush s') := by
  have hacc := h.wr.accBits
  unfold Writer.accBits at hacc
  rw [h.wr.accCnt] at hacc
  have hw : ∀ blk : List Byte, Twin T { s with wr := { s.wr with accCnt := 0, blk := blk } }
      { s' with wr := { s'.wr with accCnt := 0, blk := blk } } :=
    fun _ => h.setWr { h.wr with accCnt := rfl, blk := rfl, accBits := rfl }
  unfold wrFlush Writer.blkLen
  rw [h.wr.accCnt, h.wr.blk, field_congr hacc (by omega : 0 + s.wr.accCnt ≤ s.wr.accCnt)]
  dsimp only
  split
  · exact wrPutBlock_twins (hw _)
  · exact ⟨rfl, hw _⟩

theorem wrRelease_twin (h : Twin T s s') : Twin T (wrRelease s) (wrRelease s') := by
  have ht := h.transact .snkRelease
  exact ht.setWr { ht.wr with isOpen := rfl, accBits := ht.wr.accBits }

/-- A change of the state in which a procedure ends, whichever way. -/
def Res.after {α : Type} (f : State → State) : Res α → Res α
  | .ok a s => .ok a (f s)
  | .raised e s => .raised e (f s)
  | .stuck f => .stuck f

theorem wrClose_eq (s : State) : wrClose s = if s.wr.isOpen then (wrFlush s).after wrRelease else .ok () s := by
  unfold wrClose
  split
  · cases wrFlush s <;> rfl
  · rfl

theorem wrClose_twins (h : Twin T s s') : (wrClose s).Twins (fun _ => Twin T) (Twin T) (wrClose s') := by
  rw [wrClose_eq, wrClose_eq, h.wr.isOpen]
  split
  · exact (wrFlush_twins h).cases
      (C := fun r r' => (r.after wrRelease).Twins (fun _ => Twin T) (Twin T) (r'.after wrRelease))
      (fun _ _ _ h => ⟨rfl, wrRelease_twin h⟩) (fun _ _ _ h => ⟨rfl, wrRelease_twin h⟩) (fun _ _ => trivial)
      fun _ _ => twins_stuck_right
  · exact ⟨rfl, h⟩

/-! #### Opens, the rewind and the close of the reader -/

theorem wrOpen_twins (h : Twin T s s') : (wrOpen s).Twins (fun _ => Twin T) (Twin T) (wrOpen s') := by
  unfold wrOpen State.snkFails
  rw [h.snk, h.log]
  have ht := h.transact (.snkOpen (openAnswer (deviceFails s.snk.failAt s.snk.txs s.log.length) s.log.length))
  dsimp only
  split
  · exact ⟨rfl, ht⟩
  · exact ⟨rfl, ht.setWr ⟨rfl, rfl, rfl, rfl, rfl⟩⟩

theorem SameReader.init {r r' : Reader} (h : SameReader r r') : SameReader r.init r'.init :=
  ⟨h.isOpen, rfl, rfl, rfl, rfl, rfl, rfl, rfl⟩

theorem rdOpen_twins (h : Twin T s s') : (rdOpen s).Twins (fun _ => Twin T) (Twin T) (rdOpen s') := by
  unfold rdOpen State.srcFails
  rw [h.src, h.log]
  have ht := h.transact (.srcOpen (openAnswer (deviceFails s.src.failAt s.src.txs s.log.length) s.log.length))
  dsimp only
  split
  · exact ⟨rfl, ht⟩
  · exact ⟨rfl, ht.setRd { ht.rd.init with isOpen := rfl, accBits := rfl }⟩

theorem rdReset_twins (h : Twin T s s') : (rdReset s).Twins (fun _ => Twin T) (Twin T) (rdReset s') := by
  unfold rdReset State.srcFails
  rw [h.src, h.log]
  have ht := h.transact (.srcRewind (openAnswer (deviceFails s.src.failAt s.src.txs s.log.length) s.log.length))
  dsimp only
  split
  · exact ⟨rfl, ht⟩
  · exact ⟨rfl, ht.setRd ht.rd.init⟩

theorem rdClose_twin (h : Twin T s s') : Twin T (rdClose s) (rdClose s') := by
  unfold rdClose
  rw [h.rd.isOpen]
  split
  · have ht := h.transact .srcRelease
    exact ht.setRd { ht.rd with isOpen := rfl, accBits := ht.rd.accBits }
  · exact h

end

end Sys2Proof.Machine

namespace Sys2Proof.Machine

/-! #### Procedures that use the codec tables -/

/-- A tree in the node memory lies within the records below NODE_CNT (10_state.md R36). -/
structure TreeClosed (x : Tables) : Prop where
  valid : x.treeValid = true
  root : x.root.val < x.nodeCnt
  child : ∀ i w a b, i.val < x.nodeCnt → x.node.get i = .internal w a b → a.val < x.nodeCnt ∧ b.val < x.nodeCnt

theorem treeAt_mem {m : Vector Node 513} {t : CodeTree} {i : NodeIx} {ixs : List NodeIx} (h : TreeAt m t i ixs) : i ∈ ixs := by
  cases t with
  | leaf y => obtain ⟨rfl, -⟩ := h; simp
  | node l r => obtain ⟨w, a, b, as, bs, -, -, -, rfl⟩ := h; simp

/-- The children of a tree's records are among them. -/
theorem treeAt_child {m : Vector Node 513} {t : CodeTree} {i : NodeIx} {ixs : List NodeIx} (h : TreeAt m t i ixs)
    {j a b : NodeIx} {w : Weight} (hj : j ∈ ixs) (hm : m.get j = .internal w a b) : a ∈ ixs ∧ b ∈ ixs := by
  induction t generalizing i ixs with
  | leaf y =>
    obtain ⟨rfl, v, hv⟩ := h
    rw [List.mem_singleton.1 hj, hv] at hm
    cases hm
  | node l r hl hr =>
    obtain ⟨v, c, d, as, bs, hv, h1, h2, rfl⟩ := h
    rcases List.mem_cons.1 hj with rfl | hj
    · rw [hv] at hm
      obtain ⟨-, rfl, rfl⟩ := Node.internal.inj hm
      simp [treeAt_mem h1, treeAt_mem h2]
    · rcases List.mem_append.1 hj with hj | hj
      · obtain ⟨ha, hb⟩ := hl h1 hj; simp [ha, hb]
      · obtain ⟨ha, hb⟩ := hr h2 hj; simp [ha, hb]

theorem treeClosed_of_holdsTree {s : State} {t : CodeTree} (hv : s.treeValid = true) (h : s.holdsTree t) :
    TreeClosed s.tables := by
  obtain ⟨-, ixs, ht, -, hm⟩ := h
  refine ⟨hv, (hm _).1 (treeAt_mem ht), fun i w a b hi hw => ?_⟩
  obtain ⟨ha, hb⟩ := treeAt_child ht ((hm i).2 hi) hw
  exact ⟨(hm a).1 ha, (hm b).1 hb⟩

theorem State.Inv.treeClosed {s : State} (h : s.Inv) (hv : s.treeValid = true) : TreeClosed s.tables := by
  obtain ⟨t, ht⟩ := h.tree hv
  exact treeClosed_of_holdsTree hv ht

/-- The tables agree where valid, and the first meet `P`. -/
def SameAnd (P : Tables → Prop) (x y : Tables) : Prop := SameTables x y ∧ P x

section
variable {T : Tables → Tables → Prop} {P : Tables → Prop} {s s' : State}

theorem Twin.same (h : Twin (SameAnd P) s s') : Twin SameTables s s' := h.imp And.left

theorem Res.Twins.same {α : Type} {r r' : Res α}
    (h : r.Twins (fun _ => Twin (SameAnd P)) (Twin (SameAnd P)) r') : r.Twins (fun _ => Twin SameTables) (Twin SameTables) r' :=
  h.imp (fun _ _ _ h => h.same) fun _ _ h => h.same

theorem magicR_twins (h : Twin T s s') : (magicR s).Twins (fun _ => Twin T) (Twin T) (magicR s') := by
  unfold magicR
  refine (rdBits_twins 32 h).andThen fun r t t' ht => ?_
  rw [ht.magic]
  split
  · exact ⟨rfl, ht⟩
  · split
    · exact ⟨rfl, ht⟩
    · exact ⟨rfl, ht⟩

theorem magicW_twins (h : Twin T s s') : (magicW s).Twins (fun _ => Twin T) (Twin T) (magicW s') := by
  unfold magicW
  rw [h.magic]
  exact wrBits_twins _ _ h

/-- The records of the tree agree. -/
theorem Twin.nodeAt (h : Twin (SameAnd TreeClosed) s s') {i : NodeIx} (hi : i.val < s.nodeCnt) : s'.nodeAt i = s.nodeAt i :=
  ((h.tables.1.tree h.tables.2.valid).2.2 i hi).symm

theorem Twin.root (h : Twin (SameAnd TreeClosed) s s') : s'.root = s.root := (h.tables.1.tree h.tables.2.valid).2.1.symm

theorem ser_twins (room : Nat) : ∀ {i : NodeIx} {s s' : State}, Twin (SameAnd TreeClosed) s s' → i.val < s.nodeCnt →
    (ser room i s).Twins (fun _ => Twin (SameAnd TreeClosed)) (Twin (SameAnd TreeClosed)) (ser room i s') := by
  induction room with
  | zero => intro i s s' _ _; trivial
  | succ room ih =>
    intro i s s' h hi
    unfold ser
    rw [h.nodeAt hi]
    split
    · rename_i w l r hn
      obtain ⟨hl, hr⟩ := h.tables.2.child i w l r hi hn
      refine ((wrBits_twins 1 0 h).and (wrBits_frame 1 0 s)).andThen fun _ t t' ht => ?_
      have hc : t.nodeCnt = s.nodeCnt := congrArg Tables.nodeCnt ht.2.tables
      refine ((ih ht.1 (hc ▸ hl)).and (ser_frame room l t)).andThen fun _ u u' hu => ?_
      have hc' : u.nodeCnt = t.nodeCnt := congrArg Tables.nodeCnt hu.2.tables
      exact ih hu.1 (by rw [hc', hc]; exact hr)
    · exact ⟨rfl, h⟩
    · exact (wrBits_twins 1 1 h).andThen fun _ t t' ht => wrBits_twins 9 _ ht

theorem serRoot_twins (h : Twin (SameAnd TreeClosed) s s') :
    (serRoot s).Twins (fun _ => Twin (SameAnd TreeClosed)) (Twin (SameAnd TreeClosed)) (serRoot s') := by
  unfold serRoot
  rw [h.root]
  exact ser_twins _ h h.tables.2.root

theorem Twin.bitsLeft (h : Twin T s s') : s'.bitsLeft = s.bitsLeft := by
  unfold State.bitsLeft
  rw [h.rd.accCnt, h.rd.blk, h.rd.blkIdx, h.src]

theorem decodeLoop_twins (fuel : Nat) : ∀ {cur : NodeIx} {s s' : State}, Twin (SameAnd TreeClosed) s s' →
    cur.val < s.nodeCnt → (decodeLoop fuel cur s).Twins (fun _ => Twin (SameAnd TreeClosed)) (Twin (SameAnd TreeClosed))
      (decodeLoop fuel cur s') := by
  induction fuel with
  | zero => intro cur s s' _ _; trivial
  | succ fuel ih =>
    intro cur s s' h hcur
    unfold decodeLoop
    refine ((rdBits_twins 1 h).and (rdBits_frame 1 s)).andThen fun b t t' ht => ?_
    obtain ⟨ht, hf⟩ := ht
    have hcur : cur.val < t.nodeCnt := by rw [hf.nodeCnt]; exact hcur
    split
    · exact ⟨rfl, ht⟩
    · rename_i b
      rw [ht.nodeAt hcur]
      split
      · trivial
      · rename_i w l r hn
        obtain ⟨hl, hr⟩ := ht.tables.2.child cur w l r hcur hn
        have hnext : (if b = 0 then l else r).val < t.nodeCnt := by split <;> assumption
        dsimp only
        rw [ht.nodeAt hnext]
        split
        · exact ih ht hnext
        · split
          · exact ⟨rfl, ht⟩
          · refine (wrBits_twins 8 _ ht).andThen fun _ u u' hu => ?_
            rw [hu.root]
            exact ih hu hu.tables.2.root

theorem decodeBody_twins (h : Twin (SameAnd TreeClosed) s s') :
    (decodeBody s).Twins (fun _ => Twin (SameAnd TreeClosed)) (Twin (SameAnd TreeClosed)) (decodeBody s') := by
  unfold decodeBody
  rw [h.bitsLeft, h.root]
  exact decodeLoop_twins _ h h.tables.2.root

theorem wrPieces_twins (fuel : Nat) : ∀ (bits : List Bool) {s s' : State}, Twin T s s' →
    (wrPieces fuel bits s).Twins (fun _ => Twin T) (Twin T) (wrPieces fuel bits s') := by
  induction fuel with
  | zero =>
    intro bits s s' h
    cases bits with
    | nil => exact ⟨rfl, h⟩
    | cons b bits => trivial
  | succ fuel ih =>
    intro bits s s' h
    cases bits with
    | nil => exact ⟨rfl, h⟩
    | cons b bits => exact (wrBits_twins _ _ h).andThen fun _ t t' ht => ih _ ht

theorem encodeSymbol_twins (y : Symbol) (h : Twin (SameAnd fun x => x.tableValid = true) s s') :
    (encodeSymbol y s).Twins (fun _ => Twin (SameAnd fun x => x.tableValid = true))
      (Twin (SameAnd fun x => x.tableValid = true)) (encodeSymbol y s') := by
  have hc : s'.codeOf y = s.codeOf y := congrArg (·.get y) (h.tables.1.code h.tables.2).symm
  unfold encodeSymbol wrCode
  rw [hc]
  split
  · exact ⟨rfl, h⟩
  · exact wrPieces_twins _ _ h

theorem encodeBody_twins (h : Twin (SameAnd fun x => x.tableValid = true) s s') :
    (encodeBody s).Twins (fun _ => Twin (SameAnd fun x => x.tableValid = true))
      (Twin (SameAnd fun x => x.tableValid = true)) (encodeBody s') := by
  have loop : ∀ (fuel : Nat) {s s' : State}, Twin (SameAnd fun x => x.tableValid = true) s s' →
      (encodeLoop fuel s).Twins (fun _ => Twin (SameAnd fun x => x.tableValid = true))
        (Twin (SameAnd fun x => x.tableValid = true)) (encodeLoop fuel s') := by
    intro fuel
    induction fuel with
    | zero => intro s s' _; trivial
    | succ fuel ih =>
      intro s s' h
      unfold encodeLoop
      refine (rdBits_twins 8 h).andThen fun r t t' ht => ?_
      split
      · exact ⟨rfl, ht⟩
      · exact (encodeSymbol_twins _ ht).andThen fun _ u u' hu => ih hu
  unfold encodeBody
  rw [h.bitsLeft]
  exact (loop _ h).andThen fun _ t t' ht => encodeSymbol_twins _ ht

/-- CTAB derives the same codes from the same tree (45 R202). -/
theorem cTab_twins {tr : CodeTree} (h : Twin SameTables s s') (hv : s.treeValid = true) (ht : s.holdsTree tr) :
    (cTab s).Twins (fun _ => Twin SameTables) (Twin SameTables) (cTab s') := by
  obtain ⟨hcnt, hroot, hnode⟩ := h.tables.tree hv
  have ht' : s'.holdsTree tr := by
    obtain ⟨hint, ixs, hat, hnod, hmem⟩ := ht
    refine ⟨hint, ixs, ?_, hnod, fun i => by rw [hmem, show s'.nodeCnt = s.nodeCnt from hcnt.symm]⟩
    rw [show s'.root = s.root from hroot.symm]
    exact treeAt_congr hat fun j hj => (hnode j ((hmem j).1 hj)).symm
  obtain ⟨c, hc, he⟩ := cTab_sound ht
  obtain ⟨c', hc', he'⟩ := cTab_sound ht'
  have hcc : c = c' := by
    apply Vector.ext
    intro i hi
    exact (he ⟨i, hi⟩).trans (he' ⟨i, hi⟩).symm
  rw [hc, hc', ← hcc]
  exact ⟨rfl, { h with tables := { h.tables with tableValid := rfl, code := fun _ => rfl } }⟩

end

end Sys2Proof.Machine

namespace Sys2Proof.Machine

/-! #### Procedures that write the codec tables -/

/-- No table is valid, and the counters agree: FCOUNT's loop (42 R161). -/
structure Counting (x y : Tables) : Prop where
  freq : x.freq = y.freq
  flags : x.freqValid = false ∧ x.treeValid = false ∧ x.tableValid = false
  flags' : y.freqValid = false ∧ y.treeValid = false ∧ y.tableValid = false

theorem Counting.same {x y : Tables} (h : Counting x y) : SameTables x y := by
  obtain ⟨-, ⟨h1, h2, h3⟩, g1, g2, g3⟩ := h
  exact ⟨by rw [h1, g1], by simp [h1], by rw [h2, g2], by simp [h2], by rw [h3, g3], by simp [h3]⟩

/-- Neither tree nor codes are valid: TBUILD's and TDES's loops (43 R172, 44 R189). -/
structure Unbuilt (x y : Tables) : Prop where
  same : SameTables x y
  tree : x.treeValid = false
  code : x.tableValid = false

/-- Records, NODE_CNT and ROOT have no meaning then. -/
theorem Unbuilt.records {x y : Tables} (h : Unbuilt x y) (m m' : Vector Node 513) (k k' : Nat) (r r' : NodeIx) :
    Unbuilt { x with node := m, nodeCnt := k, root := r } { y with node := m', nodeCnt := k', root := r' } :=
  { h with same := { h.same with tree := fun hv => absurd (hv.symm.trans h.tree) (by simp) } }

/-- The records of which `A` holds agree, and NODE_CNT. -/
structure AgreeOn (A : NodeIx → Prop) (x y : Tables) : Prop where
  unbuilt : Unbuilt x y
  nodeCnt : y.nodeCnt = x.nodeCnt
  node : ∀ i, A i → y.node.get i = x.node.get i

/-- The records below NODE_CNT agree. -/
def AgreeUsed (x y : Tables) : Prop := AgreeOn (fun i => i.val < x.nodeCnt) x y

/-- The tree is valid on both sides once the records below NODE_CNT agree. -/
theorem AgreeUsed.finish {x y : Tables} (h : AgreeUsed x y) (r : NodeIx) :
    SameTables { x with root := r, treeValid := true } { y with root := r, treeValid := true } :=
  { h.unbuilt.same with
    treeValid := rfl
    tree := fun _ => ⟨h.nodeCnt.symm, rfl, fun i hi => (h.node i hi).symm⟩ }

section
variable {T : Tables → Tables → Prop} {A B : NodeIx → Prop} {s s' : State}

/-! FCOUNT -/

theorem fCountLoop_twins (fuel : Nat) : ∀ {s s' : State}, Twin Counting s s' →
    (fCountLoop fuel s).Twins (fun _ => Twin Counting) (Twin Counting) (fCountLoop fuel s') := by
  induction fuel with
  | zero => intro s s' _; trivial
  | succ fuel ih =>
    intro s s' h
    unfold fCountLoop
    refine (rdBits_twins 8 h).andThen fun r t t' ht => ?_
    have hf : t'.freq = t.freq := ht.tables.freq.symm
    split
    · exact ⟨rfl, ht⟩
    · unfold State.freqOf State.setFreq
      rw [hf]
      split
      · exact ⟨rfl, ht⟩
      · exact ih { ht with tables := { ht.tables with freq := rfl } }

theorem fCount_twins (h : Twin T s s') : (fCount s).Twins (fun _ => Twin SameTables) (Twin SameTables) (fCount s') := by
  have h0 : Twin Counting (fCountStart s) (fCountStart s') :=
    { h with tables := ⟨rfl, ⟨rfl, rfl, rfl⟩, ⟨rfl, rfl, rfl⟩⟩ }
  unfold fCount
  dsimp only
  rw [h0.bitsLeft]
  refine ((fCountLoop_twins _ h0).imp (fun _ _ _ h => h) fun _ _ h => h.imp Counting.same).andThen fun _ u u' hu => ?_
  have hf : (u.freq.set terminator 1) = u'.freq.set terminator 1 := by rw [show u.freq = u'.freq from hu.tables.freq]
  exact ⟨rfl, { hu with tables := { hu.tables.same with freqValid := rfl, freq := fun _ => hf } }⟩

/-! Records -/

theorem AgreeOn.mono {x y : Tables} (h : AgreeOn A x y) (hB : ∀ i, B i → A i) : AgreeOn B x y :=
  { h with node := fun i hi => h.node i (hB i hi) }

/-- The same record written on both sides. -/
theorem Twin.setNode (h : Twin (AgreeOn A) s s') (j : NodeIx) (n : Node) :
    Twin (AgreeOn fun i => A i ∨ i = j) (s.setNode j n) (s'.setNode j n) := by
  refine { h with tables := ⟨h.tables.unbuilt.records _ _ _ _ _ _, h.tables.nodeCnt, fun i hi => ?_⟩ }
  · show (s'.setNode j n).nodeAt i = (s.setNode j n).nodeAt i
    rw [nodeAt_setNode, nodeAt_setNode]
    split
    · rfl
    · exact h.tables.node i (hi.resolve_right fun h => absurd h.symm ‹_›)

/-- NODE_CNT written on both sides. -/
theorem Twin.setNodeCnt (h : Twin (AgreeOn A) s s') (k : Nat) :
    Twin (AgreeOn A) { s with nodeCnt := k } { s' with nodeCnt := k } :=
  { h with tables := ⟨h.tables.unbuilt.records _ _ _ _ _ _, rfl, h.tables.node⟩ }

theorem Twin.pushNode (h : Twin (AgreeOn A) s s') (n : Node) :
    Twin (AgreeOn fun i => A i ∨ i = nodeIxOf s.nodeCnt) (s.pushNode n) (s'.pushNode n) := by
  have hc : s'.nodeCnt = s.nodeCnt := h.tables.nodeCnt
  unfold State.pushNode
  rw [hc]
  exact (h.setNode _ n).setNodeCnt _

theorem Twin.used (h : Twin AgreeUsed s s') : Twin (AgreeOn fun i => i.val < s.nodeCnt) s s' := h.imp id

/-- The clearing of both flags and of NODE_CNT that starts TBUILD and TDES. -/
theorem Twin.desStart (h : Twin SameTables s s') : Twin AgreeUsed (desStart s) (desStart s') :=
  have hsame : SameTables (Machine.desStart s).tables (Machine.desStart s').tables :=
    ⟨h.tables.freqValid, h.tables.freq, rfl, fun hv => absurd hv Bool.false_ne_true, rfl,
      fun hv => absurd hv Bool.false_ne_true⟩
  { h with tables := ⟨⟨hsame, rfl, rfl⟩, rfl, fun _ hi => absurd hi (Nat.not_lt_zero _)⟩ }

/-! TBUILD -/

theorem Twin.pushUsed (h : Twin AgreeUsed s s') (n : Node) : Twin AgreeUsed (s.pushNode n) (s'.pushNode n) :=
  (h.used.pushNode n).imp fun h => h.mono fun i (hi : i.val < s.nodeCnt + 1) => by
    rcases Nat.lt_succ_iff_lt_or_eq.1 hi with h | h
    · exact .inl h
    · exact .inr (by rw [← h, nodeIxOf_val_self])

theorem foldl_pushNode_twin (ns : List Node) : ∀ {s s' : State}, Twin AgreeUsed s s' →
    Twin AgreeUsed (ns.foldl State.pushNode s) (ns.foldl State.pushNode s') := by
  induction ns with
  | nil => exact fun h => h
  | cons n ns ih => exact fun h => ih (h.pushUsed n)

/-- The two leaves of the empty-input tree in place of a single one (43 R173). -/
def padLeaves (t : State) : State :=
  if t.nodeCnt = 1 then { (t.setNode 0 (.leaf (some 0) 0)).setNode 1 (.leaf (some terminator) 1) with nodeCnt := 2 } else t

theorem tBuildLeaves_eq (s : State) : tBuildLeaves s = padLeaves ((leavesOf s.freq).foldl State.pushNode (desStart s)) := rfl

theorem Twin.padLeaves (h : Twin AgreeUsed s s') : Twin AgreeUsed (padLeaves s) (padLeaves s') := by
  unfold Machine.padLeaves
  rw [show s'.nodeCnt = s.nodeCnt from h.tables.nodeCnt]
  split
  · exact (((h.used.setNode 0 _).setNode 1 _).setNodeCnt 2).imp fun h => h.mono fun i (hi : i.val < 2) => by
      rcases (by omega : i.val = 0 ∨ i.val = 1) with h0 | h1
      · exact .inl (.inr (Fin.ext h0))
      · exact .inr (Fin.ext h1)
  · exact h

theorem tBuildLeaves_twin (h : Twin SameTables s s') (hv : s.freqValid = true) :
    Twin AgreeUsed (tBuildLeaves s) (tBuildLeaves s') := by
  rw [tBuildLeaves_eq, tBuildLeaves_eq, show s'.freq = s.freq from (h.tables.freq hv).symm]
  exact (foldl_pushNode_twin _ h.desStart).padLeaves

theorem removedBefore_congr {i j : NodeIx} (hi : s'.nodeAt i = s.nodeAt i) (hj : s'.nodeAt j = s.nodeAt j) :
    removedBefore s' i j = removedBefore s i j := by
  unfold removedBefore
  rw [hi, hj]

theorem leastOf_congr (q : List NodeIx) : ∀ {i : NodeIx}, (∀ j ∈ i :: q, s'.nodeAt j = s.nodeAt j) →
    leastOf s' i q = leastOf s i q := by
  induction q with
  | nil => intro i _; rfl
  | cons j q ih =>
    intro i h
    have hi := h i (by simp)
    have hj := h j (by simp)
    have hq : ∀ k ∈ q, s'.nodeAt k = s.nodeAt k := fun k hk => h k (by simp [hk])
    show leastOf s' (if removedBefore s' j i then j else i) q = leastOf s (if removedBefore s j i then j else i) q
    rw [removedBefore_congr hj hi]
    refine ih fun k hk => ?_
    rcases List.mem_cons.1 hk with rfl | hk
    · split <;> assumption
    · exact hq k hk

/-- The merges join the same records (43 R172). -/
theorem mergeLoop_twins (fuel : Nat) : ∀ (q : List NodeIx) {s s' : State}, Twin AgreeUsed s s' →
    (∀ j ∈ q, j.val < s.nodeCnt) → (mergeLoop fuel q s).Twins (fun _ => Twin AgreeUsed) (Twin AgreeUsed) (mergeLoop fuel q s') := by
  induction fuel with
  | zero =>
    intro q s s' h _
    match q with
    | [] => trivial
    | [r] => exact ⟨rfl, h⟩
    | _ :: _ :: _ => trivial
  | succ fuel ih =>
    intro q s s' h hq
    match q with
    | [] => trivial
    | [r] => exact ⟨rfl, h⟩
    | i :: j :: q =>
      have hn : ∀ k ∈ i :: j :: q, s'.nodeAt k = s.nodeAt k := fun k hk => h.tables.node k (hq k hk)
      have ha := hn _ (leastOf_least s (j :: q) i).1
      rw [mergeLoop, mergeLoop, leastOf_congr _ hn]
      dsimp only
      split
      · trivial
      · rename_i k q' hk
        have hsub : ∀ x ∈ k :: q', x ∈ i :: j :: q := fun x hx => List.mem_of_mem_erase (hk ▸ hx)
        have hb := hn _ (hsub _ (leastOf_least s q' k).1)
        rw [leastOf_congr _ fun x hx => hn x (hsub x hx), ha, hb, show s'.nodeCnt = s.nodeCnt from h.tables.nodeCnt]
        refine ih _ (h.pushUsed _) fun x hx => ?_
        rw [pushNode_nodeCnt]
        rcases List.mem_append.1 hx with hx | hx
        · exact Nat.lt_succ_of_lt (hq x (hsub x (List.mem_of_mem_erase hx)))
        · rw [List.mem_singleton.1 hx]
          exact Nat.lt_succ_of_le (Nat.mod_le _ _)

theorem tBuild_twins (h : Twin SameTables s s') (hv : s.freqValid = true) :
    (tBuild s).Twins (fun _ => Twin SameTables) (Twin SameTables) (tBuild s') := by
  have hl := tBuildLeaves_twin h hv
  unfold tBuild
  dsimp only
  rw [show (tBuildLeaves s').nodeCnt = (tBuildLeaves s).nodeCnt from hl.tables.nodeCnt]
  refine ((mergeLoop_twins _ _ hl fun j hj => ?_).imp (fun _ _ _ h => h) fun _ _ h => h.imp fun h => h.unbuilt.same).andThen
    fun r u u' hu => ⟨rfl, { hu with tables := AgreeUsed.finish hu.tables r }⟩
  obtain ⟨k, hk, rfl⟩ := List.mem_map.1 hj
  exact (Nat.mod_le _ _).trans_lt (List.mem_range.1 hk)

/-! TDES -/

/-- `Des` takes the same records on both sides and leaves the same in them (44 R189). -/
theorem des_twins (fuel : Nat) : ∀ {A : NodeIx → Prop} {s s' : State}, Twin (AgreeOn A) s s' → s.nodeCnt ≤ 513 →
    (des fuel s).Twins (fun _ t => Twin (AgreeOn fun i => A i ∨ s.nodeCnt ≤ i.val ∧ i.val < t.nodeCnt) t) (Twin Unbuilt)
      (des fuel s') := by
  induction fuel with
  | zero => intro A s s' _ _; trivial
  | succ fuel ih =>
    intro A s s' h hs
    have hrd : ∀ n {s s' : State}, Twin (AgreeOn A) s s' →
        (rdBits n s).Twins (fun _ t t' => Twin (AgreeOn A) t t' ∧ ReadFrame s t) (Twin Unbuilt) (rdBits n s') := fun n s s' h =>
      ((rdBits_twins n h).imp (fun _ _ _ h => h) fun _ _ h => h.imp AgreeOn.unbuilt).and (rdBits_frame n s)
    unfold des
    refine (hrd 1 h).andThen fun b t t' ⟨ht, hf⟩ => ?_
    have hc := hf.nodeCnt
    have hc' : t'.nodeCnt = t.nodeCnt := ht.tables.nodeCnt
    split
    · exact ⟨rfl, ht.imp AgreeOn.unbuilt⟩
    · rw [hc']
      split
      · exact ⟨rfl, ht.imp AgreeOn.unbuilt⟩
      · rename_i hcap
        simp only [Config.nodeCap] at hcap
        have hle : t.nodeCnt + 1 ≤ 513 := by omega
        refine ((ih (ht.setNodeCnt (t.nodeCnt + 1)) hle).and (des_nodeCnt_le fuel hle)).andThen fun l u u' ⟨hu, hul⟩ => ?_
        refine (ih hu hul).andThen fun r v v' hv => ⟨rfl, ?_⟩
        refine (hv.setNode (nodeIxOf t.nodeCnt) (.internal 0 l r)).imp fun h => h.mono fun i hi => ?_
        have hset : i = nodeIxOf t.nodeCnt ↔ i.val = t.nodeCnt := by
          rw [Fin.ext_iff, nodeIxOf_val (by omega)]
        rw [hset]
        dsimp only at hi ⊢
        have : (v.setNode (nodeIxOf t.nodeCnt) (.internal 0 l r)).nodeCnt = v.nodeCnt := rfl
        by_cases hA : A i
        · simp [hA]
        · simp only [hA, false_or] at hi ⊢
          omega
    · refine (hrd 9 ht).andThen fun y u u' ⟨hu, hfu⟩ => ?_
      have hcu : u'.nodeCnt = u.nodeCnt := hu.tables.nodeCnt
      split
      · exact ⟨rfl, hu.imp AgreeOn.unbuilt⟩
      · rw [hcu]
        split
        · exact ⟨rfl, hu.imp AgreeOn.unbuilt⟩
        · split
          · exact ⟨rfl, hu.imp AgreeOn.unbuilt⟩
          · rename_i y _ _
            refine ⟨rfl, (hu.pushNode (.leaf (some (symbolOf y)) 0)).imp fun h => h.mono fun i hi => ?_⟩
            rcases hi with hi | ⟨h1, h2⟩
            · exact .inl hi
            · refine .inr (Fin.ext ?_)
              have hcn := hfu.nodeCnt
              rw [pushNode_nodeCnt] at h2
              rw [nodeIxOf_val (by omega)]
              omega

theorem tDes_twins (h : Twin SameTables s s') : (tDes s).Twins (fun _ => Twin SameTables) (Twin SameTables) (tDes s') := by
  have hd := (des_twins (Config.nodeCap + 1) h.desStart.used (Nat.zero_le _)).withEnd
  unfold tDes
  refine (hd.imp (fun _ _ _ h => h) fun _ _ h => h.imp Unbuilt.same).andThen fun r t t' ⟨ht, hr⟩ => ?_
  have hused : Twin AgreeUsed t t' := ht.imp fun h => h.mono fun i hi => .inr ⟨Nat.zero_le _, hi⟩
  obtain ⟨rfl, tr, hb⟩ := des_builds _ (Nat.zero_le _) hr
  have hlt : (nodeIxOf (desStart s).nodeCnt).val < t.nodeCnt := by
    have hc : t.nodeCnt = 0 + tr.size := hb.nodeCnt
    have hsize := size_eq tr
    have hpos := leaves_pos tr
    show 0 < t.nodeCnt
    omega
  rw [show t'.nodeAt _ = t.nodeAt _ from hused.tables.node _ hlt]
  split
  · exact ⟨rfl, hused.imp fun h => h.unbuilt.same⟩
  · exact ⟨rfl, { hused with tables := AgreeUsed.finish hused.tables _ }⟩

end

end Sys2Proof.Machine

namespace Sys2Proof.Machine

/-! #### Commands side by side -/

/-- Where both answer a next state, the two have the same meaning. -/
def Alike (a a' : Answer) : Prop := ∀ t t', a = .next t → a' = .next t' → Twin SameTables t t'

section
variable {s s' : State}

theorem alike_next (h : Twin SameTables s s') : Alike (.next s) (.next s') := by
  intro t t' ht ht'
  obtain rfl := Host.Outcome.next.inj ht
  obtain rfl := Host.Outcome.next.inj ht'
  exact h

theorem alike_fault_left {f : Fault} {a : Answer} : Alike (.fault f) a := fun _ _ h => nomatch h

theorem alike_fault_right {f : Fault} {a : Answer} : Alike a (.fault f) := fun _ _ _ h => nomatch h

theorem Twin.forgetTables (h : Twin SameTables s s') (op : BitVec 8) :
    Twin SameTables (s.forgetTables op) (s'.forgetTables op) :=
  sameMeaning_iff.1 (forgetTables_sameMeaning (sameMeaning_iff.2 h))

theorem Twin.clearFlags (h : Twin SameTables s s') : Twin SameTables s.clearFlags s'.clearFlags :=
  { h with tables := ⟨rfl, fun hv => absurd hv Bool.false_ne_true, rfl, fun hv => absurd hv Bool.false_ne_true, rfl,
      fun hv => absurd hv Bool.false_ne_true⟩ }

theorem Twin.refuse (h : Twin SameTables s s') : Twin SameTables (refuse s) (refuse s') := by
  unfold Machine.refuse
  rw [h.err]
  exact h.respond _ _ _

section
variable {i : Instr}

theorem finish_alike {r r' : Res Reply} (h : r.Twins (fun _ => Twin SameTables) (Twin SameTables) r') :
    Alike (finish i r) (finish i r') :=
  h.cases (C := fun r r' => Alike (finish i r) (finish i r')) (fun _ _ _ h => alike_next (h.respond _ _ _))
    (fun _ _ _ h => alike_next (h.raiseErr _ _ _)) (fun _ _ => alike_fault_left) fun _ _ => alike_fault_right

theorem finishDone_alike {r r' : Res Unit} (h : r.Twins (fun _ => Twin SameTables) (Twin SameTables) r') :
    Alike (finishDone i r) (finishDone i r') :=
  finish_alike (h.andThen fun _ _ _ h => ⟨rfl, h⟩)

theorem finishProducer_alike {r r' : Res Unit} (h : r.Twins (fun _ => Twin SameTables) (Twin SameTables) r') :
    Alike (finishProducer i r) (finishProducer i r') :=
  h.cases (C := fun r r' => Alike (finishProducer i r) (finishProducer i r')) (fun _ _ _ h => alike_next (h.respond _ _ _))
    (fun _ _ _ h => alike_next ((h.forgetTables _).raiseErr _ _ _)) (fun _ _ => alike_fault_left)
    fun _ _ => alike_fault_right

/-- From states of the same meaning, the first satisfying `P`, the lines go alike. -/
def LinesAlike : List MacroLine → (State → Prop) → Prop
  | [], _ => True
  | l :: ls, P => ∃ P' : State → Prop, (∀ s s', Twin SameTables s s' → P s →
      (l.procedure s).Twins (fun _ t t' => Twin SameTables t t' ∧ P' t) (Twin SameTables) (l.procedure s')) ∧ LinesAlike ls P'

theorem runMacro_alike {lines : List MacroLine} : ∀ {P : State → Prop} {s s' : State}, LinesAlike lines P →
    Twin SameTables s s' → P s → Alike (runMacro i lines s) (runMacro i lines s') := by
  induction lines with
  | nil => exact fun _ h _ => alike_next ((h.clearFlags.forgetTables _).respond _ _ _)
  | cons l lines ih =>
    rintro P s s' ⟨P', h1, h2⟩ h hP
    have hl := h1 s s' h hP
    unfold runMacro
    generalize l.procedure s = r at hl ⊢
    generalize l.procedure s' = r' at hl ⊢
    cases r with
    | stuck f => exact alike_fault_left
    | ok a t =>
      cases r' with
      | ok a' t' => exact ih h2 hl.2.1 hl.2.2
      | raised e t' => exact hl.elim
      | stuck f => exact alike_fault_right
    | raised e t =>
      cases r' with
      | ok a' t' => exact hl.elim
      | raised e' t' => obtain ⟨rfl, h⟩ := hl; exact alike_next ((h.forgetTables _).raiseErr _ _ _)
      | stuck f => exact alike_fault_right

theorem Twin.seqCheck (h : Twin SameTables s s') (i : Instr) : seqCheck i s' = seqCheck i s := by
  have hn : ∀ n : Need, n.holds s' = n.holds s := by
    have h1 : s'.freqValid = s.freqValid := h.tables.freqValid.symm
    have h2 : s'.treeValid = s.treeValid := h.tables.treeValid.symm
    have h3 : s'.tableValid = s.tableValid := h.tables.tableValid.symm
    intro n
    cases n <;> simp only [Need.holds, h.rd.isOpen, h.wr.isOpen, h1, h2, h3]
  unfold Machine.seqCheck
  simp only [hn]

theorem guarded_alike {k k' : State → Answer} (h : Twin SameTables s s') (hk : Checked i s → Alike (k s) (k' s')) :
    Alike (guarded i s k) (guarded i s' k') := by
  have hchecked : (s.halted && !acceptedWhileHalted i) = false → argCheck i = none → seqCheck i s = none → Checked i s :=
    fun hr ha hq => ⟨(Bool.and_eq_false_iff.1 hr).imp_right (by simp), ha, hq⟩
  unfold guarded
  rw [h.halted, h.seqCheck]
  split
  · exact alike_next h.refuse
  · rename_i hr
    split
    · exact alike_next (h.raiseErr _ _ _)
    · rename_i ha
      split
      · exact alike_next (h.raiseErr _ _ _)
      · rename_i hq
        exact hk (hchecked (by simpa using hr) ha hq)

end

/-! #### The lines of COMPRESS and DECOMPRESS -/

/-- A procedure that goes alike, and what it leaves of the invariant. -/
theorem twins_inv {p : State → Res Unit} {P P' : State → Prop} {Q : Raise → State → Prop}
    (h : ∀ s s', Twin SameTables s s' → P s → (p s).Twins (fun _ => Twin SameTables) (Twin SameTables) (p s'))
    (hi : ∀ s, P s → (p s).Ends P' Q) (s s' : State) (ht : Twin SameTables s s') (hs : P s) :
    (p s).Twins (fun _ t t' => Twin SameTables t t' ∧ P' t) (Twin SameTables) (p s') :=
  (h s s' ht hs).and (hi s hs)

theorem serRoot_alike (h : Twin SameTables s s') (hs : s.Inv ∧ s.treeValid = true) :
    (serRoot s).Twins (fun _ => Twin SameTables) (Twin SameTables) (serRoot s') :=
  (serRoot_twins (h.imp fun h => ⟨h, hs.1.treeClosed hs.2⟩)).same

theorem decodeBody_alike (h : Twin SameTables s s') (hs : s.Inv ∧ s.treeValid = true) :
    (decodeBody s).Twins (fun _ => Twin SameTables) (Twin SameTables) (decodeBody s') :=
  (decodeBody_twins (h.imp fun h => ⟨h, hs.1.treeClosed hs.2⟩)).same

theorem encodeBody_alike (h : Twin SameTables s s') (hv : s.tableValid = true) :
    (encodeBody s).Twins (fun _ => Twin SameTables) (Twin SameTables) (encodeBody s') :=
  (encodeBody_twins (h.imp fun h => ⟨h, hv⟩)).same

theorem cTab_alike (h : Twin SameTables s s') (hs : s.Inv ∧ s.treeValid = true) :
    (cTab s).Twins (fun _ => Twin SameTables) (Twin SameTables) (cTab s') := by
  obtain ⟨tr, ht⟩ := hs.1.tree hs.2
  exact cTab_twins h hs.2 ht

theorem compressLines_alike : LinesAlike compressLines State.Inv :=
  ⟨_, twins_inv (fun _ _ h _ => fCount_twins h)
      fun _ h => fCount_inv h,
    _, twins_inv (fun _ _ h hs => tBuild_twins h hs.2)
      fun _ h => tBuild_inv h.1 h.2,
    _, twins_inv (fun _ _ h _ => rdReset_twins h)
      fun _ h => ends_inv rdReset_keepsInv (P := fun x => x.treeValid = true) h,
    _, twins_inv (fun _ _ h _ => magicW_twins h)
      fun _ h => ends_inv magicW_keepsInv (P := fun x => x.treeValid = true) h,
    _, twins_inv (fun _ _ h hs => serRoot_alike h hs)
      fun _ h => ends_inv serRoot_keepsInv (P := fun x => x.treeValid = true) h,
    _, twins_inv (fun _ _ h hs => cTab_alike h hs)
      fun _ h => cTab_inv h.1 h.2,
    _, twins_inv (fun _ _ h hs => encodeBody_alike h hs.2)
      fun _ h => ends_inv encodeBody_keepsInv (P := fun x => x.tableValid = true) h,
    _, twins_inv (fun _ _ h _ => wrClose_twins h)
      fun _ h => ends_inv wrClose_keepsInv (P := fun x => x.tableValid = true) h,
    trivial⟩

theorem decompressLines_alike : LinesAlike decompressLines State.Inv :=
  ⟨_, twins_inv (fun _ _ h _ => magicR_twins h)
      fun _ h => ends_inv magicR_keepsInv (P := fun _ => True) ⟨h, trivial⟩,
    _, twins_inv (fun _ _ h _ => tDes_twins h)
      fun _ h => tDes_inv h.1,
    _, twins_inv (fun _ _ h hs => decodeBody_alike h hs)
      fun _ h => ends_inv decodeBody_keepsInv (P := fun x => x.treeValid = true) h,
    _, twins_inv (fun _ _ h _ => wrClose_twins h)
      fun _ h => ends_inv wrClose_keepsInv (P := fun x => x.treeValid = true) h,
    trivial⟩

/-! #### Every command -/

theorem Twin.csr (h : Twin SameTables s s') (n : BitVec 6) : s'.csr n = s.csr n := by
  have h1 : s'.freqValid = s.freqValid := h.tables.freqValid.symm
  have h2 : s'.treeValid = s.treeValid := h.tables.treeValid.symm
  have h3 : s'.tableValid = s.tableValid := h.tables.tableValid.symm
  have hstatus : s'.status = s.status := by
    unfold State.status
    rw [h.halted, h1, h2, h3, h.wr.isOpen, h.rd.eos, h.rd.isOpen]
  have htree : s'.treeInfo = s.treeInfo := by
    unfold State.treeInfo
    rw [h2]
    split
    · obtain ⟨hc, hr, -⟩ := h.tables.tree ‹_›
      rw [show s'.root = s.root from hr.symm, show s'.nodeCnt = s.nodeCnt from hc.symm]
    · rfl
  unfold State.csr
  rw [hstatus, htree, h.err, h.rd.bitsRead, h.wr.bitsWritten, h.magic]

/-- The Operation of a command whose checks have passed. -/
theorem operation_alike {i : Instr} (h : Twin SameTables s s') (hs : s.Inv) (hc : Checked i s) :
    Alike (operation i s) (operation i s') := by
  have hn := hc.holds
  cases i with
  | getcsr n =>
    show Alike (.next (s.respond true false (s.csr n))) (.next (s'.respond true false (s'.csr n)))
    rw [h.csr]
    exact alike_next (h.respond _ _ _)
  | rdopen => exact finishDone_alike (rdOpen_twins h)
  | rdbits n => exact finish_alike ((rdBits_twins _ h).andThen fun _ _ _ h => ⟨rfl, h⟩)
  | rdcnt =>
    show Alike (.next (s.respond true false s.rd.bitsRead)) (.next (s'.respond true false s'.rd.bitsRead))
    rw [h.rd.bitsRead]
    exact alike_next (h.respond _ _ _)
  | rdrst => exact finishDone_alike (rdReset_twins h)
  | rdclose => exact alike_next ((rdClose_twin h).respond _ _ _)
  | wropen => exact finishDone_alike (wrOpen_twins h)
  | wrbits n v => exact finishDone_alike (wrBits_twins _ _ h)
  | wrcnt =>
    show Alike (.next (s.respond true false s.wr.bitsWritten)) (.next (s'.respond true false s'.wr.bitsWritten))
    rw [h.wr.bitsWritten]
    exact alike_next (h.respond _ _ _)
  | wrflush => exact finishDone_alike (wrFlush_twins h)
  | wrclose => exact finishDone_alike (wrClose_twins h)
  | fcount => exact finishProducer_alike (fCount_twins h)
  | tbuild => exact finishDone_alike (tBuild_twins h (hn .freqValid (by simp [needs])))
  | magicw => exact finishDone_alike (magicW_twins h)
  | tser => exact finishDone_alike (serRoot_alike h ⟨hs, hn .treeValid (by simp [needs])⟩)
  | ctab => exact finishDone_alike (cTab_alike h ⟨hs, hn .treeValid (by simp [needs])⟩)
  | encode => exact finishDone_alike (encodeBody_alike h (hn .tableValid (by simp [needs])))
  | magicr => exact finishDone_alike (magicR_twins h)
  | tdes => exact finishProducer_alike (tDes_twins h)
  | decode => exact finishDone_alike (decodeBody_alike h ⟨hs, hn .treeValid (by simp [needs])⟩)
  | compress => exact runMacro_alike compressLines_alike h hs
  | decompress => exact runMacro_alike decompressLines_alike h hs

theorem illegalWord_twin (h : Twin SameTables s s') (w : CmdWord) (sub : BitVec 4) :
    Twin SameTables (illegalWord w sub s) (illegalWord w sub s') := by
  unfold illegalWord
  rw [h.halted]
  split
  · exact h.refuse
  · exact h.raiseErr _ _ _

theorem exec_alike (i : Instr) (h : Twin SameTables s s') (hs : s.Inv) : Alike (exec i s) (exec i s') := by
  have hg : Alike (guarded i s (operation i)) (guarded i s' (operation i)) := guarded_alike h fun hc => operation_alike h hs hc
  cases i with
  | getcsr n =>
    show Alike (execGetcsr n s) (execGetcsr n s')
    unfold execGetcsr
    split
    · exact hg
    · exact alike_next (illegalWord_twin h _ _)
  | _ => exact hg

theorem execute_alike (w : CmdWord) (h : Twin SameTables s s') (hs : s.Inv) : Alike (execute w s) (execute w s') := by
  unfold execute
  split
  · exact exec_alike _ h hs
  · exact alike_next (illegalWord_twin h w _)

/-! #### Every input of the host -/

theorem twin_refl (s : State) : Twin SameTables s s := sameMeaning_iff.1
  ⟨rfl, rfl, rfl, rfl, rfl, fun _ => rfl, rfl, fun _ => ⟨rfl, rfl, fun _ _ => rfl⟩, rfl, fun _ => rfl,
    rfl, rfl, rfl, rfl, rfl, rfl, rfl⟩

/-- A reset leaves the same state (70 R281). -/
theorem Twin.resetEvent (h : Twin SameTables s s') (plan : FailPlan) : resetEvent plan s' = resetEvent plan s := by
  unfold Machine.resetEvent
  rw [h.magic, h.src, h.snk, h.log, h.host]

theorem Twin.devicesAfter (h : Twin SameTables s s') (es : List PortEvent) :
    Twin SameTables (s.devicesAfter es) (s'.devicesAfter es) :=
  ⟨h.rd, h.wr, h.tables, h.err, h.magic, by simp only [State.devicesAfter, h.src], by simp only [State.devicesAfter, h.snk],
    by simp only [State.devicesAfter, h.log], h.rsp, h.host⟩

theorem step_alike (h : Twin SameTables s s') (hs : s.Inv) : Alike (step s) (step s') := by
  have hrest : ∀ rest, Twin SameTables { s with host := rest } { s' with host := rest } := fun _ => { h with host := rfl }
  have hinv : ∀ rest, ({ s with host := rest } : State).Inv := fun _ => { hs with }
  unfold step
  rw [h.host]
  split
  · exact alike_next h
  · exact execute_alike _ (hrest _) (hinv _)
  · rw [(hrest _).resetEvent]
    exact alike_next (twin_refl _)
  · rename_i w k plan rest _
    have hx := execute_alike w (hrest rest) (hinv rest)
    cases hr : execute w { s with host := rest } with
    | fault f => exact alike_fault_left
    | refused r => exact fun _ _ h => nomatch h
    | next t =>
      cases hr' : execute w { s' with host := rest } with
      | fault f => exact alike_fault_right
      | refused r => exact fun _ _ _ h => nomatch h
      | next t' =>
        have ht := hx t t' hr hr'
        have hes : (t'.log.drop s'.log.length).take k = (t.log.drop s.log.length).take k := by rw [ht.log, h.log]
        have hc : cutByReset k plan { s' with host := rest } t' = cutByReset k plan { s with host := rest } t := by
          unfold cutByReset
          dsimp only
          rw [hes]
          exact ((hrest rest).devicesAfter _).resetEvent plan
        dsimp only
        rw [hc]
        exact alike_next (twin_refl _)
  · refine alike_next ⟨h.rd, h.wr, h.tables, h.err, h.magic, ?_, h.snk, h.log, h.rsp, rfl⟩
    simp only [attachSource, h.src, h.log]

end

/-- Settles O57, procedure by procedure: two such states are followed side by side. -/
theorem unspecifiedStateIsNeverSeen : Obligations.UnspecifiedStateIsNeverSeen := fun _ _ t t' hs _ h ht ht' =>
  sameMeaning_iff.2 (step_alike (sameMeaning_iff.1 h) hs t t' ht ht')

end Sys2Proof.Machine

namespace Sys2Proof.Machine

/-! ### RDRST, WROPEN: opens and rewinds (20_memory.md R62, R63) -/

/-- What a rewind leaves of the source (20_memory.md R62). -/
theorem transact_srcRewind (s : State) (a : OpenAnswer) : s.transact (.srcRewind a) =
    { s with src := { s.src with pos := (s.src.after (.srcRewind a)).pos, txs := s.src.txs + 1 },
             log := s.log ++ [.srcRewind a] } := by
  rcases a with _ | _ | _ <;> rfl

/-- What an open leaves of the sink (20_memory.md R63). -/
theorem transact_snkOpen (s : State) (a : OpenAnswer) : s.transact (.snkOpen a) =
    { s with snk := { s.snk with content := (s.snk.after (.snkOpen a)).content, txs := s.snk.txs + 1 },
             log := s.log ++ [.snkOpen a] } := by
  rcases a with _ | _ | _ <;> rfl

/-- Settles O16, by the answer of the source. -/
theorem rdrstRewindsToAFreshReader : Obligations.RdrstRewindsToAFreshReader := by
  intro s hh ho
  have hx : exec .rdrst s = finishDone .rdrst (rdReset s) :=
    exec_run rfl (.inl hh) rfl (by simp [needs, Need.holds, ho])
  constructor
  · intro hf
    have hr : rdReset s = .ok () { s.transact (.srcRewind .ok) with rd := s.rd.init } := by
      simp [rdReset, openAnswer, hf]
    rw [hr, finishDone_ok] at hx
    refine ⟨_, hx, ?fresh, freshReader_undelivered ?fresh, rfl⟩
    exact ⟨ho, rfl, rfl, rfl, rfl, rfl, rfl, rfl⟩
  · intro hf
    have hr : rdReset s =
        .raised ⟨.resource, 3, 0⟩ (s.transact (.srcRewind (.fail (Config.failedOpenTook s.log.length)))) := by
      simp [rdReset, openAnswer, hf]
    rw [hr, finishDone_raised, raiseErr_failed _ _ _ (by exact hh)] at hx
    exact ⟨_, _, hx, transact_srcRewind s _⟩

/-- Settles O22, by the answer of the sink. -/
theorem wropenOpensAFreshWriter : Obligations.WropenOpensAFreshWriter := by
  intro s hh ho
  have hx : exec .wropen s = finishDone .wropen (wrOpen s) :=
    exec_run rfl (.inl hh) rfl (by simp [needs, Need.holds, ho])
  constructor
  · intro hf
    have hr : wrOpen s = .ok () { s.transact (.snkOpen .ok) with
        wr := { s.wr with isOpen := true, accCnt := 0, blk := [], bitsWritten := 0 } } := by
      simp [wrOpen, openAnswer, hf]
    rw [hr, finishDone_ok] at hx
    refine ⟨_, hx, ?fresh, (freshWriter_ok ?fresh).2, rfl⟩
    exact ⟨rfl, rfl, rfl, rfl, rfl⟩
  · intro hf
    have hr : wrOpen s =
        .raised ⟨.resource, 4, 0⟩ (s.transact (.snkOpen (.fail (Config.failedOpenTook s.log.length)))) := by
      simp [wrOpen, openAnswer, hf]
    rw [hr, finishDone_raised, raiseErr_failed _ _ _ (by exact hh)] at hx
    exact ⟨_, _, hx, transact_snkOpen s _⟩

/-! ### Puts (20_memory.md R63, R73; 41 R144, R145) -/

/-- A put of a sink that fails loses the block and raises RESOURCE sub 5 (41 R145). -/
theorem wrPutBlock_failed {s : State} (hf : s.snkFails = true) :
    wrPutBlock s = .raised ⟨.resource, 5, 0⟩
      { s.transact (.snkPut s.wr.blk (.fail (Config.sinkTail s.log.length))) with wr := { s.wr with blk := [] } } := by
  have ha : s.putAnswer = .fail (Config.sinkTail s.log.length) := by simp [State.putAnswer, hf]
  simp only [wrPutBlock, ha, transact_wr]

/-- The writer of a `WrBits` that completes the 8192nd byte of the block, before the put (41 R144). -/
theorem wrBits_full {s : State} {n : Nat} (v : Nat) (h : 64 ≤ s.wr.accCnt + n) (hb : s.wr.blk.length = 8184) :
    ∃ (above : BitVec 64) (blk : List Byte), wrBits n v s = wrPutBlock { s with wr :=
      { s.wr with
        acc := BitVec.ofNat 64 (v % 2 ^ n % 2 ^ (n - (64 - s.wr.accCnt))), accAbove := above,
        accCnt := n - (64 - s.wr.accCnt), bitsWritten := s.wr.bitsWritten + BitVec.ofNat 64 n, blk := blk } } := by
  unfold wrBits
  dsimp only
  rw [if_neg (by omega), if_pos]
  · exact ⟨_, _, rfl⟩
  · simp [Writer.blkLen, hb, Config.wrBlockBytes]

/-- Settles O24: the bits over are kept as they would be, and the put of the full block fails. -/
theorem wrbitsRaisesResourceOnAFailedPut : Obligations.WrbitsRaisesResourceOnAFailedPut := by
  intro s n v hh ho ⟨hacc, _⟩ h1 h2 hn hb hf
  have hx : exec (.wrbits n v) s = finishDone (.wrbits n v) (wrBits n.toNat v.toNat s) :=
    exec_run rfl (.inl hh) (argCheck_wrbits h1 h2) (by simp [needs, Need.holds, ho])
  obtain ⟨above, blk, hr⟩ := wrBits_full v.toNat hn hb
  have hrest : n.toNat - (64 - s.wr.accCnt) = s.wr.accCnt + n.toNat - 64 := by omega
  have hbits : toBits (s.wr.accCnt + n.toNat - 64)
      (BitVec.ofNat 64 (v.toNat % 2 ^ n.toNat % 2 ^ (s.wr.accCnt + n.toNat - 64))).toNat =
      toBits (s.wr.accCnt + n.toNat - 64) v.toNat := by
    rw [toBits_ofNat64 (by omega), toBits_mod, toBits_mod_of_le _ (by omega)]
  rw [hr, hrest, wrPutBlock_failed (by exact hf), finishDone_raised, raiseErr_failed _ _ _ (by exact hh)] at hx
  exact ⟨_, hx, ho, rfl, rfl, hbits, rfl, List.prefix_append _ _, rfl⟩

/-- From `s` to `t` a sound sink stays sound and grows by whole blocks (20_memory.md R73). -/
def GrowsByBlocks (s t : State) : Prop :=
  s.snkSound → t.snkSound ∧ ∃ b, t.snk.content = s.snk.content ++ b ∧ b.length % 8192 = 0

/-- A change that leaves the sink alone. -/
theorem GrowsByBlocks.of_snk {s t : State} (h : t.snk = s.snk) : GrowsByBlocks s t := fun hs =>
  ⟨by unfold State.snkSound; rwa [h], [], by simp [h]⟩

theorem GrowsByBlocks.trans (a b c : State) (h : GrowsByBlocks a b) (h' : GrowsByBlocks b c) : GrowsByBlocks a c := by
  intro ha
  obtain ⟨hb, x, h1, h2⟩ := h ha
  obtain ⟨hc, y, g1, g2⟩ := h' hb
  exact ⟨hc, x ++ y, by rw [g1, h1, List.append_assoc], by rw [List.length_append]; omega⟩

theorem growsByBlocks_chained : Chained GrowsByBlocks := .of (fun _ => .of_snk rfl) GrowsByBlocks.trans

theorem growsByBlocks_tables : TablesKeep GrowsByBlocks := fun _ _ _ _ _ _ _ _ _ => .of_snk rfl

theorem ReadTouch.growsByBlocks {s t : State} (h : ReadTouch s t) : GrowsByBlocks s t := .of_snk (by rw [h])

/-- A put of the writer's whole block (41 R145). -/
theorem wrPutBlock_growsByBlocks {s : State} (h : s.wr.blk.length = 8192) : (wrPutBlock s).All (GrowsByBlocks s) := by
  by_cases hs : s.snkSound
  · rw [wrPutBlock_sound hs]
    exact fun _ => ⟨hs, s.wr.blk, rfl, by rw [h]⟩
  · exact Res.All.imp (wrPutBlock_frame s) fun _ _ h => absurd h hs

/-- `WrBits` puts nothing but a whole block (41 R144). -/
theorem growsByBlocks_writes : WritesKeep GrowsByBlocks := by
  intro n v s _
  unfold wrBits
  dsimp only
  split
  · exact .of_snk rfl
  · split
    · exact growsByBlocks_chained.after (.of_snk rfl) (wrPutBlock_growsByBlocks ‹_›)
    · exact .of_snk rfl

/-- Settles O28: every primitive but an open, a flush and a close of the writer keeps the relation. -/
theorem sinkGrowsByWholeBlocksOutsideAFlush : Obligations.SinkGrowsByWholeBlocksOutsideAFlush := by
  intro s t i hs hx hopen hflush hclose hcompress hdecompress
  have hi : Respected GrowsByBlocks (fun s _ t => GrowsByBlocks s t) i :=
    { closed := growsByBlocks_chained
      reads := fun _ n s => Res.All.imp (rdBits_frame n s) fun _ h => h.touch.growsByBlocks
      writes := fun _ => growsByBlocks_writes
      tables := fun _ => growsByBlocks_tables
      rdOpen := fun _ s => Res.All.imp (rdOpen_touch s) fun _ h => h.growsByBlocks
      rdReset := fun _ s => Res.All.imp (rdReset_touch s) fun _ h => h.growsByBlocks
      rdClose := fun _ s => (rdClose_touch s).growsByBlocks
      wrOpen := fun h => absurd h hopen
      wrFlush := fun h => absurd h hflush
      wrClose := fun h => by simp [hclose, hcompress, hdecompress] at h }
  exact (hi.rel growsByBlocks_tables (fun _ _ _ => .of_snk rfl) hx hs).2

/-! ### The transactions of a command (20_memory.md R72, 60 R256) -/

/-- The commands that close the writer (41 R149, 45 R206, 46 R226). -/
def Closes (i : Instr) : Prop := i = .wrclose ∨ i = .compress ∨ i = .decompress

/-- How a command comes to raise `e` in its procedures: as a procedure does, or in a close, which releases the sink after
the failed put (41 R149). -/
def Faults (i : Instr) (s : State) (e : Raise) (t : State) : Prop :=
  Blames s e t ∨ Closes i ∧ Broken [.snkRelease] s e t

theorem Res.Faithful.faults {α : Type} {r : Res α} {s : State} (h : r.Faithful s) (i : Instr) :
    r.Ends (Clean s) (Faults i s) :=
  h.imp (fun _ h => h) fun _ _ h => .inl h

/-- Transactions that none fails before those of a raise. -/
theorem Clean.broken {tail : List PortEvent} {a b c : State} {e : Raise} (h : Clean a b) (h' : Broken tail b e c) :
    Broken tail a e c := by
  obtain ⟨es, h1, h2⟩ := h
  obtain ⟨fs, p, sub, h3, h4, h5⟩ := h'
  exact ⟨es ++ fs, p, sub, by rw [h3, h1]; simp, h2.append h4, h5⟩

theorem faults_closed (i : Instr) : Closed Clean (Faults i) where
  refl := Clean.refl
  trans := Clean.trans
  raise _ _ _ _ h h' := h'.imp h.blames fun ⟨hi, hb⟩ => ⟨hi, h.broken hb⟩
  own s _ h := .inl (.inl ⟨h, .refl s⟩)

theorem faults_respected (i : Instr) : Respected Clean (Faults i) i where
  closed := faults_closed i
  reads _ n s := Res.Faithful.faults (rdBits_faithful n s) i
  writes _ n v s _ := (wrBits_faithful n v s).faults i
  tables _ := clean_tables
  rdOpen _ s := (rdOpen_faithful s).faults i
  rdReset _ s := (rdReset_faithful s).faults i
  rdClose _ := rdClose_clean
  wrOpen _ s := (wrOpen_faithful s).faults i
  wrFlush _ s := (wrFlush_faithful s).faults i
  wrClose hi s := (wrClose_faithful s).imp (fun _ h => h) fun _ _ h => .inr ⟨hi, h⟩

/-- Outside the macro commands ERR.OP is the command's own opcode (60 R247). -/
theorem linesOf_op {i : Instr} (hc : i ≠ .compress) (hd : i ≠ .decompress) : ∀ l ∈ linesOf i, l.op = i.opcode := by
  cases i with
  | compress => exact absurd rfl hc
  | decompress => exact absurd rfl hd
  | _ => simp [linesOf, Instr.opcode]

/-- The checks of a command raise no RESOURCE. -/
theorem TurnedAway.not_resource {i : Instr} {s : State} {e : Raise} (h : TurnedAway i s e) : e.cls ≠ .resource := by
  cases h with
  | arg h =>
    cases i with
    | rdbits | wrbits =>
      simp only [argCheck] at h
      split at h <;> cases h
      simp
    | _ => cases h
  | seq h =>
    simp only [seqCheck, Option.map_eq_some_iff] at h
    obtain ⟨n, -, rfl⟩ := h
    simp
  | illegal => simp

/-- Both devices have made the transactions `es`, logged in their order, and each fetch took bytes of the source's rest. -/
structure Trace (s t : State) (es : List PortEvent) : Prop where
  log : t.log = s.log ++ es
  src : t.src = es.foldl Source.after s.src
  snk : t.snk = es.foldl Sink.after s.snk
  fetches : FetchesOk s.src es

/-- The transaction `p` was answered `Fail`: it is the first such and ends the command `i` with its RESOURCE error; only the
release of the sink by a close follows (41 R149, 60 R256). -/
structure FailedAt (i : Instr) (s t : State) (before : List PortEvent) (p : PortEvent) (after : List PortEvent) : Prop where
  before : NoneFails before
  after : after = [] ∨ after = [.snkRelease] ∧ Closes i
  raised : ∃ sub op u, p.failSub = some sub ∧ u.err = s.err ∧ t = raiseErr op i.opcode ⟨.resource, sub, 0⟩ u ∧
    (i ≠ .compress → i ≠ .decompress → op = i.opcode)

/-- No RESOURCE error is new. -/
def NoResource (s t : State) : Prop := s.halted = false → errCode t.err ≠ ErrClass.resource.code

theorem NoResource.of_err {s t : State} (h : t.err = s.err) : NoResource s t := by
  intro hs
  rw [h, show errCode s.err = 0 by simpa [State.halted] using hs]
  decide

theorem NoResource.of_raiseErr {s u : State} {op mop : BitVec 8} {e : Raise} (h : u.err = s.err) (he : e.cls ≠ .resource) :
    NoResource s (raiseErr op mop e u) := by
  rcases raiseErr_err_or op mop e u with hr | ⟨-, hr⟩
  · exact .of_err (hr.trans h)
  · intro _ hc
    rw [hr, errCode_packErr] at hc
    exact he (errClass_code_inj _ _ hc)

@[simp] theorem settled_src (i : Instr) (u : State) : (settled i u).src = u.src := by cases i <;> rfl
@[simp] theorem settled_snk (i : Instr) (u : State) : (settled i u).snk = u.snk := by cases i <;> rfl
@[simp] theorem lost_src (i : Instr) (u : State) : (lost i u).src = u.src := by cases i <;> rfl
@[simp] theorem lost_snk (i : Instr) (u : State) : (lost i u).snk = u.snk := by cases i <;> rfl

/-- The procedures of a command, with their transactions. -/
theorem exec_faults {i : Instr} {s t : State} (hx : exec i s = .next t) :
    Ended (fun u => Clean s u ∧ Effect s u)
      (fun op e u => (Faults i s e u ∧ Effect s u) ∧ (i ≠ .compress → i ≠ .decompress → op = i.opcode)) i s t := by
  refine exec_ended (fun hc => ⟨fun u => Clean s u ∧ Effect s u, ⟨.refl s, .refl s⟩, ?_⟩) hx
  refine linesEnd_of_forall fun l hl u ⟨hclean, heffect⟩ => ?_
  have hfaults := (faults_closed i).after hclean ((faults_respected i).lines hc.arg l hl u)
  have heffects := effect_chained.after heffect ((effect_respected i).lines hc.arg l hl u)
  exact (hfaults.and heffects).imp (fun _ h => h) fun _ _ h => ⟨h, fun h1 h2 => linesOf_op h1 h2 l hl⟩

theorem Effect.traced {s t : State} (h : Effect s t) : ∃ es, Trace s t es := by
  obtain ⟨es, h1, h2, h3, h4⟩ := h.trace
  exact ⟨es, h1, h2, h3, h4⟩

/-- What changes neither the log nor the devices does not change the trace. -/
theorem Trace.of_eq {s t u : State} {es : List PortEvent} (h : Trace s t es) (hl : u.log = t.log) (hs : u.src = t.src)
    (hk : u.snk = t.snk) : Trace s u es :=
  ⟨hl.trans h.log, hs.trans h.src, hk.trans h.snk, h.fetches⟩

theorem Clean.noneFails {s t : State} {es : List PortEvent} (h : Clean s t) (hl : t.log = s.log ++ es) : NoneFails es := by
  obtain ⟨fs, h1, h2⟩ := h
  rwa [List.append_cancel_left (hl.symm.trans h1)]

/-- A command acts on the devices by its transactions, and either none of them fails and RESOURCE is not raised, or one
does and ends the command. -/
theorem exec_transacts {i : Instr} {s t : State} (hx : exec i s = .next t) : ∃ es, Trace s t es ∧
    (NoneFails es ∧ NoResource s t ∨ ∃ before p after, es = before ++ p :: after ∧ FailedAt i s t before p after) := by
  cases exec_faults hx with
  | refused => exact ⟨[], ⟨by simp, rfl, rfl, trivial⟩, .inl ⟨.nil, .of_err rfl⟩⟩
  | turnedAway h =>
    exact ⟨[], ⟨by simp, by simp, by simp, trivial⟩, .inl ⟨.nil, .of_raiseErr rfl h.not_resource⟩⟩
  | @completed u _ _ hu =>
    obtain ⟨hclean, heffect⟩ := hu
    obtain ⟨es, htrace⟩ := heffect.traced
    exact ⟨es, htrace.of_eq (by simp) (by simp) (by simp),
      .inl ⟨hclean.noneFails htrace.log, .of_err (by simpa using heffect.err)⟩⟩
  | @raised u op e hu =>
    obtain ⟨⟨hfaults, heffect⟩, hop⟩ := hu
    obtain ⟨es, htrace⟩ := heffect.traced
    have herr : (lost i u).err = s.err := (lost_err i u).trans heffect.err
    refine ⟨es, htrace.of_eq (by simp) (by simp) (by simp), ?_⟩
    have broken : ∀ {tail}, (tail = [] ∨ tail = [.snkRelease] ∧ Closes i) → Broken tail s e u →
        ∃ before p after, es = before ++ p :: after ∧
          FailedAt i s (raiseErr op i.opcode e (lost i u)) before p after := by
      rintro tail htail ⟨before, p, sub, hlog, hnone, hsub, rfl⟩
      exact ⟨before, p, tail, List.append_cancel_left (htrace.log.symm.trans hlog),
        hnone, htail, sub, op, _, hsub, herr, rfl, hop⟩
    rcases hfaults with (⟨hcls, hclean⟩ | hb) | ⟨hcloses, hb⟩
    · exact .inl ⟨hclean.noneFails htrace.log, .of_raiseErr herr hcls⟩
    · exact .inr (broken (.inl rfl) hb)
    · exact .inr (broken (.inr ⟨rfl, hcloses⟩) hb)

/-- ERR after a raise: the core is halted, and the response is that of a command that gave up (60 R252, R253). -/
theorem raiseErr_gaveUp (op mop : BitVec 8) (e : Raise) (s : State) :
    (raiseErr op mop e s).gaveUp ∧ (raiseErr op mop e s).halted = true := by
  refine ⟨raiseErr_rsp s op mop e, ?_⟩
  rw [State.halted, bne_iff_ne, raiseErr_err]
  split
  · rw [errCode_packErr]
    exact errClass_code_ne e.cls
  · assumption

/-- Settles O54, from the transactions of the command's procedures. -/
theorem devicesSeeExactlyTheLoggedTransactions : Obligations.DevicesSeeExactlyTheLoggedTransactions := by
  intro s t i hx
  obtain ⟨es, htrace, hends⟩ := exec_transacts hx
  refine ⟨es, htrace.log, htrace.src, htrace.snk, fun _ _ _ _ he => htrace.fetches.at he, ?_⟩
  rcases hends with ⟨hnone, herr⟩ | ⟨before, p, after, rfl, hnone, hafter, sub, op, u, hsub, herr, rfl, hop⟩
  · refine ⟨fun before e after sub he hsub => ?_, fun hh hc => absurd hc (herr hh)⟩
    rw [hnone e (by simp [he])] at hsub
    cases hsub
  · refine ⟨fun before' e after' sub' he hsub' => ?_, fun _ _ => ⟨p, by simp, by simp [hsub]⟩⟩
    have htail : NoneFails after := by
      rcases hafter with rfl | ⟨rfl, -⟩ <;> simp [NoneFails, PortEvent.failSub]
    obtain ⟨rfl, rfl, rfl⟩ := hnone.split htail (by simp [hsub']) he
    obtain rfl : sub = sub' := Option.some.inj (hsub.symm.trans hsub')
    obtain ⟨hgave, hhalted⟩ := raiseErr_gaveUp op i.opcode ⟨.resource, sub, 0⟩ u
    refine ⟨hgave, hhalted, hnone, hafter, fun hh => ⟨op, ?_, hop⟩⟩
    rw [raiseErr_err, herr, if_pos (by simpa [State.halted] using hh)]

end Sys2Proof.Machine

namespace Sys2Proof

open Sys2Proof.Machine

/-! ### The command word (30_encoding.md R90 to R98) -/

/-- Every command has its opcode and operands in its word, and its row of the opcode map gives it back. -/
theorem fields_statement (i : Instr) : Laws.Fields.Statement i := by
  cases i with
  | getcsr n => exact Laws.Fields.getcsr n
  | rdopen => exact Laws.Fields.rdopen
  | rdbits n => exact Laws.Fields.rdbits n
  | rdcnt => exact Laws.Fields.rdcnt
  | rdrst => exact Laws.Fields.rdrst
  | rdclose => exact Laws.Fields.rdclose
  | wropen => exact Laws.Fields.wropen
  | wrbits n val => exact Laws.Fields.wrbits n val
  | wrcnt => exact Laws.Fields.wrcnt
  | wrflush => exact Laws.Fields.wrflush
  | wrclose => exact Laws.Fields.wrclose
  | fcount => exact Laws.Fields.fcount
  | tbuild => exact Laws.Fields.tbuild
  | magicw => exact Laws.Fields.magicw
  | tser => exact Laws.Fields.tser
  | ctab => exact Laws.Fields.ctab
  | encode => exact Laws.Fields.encode
  | magicr => exact Laws.Fields.magicr
  | tdes => exact Laws.Fields.tdes
  | decode => exact Laws.Fields.decode
  | compress => exact Laws.Fields.compress
  | decompress => exact Laws.Fields.decompress

/-- Settles O1: the decoder finds the command's row, whose unused fields the word has at 0. -/
theorem decodeOfEncodeIsTheCommand : Obligations.DecodeOfEncodeIsTheCommand := by
  intro i hi
  obtain ⟨⟨hop, -, hn, hval⟩, r, hfind, hzero, hcommand⟩ := fields_statement i
  simp [decode, hop, hn, hval, hfind, hzero, hcommand, hi]

/-- What a row of the opcode map says of its commands: their opcode, the operands its format carries, and that only
GETCSR, of format N, constrains one (R92, R95, R96 step 3). -/
structure RowSound (r : OpRow) : Prop where
  opcode : ∀ n v, (r.command n v).opcode = r.op
  nOperand : ∀ n v, (r.command n v).nOperand = if r.format = .z then 0 else n
  valOperand : ∀ n v, (r.command n v).valOperand = if r.format = .nv then v else 0
  wellFormed : ∀ n v, (r.command n v).wellFormed = (r.op != 0x01 || decide (n.toNat ≤ 6))
  csr : r.op = 0x01 → r.format = .n

theorem opcodeMap_sound : ∀ r ∈ opcodeMap, RowSound r := by
  intro r hr
  fin_cases hr <;> exact ⟨fun _ _ => rfl, fun _ _ => rfl, fun _ _ => rfl, fun _ _ => rfl, by decide⟩

theorem opcodes_nodup : (opcodeMap.map OpRow.op).Nodup := by decide

/-- A row is the one the decoder finds by its opcode. -/
theorem find_row {r : OpRow} (hr : r ∈ opcodeMap) : opcodeMap.find? (fun x => x.op == r.op) = some r := by
  cases h : opcodeMap.find? (fun x => x.op == r.op) with
  | none => simpa using List.find?_eq_none.1 h r hr
  | some x =>
    have hop : x.op = r.op := by simpa using List.find?_some h
    rw [List.inj_on_of_nodup_map opcodes_nodup (List.mem_of_find?_eq_some h) hr hop]

theorem row_unique {r x : OpRow} (hr : r ∈ opcodeMap) (hx : x ∈ opcodeMap) (h : r.op = x.op) : r = x :=
  List.inj_on_of_nodup_map opcodes_nodup hr hx h

/-- What the decoder makes of a word, by its row of the opcode map (R96). -/
inductive Decodes (w : CmdWord) : Decoded → Prop
  | unknown (h : ∀ r ∈ opcodeMap, r.op ≠ opField w) : Decodes w (.illegal 1)
  | unusedSet {r : OpRow} (hr : r ∈ opcodeMap) (hop : r.op = opField w) (hz : r.format.unusedZero w = false) :
      Decodes w (.illegal 2)
  | noCsr {r : OpRow} (hr : r ∈ opcodeMap) (hop : r.op = opField w) (hz : r.format.unusedZero w = true)
      (hi : (r.command (nField w) (valField w)).wellFormed = false) : Decodes w (.illegal 3)
  | command {r : OpRow} (hr : r ∈ opcodeMap) (hop : r.op = opField w) (hz : r.format.unusedZero w = true)
      (hi : (r.command (nField w) (valField w)).wellFormed = true) :
      Decodes w (.command (r.command (nField w) (valField w)))

theorem decodes_iff {w : CmdWord} {d : Decoded} : Decodes w d ↔ decode w = d := by
  constructor
  · intro h
    cases h with
    | unknown h =>
      have hnone : opcodeMap.find? (fun r => r.op == opField w) = none := List.find?_eq_none.2 (by simpa using h)
      simp [decode, hnone]
    | unusedSet hr hop hz => simp [decode, ← hop, find_row hr, hz]
    | noCsr hr hop hz hi => simp [decode, ← hop, find_row hr, hz, hi]
    | command hr hop hz hi => simp [decode, ← hop, find_row hr, hz, hi]
  · rintro rfl
    unfold decode
    split
    · rename_i hnone
      exact .unknown (by simpa using List.find?_eq_none.1 hnone)
    · rename_i r hr
      have hmem := List.mem_of_find?_eq_some hr
      have hop : r.op = opField w := by simpa using List.find?_some hr
      split
      · rename_i hz
        dsimp only
        split
        · exact .command hmem hop hz ‹_›
        · exact .noCsr hmem hop hz (Bool.eq_false_iff.2 ‹_›)
      · exact .unusedSet hmem hop (Bool.eq_false_iff.2 ‹_›)

/-- RSV is 0 in a word whose unused fields are 0, and so are the operands its format does not use (R92). -/
theorem unusedZero_iff {f : Format} {w : CmdWord} : f.unusedZero w = true ↔
    rsvField w = 0 ∧ (f = .z → nField w = 0) ∧ (f ≠ .nv → valField w = 0) := by
  cases f <;> simp [Format.unusedZero]

/-- A command decoded from a word has the word's fields as opcode and operands. -/
theorem decode_fields {w : CmdWord} {i : Instr} (h : decode w = .command i) : i.wellFormed = true ∧ rsvField w = 0 ∧
    i.opcode = opField w ∧ i.nOperand = nField w ∧ i.valOperand = valField w := by
  cases decodes_iff.2 h with
  | @command r hr hop hz hi =>
    have hs := opcodeMap_sound r hr
    obtain ⟨hrsv, hn, hval⟩ := unusedZero_iff.1 hz
    refine ⟨hi, hrsv, (hs.opcode _ _).trans hop, ?_, ?_⟩
    · rw [hs.nOperand]
      split
      · exact (hn ‹_›).symm
      · rfl
    · rw [hs.valOperand]
      split
      · rfl
      · exact (hval ‹_›).symm

/-- Settles O2: the word's fields are the command's, and the word is made of its fields. -/
theorem encodeOfDecodeIsTheWord : Obligations.EncodeOfDecodeIsTheWord := by
  intro w i h
  obtain ⟨hwf, hrsv, hop, hn, hval⟩ := decode_fields h
  have hw : encode i = w := by rw [encode, hop, hn, hval, packWord_fields w hrsv]
  exact ⟨hwf, hw, by rw [← hw, encode, packWord_toNat]⟩

/-! ### Mask and match (R92) -/

/-- A word is its four fields side by side (R91). -/
theorem append_fields (w : CmdWord) : opField w ++ rsvField w ++ nField w ++ valField w = w := by
  unfold opField rsvField nField valField
  rw [BitVec.extractLsb'_append_extractLsb'_eq_extractLsb' (by omega),
    BitVec.extractLsb'_append_extractLsb'_eq_extractLsb' (by omega),
    BitVec.extractLsb'_append_extractLsb'_eq_extractLsb' (by omega)]
  exact extract_full w

theorem word_ext {w x : CmdWord} (hop : opField w = opField x) (hrsv : rsvField w = rsvField x)
    (hn : nField w = nField x) (hval : valField w = valField x) : w = x := by
  rw [← append_fields w, ← append_fields x, hop, hrsv, hn, hval]

/-- The match of a row is its opcode in OP and 0 in the other fields. -/
theorem match_eq_packWord (op : BitVec 8) : op.setWidth 48 <<< 40 = packWord op 0 0 := by
  apply BitVec.eq_of_toNat_eq
  have := op.isLt
  rw [packWord_toNat]
  simp [Nat.shiftLeft_eq]
  omega

/-- A word meets a row's mask and match exactly when OP is the row's and the fields its format does not use are 0. -/
theorem mask_match_iff (f : Format) (op : BitVec 8) (w : CmdWord) :
    w &&& formatMask f = op.setWidth 48 <<< 40 ↔ op = opField w ∧ f.unusedZero w = true := by
  have hop : opField (w &&& formatMask f) = opField w := by
    rw [opField, BitVec.extractLsb'_and, show (formatMask f).extractLsb' 40 8 = BitVec.allOnes 8 by cases f <;> rfl,
      BitVec.and_allOnes, ← opField]
  have hrsv : rsvField (w &&& formatMask f) = rsvField w := by
    rw [rsvField, BitVec.extractLsb'_and, show (formatMask f).extractLsb' 38 2 = BitVec.allOnes 2 by cases f <;> rfl,
      BitVec.and_allOnes, ← rsvField]
  have hn : nField (w &&& formatMask f) = if f = .z then nField w else 0 := by
    rw [nField, BitVec.extractLsb'_and, ← nField]
    cases f
    · exact BitVec.and_allOnes
    · exact BitVec.and_zero
    · exact BitVec.and_zero
  have hval : valField (w &&& formatMask f) = if f = .nv then 0 else valField w := by
    rw [valField, BitVec.extractLsb'_and, ← valField]
    cases f
    · exact BitVec.and_allOnes
    · exact BitVec.and_allOnes
    · exact BitVec.and_zero
  rw [match_eq_packWord, unusedZero_iff]
  constructor
  · intro h
    rw [h] at hop hrsv hn hval
    simp only [opField_packWord, rsvField_packWord, nField_packWord, valField_packWord] at hop hrsv hn hval
    exact ⟨hop, hrsv.symm, fun hf => by rw [if_pos hf] at hn; exact hn.symm,
      fun hf => by rw [if_neg hf] at hval; exact hval.symm⟩
  · rintro ⟨rfl, hrsv0, hn0, hval0⟩
    apply word_ext
    · rw [hop, opField_packWord]
    · rw [hrsv, hrsv0, rsvField_packWord]
    · rw [hn, nField_packWord, ite_eq_right_iff]; exact hn0
    · rw [hval, valField_packWord, ite_eq_left_iff]; exact hval0

/-- A word is a command of a row exactly when it meets the row's mask and match and, for GETCSR, N is at most 6. -/
theorem decode_row_iff {w : CmdWord} {r : OpRow} (hr : r ∈ opcodeMap) :
    (∃ i, decode w = .command i ∧ i.opcode = r.op) ↔
      w &&& formatMask r.format = r.op.setWidth 48 <<< 40 ∧ (r.op = 0x01 → (nField w).toNat ≤ 6) := by
  have hs := opcodeMap_sound r hr
  have hwf : (r.command (nField w) (valField w)).wellFormed = true ↔ (r.op = 0x01 → (nField w).toNat ≤ 6) := by
    rw [hs.wellFormed]; simp [imp_iff_not_or]
  rw [mask_match_iff, ← hwf]
  constructor
  · rintro ⟨i, hi, hop⟩
    cases decodes_iff.2 hi with
    | @command x hx hxop hz hwell =>
      obtain rfl := row_unique hx hr (((opcodeMap_sound x hx).opcode _ _).symm.trans hop)
      exact ⟨⟨hxop, hz⟩, hwell⟩
  · rintro ⟨⟨hop, hz⟩, hi⟩
    exact ⟨_, decodes_iff.1 (.command hr hop hz hi), hs.opcode _ _⟩

theorem decode_illegal_one_iff {w : CmdWord} : decode w = .illegal 1 ↔ ∀ r ∈ opcodeMap, r.op ≠ opField w := by
  constructor
  · intro h
    cases decodes_iff.2 h with
    | unknown h => exact h
  · exact fun h => decodes_iff.1 (.unknown h)

theorem decode_illegal_two_iff {w : CmdWord} : decode w = .illegal 2 ↔
    ∃ r ∈ opcodeMap, r.op = opField w ∧ w &&& formatMask r.format ≠ r.op.setWidth 48 <<< 40 := by
  simp only [ne_eq, mask_match_iff]
  constructor
  · intro h
    cases decodes_iff.2 h with
    | @unusedSet r hr hop hz => exact ⟨r, hr, hop, fun hm => by simp [hz] at hm⟩
  · rintro ⟨r, hr, hop, hm⟩
    exact decodes_iff.1 (.unusedSet hr hop (by simpa [hop] using hm))

theorem decode_illegal_three_iff {w : CmdWord} : decode w = .illegal 3 ↔
    w &&& formatMask .n = 0x010000000000 ∧ 6 < (nField w).toNat := by
  rw [show (0x010000000000 : CmdWord) = (0x01 : BitVec 8).setWidth 48 <<< 40 from rfl, mask_match_iff]
  constructor
  · intro h
    cases decodes_iff.2 h with
    | @noCsr r hr hop hz hi =>
      have hs := opcodeMap_sound r hr
      obtain ⟨hcsr, hn⟩ : r.op = 0x01 ∧ 6 < (nField w).toNat := by simpa [hs.wellFormed] using hi
      rw [hs.csr hcsr] at hz
      exact ⟨⟨hcsr ▸ hop, hz⟩, hn⟩
  · rintro ⟨⟨hop, hz⟩, hn⟩
    exact decodes_iff.1 (.noCsr (List.mem_cons_self ..) hop hz (by simpa [Instr.wellFormed] using hn))

/-- Settles O3, clause by clause from the cases of the decoder. -/
theorem decodingIsMaskAndMatch : Obligations.DecodingIsMaskAndMatch := by
  refine ⟨rfl, opcodes_nodup, fun w => ⟨fun r hr => decode_row_iff hr, fun i hi => ?_, decode_illegal_one_iff,
    decode_illegal_two_iff, decode_illegal_three_iff, fun sub h => ?_⟩⟩
  · obtain ⟨-, -, -, hn, hval⟩ := decode_fields hi
    exact ⟨hn, hval⟩
  · cases decodes_iff.2 h with
    | unknown => exact .inl rfl
    | unusedSet => exact .inr (.inl rfl)
    | noCsr => exact .inr (.inr rfl)

/-- Settles O4, word by word. -/
theorem sampleWordsDecode : Obligations.SampleWordsDecode :=
  ⟨rfl, rfl, rfl, rfl, rfl, rfl, rfl, rfl, rfl, rfl, rfl, rfl⟩

end Sys2Proof

namespace Sys2Proof.Machine

/-! ### What a command answers (30_encoding.md R93) -/

/-- Settles O6: with no input nothing is run, and an illegal word raises as R255 step 3 says. -/
theorem stepIdlesOrRaisesIllegal : Obligations.StepIdlesOrRaisesIllegal := by
  refine ⟨fun s h => by rw [step, h], fun s w rest sub h hd hh => ?_⟩
  have hx : step s = .next (illegalWord w sub { s with host := rest }) := by simp [step, h, execute, hd]
  have hh' : ({ s with host := rest } : State).halted = false := hh
  rw [hx, illegalWord, hh', if_neg Bool.false_ne_true, raiseErr_failed _ _ _ hh']
  rfl

theorem packResponse_toNat (ok eos : Bool) (data : BitVec 64) :
    (packResponse ok eos data).toNat = ok.toNat * 2 ^ 65 + eos.toNat * 2 ^ 64 + data.toNat := by
  rw [packResponse, toNat_append_eq, toNat_append_eq]
  cases ok <;> cases eos <;> simp

/-- The replies a command may complete with: EOS is for RDBITS alone, then with DATA = 0; DATA for it, GETCSR and the two
counter reads (R93). -/
structure ReplyFits (i : Instr) (p : Reply) : Prop where
  eos : p.eos = true → p.data = 0 ∧ ∃ n, i = .rdbits n
  data : (∀ n, i ≠ .rdbits n) → (∀ n, i ≠ .getcsr n) → i ≠ .rdcnt → i ≠ .wrcnt → p.data = 0

/-- How a command answers: with a reply that fits it, or by giving up, the core then halted (60 R252, R253). -/
def Answers (i : Instr) (t : State) : Prop :=
  (∃ p, ReplyFits i p ∧ t.rsp = some (packResponse true p.eos p.data)) ∨ t.gaveUp ∧ t.halted = true

section
variable {i : Instr} {s t : State}

theorem replyFits_done (i : Instr) : ReplyFits i .done := ⟨fun h => absurd h Bool.false_ne_true, fun _ _ _ _ => rfl⟩

theorem replyFits_bitsReply (n : BitVec 6) (r : Option Nat) : ReplyFits (.rdbits n) (bitsReply r) where
  eos h := by
    cases r with
    | none => exact ⟨rfl, n, rfl⟩
    | some v => cases h
  data h := absurd rfl (h n)

theorem finish_answers {r : Res Reply} (hr : ∀ p u, r = .ok p u → ReplyFits i p) (h : finish i r = .next t) :
    Answers i t := by
  rcases finish_eq_next.1 h with ⟨p, u, hp, rfl⟩ | ⟨e, u, -, rfl⟩
  · exact .inl ⟨p, hr p u hp, respond_rsp ..⟩
  · exact .inr (raiseErr_gaveUp ..)

/-- GETCSR and the counter reads answer any DATA, and EOS = 0. -/
theorem register_answers {d : BitVec 64} (hi : (∃ n, i = .getcsr n) ∨ i = .rdcnt ∨ i = .wrcnt)
    (h : finish i (.ok ⟨false, d⟩ s) = .next t) : Answers i t := by
  refine .inl ⟨⟨false, d⟩, ⟨fun h => absurd h Bool.false_ne_true, fun _ hcsr hrd hwr => ?_⟩, ?_⟩
  · rcases hi with ⟨n, hn⟩ | hn | hn
    exacts [absurd hn (hcsr n), absurd hn hrd, absurd hn hwr]
  · obtain rfl := Host.Outcome.next.inj h
    rfl

theorem finishDone_answers {r : Res Unit} (h : finishDone i r = .next t) : Answers i t := by
  refine finish_answers (fun p u hp => ?_) h
  obtain ⟨-, v, -, hv⟩ := andThen_eq_ok.1 hp
  cases hv
  exact replyFits_done i

theorem runMacro_answers {lines : List MacroLine} : ∀ {s : State}, runMacro i lines s = .next t → Answers i t := by
  induction lines with
  | nil =>
    intro s h
    obtain rfl := Host.Outcome.next.inj h
    exact .inl ⟨.done, replyFits_done i, rfl⟩
  | cons l lines ih =>
    intro s h
    cases hp : l.procedure s with
    | ok a u => rw [runMacro_cons_ok hp] at h; exact ih h
    | raised e u =>
      rw [runMacro_cons_raised hp] at h
      obtain rfl := Host.Outcome.next.inj h
      exact .inr (raiseErr_gaveUp ..)
    | stuck f => simp [runMacro, hp] at h

theorem operation_answers (h : operation i s = .next t) : Answers i t := by
  cases i with
  | getcsr n => exact register_answers (.inl ⟨n, rfl⟩) h
  | rdcnt => exact register_answers (.inr (.inl rfl)) h
  | wrcnt => exact register_answers (.inr (.inr rfl)) h
  | rdbits n =>
    refine finish_answers (fun p u hp => ?_) h
    obtain ⟨r, v, -, hv⟩ := andThen_eq_ok.1 hp
    cases hv
    exact replyFits_bitsReply n r
  | rdopen | rdrst | rdclose | wropen | wrbits | wrflush | wrclose | tbuild | magicw | tser | ctab | encode | magicr
  | decode | fcount | tdes => exact finishDone_answers h
  | compress | decompress => exact runMacro_answers h

theorem refuse_gaveUp (h : s.halted = true) : (refuse s).gaveUp ∧ (refuse s).halted = true := ⟨rfl, h⟩

/-- Every command answers: refused, turned away by a check, or as its Operation does. -/
theorem exec_answers (hx : exec i s = .next t) : Answers i t := by
  rcases exec_eq i s with he | ⟨n, -, he⟩
  · rw [he] at hx
    rcases guarded_cases i s (operation i) with ⟨hh, -, hg⟩ | ⟨-, ⟨e, -, hg⟩ | ⟨-, e, -, hg⟩ | ⟨-, -, hg⟩⟩
    · obtain rfl := Host.Outcome.next.inj (hg.symm.trans hx); exact .inr (refuse_gaveUp hh)
    · obtain rfl := Host.Outcome.next.inj (hg.symm.trans hx); exact .inr (raiseErr_gaveUp ..)
    · obtain rfl := Host.Outcome.next.inj (hg.symm.trans hx); exact .inr (raiseErr_gaveUp ..)
    · exact operation_answers (hg.symm.trans hx)
  · obtain rfl := Host.Outcome.next.inj (he.symm.trans hx)
    unfold illegalWord
    split
    · exact .inr (refuse_gaveUp ‹_›)
    · exact .inr (raiseErr_gaveUp ..)

theorem completed_not_gaveUp (h : t.completed) : ¬ t.gaveUp := by
  rintro hg
  obtain ⟨eos, data, hc⟩ := h
  exact Bool.false_ne_true (packResponse_ok (Option.some.inj (hg.symm.trans hc)))

/-- A command that completes leaves ERR as it was (60 R252). -/
theorem exec_completed_err (hx : exec i s = .next t) (hc : t.completed) : t.err = s.err := by
  cases (effect_respected i).ended hx with
  | refused => rfl
  | turnedAway => exact absurd hc (raiseErr_not_completed _ _ _ _)
  | completed _ _ hu => simpa using hu.err
  | raised => exact absurd hc (raiseErr_not_completed _ _ _ _)

end

/-- Settles O12, from the answers of the commands' Operations. -/
theorem everyCommandAnswers : Obligations.EveryCommandAnswers := by
  refine ⟨packResponse_toNat, fun s t i hx => ?_⟩
  rcases exec_answers hx with ⟨p, hp, hrsp⟩ | h
  · exact .inl ⟨p.eos, p.data, hrsp, exec_completed_err hx ⟨_, _, hrsp⟩, hp.eos, hp.data⟩
  · exact .inr h

end Sys2Proof.Machine

namespace Sys2Proof.Machine

/-! ### TSER, MAGICW, ENCODE: what is written (44 R187, 45 R201, R203) -/

/-- `Ser(ROOT)` with a tree in the node memory appends its serialisation (44 R187), a sound sink. -/
theorem serRoot_sound {s : State} {tr : CodeTree} (ht : s.holdsTree tr) (hs : s.snkSound) (hw : s.writerOk) :
    ∃ t, serRoot s = .ok () t ∧ WriteFrame s t ∧ t.written = s.written ++ tr.bits ∧ t.writerOk ∧
      t.wr.bitsWritten = s.wr.bitsWritten + BitVec.ofNat 64 tr.bits.length := by
  obtain ⟨-, ixs, htree, hnodup, -⟩ := ht
  exact ser_sound tr htree (Nat.lt_succ_of_le (depth_le_of_nodup htree hnodup)) hs hw

/-- Settles O33, from what the serialiser appends. -/
theorem tserWritesTheTree : Obligations.TserWritesTheTree := by
  intro s tr hh ho hv ht hs hi
  have hx : exec .tser s = finishDone .tser (serRoot s) :=
    exec_run rfl (.inl hh) rfl (by simp [needs, Need.holds, ho, hv])
  obtain ⟨t, hr, ⟨hf, hfo⟩, hw, hok, hb⟩ := serRoot_sound ht hs hi
  rw [hr, finishDone_ok] at hx
  rw [bits_length] at hb
  exact ⟨t, hx, hw, bits_length tr, hb, hfo.trans ho, hok, hf⟩

/-- Settles O38, from what the write primitive appends. -/
theorem magicwWritesTheMagicField : Obligations.MagicwWritesTheMagicField := by
  intro s hh ho hs hi
  have hx : exec .magicw s = finishDone .magicw (wrBits 32 s.magic.toNat s) :=
    exec_run rfl (.inl hh) rfl (by simp [needs, Need.holds, ho])
  obtain ⟨t, hr, ⟨hf, hfo⟩, hw, hok, hb⟩ := wrBits_sound s.magic.toNat (Nat.le_refl 32) hs hi
  rw [hr, finishDone_ok] at hx
  exact ⟨t, hx, hw, hb, hfo.trans ho, hok, hf⟩

/-- Settles O40, from what the encoding loop appends. -/
theorem encodeWritesTheCodes : Obligations.EncodeWritesTheCodes := by
  intro s hh hro hwo hv hs hk hi hw hc ht
  have hx : exec .encode s = finishDone .encode (encodeBody s) :=
    exec_run rfl (.inl hh) rfl (by simp [needs, Need.holds, hro, hwo, hv])
  obtain ⟨t, hr, ⟨hf, hfr, hfw⟩, -, hok, hwritten, hb, hu, he, hbr⟩ := encodeBody_sound hs hk hi hw hc ht
  rw [hr, finishDone_ok] at hx
  exact ⟨t, hx, hwritten, hb, hu, he, hfr.trans hro, hfw.trans hwo, hok, hbr, hf⟩

/-! ### TDES: reserved values (44 R189, 60 R259) -/

/-- `Des` at a leaf: the flag and the symbol field are consumed, then the value and the room are checked (44 R189). -/
theorem des_leaf {room v : Nat} {s : State} {rest : List Bool} (hs : s.srcSound) (hi : s.readerOk) (hv : v < 512)
    (hu : s.undelivered = true :: toBits 9 v ++ rest) : ∃ t, ReadFrame s t ∧ t.undelivered = rest ∧
      des (room + 1) s =
        if 256 < v then .raised ⟨.malformed, 3, BitVec.ofNat 32 v⟩ t
        else if s.nodeCnt = Config.nodeCap then .raised ⟨.malformed, 4, 0⟩ t
        else .ok (nodeIxOf s.nodeCnt) (t.pushNode (.leaf (some (symbolOf v)) 0)) := by
  obtain ⟨t, h1, f1, u1, k1, -, -⟩ := rdBits_take (n := 1) (bits := [true]) (rest := toBits 9 v ++ rest) (by omega) hs hi
    hu rfl
  obtain ⟨u, h2, f2, u2, -, -, -⟩ := rdBits_take (n := 9) (by omega) (f1.srcSound hs) k1 u1 (by simp)
  rw [ofBits_toBits, Nat.mod_eq_of_lt (show v < 2 ^ 9 from hv)] at h2
  replace h1 : rdBits 1 s = .ok (some 1) t := h1
  have frame := ReadFrame.trans _ _ _ f1 f2
  refine ⟨u, frame, u2, ?_⟩
  rw [← frame.nodeCnt]
  simp [des, h1, h2]

/-- `Des` at an internal node for which there is no record left (44 R189). -/
theorem des_internal_full {room : Nat} {s : State} {rest : List Bool} (hs : s.srcSound) (hi : s.readerOk)
    (hu : s.undelivered = false :: rest) (hc : s.nodeCnt = Config.nodeCap) :
    ∃ t, des (room + 1) s = .raised ⟨.malformed, 4, 0⟩ t ∧ t.undelivered = rest := by
  obtain ⟨t, h1, f1, u1, -, -, -⟩ := rdBits_take (n := 1) (bits := [false]) (by omega) hs hi hu rfl
  replace h1 : rdBits 1 s = .ok (some 0) t := h1
  exact ⟨t, by simp [des, h1, f1.nodeCnt, hc], u1⟩

/-- A TDES whose Operation raises: the error is recorded, the flags of the tree and the codes are 0, and the stream stands
where the procedure left it. -/
theorem exec_tdes_raised {s : State} {cls : ErrClass} {sub : BitVec 4} {info : BitVec 32} {rest : List Bool}
    (hh : s.halted = false) (ho : s.rd.isOpen = true)
    (h : ∃ u, tDes s = .raised ⟨cls, sub, info⟩ u ∧ u.undelivered = rest) :
    ∃ t : State, exec .tdes s = .next (t.failed 0x41 0x41 cls sub info) ∧ t.treeValid = false ∧ t.tableValid = false ∧
      t.undelivered = rest := by
  obtain ⟨u, hr, hu⟩ := h
  have hx : exec .tdes s = finishProducer .tdes (tDes s) :=
    exec_run rfl (.inl hh) rfl (by simp [needs, Need.holds, ho])
  have frame : DesFrame (desStart s) u := (tDes_frame s).raised hr
  have hh' : (u.forgetTables 0x41).halted = false := by
    rw [State.halted, forgetTables_err, frame.1]; exact hh
  rw [hr, finishProducer_raised] at hx
  exact ⟨_, hx.trans (congrArg _ (raiseErr_failed _ _ _ hh')), by rw [forgetTables_treeValid, frame.1]; rfl,
    by rw [forgetTables_tableValid, frame.1]; rfl, hu⟩

/-- What `Des` raises TDES raises. -/
theorem tDes_of_des_raised {s u : State} {e : Raise} (h : des (Config.nodeCap + 1) (desStart s) = .raised e u) :
    tDes s = .raised e u := by
  unfold tDes
  rw [show ({ s with treeValid := false, tableValid := false, nodeCnt := 0 } : State) = desStart s from rfl, h]
  rfl

/-- Where `Des` has built one leaf and no more, TDES raises MALFORMED sub 5 with its symbol (44 R189). -/
theorem tDes_of_des_leaf {s u : State} {r : NodeIx} {y : Option Symbol} {w : Weight}
    (h : des (Config.nodeCap + 1) (desStart s) = .ok r u) (hn : u.nodeAt r = .leaf y w) :
    tDes s = .raised ⟨.malformed, 5, (symField y).setWidth 32⟩ u := by
  unfold tDes
  rw [show ({ s with treeValid := false, tableValid := false, nodeCnt := 0 } : State) = desStart s from rfl, h,
    ok_andThen, hn]

/-- What `Des` raises after the nodes of a tree not yet complete, TDES raises (44 R189). -/
theorem tDes_raised_after {s : State} {ts : List TreeToken} {p : Nat} {tail rest : List Bool} {e : Raise}
    (hs : s.srcSound) (hi : s.readerOk) (hp : subtreesLeft 1 ts = some p) (h1 : 1 ≤ p) (hl : ts.length ≤ 513)
    (hu : s.undelivered = ts.flatMap TreeToken.bits ++ tail)
    (h : ∀ (room : Nat) (t : State), t.srcSound → t.readerOk → t.undelivered = tail → t.nodeCnt = ts.length →
      ∃ u, des (room + 1) t = .raised e u ∧ u.undelivered = rest) :
    ∃ u, tDes s = .raised e u ∧ u.undelivered = rest := by
  obtain ⟨p, rfl⟩ : ∃ k, p = k + 1 := ⟨p - 1, by omega⟩
  obtain ⟨u, hd, hrest⟩ := des_prefix ts.length (fuel := Config.nodeCap + 1) (s := desStart s) (e := e)
    (Q := fun u => u.undelivered = rest) (Nat.le_refl _) hp (Nat.lt_succ_of_le hl) hs hi hu (by simpa [desStart] using hl)
    fun room t hroom frame hok hut hc => by
      obtain ⟨room, rfl⟩ : ∃ k, room = k + 1 := ⟨room - 1, by omega⟩
      exact h room t (frame.srcSound hs) hok hut (by simpa [desStart] using hc)
  exact ⟨u, tDes_of_des_raised hd, hrest⟩

/-- A tree of one leaf is rejected with its symbol (44 R189, 30 R108). -/
theorem tDes_leaf {s : State} {v : Nat} {rest : List Bool} (hs : s.srcSound) (hi : s.readerOk) (hv : v ≤ 256)
    (hu : s.undelivered = true :: toBits 9 v ++ rest) :
    ∃ u, tDes s = .raised ⟨.malformed, 5, BitVec.ofNat 32 v⟩ u ∧ u.undelivered = rest := by
  obtain ⟨t, frame, hut, hd⟩ := des_leaf (room := Config.nodeCap) (s := desStart s) hs hi (by omega) hu
  rw [if_neg (by omega), if_neg (by simp [desStart, Config.nodeCap])] at hd
  have hn : (t.pushNode (.leaf (some (symbolOf v)) 0)).nodeAt (nodeIxOf (desStart s).nodeCnt) =
      .leaf (some (symbolOf v)) 0 := by rw [nodeAt_pushNode, frame.nodeCnt, if_pos rfl]
  have hinfo : (symField (some (symbolOf v))).setWidth 32 = BitVec.ofNat 32 v := by
    apply BitVec.eq_of_toNat_eq
    simp only [symField, symbolOf_val (show v < 257 by omega), BitVec.toNat_setWidth, BitVec.toNat_ofNat]
    omega
  have hr := tDes_of_des_leaf hd hn
  rw [hinfo] at hr
  exact ⟨_, hr, hut⟩

/-- Settles O37: each reserved value where the serialisation before it has brought `Des`. -/
theorem tdesRejectsReservedValues : Obligations.TdesRejectsReservedValues := by
  intro s rest hh ho hs hi
  refine ⟨fun ts p hp h1 hl => ⟨fun v hv hv' hu => ?_, fun v hv hfull hu => ?_, fun hfull hu => ?_⟩, fun v hv hu => ?_⟩
  · refine exec_tdes_raised hh ho (tDes_raised_after hs hi hp h1 hl (hu.trans (List.append_assoc ..))
      fun room t hts hok hut _ => ?_)
    obtain ⟨u, -, hrest, hd⟩ := des_leaf (room := room) hts hok hv' hut
    exact ⟨u, hd.trans (if_pos hv), hrest⟩
  · refine exec_tdes_raised hh ho (tDes_raised_after hs hi hp h1 hl (hu.trans (List.append_assoc ..))
      fun room t hts hok hut hc => ?_)
    obtain ⟨u, -, hrest, hd⟩ := des_leaf (room := room) hts hok (by omega) hut
    exact ⟨u, by rw [hd, if_neg (by omega), if_pos (by exact hc.trans hfull)], hrest⟩
  · exact exec_tdes_raised hh ho (tDes_raised_after hs hi hp h1 hl hu
      fun room t hts hok hut hc => des_internal_full hts hok hut (hc.trans hfull))
  · exact exec_tdes_raised hh ho (tDes_leaf hs hi hv hu)

end Sys2Proof.Machine

namespace Sys2Proof.Machine

/-! ### COMPRESS: the first pass (45 R206: FCOUNT, TBUILD, RDRST) -/

/-- `TBuild()` leaves a tree whose symbols are those R172 and R173 give a leaf. -/
theorem tBuild_tree {s : State} (h : s.freqOf terminator = 1) : ∃ t tr, tBuild s = .ok () t ∧ t.holdsTree tr ∧
    (tr.codes.map Prod.fst).Perm ((expectedLeaves s.freq).map Prod.fst) ∧
    t = { s with node := t.node, nodeCnt := t.nodeCnt, root := t.root, treeValid := true, tableValid := false } := by
  obtain ⟨t, x, hr, hforest, hframe, -, -, -, hperm, -⟩ := tBuild_sound h
  have hleaves : x.tree.leaves = (expectedLeaves s.freq).length := by
    rw [← codes_length, ← List.length_map (f := Prod.fst), hperm.length_eq, List.length_map]
  have htwo := two_le_expectedLeaves (freq := s.freq) h
  exact ⟨t, x.tree, hr, hforest.holdsTree (by omega), hperm, hframe⟩

/-- `RdReset()` on a source that does not fail (40 R127). -/
theorem rdReset_sound {s : State} (hs : s.srcSound) :
    rdReset s = .ok () { s.transact (.srcRewind .ok) with rd := s.rd.init } := by
  simp [rdReset, openAnswer, srcFails_of_sound hs]

/-- What the first three lines of COMPRESS leave: a tree for the counts of the stream, a reader at the start of the source,
and what the other lines use as it was. -/
structure Prepared (s t : State) (tr : CodeTree) : Prop where
  tree : t.holdsTree tr
  symbols : (tr.codes.map Prod.fst).Perm ((expectedLeaves t.freq).map Prod.fst)
  counts : ∀ y : Symbol, y ≠ terminator → (t.freq.get y).toNat = (octets s.undelivered).count y.val
  one : t.freq.get terminator = 1
  reader : t.freshReader
  wr : t.wr = s.wr
  snk : t.snk = s.snk
  magic : t.magic = s.magic
  content : t.src.content = s.src.content
  srcSound : t.srcSound

theorem compress_prepares {s : State} (i : Instr) (ho : s.rd.isOpen = true) (hs : s.srcSound) (hi : s.readerOk)
    (hl : ∀ y : Symbol, (octets s.undelivered).count y.val < 2 ^ 64) :
    ∃ t tr, Prepared s t tr ∧ runMacro i compressLines s = runMacro i (compressLines.drop 3) t := by
  obtain ⟨t, h1, hcounts, hone, -, -, -, -, -, hopen, -, -, hf1⟩ := fCount_sound hs hi hl
  obtain ⟨u, tr, h2, htree, hperm, hf2⟩ := tBuild_tree (s := t) hone
  have hfreq : u.freq = t.freq := by rw [hf2]
  have hrd : u.rd = t.rd := by rw [hf2]
  have hus : u.srcSound := by rw [State.srcSound, hf2, hf1]; exact hs
  refine ⟨{ u.transact (.srcRewind .ok) with rd := u.rd.init }, tr,
    { tree := htree
      symbols := hfreq ▸ hperm
      counts := fun y hy => ((congrArg _ (congrArg (Vector.get · y) hfreq)).trans (hcounts y hy))
      one := (congrArg (Vector.get · terminator) hfreq).trans hone
      reader := ⟨(congrArg Reader.isOpen hrd).trans (hopen.trans ho), rfl, rfl, rfl, rfl, rfl, rfl, rfl⟩
      wr := by rw [transact_wr, hf2, hf1]
      snk := by rw [transact_snk, hf2, hf1]; rfl
      magic := by rw [transact_magic, hf2, hf1]
      content := by rw [transact_src, after_content, hf2, hf1]
      srcSound := hus }, ?_⟩
  rw [compressLines, runMacro_cons_ok h1, runMacro_cons_ok h2, runMacro_cons_ok (rdReset_sound hus)]
  rfl

/-! ### COMPRESS: the second pass (45 R206: MAGICW, TSER, CTAB, ENCODE, WRCLOSE) -/

theorem WriteFrame.holdsTree {s t : State} {tr : CodeTree} (h : WriteFrame s t) (ht : s.holdsTree tr) :
    t.holdsTree tr := by
  rw [h.1]; exact ht

/-- Symbols of a tree that is held have an entry (45 R202). -/
theorem holdsTree_entry_ne_nil {s : State} {tr : CodeTree} {y : Symbol} (h : s.holdsTree tr)
    (hy : y ∈ tr.codes.map Prod.fst) : tr.entry y ≠ [] := by
  obtain ⟨⟨l, r, rfl⟩, -⟩ := h
  exact code_ne_nil l r _ (entry_mem hy)

/-- The bits that bring the writer to a byte boundary are the padding of what has been written (30 R105, 41 R147). -/
theorem written_padding (s : State) :
    List.replicate (8 * ((s.wr.accCnt + 7) / 8) - s.wr.accCnt) false = padding s.written.length := by
  have hl : s.written.length = 8 * (s.snk.content.length + s.wr.blk.length) + s.wr.accCnt := by
    simp [State.written, Writer.accBits]; omega
  rw [padding, hl]
  congr 1
  omega

/-- `WrClose()` on an open writer puts everything written and the padding in the sink (41 R149), a sound sink. -/
theorem wrClose_puts_written {s : State} (hs : s.snkSound) (ho : s.wr.isOpen = true) :
    ∃ t, wrClose s = .ok () t ∧ bytesBits t.snk.content = s.written ++ padding s.written.length ∧
      t.wr.bitsWritten = s.wr.bitsWritten ∧ t.wr.isOpen = false ∧ t.rd = s.rd := by
  obtain ⟨u, hflush, hframe, hsnk, -, -, hb⟩ := wrFlush_sound hs
  refine ⟨wrRelease u, by simp [wrClose, ho, hflush], ?_, hb, rfl, (wrRelease_rd u).trans hframe.rd⟩
  rw [wrRelease_snk, hsnk, written_padding]

/-- The bits of a compressed file before its padding (30_encoding.md R100 to R105). -/
def fileBits (magic : BitVec 32) (tr : CodeTree) (content : List Byte) : List Bool :=
  toBits 32 magic.toNat ++ tr.bits ++ (content.flatMap fun b => tr.entry (symbolOf b.toNat)) ++ tr.entry terminator

theorem fileBits_length (magic : BitVec 32) (tr : CodeTree) (content : List Byte) :
    (fileBits magic tr content).length = (toBits 32 magic.toNat ++ tr.bits).length +
      ((content.map fun b => (tr.entry (symbolOf b.toNat)).length).sum + (tr.entry terminator).length) := by
  simp only [fileBits, List.length_append, List.length_flatMap]
  omega

/-- MAGICW, TSER and CTAB before ENCODE (45 R206): magic and tree are written, and the table is the tree's. -/
theorem compress_writes_head {s : State} {tr : CodeTree} (i : Instr) (ht : s.holdsTree tr) (hk : s.snkSound)
    (hw : s.writerOk) : ∃ t, runMacro i (compressLines.drop 3) s = runMacro i (compressLines.drop 6) t ∧
      t.written = s.written ++ (toBits 32 s.magic.toNat ++ tr.bits) ∧ t.writerOk ∧ t.snkSound ∧
      t.wr.bitsWritten = s.wr.bitsWritten + BitVec.ofNat 64 (toBits 32 s.magic.toNat ++ tr.bits).length ∧
      t.wr.isOpen = s.wr.isOpen ∧ t.rd = s.rd ∧ t.src = s.src ∧ ∀ y, t.codeOf y = tr.entry y := by
  obtain ⟨t, h1, f1, w1, k1, b1⟩ := wrBits_sound s.magic.toNat (Nat.le_refl 32) hk hw
  obtain ⟨u, h2, f2, w2, k2, b2⟩ := serRoot_sound (f1.holdsTree ht) (f1.snkSound hk) k1
  have frame := WriteFrame.trans _ _ _ f1 f2
  obtain ⟨c, h3, hc⟩ := cTab_sound (frame.holdsTree ht)
  refine ⟨{ u with code := c, tableValid := true }, ?_, ?_, k2, frame.snkSound hk, ?_, frame.2, frame.rd, frame.src, hc⟩
  · rw [compressLines]
    simp only [List.drop_succ_cons, List.drop_zero]
    rw [runMacro_cons_ok (line := ⟨Instr.magicw.opcode, magicW⟩) h1, runMacro_cons_ok h2, runMacro_cons_ok h3]
  · rw [← List.append_assoc, ← w1]; exact w2
  · rw [List.length_append, BitVec.ofNat_add, toBits_length, ← BitVec.add_assoc, ← b1]; exact b2

/-- The second pass on devices that do not fail, every byte of the source and the terminator in the tree: the compressed
file is appended, padded and put in the sink. -/
theorem compress_writes {s : State} {tr : CodeTree} (i : Instr) (ht : s.holdsTree tr) (hr : s.freshReader)
    (ho : s.wr.isOpen = true) (hw : s.writerOk) (hs : s.srcSound) (hk : s.snkSound)
    (hbytes : ∀ b ∈ s.src.content, symbolOf b.toNat ∈ tr.codes.map Prod.fst)
    (hterm : terminator ∈ tr.codes.map Prod.fst) :
    ∃ t, runMacro i (compressLines.drop 3) s = runMacro i [] t ∧
      bytesBits t.snk.content = s.written ++ fileBits s.magic tr s.src.content ++
        padding (s.written ++ fileBits s.magic tr s.src.content).length ∧
      t.wr.bitsWritten = s.wr.bitsWritten + BitVec.ofNat 64 (fileBits s.magic tr s.src.content).length ∧
      t.wr.isOpen = false ∧ t.rd.isOpen = true ∧ t.rd.eos = true ∧
      t.rd.bitsRead = BitVec.ofNat 64 (8 * s.src.content.length) := by
  obtain ⟨t, hrun, w1, k1, hk1, b1, o1, hrd, hsrc, hcode⟩ := compress_writes_head i ht hk hw
  have hread : t.freshReader := by unfold State.freshReader; rw [hrd, hsrc]; exact hr
  have hoctets : octets t.undelivered = s.src.content.map BitVec.toNat := by
    rw [freshReader_undelivered hread, hsrc, octets_bytesBits]
  have hts : t.srcSound := by unfold State.srcSound; rw [hsrc]; exact hs
  obtain ⟨u, h2, ⟨hframe, hro, hwo⟩, -, k2, w2, b2, -, he, hbr⟩ := encodeBody_sound hts hk1 (freshReader_ok hread) k1
    (fun v hv => by
      obtain ⟨b, hb, rfl⟩ := List.mem_map.1 (hoctets ▸ hv)
      rw [hcode]; exact holdsTree_entry_ne_nil ht (hbytes b hb))
    (by rw [hcode]; exact holdsTree_entry_ne_nil ht hterm)
  simp only [hoctets, hcode, List.flatMap_map, List.map_map, List.length_map] at w2 b2 hbr
  have hwritten : u.written = s.written ++ fileBits s.magic tr s.src.content := by
    rw [w2, w1]; simp [fileBits]
  have hks : u.snkSound := by unfold State.snkSound; rw [hframe]; exact hk1
  obtain ⟨v, h3, hsnk, b3, hclosed, hvrd⟩ := wrClose_puts_written hks (hwo.trans (o1.trans ho))
  refine ⟨v, ?_, ?_, ?_, hclosed, ?_, ?_, ?_⟩
  · rw [hrun, compressLines]
    simp only [List.drop_succ_cons, List.drop_zero]
    rw [runMacro_cons_ok h2, runMacro_cons_ok h3]
  · rw [hsnk, hwritten]
  · rw [b3, b2, b1, BitVec.add_assoc, ← BitVec.ofNat_add]
    rw [fileBits_length]; rfl
  · rw [hvrd, hro, hrd]; exact hr.1
  · rw [hvrd, he]
  · rw [hvrd, hbr, hrd, hr.2.1, zero_add]

/-! ### COMPRESS: the whole command -/

/-- The symbols of the tree for the counts of `content`: its bytes and the terminator, and byte 0 for the empty input
(43 R172, R173). -/
theorem mem_leaves_of_counts {freq : Vector (BitVec 64) 257} {content : List Byte}
    (hcounts : ∀ y : Symbol, y ≠ terminator → (freq.get y).toNat = (content.map BitVec.toNat).count y.val)
    (hone : freq.get terminator = 1) (y : Symbol) : y ∈ (expectedLeaves freq).map Prod.fst ↔
      y = terminator ∨ (∃ b ∈ content, y = symbolOf b.toNat) ∨ (content = [] ∧ y = 0) := by
  have hval : ∀ b : Byte, (symbolOf b.toNat).val = b.toNat := fun b => symbolOf_val (by have := b.isLt; omega)
  have hsymbol : ∀ b : Byte, symbolOf b.toNat ≠ terminator := fun b h => by
    have h256 : b.toNat = 256 := (hval b).symm.trans (congrArg Fin.val h)
    have := b.isLt
    omega
  have hpos : ∀ z, z ≠ terminator → (freq.get z ≠ 0 ↔ ∃ b ∈ content, z = symbolOf b.toNat) := fun z hz => by
    rw [ne_eq, ← BitVec.toNat_inj, hcounts z hz, show (0 : BitVec 64).toNat = 0 from rfl, List.count_eq_zero,
      not_not, List.mem_map]
    refine exists_congr fun b => and_congr_right fun _ => ?_
    rw [Fin.ext_iff, hval, eq_comm]
  have hempty : (∀ z, z ≠ terminator → freq.get z = 0) ↔ content = [] := by
    constructor
    · intro h
      refine List.eq_nil_iff_forall_not_mem.2 fun b hb => ?_
      exact (hpos _ (hsymbol b)).2 ⟨b, hb, rfl⟩ (h _ (hsymbol b))
    · rintro rfl z hz
      by_contra h
      obtain ⟨b, hb, -⟩ := (hpos z hz).1 h
      cases hb
  rw [mem_expectedLeaves hone, hempty]
  by_cases hy : y = terminator
  · simp [hy, hone]
  · rw [hpos y hy]; simp [hy]

/-- No command changes MAGIC, the host's coming inputs or the source's content (20_memory.md R62). -/
theorem exec_keeps {i : Instr} {s t : State} (hx : exec i s = .next t) :
    t.magic = s.magic ∧ t.host = s.host ∧ t.src.content = s.src.content := by
  have content : ∀ {u : State}, Effect s u → u.src.content = s.src.content := fun h => by
    obtain ⟨es, -, hsrc, -⟩ := h.trace
    rw [hsrc, foldl_after_content]
  cases (effect_respected i).ended hx with
  | refused => exact ⟨rfl, rfl, rfl⟩
  | turnedAway => simp
  | @completed u _ _ hu =>
    obtain ⟨_, _, _, _, _, _, _, _, hs⟩ := settled_eq i u
    rw [hs]; exact ⟨hu.magic, hu.host, content (u := u) hu⟩
  | @raised u _ _ hu =>
    obtain ⟨_, _, _, _, _, hs⟩ := lost_eq i u
    rw [hs, raiseErr_magic, raiseErr_host, raiseErr_src]; exact ⟨hu.magic, hu.host, content (u := u) hu⟩

/-- Settles O42, from what the two passes leave. -/
theorem compressWritesACompressedFile : Obligations.CompressWritesACompressedFile := by
  intro s hh hr hw hs hk hl
  have hro : s.rd.isOpen = true := hr.1
  have hwo : s.wr.isOpen = true := hw.1
  obtain ⟨hwok, hempty⟩ := freshWriter_ok hw
  have hoctets : octets s.undelivered = s.src.content.map BitVec.toNat := by
    rw [freshReader_undelivered hr, octets_bytesBits]
  obtain ⟨t, tr, hp, hfirst⟩ := compress_prepares .compress hro hs (freshReader_ok hr) fun y => by
    rw [hoctets]; exact count_toNat_lt hl y.val
  have hsymbols : ∀ y : Symbol, y ∈ tr.codes.map Prod.fst ↔
      y = terminator ∨ (∃ b ∈ s.src.content, y = symbolOf b.toNat) ∨ (s.src.content = [] ∧ y = 0) := fun y =>
    hp.symbols.mem_iff.trans (mem_leaves_of_counts (hoctets ▸ hp.counts) hp.one y)
  have hwritten : t.written = [] := by rw [State.written, hp.wr, hp.snk]; exact hempty
  obtain ⟨u, hsecond, hsnk, hb, hclosed, hopen, heos, hbr⟩ := compress_writes .compress hp.tree hp.reader
    (hp.wr ▸ hwo) (by rw [State.writerOk, hp.wr]; exact hwok) hp.srcSound (by rw [State.snkSound, hp.snk]; exact hk)
    (fun b hb => (hsymbols _).2 (.inr (.inl ⟨b, hp.content ▸ hb, rfl⟩))) ((hsymbols _).2 (.inl rfl))
  rw [hwritten, List.nil_append, hp.magic, hp.content] at hsnk
  rw [hp.wr, hw.2.1, zero_add, hp.magic, hp.content] at hb
  rw [hp.content] at hbr
  have hx : exec .compress s = .next ((u.clearFlags.forgetTables 0x50).respond true false 0) := by
    rw [exec_run rfl (.inl hh) rfl (by simp [needs, Need.holds, hro, hwo])]
    exact (hfirst.trans hsecond).trans (runMacro_nil .compress u)
  have herr := exec_completed_err hx ⟨false, 0, rfl⟩
  obtain ⟨hmagic, hhost, hcontent⟩ := exec_keeps hx
  exact ⟨_, tr, fileBits s.magic tr s.src.content, hx, rfl, hsnk,
    hp.symbols.nodup_iff.2 (expectedLeaves_nodup t.freq), hsymbols, hb, hclosed, hopen, heos, hbr, rfl, rfl, rfl,
    herr, hmagic, hhost, hcontent⟩

end Sys2Proof.Machine

namespace Sys2Proof.Machine

/-! ### RDBITS on a failed fetch, RDCNT, WRCNT, RDCLOSE (40 R124 to R129, 41 R148) -/

/-- An RDBITS whose checks pass gives up with what the read primitive raises (60_exceptions.md R255, R256). -/
theorem exec_rdbits_raised {s t : State} {n : BitVec 6} {cls : ErrClass} {sub : BitVec 4} {info : BitVec 32}
    (hh : s.halted = false) (ho : s.rd.isOpen = true) (h1 : 1 ≤ n.toNat) (h2 : n.toNat ≤ 32)
    (hr : rdBits n.toNat s = .raised ⟨cls, sub, info⟩ t) :
    exec (.rdbits n) s = .next (t.failed 0x11 0x11 cls sub info) := by
  have hx : exec (.rdbits n) s = finish (.rdbits n) ((rdBits n.toNat s).andThen fun r t => .ok (bitsReply r) t) :=
    exec_run rfl (.inl hh) (argCheck_rdbits h1 h2) (by simp [needs, Need.holds, ho])
  have he : (rdBits n.toNat s).Effects s := rdBits_effect n.toNat s
  rw [hr] at he
  have ht : t.halted = false := by unfold State.halted; rw [Effect.err he]; exact hh
  rw [hx, hr, raised_andThen, finish_raised, raiseErr_failed _ _ _ ht]
  rfl

/-- Settles O18, by which fetch fails. -/
theorem rdbitsRaisesResourceOnAFailedFetch : Obligations.RdbitsRaisesResourceOnAFailedFetch := by
  intro s n hh ho hi h1 h2 hend
  constructor
  · intro hn hf
    obtain ⟨t, p, hr, hlost, ht⟩ := rdBits_fetchFails h2 hi hn hend hf
    exact ⟨t, p, exec_rdbits_raised hh ho h1 h2 hr, hlost, ht⟩
  · intro b hb hb0 hn hf hf'
    obtain ⟨t, p, hr, hlost, ht⟩ := rdBits_secondFetchFails h2 hi hn hend hf hb hb0 hf'
    exact ⟨t, p, exec_rdbits_raised hh ho h1 h2 hr, hlost, ht⟩

/-- Settles O19: neither command has a check, and each answers its counter. -/
theorem counterReadsAnswerTheCounters : Obligations.CounterReadsAnswerTheCounters := fun s =>
  ⟨exec_run (i := .rdcnt) (s := s) rfl (.inr rfl) rfl (by simp [needs]),
    exec_run (i := .wrcnt) (s := s) rfl (.inr rfl) rfl (by simp [needs])⟩

theorem rdClose_open {s : State} (h : s.rd.isOpen = true) :
    rdClose s = { s.transact .srcRelease with rd := { s.rd with isOpen := false } } := if_pos h

theorem rdClose_closed {s : State} (h : s.rd.isOpen = false) : rdClose s = s := by simp [rdClose, h]

/-- Settles O20, by whether the reader is open. -/
theorem rdcloseReleasesTheSource : Obligations.RdcloseReleasesTheSource := by
  intro s
  have hx : exec .rdclose s = .next ((rdClose s).respond true false 0) :=
    exec_run (i := .rdclose) rfl (.inr rfl) rfl (by simp [needs])
  constructor
  · intro ho
    rw [hx, rdClose_open ho]
    rfl
  · intro hc
    rw [hx, rdClose_closed hc]

end Sys2Proof.Machine

namespace Sys2Proof.Machine

/-! ### WRFLUSH, WRCLOSE (41 R146, R147, R149) -/

/-- A flush with nothing pending does nothing (41 R147). -/
theorem wrFlush_idle {s : State} (ha : s.wr.accCnt = 0) (hb : s.wr.blk = []) : wrFlush s = .ok () s := by
  have hw : ({ s.wr with accCnt := 0, blk := [] } : Writer) = s.wr := by rw [← ha, ← hb]
  simp [wrFlush, ha, hb, beBytes, Writer.blkLen, hw]

/-- A flush with something pending puts one block (41 R147). -/
theorem wrFlush_pending {s : State} (h : 0 < s.wr.accCnt ∨ s.wr.blk ≠ []) :
    ∃ blk : List Byte, wrFlush s = wrPutBlock { s with wr := { s.wr with accCnt := 0, blk := blk } } := by
  unfold wrFlush
  dsimp only
  rw [if_pos]
  · exact ⟨_, rfl⟩
  · have hlen : 0 < s.wr.accCnt ∨ 0 < s.wr.blk.length := h.imp_right List.length_pos_iff.2
    simp only [Writer.blkLen, List.length_append, beBytes_length]
    omega

/-- Settles O25: what a flush puts are the bits written and their padding. -/
theorem wrflushPadsAndPutsEverything : Obligations.WrflushPadsAndPutsEverything := by
  intro s hh ho hs _
  have hx : exec .wrflush s = finishDone .wrflush (wrFlush s) :=
    exec_run rfl (.inl hh) rfl (by simp [needs, Need.holds, ho])
  obtain ⟨t, hr, ⟨hf, hfo⟩, hsnk, hacc, hblk, hb⟩ := wrFlush_sound hs
  rw [written_padding] at hsnk
  rw [hr, finishDone_ok] at hx
  refine ⟨t, hx, hsnk, hacc, hblk, hb, hfo.trans ho, hf, fun ha hb => ?_⟩
  rw [wrFlush_idle ha hb] at hr
  obtain ⟨-, rfl⟩ := Res.ok.inj hr
  exact ⟨rfl, rfl⟩

/-- WRCLOSE has no check, and a halted core accepts it (60_exceptions.md R254). -/
theorem exec_wrclose (s : State) : exec .wrclose s = finishDone .wrclose (wrClose s) :=
  exec_run rfl (.inr rfl) rfl (by simp [needs])

theorem wrClose_open {s : State} (h : s.wr.isOpen = true) : wrClose s = (wrFlush s).after wrRelease := by
  rw [wrClose_eq, if_pos h]

theorem wrClose_closed {s : State} (h : s.wr.isOpen = false) : wrClose s = .ok () s := by simp [wrClose, h]

/-- Settles O26: the flush of an open writer, then the release. -/
theorem wrcloseFlushesAndReleases : Obligations.WrcloseFlushesAndReleases := by
  intro s
  constructor
  · intro ho hs _
    obtain ⟨t, hr, -, hsnk, hacc, hblk, hb⟩ := wrFlush_sound hs
    rw [written_padding] at hsnk
    have hp : Puts s t := (wrFlush_puts s).ok hr
    obtain ⟨es, hlog, -⟩ := hp.events
    have hx : exec .wrclose s = .next ((wrRelease t).respond true false 0) := by
      rw [exec_wrclose, wrClose_open ho, hr]; rfl
    exact ⟨wrRelease t, es, hx, hsnk, hacc, hblk, hb, rfl, by rw [wrRelease_log, hlog],
      (hp.trans _ _ _ (puts_release t)).frame⟩
  · intro hc
    rw [exec_wrclose, wrClose_closed hc, finishDone_ok]

/-- A flush with something pending, on a sink that fails: the put fails and the block is lost (41 R145, R147). -/
theorem wrFlush_failed {s : State} (h : 0 < s.wr.accCnt ∨ s.wr.blk ≠ []) (hf : s.snkFails = true) :
    ∃ put left : List Byte, wrFlush s = .raised ⟨.resource, 5, 0⟩
      { s with wr := { s.wr with accCnt := 0, blk := [] },
               snk := { s.snk with content := s.snk.content ++ left, txs := s.snk.txs + 1 },
               log := s.log ++ [.snkPut put (.fail left)] } := by
  obtain ⟨put, hp⟩ := wrFlush_pending h
  exact ⟨put, _, hp.trans (wrPutBlock_failed (by exact hf))⟩

/-- What ERR holds after a raise, by whether the core was halted (60_exceptions.md R252, R253). -/
theorem raiseErr_err_of_halted (op mop : BitVec 8) (e : Raise) (s : State) :
    (raiseErr op mop e s).err = if s.halted then s.err else packErr e op mop := by
  rw [raiseErr_err]
  by_cases h : errCode s.err = 0 <;> simp [State.halted, h]

/-- Settles O27: the put of the flush fails, the release comes after it, and the raise keeps an earlier error. -/
theorem wrcloseReleasesEvenWhenTheFlushFails : Obligations.WrcloseReleasesEvenWhenTheFlushFails := by
  intro s ho hpend hf
  obtain ⟨put, left, hr⟩ := wrFlush_failed hpend hf
  have hx := exec_wrclose s
  rw [wrClose_open ho, hr, Res.after, finishDone_raised, raiseErr_eq] at hx
  exact ⟨_, put, left, hx, rfl, rfl, rfl, rfl, rfl, List.append_assoc _ _ _, raiseErr_err_of_halted _ _ _ _, rfl⟩

end Sys2Proof.Machine

namespace Sys2Proof.Machine

/-! ### FCOUNT at a full counter (42_symbol_frequency_counter.md R162) -/

/-- A stream that has a first group begins with the eight bits of its value. -/
theorem octets_eq_cons {l : List Bool} {v : Nat} {rest : List Nat} (h : octets l = v :: rest) :
    8 ≤ l.length ∧ ofBits (l.take 8) = v := by
  have h8 : 8 ≤ l.length := by
    by_contra hc
    rw [octets_of_lt (by omega)] at h
    cases h
  rw [octets_of_le h8] at h
  exact ⟨h8, (List.cons.inj h).1⟩

/-- `RdBits(8)` delivers the next group of the stream and consumes it, a sound source. -/
theorem rdBits_octet {s : State} {v : Nat} {rest : List Nat} (hs : s.srcSound) (hi : s.readerOk)
    (hu : octets s.undelivered = v :: rest) :
    ∃ t, rdBits 8 s = .ok (some v) t ∧ ReadFrame s t ∧ t.undelivered = s.undelivered.drop 8 ∧
      t.rd.bitsRead = s.rd.bitsRead + BitVec.ofNat 64 8 ∧ t.rd.eos = s.rd.eos := by
  obtain ⟨h8, hv⟩ := octets_eq_cons hu
  obtain ⟨t, hr, hf, hut, -, hb, he⟩ := rdBits_take (n := 8) (by omega) hs hi
    (List.take_append_drop 8 s.undelivered).symm (by rw [List.length_take, Nat.min_eq_left h8])
  exact ⟨t, hv ▸ hr, hf, hut, hb, he⟩

/-- At a full counter the counting loop stops, the group consumed and nothing counted. -/
theorem fCountLoop_consumes_full {fuel v : Nat} {rest : List Nat} {s : State} (hs : s.srcSound) (hi : s.readerOk)
    (hu : octets s.undelivered = v :: rest) (hfull : s.freqOf (symbolOf v) = BitVec.allOnes 64) :
    ∃ t, fCountLoop (fuel + 1) s = .raised ⟨.capacity, 1, BitVec.ofNat 32 v⟩ t ∧ ReadFrame s t ∧
      t.undelivered = s.undelivered.drop 8 ∧ t.rd.bitsRead = s.rd.bitsRead + BitVec.ofNat 64 8 ∧
      t.rd.eos = s.rd.eos := by
  obtain ⟨t, hr, hf, hrest⟩ := rdBits_octet hs hi hu
  exact ⟨t, by rw [fCountLoop, hr, ok_andThen]; exact if_pos ((hf.freqOf _).trans hfull), hf, hrest⟩

/-- The loop bound of `FCount()` has room for the groups before any one of the stream. -/
theorem length_lt_bitsLeft {s : State} {before rest : List Nat} {v : Nat}
    (hu : octets s.undelivered = before ++ v :: rest) : before.length < s.bitsLeft := by
  have hle := undelivered_length_le s
  have hlen := octets_length s.undelivered
  rw [hu, List.length_append, List.length_cons] at hlen
  omega

theorem fCountStart_freqOf (s : State) (y : Symbol) : (fCountStart s).freqOf y = 0 := by
  simp [fCountStart, State.freqOf, Vector.get]

/-- `FCount()` at the first group whose counter is full: those before it are counted, it is consumed, and CAPACITY is
raised with its value. -/
theorem fCount_full {s : State} {before rest : List Nat} {y : Symbol} (hs : s.srcSound) (hi : s.readerOk)
    (hu : octets s.undelivered = before ++ y.val :: rest) (hy : before.count y.val = 2 ^ 64 - 1)
    (hlt : ∀ v, before.count v < 2 ^ 64) :
    ∃ t, fCount s = .raised ⟨.capacity, 1, BitVec.ofNat 32 y.val⟩ t ∧ CountFrame (fCountStart s) t ∧
      t.undelivered = s.undelivered.drop (8 * (before.length + 1)) ∧
      t.rd.bitsRead = s.rd.bitsRead + BitVec.ofNat 64 (8 * (before.length + 1)) ∧ t.rd.eos = s.rd.eos := by
  have hroom : before.length < (fCountStart s).bitsLeft := length_lt_bitsLeft hu
  have hfuel : (fCountStart s).bitsLeft + 1 = (fCountStart s).bitsLeft - before.length + 1 + before.length := by omega
  obtain ⟨m, hloop, hfm, him, hom, hum, hcm, hbm, hem⟩ := fCountLoop_prefix before (y.val :: rest)
    (fuel := (fCountStart s).bitsLeft - before.length + 1) (s := fCountStart s) hs hi hu
    fun z => by rw [fCountStart_freqOf]; simpa using hlt z.val
  have hfull : m.freqOf (symbolOf y.val) = BitVec.allOnes 64 := by
    apply BitVec.eq_of_toNat_eq
    rw [symbolOf_val_self, hcm, fCountStart_freqOf, hy]
    rfl
  obtain ⟨t, hstop, hft, hut, hbt, het⟩ := fCountLoop_consumes_full
    (fuel := (fCountStart s).bitsLeft - before.length) (hfm.srcSound hs) him hom hfull
  refine ⟨t, ?_, CountFrame.trans _ _ _ hfm hft.count, ?_, ?_, het.trans hem⟩
  · unfold fCount
    dsimp only
    rw [hfuel, hloop, hstop, raised_andThen]
  · rw [hut, hum, List.drop_drop, Nat.mul_succ]
    rfl
  · rw [hbt, hbm, BitVec.add_assoc, ← BitVec.ofNat_add, Nat.mul_succ]
    rfl

/-- Settles O30, at the first group that is the 2^64-th of its value. -/
theorem fcountRaisesCapacityBeforeACounterWraps : Obligations.FcountRaisesCapacityBeforeACounterWraps := by
  intro s hh ho hs hi hmany
  obtain ⟨before, v, rest, hu, hv, hlt⟩ := exists_first_full (n := 2 ^ 64) (by omega) _ hmany
  obtain ⟨y, rfl⟩ : ∃ y : Symbol, y.val = v :=
    ⟨symbolOf v, symbolOf_val (Nat.lt_succ_of_lt (octets_lt s.undelivered v (by simp [hu])))⟩
  obtain ⟨t, hr, hf, hut, hb, he⟩ := fCount_full hs hi hu hv hlt
  have hrun : (t.forgetTables 0x30).halted = false := by
    rw [State.halted, forgetTables_err, hf.1]
    exact hh
  have hx : exec .fcount s = finishProducer .fcount (fCount s) :=
    exec_run rfl (.inl hh) rfl (by simp [needs, Need.holds, ho])
  rw [hr, finishProducer_raised] at hx
  refine ⟨_, y, before, rest, hx.trans (congrArg _ (raiseErr_failed _ _ _ hrun)), hu, hv, hlt, hut, hb, he, ?_, ?_, ?_⟩
  · rw [forgetTables_freqValid, hf.1]; rfl
  · rw [forgetTables_treeValid, hf.1]; rfl
  · rw [forgetTables_tableValid, hf.1]; rfl

end Sys2Proof.Machine

namespace Sys2Proof.Machine

/-! ### TBUILD: the records and the root (43 R172, R174) -/

/-- The newest record is live: the children of a record are older than it (43 R172). -/
theorem Forest.newest_mem {s : State} {first : Nat} {q : List NodeIx} {f : List Rooted} (h : Forest s first q f)
    {k : NodeIx} (hk : k.val + 1 = s.nodeCnt) : k ∈ q := by
  refine (h.live k).1 ⟨by omega, fun j hlow hhigh => ?_⟩
  obtain ⟨a, b, hrecord, -, halive, hblive, -, -⟩ := h.joins j hlow hhigh
  have ha : a.val < j.val := halive.1
  have hb : b.val < j.val := hblive.1
  rw [hrecord]
  constructor <;> rintro rfl <;> omega

/-- Settles O31, from the forest of one tree that the merges leave: its root is the newest record. -/
theorem tbuildJoinsTheTwoLightestRecords : Obligations.TbuildJoinsTheTwoLightestRecords := by
  intro s hh hv h1
  have hx : exec .tbuild s = finishDone .tbuild (tBuild s) :=
    exec_run rfl (.inl hh) rfl (by simp [needs, Need.holds, hv])
  obtain ⟨t, x, hr, hforest, hframe, hcnt, hleaves, hbeyond, -, -⟩ := tBuild_sound h1
  rw [hr, finishDone_ok] at hx
  have hlow := two_le_expectedLeaves (freq := s.freq) h1
  have hhigh := expectedLeaves_length_le s.freq
  have hlast : (nodeIxOf (t.nodeCnt - 1)).val = t.nodeCnt - 1 := nodeIxOf_val (by omega)
  have hroot : nodeIxOf (t.nodeCnt - 1) = t.root := List.mem_singleton.1 (hforest.newest_mem (by omega))
  exact ⟨t, hx, hcnt, by rw [← hroot]; omega, hframe, hleaves, hforest.joins, hbeyond⟩

end Sys2Proof.Machine

namespace Sys2Proof.Machine

/-! ### No input of the host meets one of the model's stops (70 R293) -/

/-- The answer is a next state. -/
def Proceeds (a : Answer) : Prop := ∃ t : State, a = .next t

theorem rdOpen_notStuck (s : State) : (rdOpen s).NotStuck := by
  intro f
  unfold rdOpen
  dsimp only
  split <;> simp

theorem rdReset_notStuck (s : State) : (rdReset s).NotStuck := by
  intro f
  unfold rdReset
  dsimp only
  split <;> simp

theorem wrOpen_notStuck (s : State) : (wrOpen s).NotStuck := by
  intro f
  unfold wrOpen
  dsimp only
  split <;> simp

theorem magicR_notStuck (s : State) : (magicR s).NotStuck := by
  refine Res.NotStuck.andThen (rdBits_notStuck s (by omega)) fun r t _ f => ?_
  split
  · simp
  · split <;> simp

/-- The terminator's count gives TBUILD a leaf, and so a root (43 R172). -/
theorem tBuild_notStuck {s : State} (h : s.freqOf terminator = 1) : (tBuild s).NotStuck := by
  obtain ⟨t, x, ht, -⟩ := tBuild_sound h
  intro f
  simp [ht]

section
variable {i : Instr} {s : State}

theorem finish_proceeds {r : Res Reply} (h : r.NotStuck) : Proceeds (finish i r) := by
  cases r with
  | ok p u => exact ⟨_, rfl⟩
  | raised e u => exact ⟨_, rfl⟩
  | stuck f => exact absurd rfl (h f)

theorem finishDone_proceeds {r : Res Unit} (h : r.NotStuck) : Proceeds (finishDone i r) :=
  finish_proceeds (h.andThen fun _ _ _ _ => by simp)

theorem finishProducer_proceeds {r : Res Unit} (h : r.NotStuck) : Proceeds (finishProducer i r) := by
  cases r with
  | ok p u => exact ⟨_, rfl⟩
  | raised e u => exact ⟨_, rfl⟩
  | stuck f => exact absurd rfl (h f)

/-- The checks themselves never stop the model (60_exceptions.md R255). -/
theorem guarded_proceeds {k : State → Answer} (hk : Checked i s → Proceeds (k s)) : Proceeds (guarded i s k) := by
  rcases guarded_cases i s k with ⟨-, -, hg⟩ | ⟨hr, ⟨e, -, hg⟩ | ⟨-, e, -, hg⟩ | ⟨ha, hq, hg⟩⟩
  · exact ⟨_, hg⟩
  · exact ⟨_, hg⟩
  · exact ⟨_, hg⟩
  · rw [hg]; exact hk ⟨hr, ha, hq⟩

theorem exec_proceeds_of_operation (h : Checked i s → Proceeds (operation i s)) : Proceeds (exec i s) := by
  rcases exec_eq i s with he | ⟨n, -, he⟩
  · rw [he]; exact guarded_proceeds h
  · exact ⟨_, he⟩

/-- The Operation of a primitive: the loops end within their bounds in every state; TBUILD needs the terminator's count
and TSER, CTAB and DECODE a tree, which the invariant gives where the checks found the flag set. -/
theorem operation_proceeds (hc : i ≠ .compress) (hd : i ≠ .decompress) (hs : s.Inv) (h : Checked i s) :
    Proceeds (operation i s) := by
  have hneed := h.holds
  cases i with
  | getcsr | rdcnt | wrcnt => exact ⟨_, rfl⟩
  | rdopen => exact finishDone_proceeds (rdOpen_notStuck s)
  | rdbits n =>
    have hn : bitCount n ≤ 32 := by
      by_contra hn
      have harg := h.arg
      simp [argCheck, countInRange, hn] at harg
    exact finish_proceeds ((rdBits_notStuck s hn).andThen fun _ _ _ _ => by simp)
  | rdrst => exact finishDone_proceeds (rdReset_notStuck s)
  | rdclose => exact ⟨_, rfl⟩
  | wropen => exact finishDone_proceeds (wrOpen_notStuck s)
  | wrbits n v => exact finishDone_proceeds (wrBits_notStuck _ _ s)
  | wrflush => exact finishDone_proceeds (wrFlush_notStuck s)
  | wrclose => exact finishDone_proceeds (wrClose_notStuck s)
  | fcount => exact finishProducer_proceeds (fCount_notStuck s)
  | tbuild => exact finishDone_proceeds (tBuild_notStuck (hs.freqTerm (hneed .freqValid (by simp [needs]))))
  | magicw => exact finishDone_proceeds (wrBits_notStuck _ _ s)
  | tser =>
    obtain ⟨tr, htr⟩ := hs.tree (hneed .treeValid (by simp [needs]))
    exact finishDone_proceeds (holdsTree_notStuck htr).1
  | ctab =>
    obtain ⟨tr, htr⟩ := hs.tree (hneed .treeValid (by simp [needs]))
    exact finishDone_proceeds (holdsTree_notStuck htr).2.1
  | encode => exact finishDone_proceeds (encodeBody_notStuck s)
  | magicr => exact finishDone_proceeds (magicR_notStuck s)
  | tdes => exact finishProducer_proceeds (tDes_notStuck s)
  | decode =>
    obtain ⟨tr, htr⟩ := hs.tree (hneed .treeValid (by simp [needs]))
    exact finishDone_proceeds (holdsTree_notStuck htr).2.2
  | compress => exact absurd rfl hc
  | decompress => exact absurd rfl hd

theorem primitive_proceeds (hc : i ≠ .compress) (hd : i ≠ .decompress) (hs : s.Inv) : Proceeds (exec i s) :=
  exec_proceeds_of_operation (operation_proceeds hc hd hs)

/-- COMPRESS and DECOMPRESS stop no more than their primitives do: each line is the primitive with its checks passed, and
leaves the invariant to the next (45 R206, 46 R226). -/
theorem runMacro_proceeds {ps : List PrimLine} (hp : ∀ p ∈ ps, p.instr ≠ .compress ∧ p.instr ≠ .decompress) :
    ∀ {s : State}, s.Inv → ChecksHold ps s → Proceeds (runMacro i (ps.map PrimLine.line) s) := by
  induction ps with
  | nil => exact fun _ _ => ⟨_, rfl⟩
  | cons p ps ih =>
    rintro s hs ⟨⟨f, -, hexec⟩, -, hrest⟩
    rw [List.map_cons]
    cases hr : p.procedure s with
    | ok a u =>
      rw [runMacro_cons_ok hr]
      have hu : (u.respond true false 0).Inv := exec_inv hs (hexec.trans (by rw [hr]; rfl))
      exact ih (fun q hq => hp q (by simp [hq])) { hu with } (hrest u hr)
    | raised e u => exact ⟨_, runMacro_cons_raised hr⟩
    | stuck g =>
      obtain ⟨hc, hd⟩ := hp p (by simp)
      obtain ⟨t, ht⟩ := primitive_proceeds hc hd hs
      rw [hexec, hr] at ht
      cases ht

/-- What the checks of COMPRESS and DECOMPRESS have found (60 R258). -/
theorem Checked.unitsOpen (h : Checked i s) (hi : i = .compress ∨ i = .decompress) : Running s := by
  have hneed := h.holds
  have hrunning := h.running
  rcases hi with rfl | rfl <;>
    exact ⟨hrunning.resolve_right Bool.false_ne_true, hneed .rdOpen (by simp [needs]),
      hneed .wrOpen (by simp [needs])⟩

/-- Every command ends in a next state. -/
theorem exec_proceeds (i : Instr) (hs : s.Inv) : Proceeds (exec i s) := by
  cases i with
  | compress =>
    exact exec_proceeds_of_operation fun h =>
      runMacro_proceeds (ps := compressPrims) (by simp [compressPrims]) hs
        (compress_checks (h.unitsOpen (.inl rfl)))
  | decompress =>
    exact exec_proceeds_of_operation fun h =>
      runMacro_proceeds (ps := decompressPrims) (by simp [decompressPrims]) hs
        (decompress_checks (h.unitsOpen (.inr rfl)))
  | _ => exact primitive_proceeds nofun nofun hs

end

theorem execute_proceeds (w : CmdWord) {s : State} (hs : s.Inv) : Proceeds (execute w s) := by
  unfold execute
  split
  · exact exec_proceeds _ hs
  · exact ⟨_, rfl⟩

/-- Settles O60: the host's other inputs end in a next state as they are defined, and a command by `execute_proceeds`. -/
theorem stepNeverStopsUnderTheInvariant : Obligations.StepNeverStopsUnderTheInvariant := by
  intro s hs
  have hrest : ∀ rest, ({ s with host := rest } : State).Inv := fun _ => { hs with }
  unfold step
  split
  · exact ⟨_, rfl⟩
  · exact execute_proceeds _ (hrest _)
  · exact ⟨_, rfl⟩
  · rename_i w k plan rest _
    obtain ⟨t, ht⟩ := execute_proceeds w (hrest rest)
    rw [ht]
    exact ⟨_, rfl⟩
  · exact ⟨_, rfl⟩

end Sys2Proof.Machine

namespace Sys2Proof.Machine

/-! ### TSER at an UNSET leaf (44_tree_serializer.md R187) -/

section
variable {s : State}

theorem exec_tser_run (hh : s.halted = false) (ho : s.wr.isOpen = true) (hv : s.treeValid = true) :
    exec .tser s = finishDone .tser (serRoot s) :=
  exec_run rfl (.inl hh) rfl (by simp [needs, Need.holds, ho, hv])

/-- A TSER whose Operation raises, all else as the writes before it left it. -/
theorem exec_tser_raised {u : State} {cls : ErrClass} {sub : BitVec 4} {info : BitVec 32} (hh : s.halted = false)
    (ho : s.wr.isOpen = true) (hv : s.treeValid = true) (hr : serRoot s = .raised ⟨cls, sub, info⟩ u)
    (hf : WriteFrame s u) : exec .tser s = .next (u.failed 0x33 0x33 cls sub info) := by
  have hu : u.halted = false := by rw [State.halted, hf.1]; exact hh
  rw [exec_tser_run hh ho hv, hr, finishDone_raised, raiseErr_failed _ _ _ hu]
  rfl

/-- `Ser` at an UNSET leaf raises at once, nothing written. -/
theorem ser_unsetLeaf {room : Nat} {i : NodeIx} {c : Weight} (h : s.nodeAt i = .leaf none c) :
    ser (room + 1) i s = .raised ⟨.internal, 1, BitVec.ofNat 32 i.val⟩ s := by
  rw [ser, h]

end

/-- Settles O34: the root at once, any other leaf by what the serialiser writes before it. -/
theorem tserRaisesInternalAtAnUnsetLeaf : Obligations.TserRaisesInternalAtAnUnsetLeaf := by
  intro s hh ho hv
  refine ⟨fun c hroot => exec_tser_raised hh ho hv (ser_unsetLeaf hroot) (WriteFrame.refl s), ?_⟩
  rintro before after j ⟨tr, htree, hdepth⟩ hbefore hj hs hw
  obtain ⟨t, hr, hf, hwritten, hbits⟩ := ser_unset tr htree hdepth hs hw hbefore hj
  exact ⟨t, exec_tser_raised hh ho hv hr hf, hwritten, hbits, hf.2.trans ho, hf.1⟩

/-! ### TDES: the tree it builds (44 R189 to R191) -/

section
variable {s : State}

theorem exec_tdes_run (hh : s.halted = false) (ho : s.rd.isOpen = true) :
    exec .tdes s = finishProducer .tdes (tDes s) :=
  exec_run rfl (.inl hh) rfl (by simp [needs, Need.holds, ho])

/-- Where `Des` has built an internal node TDES completes, with that node the root. -/
theorem tDes_of_des_internal {u : State} {r a b : NodeIx} {w : Weight}
    (h : des (Config.nodeCap + 1) (desStart s) = .ok r u) (hn : u.nodeAt r = .internal w a b) :
    tDes s = .ok () { u with root := r, treeValid := true } := by
  unfold tDes
  rw [show ({ s with treeValid := false, tableValid := false, nodeCnt := 0 } : State) = desStart s from rfl, h,
    ok_andThen, hn]

/-- The nesting bound of `Des` suffices for every tree the node memory has room for. -/
theorem depth_lt_nodeCap_succ {tr : CodeTree} (h : tr.size ≤ 513) : tr.depth < Config.nodeCap + 1 := by
  have hsize := size_eq tr
  have hpos := leaves_pos tr
  have hdepth := depth_lt_leaves tr
  simp only [Config.nodeCap]
  omega

/-- `TDes()` on a stream that begins with the serialisation of a tree with an internal root: what `Des` builds from
record 0 on is made the tree. -/
theorem tDes_sound {l r : CodeTree} {rest : List Bool} (hs : s.srcSound) (hi : s.readerOk)
    (hsize : (CodeTree.node l r).size ≤ 513) (hu : s.undelivered = (CodeTree.node l r).bits ++ rest) :
    ∃ u, tDes s = .ok () { u with root := 0, treeValid := true } ∧ u.undelivered = rest ∧
      DesResult (desStart s) u (.node l r) := by
  obtain ⟨u, hd, hrest, hres⟩ := des_sound (.node l r) (s := desStart s) hs hi hu
    ((Nat.zero_add _).trans_le hsize) (depth_lt_nodeCap_succ hsize)
  obtain ⟨w, a, b, -, -, hn, -⟩ := hres.tree
  exact ⟨u, tDes_of_des_internal hd hn, hrest, hres⟩

/-- A tree built from record 0 on is held once its first record is the root (10_state.md R36). -/
theorem DesResult.holdsTree {u : State} {l r : CodeTree} (h : DesResult (desStart s) u (.node l r))
    (hsize : (CodeTree.node l r).size ≤ 513) :
    State.holdsTree { u with root := 0, treeValid := true } (.node l r) := by
  have hroom : 0 + (CodeTree.node l r).size ≤ 513 := (Nat.zero_add _).trans_le hsize
  refine ⟨⟨l, r, rfl⟩, _, h.tree, ixRange_nodup hroom, fun i => ?_⟩
  have hcnt : u.nodeCnt = 0 + (CodeTree.node l r).size := h.nodeCnt
  rw [show (desStart s).nodeCnt = 0 from rfl, mem_ixRange hroom, hcnt]
  exact and_iff_right (Nat.zero_le _)

end

/-- Settles O35, from what `Des` builds of the empty node memory. -/
theorem tdesBuildsTheSerializedTree : Obligations.TdesBuildsTheSerializedTree := by
  intro s l r rest hh ho hs hi hsize hu
  obtain ⟨u, hr, hrest, hres⟩ := tDes_sound hs hi hsize hu
  have hx := exec_tdes_run hh ho
  rw [hr, finishProducer_ok] at hx
  have hcnt : u.nodeCnt = (CodeTree.node l r).size := hres.nodeCnt.trans (Nat.zero_add _)
  have hend : ∀ {k : Nat}, k < u.nodeCnt → k < 0 + (CodeTree.node l r).size := fun hk => by omega
  refine ⟨_, hx, hres.holdsTree hsize, rfl, ?_, rfl, hcnt, hrest, ?_, hres.frame.2.trans ho, hres.readerOk, hres.eos,
    fun k hk => hres.weights k (Nat.zero_le _) (hend hk),
    fun k a b w hk hn => hres.lefts k a b w (Nat.zero_le _) (hend hk) hn,
    fun k hk => hres.others k (.inr ?_), ?_⟩
  · show u.tableValid = false
    rw [hres.frame.1]; rfl
  · rw [← bits_length]; exact hres.bitsRead
  · exact (Nat.zero_add _).trans_le (hcnt ▸ hk)
  · conv_lhs => rw [hres.frame.1]
    rfl

/-! ### TDES: a stream that ends inside a tree (44 R189, 60 R259) -/

/-- How a stream stops short of a whole node: before its flag, or inside the symbol field of a leaf. -/
def CutNode (cut : List Bool) : Prop := cut = [] ∨ ∃ part : List Bool, cut = true :: part ∧ part.length < 9

/-- What the reader is left as at the end of the stream (40 R124). -/
def AtEos (u : State) : Prop := u.rd.eos = true ∧ u.undelivered = []

/-- `Des` at a node that is cut short raises MALFORMED sub 1, the stream used up. -/
theorem des_cut {room : Nat} {s : State} {cut : List Bool} (hs : s.srcSound) (hi : s.readerOk) (hcut : CutNode cut)
    (hu : s.undelivered = cut) : ∃ u, des (room + 1) s = .raised ⟨.malformed, 1, 0⟩ u ∧ AtEos u := by
  rcases hcut with rfl | ⟨part, rfl, hpart⟩
  · obtain ⟨t, h1, -, u1, -, -, e1⟩ := rdBits_end (n := 1) (by omega) hs hi (by simp [hu])
    exact ⟨t, by simp [des, h1], e1, u1⟩
  · obtain ⟨t, h1, f1, u1, k1, -, -⟩ := rdBits_take (n := 1) (bits := [true]) (by omega) hs hi hu rfl
    obtain ⟨u, h2, -, u2, -, -, e2⟩ := rdBits_end (n := 9) (by omega) (f1.srcSound hs) k1 (u1 ▸ hpart)
    replace h1 : rdBits 1 s = .ok (some 1) t := h1
    exact ⟨u, by simp [des, h1, h2], e2, u2⟩

/-- TDES comes to the cut node with the nodes before it taken, and raises there. -/
theorem tDes_cut {s : State} {ts : List TreeToken} {p : Nat} {cut : List Bool} (hs : s.srcSound) (hi : s.readerOk)
    (hp : subtreesLeft 1 ts = some (p + 1)) (hl : ts.length ≤ 513) (hcut : CutNode cut)
    (hu : s.undelivered = ts.flatMap TreeToken.bits ++ cut) :
    ∃ u, tDes s = .raised ⟨.malformed, 1, 0⟩ u ∧ AtEos u := by
  obtain ⟨u, hd, hend⟩ := des_prefix ts.length (fuel := Config.nodeCap + 1) (s := desStart s) (Q := AtEos)
    (Nat.le_refl _) hp (Nat.lt_succ_of_le hl) hs hi hu ((Nat.zero_add _).trans_le hl)
    fun room t hroom frame hok hut _ => by
      obtain ⟨room, rfl⟩ := Nat.exists_eq_succ_of_ne_zero hroom.ne'
      exact des_cut (frame.srcSound hs) hok hcut hut
  exact ⟨u, tDes_of_des_raised hd, hend⟩

/-- A TDES that raises leaves the reader as its procedure left it. -/
theorem exec_tdes_raised_rd {s t u : State} {cls : ErrClass} {sub : BitVec 4} {info : BitVec 32} {e : Raise}
    (hh : s.halted = false) (ho : s.rd.isOpen = true) (hr : tDes s = .raised e u)
    (hx : exec .tdes s = .next (t.failed 0x41 0x41 cls sub info)) : t.rd = u.rd := by
  rw [exec_tdes_run hh ho, hr, finishProducer_raised] at hx
  have hrd := congrArg State.rd (Host.Outcome.next.inj hx)
  rw [raiseErr_rd, forgetTables_rd] at hrd
  exact hrd.symm

/-- Settles O36, from what `Des` does at the cut. -/
theorem tdesRejectsACutTree : Obligations.TdesRejectsACutTree := by
  intro s ts p cut hh ho hs hi hp h1 hl hcut hu
  obtain ⟨p, rfl⟩ := Nat.exists_eq_succ_of_ne_zero (Nat.one_le_iff_ne_zero.1 h1)
  obtain ⟨u, hr, heos, hempty⟩ := tDes_cut hs hi hp hl hcut hu
  obtain ⟨t, hx, htree, htable, hrest⟩ := exec_tdes_raised hh ho ⟨u, hr, hempty⟩
  exact ⟨t, hx, htree, htable, by rw [exec_tdes_raised_rd hh ho hr hx]; exact heos, hrest⟩

end Sys2Proof.Machine

namespace Sys2Proof.Machine

/-! ### CTAB: the entries it makes (45 R202) -/

/-- The code of a symbol of a tree that is held has 1 to 256 bits (00_scope.md R6, CODE_MAX). -/
theorem holdsTree_entry_length {s : State} {tr : CodeTree} {y : Symbol} (h : s.holdsTree tr)
    (hy : y ∈ tr.codes.map Prod.fst) : 1 ≤ (tr.entry y).length ∧ (tr.entry y).length ≤ 256 := by
  refine ⟨List.length_pos_of_ne_nil (holdsTree_entry_ne_nil h hy), ?_⟩
  obtain ⟨-, ixs, hat, hnodup, -⟩ := h
  exact (code_length_le tr _ (entry_mem hy)).trans (depth_le_of_nodup hat hnodup)

/-- Settles O39, from what the walk over the tree sets. -/
theorem ctabDerivesTheCodes : Obligations.CtabDerivesTheCodes := by
  intro s tr hh hv ht
  have hx : exec .ctab s = finishDone .ctab (cTab s) :=
    exec_run rfl (.inl hh) rfl (by simp [needs, Need.holds, hv])
  obtain ⟨c, hr, hc⟩ := cTab_sound ht
  rw [hr, finishDone_ok] at hx
  refine ⟨_, hx, hc, fun p hp => ?_, rfl⟩
  have hlen := holdsTree_entry_length ht (List.mem_map_of_mem hp)
  rwa [← hc] at hlen

/-! ### ENCODE: a symbol without an entry (45 R203, 60 R251) -/

/-- The bound on the turns of the loops over the stream allows one turn for each group and one for the end. -/
theorem bitsLeft_turns {s : State} {before after : List Nat} (hu : octets s.undelivered = before ++ after) :
    ∃ fuel, s.bitsLeft + 1 = fuel + 1 + before.length := by
  have hgroups : before.length + after.length = s.undelivered.length / 8 := by
    rw [← octets_length, hu, List.length_append]
  have hle := undelivered_length_le s
  exact ⟨s.bitsLeft - before.length, by omega⟩

section
variable {s : State} (hs : s.srcSound) (hk : s.snkSound) (hi : s.readerOk) (hw : s.writerOk)
include hs hk hi hw

/-- `Encode()` at the first group without an entry (45 R203), devices that do not fail. -/
theorem encodeBody_missingByte {before after : List Nat} {v : Nat} (hu : octets s.undelivered = before ++ v :: after)
    (hc : ∀ u ∈ before, s.codeOf (symbolOf u) ≠ []) (hv : s.codeOf (symbolOf v) = []) :
    ∃ t, encodeBody s = .raised ⟨.internal, 2, BitVec.ofNat 32 v⟩ t ∧
      t.written = s.written ++ before.flatMap fun u => s.codeOf (symbolOf u) := by
  obtain ⟨fuel, hfuel⟩ := bitsLeft_turns hu
  obtain ⟨t, h1, f1, hi1, -, hu1, hw1, -⟩ :=
    encodeLoop_prefix before (v :: after) (fuel := fuel + 1) hs hk hi hw hu hc
  obtain ⟨u, h2, f2⟩ := encodeLoop_missing (fuel := fuel) (f1.srcSound hs) hi1 hu1 (by rw [f1.codeOf]; exact hv)
  exact ⟨u, by rw [encodeBody, hfuel, h1, h2, raised_andThen], f2.written.trans hw1⟩

/-- `Encode()` where every group has an entry and the terminator none (45 R203), devices that do not fail. -/
theorem encodeBody_missingTerminator (hc : ∀ u ∈ octets s.undelivered, s.codeOf (symbolOf u) ≠ [])
    (ht : s.codeOf terminator = []) : ∃ t, encodeBody s = .raised ⟨.internal, 2, 256⟩ t ∧
      t.written = s.written ++ (octets s.undelivered).flatMap fun u => s.codeOf (symbolOf u) := by
  obtain ⟨fuel, hfuel⟩ := bitsLeft_turns (List.append_nil (octets s.undelivered)).symm
  obtain ⟨t, h1, f1, hi1, -, hu1, hw1, -⟩ :=
    encodeLoop_prefix (octets s.undelivered) [] (fuel := fuel + 1) hs hk hi hw (List.append_nil _).symm hc
  obtain ⟨u, h2, f2, -⟩ := encodeLoop_end (fuel := fuel) (f1.srcSound hs) hi1 hu1
  have hcode : u.codeOf terminator = [] := by rw [f2.codeOf, f1.codeOf, ht]
  refine ⟨u, ?_, f2.written.trans hw1⟩
  rw [encodeBody, hfuel, h1, h2, ok_andThen, encodeSymbol, if_pos hcode]
  rfl

end

/-- An ENCODE whose Operation raises records the error, nothing else changed. -/
theorem exec_encode_raised {s : State} {cls : ErrClass} {sub : BitVec 4} {info : BitVec 32} {bits : List Bool}
    (hh : s.halted = false) (hro : s.rd.isOpen = true) (hwo : s.wr.isOpen = true) (hv : s.tableValid = true)
    (h : ∃ t, encodeBody s = .raised ⟨cls, sub, info⟩ t ∧ t.written = bits) :
    ∃ t : State, exec .encode s = .next (t.failed 0x35 0x35 cls sub info) ∧ t.written = bits := by
  obtain ⟨t, hr, hbits⟩ := h
  have hx : exec .encode s = finishDone .encode (encodeBody s) :=
    exec_run rfl (.inl hh) rfl (by simp [needs, Need.holds, hro, hwo, hv])
  have frame : CodecFrame s t := (encodeBody_frame s).raised hr
  have ht : t.halted = false := by rw [State.halted, frame.1]; exact hh
  rw [hr, finishDone_raised, raiseErr_failed _ _ _ ht] at hx
  exact ⟨t, hx, hbits⟩

/-- Settles O41, from where the encoding loop stops. -/
theorem encodeRaisesInternalAtAMissingEntry : Obligations.EncodeRaisesInternalAtAMissingEntry :=
  fun _ hh hro hwo hv hs hk hi hw =>
  ⟨fun _ _ _ hu hc hm => exec_encode_raised hh hro hwo hv (encodeBody_missingByte hs hk hi hw hu hc hm),
    fun hc ht => exec_encode_raised hh hro hwo hv (encodeBody_missingTerminator hs hk hi hw hc ht)⟩

end Sys2Proof.Machine

namespace Sys2Proof.Machine

/-! ### ENCODE and DECODE: no table is changed (45 R203, 46 R223) -/

/-- What ENCODE and DECODE leave, whatever the devices answer. -/
theorem exec_codec_frame {s t : State} {i : Instr} (hi : i = .encode ∨ i = .decode) (hx : exec i s = .next t) :
    t = { s with rd := t.rd, src := { s.src with pos := t.src.pos, txs := t.src.txs }, wr := t.wr,
                 snk := { s.snk with content := t.snk.content, txs := t.snk.txs }, log := t.log, err := t.err,
                 rsp := t.rsp } ∧
    t.rd.isOpen = s.rd.isOpen ∧ t.wr.isOpen = s.wr.isOpen := by
  have frame : ∃ u, CodecFrame s u ∧ t = { u with err := t.err, rsp := t.rsp } := by
    rcases hi with rfl | rfl
    · exact exec_frame hx rfl rfl (CodecFrame.refl s) (encodeBody_frame s)
    · exact exec_frame hx rfl rfl (CodecFrame.refl s) (decodeBody_frame s)
  obtain ⟨u, ⟨hu, hrd, hwr⟩, ht⟩ := frame
  rw [ht]
  refine ⟨?_, hrd, hwr⟩
  conv_lhs => rw [hu]

/-! ### DECOMPRESS: FREQ and CODE (46 R226) -/

/-- FREQ and CODE are as they were. -/
def KeepsFreqAndCode (s t : State) : Prop := t.freq = s.freq ∧ t.code = s.code

theorem keepsFreqAndCode_chained : Chained KeepsFreqAndCode :=
  .of (fun _ => ⟨rfl, rfl⟩) fun _ _ _ h h' => ⟨h'.1.trans h.1, h'.2.trans h.2⟩

theorem tDes_keepsFreqAndCode (s : State) : (tDes s).All (KeepsFreqAndCode s) := by
  have frame : ∀ {u : State}, DesFrame (desStart s) u → KeepsFreqAndCode s u := fun h => by
    rw [h.1]; exact ⟨rfl, rfl⟩
  refine (tDes_frame s).imp ?_ fun _ _ => frame
  rintro _ ⟨_, u, -, -, hu, rfl⟩
  exact (frame hu :)

theorem decompressLines_keepFreqAndCode :
    ∀ l ∈ linesOf .decompress, ∀ u, (l.procedure u).All (KeepsFreqAndCode u) := by
  simp only [linesOf, decompressLines, List.mem_cons, List.not_mem_nil, or_false]
  rintro l (rfl | rfl | rfl | rfl) u
  · exact Res.All.imp (magicR_frame u) fun t h => by rw [h.1]; exact ⟨rfl, rfl⟩
  · exact tDes_keepsFreqAndCode u
  · exact Res.All.imp (decodeBody_frame u) fun t h => by rw [h.1]; exact ⟨rfl, rfl⟩
  · exact Res.All.imp (wrClose_puts u) fun t h => by rw [h.frame]; exact ⟨rfl, rfl⟩

/-- DECOMPRESS leaves a counter table or a code table that is valid after it as it was. -/
theorem exec_decompress_keeps {s t : State} (hx : exec .decompress s = .next t) :
    (t.freqValid = true → t.freq = s.freq) ∧ (t.tableValid = true → t.code = s.code) := by
  have hend : Ended (KeepsFreqAndCode s) (fun _ _ => KeepsFreqAndCode s) .decompress s t :=
    exec_ended (fun _ => ⟨_, keepsFreqAndCode_chained.refl s,
      linesEnd_of_closed keepsFreqAndCode_chained decompressLines_keepFreqAndCode⟩) hx
  rcases hend.frame with ht | ⟨u, -, ht⟩ | ⟨_, _, u, ⟨hfreq, hcode⟩, -, ht⟩ <;> rw [ht]
  · exact ⟨fun _ => rfl, fun _ => rfl⟩
  · exact ⟨fun h => absurd h Bool.false_ne_true, fun h => absurd h Bool.false_ne_true⟩
  · have hf : u.freqValid = true → (u.forgetTables 0x51).freq = s.freq := fun h => (forgetTables_freq h).trans hfreq
    have hc : u.tableValid = true → (u.forgetTables 0x51).code = s.code := fun h => (forgetTables_code h).trans hcode
    exact ⟨hf, hc⟩

/-! ### The macro commands and the units (45 R206, 46 R226) -/

/-- The failure plan of the devices and RD_OPEN stay, and the sink keeps what it held. -/
structure KeepsDevices (s t : State) : Prop where
  srcFailAt : t.src.failAt = s.src.failAt
  snkFailAt : t.snk.failAt = s.snk.failAt
  rdOpen : t.rd.isOpen = s.rd.isOpen
  grows : s.snk.content <+: t.snk.content

/-- A change of neither the devices nor RD_OPEN. -/
theorem KeepsDevices.of_eq {s t : State} (hs : t.src.failAt = s.src.failAt) (hk : t.snk = s.snk)
    (hr : t.rd.isOpen = s.rd.isOpen) : KeepsDevices s t := ⟨hs, by rw [hk], hr, by rw [hk]⟩

theorem keepsDevices_chained : Chained KeepsDevices :=
  .of (fun _ => .of_eq rfl rfl rfl) fun _ _ _ h h' => ⟨h'.srcFailAt.trans h.srcFailAt, h'.snkFailAt.trans h.snkFailAt,
    h'.rdOpen.trans h.rdOpen, h.grows.trans h'.grows⟩

theorem Puts.keepsDevices {s t : State} (h : Puts s t) : KeepsDevices s t :=
  ⟨by rw [h.frame], by rw [h.frame], by rw [h.rd], h.grows⟩

theorem rdReset_keepsDevices (s : State) : (rdReset s).All (KeepsDevices s) := by
  have h : ∀ a, KeepsDevices s (s.transact (.srcRewind a)) := fun a => .of_eq (after_failAt _ _) rfl rfl
  unfold rdReset
  dsimp only
  split
  · exact h _
  · exact keepsDevices_chained.trans _ _ _ (h _) (.of_eq rfl rfl rfl)

theorem keepsDevices_tables : TablesKeep KeepsDevices := fun _ _ _ _ _ _ _ _ _ => .of_eq rfl rfl rfl

/-- COMPRESS and DECOMPRESS use no open of a unit and no close of the reader. -/
theorem keepsDevices_respected {i : Instr} (hi : i = .compress ∨ i = .decompress) :
    Respected KeepsDevices (fun s _ t => KeepsDevices s t) i where
  closed := keepsDevices_chained
  reads _ n s := Res.All.imp (rdBits_frame n s) fun _ h => .of_eq (by rw [h.1]) h.snk h.2
  writes _ n v s _ := Res.All.imp (wrBits_putsOnly n v s) fun _ h => h.keepsDevices
  tables _ := keepsDevices_tables
  rdOpen h := by simp [h] at hi
  rdReset _ := rdReset_keepsDevices
  rdClose h := by simp [h] at hi
  wrOpen h := by simp [h] at hi
  wrFlush h := by simp [h] at hi
  wrClose _ s := Res.All.imp (wrClose_puts s) fun _ h => h.keepsDevices

theorem exec_macro_keepsDevices {s t : State} {i : Instr} (hi : i = .compress ∨ i = .decompress)
    (hx : exec i s = .next t) : KeepsDevices s t :=
  (keepsDevices_respected hi).rel keepsDevices_tables (fun _ _ _ => .of_eq rfl rfl rfl) hx

/-! ### The macro commands and their primitives (45 R206, 46 R226) -/

/-- The last line of either macro command. -/
def closeLine : PrimLine := ⟨.wrclose, wrClose⟩

/-- The command `i` runs the primitives `qs` and then WRCLOSE; none of `qs` flushes or closes. -/
structure MacroOf (i : Instr) (qs : List PrimLine) : Prop where
  runs : ∀ {s : State}, Running s → exec i s = runMacro i ((qs ++ [closeLine]).map PrimLine.line) s
  checks : ∀ {s : State}, Running s → ChecksHold (qs ++ [closeLine]) s
  opcodes : ∀ q ∈ qs, q.instr.opcode ≠ 0x24
  effects : ∀ q ∈ qs, ∀ u, (q.procedure u).Effects u
  appends : ∀ q ∈ qs, ∀ u, (q.procedure u).All (Appends u)

theorem compress_macro : MacroOf .compress compressPrims.dropLast where
  runs h := exec_run rfl (.inl h.halted) rfl (by simp [needs, Need.holds, h.rdOpen, h.wrOpen])
  checks := compress_checks
  opcodes := by simp [compressPrims, Instr.opcode]
  effects := by
    simp [compressPrims, fCount_effect, tBuild_effect, rdReset_effect, magicW_effect, serRoot_effect, cTab_effect,
      encodeBody_effect]
  appends := by
    simp [compressPrims, fCount_appends, tBuild_appends, rdReset_appends, magicW_appends, serRoot_appends, cTab_appends,
      encodeBody_appends]

theorem decompress_macro : MacroOf .decompress decompressPrims.dropLast where
  runs h := exec_run rfl (.inl h.halted) rfl (by simp [needs, Need.holds, h.rdOpen, h.wrOpen])
  checks := decompress_checks
  opcodes := by simp [decompressPrims, Instr.opcode]
  effects := by simp [decompressPrims, magicR_effect, tDes_effect, decodeBody_effect]
  appends := by simp [decompressPrims, magicR_appends, tDes_appends, decodeBody_appends]

/-- What stands before an entry of a list that ends in `c` stands before `c`. -/
theorem prefix_of_append_singleton {α : Type} {l pre post : List α} {c p : α} (h : l ++ [c] = pre ++ p :: post) :
    pre <+: l := by
  have hlen := congrArg List.length h
  simp only [List.length_append, List.length_cons, List.length_nil] at hlen
  exact List.prefix_of_prefix_length_le (h ▸ List.prefix_append pre _) (List.prefix_append l _) (by omega)

/-- A macro command that raises does so in its WRCLOSE, which closes the writer all the same, or before it, nothing then
flushed or closed. -/
theorem MacroOf.raised {i : Instr} {qs : List PrimLine} {s t : State} (h : MacroOf i qs) (hs : Running s)
    (hx : exec i s = .next t) (ht : t.halted = true) :
    (errOp t.err = 0x24 → t.wr.isOpen = false) ∧ (errOp t.err ≠ 0x24 → Appends s t) := by
  have heffects : ∀ p ∈ qs ++ [closeLine], ∀ u, (p.procedure u).Effects u := fun p hp => by
    rcases List.mem_append.1 hp with hp | hp
    · exact h.effects p hp
    · rw [List.mem_singleton.1 hp]; exact wrClose_effect
  rw [h.runs hs] at hx
  obtain ⟨pre, p, post, u, v, e, hsplit, hp, rfl, hv, hbefore⟩ := runMacro_raised hs.halted hx ht heffects
  have hop : errOp (raiseErr p.instr.opcode i.opcode e (v.forgetTables i.opcode)).err = p.instr.opcode := by
    rw [raiseErr_failed _ _ _ (show (v.forgetTables i.opcode).halted = false from hv)]
    exact errOp_packErr _ _ _
  rw [hop]
  rcases List.mem_append.1 (hsplit ▸ List.mem_append_right pre List.mem_cons_self) with hq | hq
  · refine ⟨fun h24 => absurd h24 (h.opcodes p hq), fun _ => ?_⟩
    have hu : Appends s u := hbefore fun q hq => h.appends q ((prefix_of_append_singleton hsplit).subset hq)
    have hv : Appends u v := (h.appends p hq u).raised hp
    exact appends_chained.trans _ _ _ hu (appends_chained.trans _ _ _ hv (.quiet (by simp) (by simp) (by simp)))
  · obtain rfl := List.mem_singleton.1 hq
    exact ⟨fun _ => by simpa using wrClose_raised hp, fun h24 => absurd rfl h24⟩

/-- Settles O52: the frames of the procedures, and the run of a macro command's lines. -/
theorem streamingCommandsKeepTheTables : Obligations.StreamingCommandsKeepTheTables := by
  refine ⟨fun _ _ _ => exec_codec_frame, fun _ _ => exec_decompress_keeps, fun i prims hi => ?_⟩
  obtain ⟨qs, hm, rfl⟩ : ∃ qs, MacroOf i qs ∧ prims = (qs ++ [closeLine]).map PrimLine.instr := by
    rcases hi with ⟨rfl, rfl⟩ | ⟨rfl, rfl⟩
    · exact ⟨_, compress_macro, rfl⟩
    · exact ⟨_, decompress_macro, rfl⟩
  refine ⟨fun s t hx => ?_, fun s hh hro hwo => ?_⟩
  · obtain ⟨hmagic, hhost, hcontent⟩ := exec_keeps hx
    obtain ⟨hsrc, hsnk, hopen, hgrows⟩ := exec_macro_keepsDevices (hi.imp And.left And.left) hx
    exact ⟨hmagic, hhost, hcontent, hsrc, hsnk, hopen, hgrows⟩
  · have hs : Running s := ⟨hh, hro, hwo⟩
    refine ⟨fun t hc => ?_, fun done later j u t cls sub info hsplit hc hj => ?_, fun t hx ht => ?_⟩
    · rw [hm.runs hs]; exact runMacro_completes i _ (hm.checks hs) hc
    · rw [hm.runs hs]; exact runMacro_fails i done (hm.checks hs) hh hsplit hc hj
    · obtain ⟨hclosed, happends⟩ := hm.raised hs hx ht
      refine ⟨hclosed, fun hop => ?_⟩
      obtain ⟨hopen, -, hputs, hwritten⟩ := happends hop
      exact ⟨hopen.trans hwo, hputs, hwritten⟩

end Sys2Proof.Machine

namespace Sys2Proof.Machine

/-! ### The tree TBUILD makes is determined by the counters (43 R172, R174) -/

theorem precedes_congr {m m' : Vector Node 513} {i j : NodeIx} (hi : m'.get i = m.get i) (hj : m'.get j = m.get j) :
    precedes m' i j ↔ precedes m i j := by
  unfold precedes
  rw [hi, hj]

theorem precedes_asymm {m : Vector Node 513} {i j : NodeIx} (h : precedes m i j) : ¬ precedes m j i := by
  unfold precedes at *
  omega

/-- At most one record of a set precedes all the others. -/
theorem least_unique {m : Vector Node 513} {P : NodeIx → Prop} {a c : NodeIx} (ha : P a) (hc : P c)
    (hleast : ∀ x, P x → x ≠ a → precedes m a x) (hleast' : ∀ x, P x → x ≠ c → precedes m c x) : a = c := by
  by_contra hne
  exact precedes_asymm (hleast c hc (Ne.symm hne)) (hleast' a ha hne)

/-- The records before an internal record determine it. -/
theorem JoinsLeast.unique {m m' : Vector Node 513} {first : Nat} {k : NodeIx} (hbelow : AgreeBelow k.val m m')
    (h : JoinsLeast m first k) (h' : JoinsLeast m' first k) : m'.get k = m.get k := by
  obtain ⟨a, b, hrecord, hab, ha, hb, hleast, hnext⟩ := h
  obtain ⟨c, d, hrecord', hcd, hc, hd, hleast', hnext'⟩ := h'
  have hlive : ∀ x, liveAt m' first k.val x ↔ liveAt m first k.val x := liveAt_congr hbelow (Nat.le_refl _)
  have hget : ∀ x, liveAt m first k.val x → m'.get x = m.get x := fun x hx => hbelow x hx.1
  rw [hlive] at hc hd
  obtain rfl : a = c := least_unique ha hc hleast fun x hx hne =>
    (precedes_congr (hget _ hc) (hget x hx)).1 (hleast' x ((hlive x).2 hx) hne)
  obtain rfl : b = d := least_unique (P := fun x => liveAt m first k.val x ∧ x ≠ a) ⟨hb, hab.symm⟩ ⟨hd, hcd.symm⟩
    (fun x hx => hnext x hx.1 hx.2) fun x hx hne =>
    (precedes_congr (hget _ hd) (hget x hx.1)).1 (hnext' x ((hlive x).2 hx.1) hx.2 hne)
  rw [hrecord', hrecord, hget a ha, hget b hb]

/-- The leaves determine all the records. -/
theorem records_unique {m m' : Vector Node 513} {first n : Nat} (hleaves : AgreeBelow first m m')
    (h : ∀ k : NodeIx, first ≤ k.val → k.val < n → JoinsLeast m first k)
    (h' : ∀ k : NodeIx, first ≤ k.val → k.val < n → JoinsLeast m' first k) : AgreeBelow n m m' := by
  have below : ∀ k ≤ n, AgreeBelow k m m' := by
    intro k
    induction k with
    | zero => exact fun _ i hi => absurd hi (Nat.not_lt_zero _)
    | succ k ih =>
      intro hk i hi
      rcases Nat.lt_succ_iff_lt_or_eq.1 hi with hlt | rfl
      · exact ih (Nat.le_of_succ_le hk) i hlt
      · rcases Nat.lt_or_ge i.val first with hleaf | hinternal
        · exact hleaves i hleaf
        · exact (h i hinternal hk).unique (ih (Nat.le_of_succ_le hk)) (h' i hinternal hk)
  exact below n (Nat.le_refl n)

/-- The root of a forest of one tree is its newest record. -/
theorem Forest.root_eq {s : State} {first : Nat} {f : List Rooted} (h : Forest s first [s.root] f)
    (hpos : 1 ≤ s.nodeCnt) (hcap : s.nodeCnt ≤ 513) : s.root = nodeIxOf (s.nodeCnt - 1) :=
  (List.mem_singleton.1 (h.newest_mem (by rw [nodeIxOf_val (by omega)]; omega))).symm

/-- Two runs of `TBuild()` from the same counters leave the same tree. -/
theorem tBuild_unique {s s' t t' : State} {tr tr' : CodeTree} (hone : s.freqOf terminator = 1) (hfreq : s'.freq = s.freq)
    (hr : tBuild s = .ok () t) (hr' : tBuild s' = .ok () t') (ht : t.holdsTree tr) (ht' : t'.holdsTree tr') :
    tr = tr' := by
  obtain ⟨u, x, hu, hforest, -, hcnt, hleaves, -⟩ := tBuild_sound hone
  obtain ⟨u', x', hu', hforest', -, hcnt', hleaves', -⟩ := tBuild_sound (s := s') (by rw [State.freqOf, hfreq]; exact hone)
  obtain rfl : u = t := (Res.ok.inj (hu.symm.trans hr)).2
  obtain rfl : u' = t' := (Res.ok.inj (hu'.symm.trans hr')).2
  rw [hfreq] at hforest' hcnt' hleaves'
  have hlow := two_le_expectedLeaves (freq := s.freq) hone
  have hhigh := expectedLeaves_length_le s.freq
  have hn : u'.nodeCnt = u.nodeCnt := hcnt'.trans hcnt.symm
  have hagree : AgreeBelow u.nodeCnt u.node u'.node := by
    refine records_unique (fun i hi => ?_) hforest.joins (hn ▸ hforest'.joins)
    have hi' := List.getElem?_eq_getElem hi
    have hl := (hleaves' i.val _ _ hi').trans (hleaves i.val _ _ hi').symm
    rwa [nodeIxOf_val_self] at hl
  have hroot : u'.root = u.root := by
    rw [hforest.root_eq (by omega) (by omega), hforest'.root_eq (by omega) (by omega), hn]
  obtain ⟨-, ixs, hat, -, hmem⟩ := ht
  obtain ⟨-, ixs', hat', -, -⟩ := ht'
  rw [hroot] at hat'
  exact (treeAt_unique (treeAt_congr hat fun j hj => hagree j ((hmem j).1 hj)) hat').1

/-- `tr` is a tree that TBUILD leaves from the counters `freq`. -/
def BuiltFrom (freq : Vector (BitVec 64) 257) (tr : CodeTree) : Prop :=
  ∃ u v : State, u.freq = freq ∧ tBuild u = .ok () v ∧ v.holdsTree tr

theorem BuiltFrom.unique {freq : Vector (BitVec 64) 257} {tr tr' : CodeTree} (hone : freq.get terminator = 1)
    (h : BuiltFrom freq tr) (h' : BuiltFrom freq tr') : tr = tr' := by
  obtain ⟨u, v, rfl, hr, ht⟩ := h
  obtain ⟨u', v', hfreq, hr', ht'⟩ := h'
  exact tBuild_unique hone hfreq hr hr' ht ht'

/-! ### COMPRESS: what it puts in the sink depends on the source and MAGIC alone (45 R207) -/

/-- The lines of a macro command that completed have completed. -/
theorem runMacro_completed {i : Instr} {l : MacroLine} {lines : List MacroLine} {s t : State}
    (hx : runMacro i (l :: lines) s = .next t) (hc : t.completed) :
    ∃ u, l.procedure s = .ok () u ∧ runMacro i lines u = .next t := by
  cases hp : l.procedure s with
  | ok a u => exact ⟨u, rfl, (runMacro_cons_ok hp).symm.trans hx⟩
  | raised e u =>
    rw [runMacro_cons_raised hp] at hx
    obtain rfl := Host.Outcome.next.inj hx
    exact absurd hc (raiseErr_not_completed _ _ _ _)
  | stuck f => simp [runMacro, hp] at hx

/-- What the first pass of a COMPRESS that completed has left (45 R206: FCOUNT, TBUILD, RDRST). -/
theorem compress_firstPass {s t : State} {i : Instr} (ho : s.rd.isOpen = true) (hs : s.srcSound) (hi : s.readerOk)
    (hx : runMacro i compressLines s = .next t) (hc : t.completed) :
    ∃ u tr, Prepared s u tr ∧ BuiltFrom u.freq tr ∧ runMacro i (compressLines.drop 3) u = .next t := by
  obtain ⟨a, h1, hx⟩ := runMacro_completed hx hc
  obtain ⟨b, h2, hx⟩ := runMacro_completed hx hc
  obtain ⟨c, h3, hx⟩ := runMacro_completed hx hc
  obtain ⟨a', h1', hcounts, hone, -, -, -, -, -, hopen, -, -, hf1⟩ := fCount_sound hs hi (fCount_counts hs hi h1)
  obtain rfl : a' = a := (Res.ok.inj (h1'.symm.trans h1)).2
  obtain ⟨b', tr, h2', htree, hperm, hf2⟩ := tBuild_tree (s := a') hone
  obtain rfl : b' = b := (Res.ok.inj (h2'.symm.trans h2)).2
  have hb : b'.srcSound := by rw [State.srcSound, hf2, hf1]; exact hs
  obtain rfl : _ = c := (Res.ok.inj ((rdReset_sound hb).symm.trans h3)).2
  have hfreq : b'.freq = a'.freq := by rw [hf2]
  have hrd : b'.rd = a'.rd := by rw [hf2]
  refine ⟨{ b'.transact (.srcRewind .ok) with rd := b'.rd.init }, tr,
    { tree := htree
      symbols := hfreq ▸ hperm
      counts := fun y hy => (congrArg _ (congrArg (Vector.get · y) hfreq)).trans (hcounts y hy)
      one := (congrArg (Vector.get · terminator) hfreq).trans hone
      reader := ⟨(congrArg Reader.isOpen hrd).trans (hopen.trans ho), rfl, rfl, rfl, rfl, rfl, rfl, rfl⟩
      wr := by rw [transact_wr, hf2, hf1]
      snk := by rw [transact_snk, hf2, hf1]; rfl
      magic := by rw [transact_magic, hf2, hf1]
      content := by rw [transact_src, after_content, hf2, hf1]
      srcSound := hb }, ⟨a', b', hfreq.symm, h2, htree⟩, hx⟩

/-- The same stream gives the same counters. -/
theorem Prepared.freq_unique {s s' u u' : State} {tr tr' : CodeTree} (h : Prepared s u tr) (h' : Prepared s' u' tr')
    (hstream : octets s'.undelivered = octets s.undelivered) : u'.freq = u.freq := by
  have hget : ∀ y : Symbol, u'.freq.get y = u.freq.get y := fun y => by
    by_cases hy : y = terminator
    · rw [hy, h.one, h'.one]
    · exact BitVec.eq_of_toNat_eq (by rw [h.counts y hy, h'.counts y hy, hstream])
  exact Vector.ext fun i hi => hget ⟨i, hi⟩

theorem freshReader_octets {s : State} (h : s.freshReader) : octets s.undelivered = s.src.content.map BitVec.toNat := by
  rw [freshReader_undelivered h, octets_bytesBits]

/-- The second pass from fresh units and devices that do not fail leaves the compressed file of the tree in the sink. -/
theorem Prepared.writes_file {s u t : State} {tr : CodeTree} {i : Instr} (h : Prepared s u tr) (hr : s.freshReader)
    (hw : s.freshWriter) (hk : s.snkSound) (hx : runMacro i (compressLines.drop 3) u = .next t) :
    bytesBits t.snk.content =
      fileBits s.magic tr s.src.content ++ padding (fileBits s.magic tr s.src.content).length := by
  have hsymbols := fun y => h.symbols.mem_iff.trans (mem_leaves_of_counts (freshReader_octets hr ▸ h.counts) h.one y)
  obtain ⟨hok, hempty⟩ := freshWriter_ok hw
  have hwritten : u.written = [] := by rw [State.written, h.wr, h.snk]; exact hempty
  obtain ⟨v, hrun, hsnk, -⟩ := compress_writes i h.tree h.reader (h.wr ▸ hw.1) (by rw [State.writerOk, h.wr]; exact hok)
    h.srcSound (by rw [State.snkSound, h.snk]; exact hk)
    (fun b hb => (hsymbols _).2 (.inr (.inl ⟨b, h.content ▸ hb, rfl⟩))) ((hsymbols _).2 (.inl rfl))
  rw [hwritten, List.nil_append, h.magic, h.content] at hsnk
  rw [hrun, runMacro_nil] at hx
  obtain rfl := Host.Outcome.next.inj hx
  exact hsnk

/-- A COMPRESS that completed met fewer than 2^64 bytes of each value (42 R162). -/
theorem compress_counts {s t : State} {i : Instr} (hr : s.freshReader) (hs : s.srcSound)
    (hx : runMacro i compressLines s = .next t) (hc : t.completed) (b : Byte) : s.src.content.count b < 2 ^ 64 := by
  obtain ⟨a, h1, -⟩ := runMacro_completed hx hc
  have hb : (symbolOf b.toNat).val = b.toNat := symbolOf_val (Nat.lt_succ_of_lt b.isLt)
  have hlt := fCount_counts hs (freshReader_ok hr) h1 (symbolOf b.toNat)
  rwa [freshReader_octets hr, hb, List.count_map_of_injective _ _ fun _ _ => BitVec.eq_of_toNat_eq] at hlt

theorem bytesBits_injective : Function.Injective bytesBits := fun a b h => by
  have hoctets := congrArg octets h
  rw [octets_bytesBits, octets_bytesBits] at hoctets
  exact List.map_injective_iff.2 (fun _ _ => BitVec.eq_of_toNat_eq) hoctets

theorem exec_compress_run {s : State} (hh : s.halted = false) (hr : s.freshReader) (hw : s.freshWriter) :
    exec .compress s = runMacro .compress compressLines s :=
  exec_run rfl (.inl hh) rfl (by simp [needs, Need.holds, hr.1, hw.1])

/-- Settles O43: the counters determine the tree, and the tree, the bytes and MAGIC the file. -/
theorem compressIsDeterministic : Obligations.CompressIsDeterministic := by
  intro s s' t t' hh hh' hr hr' hw hw' hs hs' hk hk' hcontent hmagic hx hx' hc
  rw [exec_compress_run hh hr hw] at hx
  have hc' : t'.completed := by
    obtain ⟨v, _, _, hv, -⟩ := compressWritesACompressedFile s' hh' hr' hw' hs' hk'
      (hcontent ▸ compress_counts hr hs hx hc)
    obtain rfl := Host.Outcome.next.inj (hv.symm.trans hx')
    exact ⟨false, 0, rfl⟩
  rw [exec_compress_run hh' hr' hw'] at hx'
  obtain ⟨u, tr, hp, hbuilt, hlast⟩ := compress_firstPass hr.1 hs (freshReader_ok hr) hx hc
  obtain ⟨u', tr', hp', hbuilt', hlast'⟩ := compress_firstPass hr'.1 hs' (freshReader_ok hr') hx' hc'
  rw [hp.freq_unique hp' (by rw [freshReader_octets hr, freshReader_octets hr', hcontent])] at hbuilt'
  obtain rfl := hbuilt.unique hp.one hbuilt'
  refine ⟨hc', bytesBits_injective ?_⟩
  rw [hp.writes_file hr hw hk hlast, hp'.writes_file hr' hw' hk' hlast', hcontent, hmagic]

end Sys2Proof.Machine

namespace Sys2Proof.Machine

/-! ### MAGICR: the number found, another, too few bits (46 R221, 60 R249) -/

/-- A command whose checks pass and whose Operation raises records the error, all else as the Operation left it. -/
theorem exec_operation_raised {i : Instr} {r : Res Unit} {s t : State} {cls : ErrClass} {sub : BitVec 4}
    {info : BitVec 32} (hx : exec i s = finishDone i r) (hh : s.halted = false) (he : r.Effects s)
    (hr : r = .raised ⟨cls, sub, info⟩ t) : exec i s = .next (t.failed i.opcode i.opcode cls sub info) := by
  have herr : t.err = s.err := Effect.err (he.raised hr)
  rw [hx, hr, finishDone_raised, raiseErr_failed _ _ _ (by rw [State.halted, herr]; exact hh)]

section
variable {s : State} (hs : s.srcSound) (hi : s.readerOk)
include hs hi

/-- `MagicR()` on 32 bits that are not the magic number (46 R221), a sound source. -/
theorem magicR_other {v : Nat} {rest : List Bool} (hv : v < 2 ^ 32) (hne : v ≠ s.magic.toNat)
    (hu : s.undelivered = toBits 32 v ++ rest) :
    ∃ t, magicR s = .raised ⟨.format, 1, BitVec.ofNat 32 v⟩ t ∧ ReadFrame s t ∧ t.undelivered = rest := by
  obtain ⟨t, hr, hf, hrest, -⟩ := rdBits_take (n := 32) (by omega) hs hi hu (toBits_length 32 v)
  rw [ofBits_toBits, Nat.mod_eq_of_lt hv] at hr
  have hmagic : BitVec.ofNat 32 v ≠ t.magic := fun h => hne (by
    rw [show t.magic = s.magic by rw [hf.1]] at h
    rw [← h, BitVec.toNat_ofNat, Nat.mod_eq_of_lt hv])
  exact ⟨t, by rw [magicR, hr, ok_andThen]; exact if_neg hmagic, hf, hrest⟩

/-- `MagicR()` on fewer than 32 bits (46 R221), a sound source. -/
theorem magicR_short (hu : s.undelivered.length < 32) :
    ∃ t, magicR s = .raised ⟨.format, 2, 0⟩ t ∧ ReadFrame s t ∧ t.rd.bitsRead = s.rd.bitsRead ∧ t.rd.eos = true := by
  obtain ⟨t, hr, hf, -, -, hb, he⟩ := rdBits_end (n := 32) (by omega) hs hi hu
  exact ⟨t, by rw [magicR, hr, ok_andThen], hf, hb, he⟩

end

/-- Settles O44, by what stands next in the stream. -/
theorem magicrAcceptsOnlyTheMagicNumber : Obligations.MagicrAcceptsOnlyTheMagicNumber := by
  intro s hh ho hs hi
  have hx : exec .magicr s = finishDone .magicr (magicR s) :=
    exec_run rfl (.inl hh) rfl (by simp [needs, Need.holds, ho])
  refine ⟨fun rest hu => ?_, fun v rest hv hne hu => ?_, fun hu => ?_⟩
  · obtain ⟨t, hr, ⟨hf, hfo⟩, hrest, hok, hb, -⟩ := magicR_sound hs hi hu
    exact ⟨t, by rw [hx, hr, finishDone_ok], hrest, hb, hfo.trans ho, hok, hf⟩
  · obtain ⟨t, hr, hf, hrest⟩ := magicR_other hs hi hv hne hu
    exact ⟨t, exec_operation_raised hx hh (magicR_effect s) hr, hrest, hf.1⟩
  · obtain ⟨t, hr, hf, hb, he⟩ := magicR_short hs hi hu
    exact ⟨t, exec_operation_raised hx hh (magicR_effect s) hr, hb, he, hf.1⟩

/-! ### DECODE: to the terminator, or to the end of the stream before it (46 R223, R225) -/

theorem exec_decode_run {s : State} (hh : s.halted = false) (hro : s.rd.isOpen = true) (hwo : s.wr.isOpen = true)
    (hv : s.treeValid = true) : exec .decode s = finishDone .decode (decodeBody s) :=
  exec_run rfl (.inl hh) rfl (by simp [needs, Need.holds, hro, hwo, hv])

/-- Settles O45, from what the decoding loop writes and consumes. -/
theorem decodeWritesTheCodedBytes : Obligations.DecodeWritesTheCodedBytes := by
  rintro s tr ps last rest hh hro hwo hv ⟨⟨l, r, rfl⟩, ixs, hat, -⟩ hs hk hi hw hp hl hu
  obtain ⟨t, hr, ⟨hf, hfr, hfw⟩, hwritten, hrest, hb, hbr, he, hri, hwi⟩ := decodeBody_sound ps hat hs hk hi hw hp hl hu
  exact ⟨t, by rw [exec_decode_run hh hro hwo hv, hr, finishDone_ok], hwritten, hrest, hb, hbr, he, hfr.trans hro,
    hfw.trans hwo, hri, hwi, hf⟩

/-- `Decode()` on codes of byte symbols and then a part of a code (46 R223), sound devices. -/
theorem decodeBody_cut {s : State} {l r : CodeTree} {ps : List (Symbol × List Bool)} {cut : List Bool}
    {ixs : List NodeIx} (ht : TreeAt s.node (.node l r) s.root ixs) (hs : s.srcSound) (hk : s.snkSound)
    (hi : s.readerOk) (hw : s.writerOk) (hp : ∀ p ∈ ps, p ∈ (CodeTree.node l r).codes ∧ p.1 ≠ terminator)
    (hcut : ∃ p ∈ (CodeTree.node l r).codes, cut <+: p.2 ∧ cut ≠ p.2)
    (hu : s.undelivered = ps.flatMap Prod.snd ++ cut) :
    ∃ t, decodeBody s = .raised ⟨.malformed, 2, 0⟩ t ∧
      t.written = s.written ++ (ps.flatMap fun p => toBits 8 p.1.val) ∧ t.rd.eos = true := by
  obtain ⟨p, hmem, hpre, hne⟩ := hcut
  have hbound := undelivered_length_le s
  rw [hu, List.length_append] at hbound
  obtain ⟨fuel, hfuel⟩ : ∃ fuel, s.bitsLeft + 1 = fuel + cut.length + 1 + (ps.flatMap Prod.snd).length :=
    ⟨s.bitsLeft - cut.length - (ps.flatMap Prod.snd).length, by omega⟩
  obtain ⟨t, h1, f1, hi1, -, hu1, hw1, -⟩ :=
    decodeLoop_codes ps (fuel := fuel + cut.length + 1) ht hs hk hi hw hp hu
  obtain ⟨u, h2, f2, he⟩ := decodeLoop_cut _ (fuel := fuel) (s := t) (cur := t.root) rfl
    (by rw [f1.node, f1.root]; exact ht) (f1.srcSound hs) hi1 hmem hpre hne hu1
  exact ⟨u, by rw [decodeBody, hfuel, h1, h2], f2.written.trans hw1, he⟩

/-- Settles O46, from where the decoding loop stops. -/
theorem decodeRaisesMalformedWithoutATerminator : Obligations.DecodeRaisesMalformedWithoutATerminator := by
  rintro s tr ps cut hh hro hwo hv ⟨⟨l, r, rfl⟩, ixs, hat, -⟩ hs hk hi hw hp hcut hu
  obtain ⟨t, hr, hwritten, he⟩ := decodeBody_cut hat hs hk hi hw hp hcut hu
  exact ⟨t, exec_operation_raised (exec_decode_run hh hro hwo hv) hh (decodeBody_effect s) hr, hwritten, he⟩

/-! ### DECOMPRESS (46 R226: MAGICR, TDES, DECODE, WRCLOSE) -/

/-- MAGICR and TDES before DECODE (46 R226): the magic number and the tree are consumed, the tree is held, nothing is
written. -/
theorem decompress_readsHead {s : State} {l r : CodeTree} {rest : List Bool} (i : Instr) (hs : s.srcSound)
    (hi : s.readerOk) (hsize : (CodeTree.node l r).size ≤ 513)
    (hu : s.undelivered = toBits 32 s.magic.toNat ++ ((CodeTree.node l r).bits ++ rest)) :
    ∃ t, runMacro i decompressLines s = runMacro i (decompressLines.drop 2) t ∧ t.holdsTree (.node l r) ∧
      t.undelivered = rest ∧ t.readerOk ∧ t.srcSound ∧ t.wr = s.wr ∧ t.snk = s.snk ∧ t.rd.isOpen = s.rd.isOpen ∧
      t.rd.bitsRead = s.rd.bitsRead + BitVec.ofNat 64 (32 + (CodeTree.node l r).bits.length) ∧ t.rd.eos = s.rd.eos := by
  obtain ⟨t, h1, f1, u1, k1, b1, e1⟩ := magicR_sound hs hi hu
  obtain ⟨u, h2, u2, hres⟩ := tDes_sound (f1.srcSound hs) k1 hsize u1
  have hf : DesFrame (desStart t) u := hres.frame
  refine ⟨{ u with root := 0, treeValid := true }, ?_, hres.holdsTree hsize, u2, hres.readerOk,
    hf.srcSound (s := desStart t) (f1.srcSound hs), ?_, ?_, hf.2.trans f1.2, ?_, hres.eos.trans e1⟩
  · rw [decompressLines, runMacro_cons_ok h1, runMacro_cons_ok h2]
    rfl
  · rw [← f1.wr, hf.1]; rfl
  · rw [← f1.snk, hf.1]; rfl
  · rw [BitVec.ofNat_add, ← BitVec.add_assoc]
    exact hres.bitsRead.trans (congrArg (· + _) b1)

/-- `WrClose()` leaves the stream to be read as it was. -/
theorem wrClose_undelivered {s t : State} (h : wrClose s = .ok () t) : t.undelivered = s.undelivered := by
  have hf : Puts s t := (wrClose_puts s).ok h
  rw [State.undelivered, hf.frame]
  rfl

/-- DECODE and WRCLOSE with a tree held, on codes of its bytes and the terminator's, devices that do not fail: the bytes
are appended, padded and put in the sink, and what follows is left. -/
theorem decompress_writesBody {s : State} {l r : CodeTree} {ps : List (Symbol × List Bool)} {last rest : List Bool}
    (i : Instr) (ht : s.holdsTree (.node l r)) (hwo : s.wr.isOpen = true) (hs : s.srcSound) (hk : s.snkSound)
    (hi : s.readerOk) (hw : s.writerOk) (hp : ∀ p ∈ ps, p ∈ (CodeTree.node l r).codes ∧ p.1 ≠ terminator)
    (hl : (terminator, last) ∈ (CodeTree.node l r).codes) (hu : s.undelivered = ps.flatMap Prod.snd ++ last ++ rest) :
    ∃ (t : State) (body : List Bool), runMacro i (decompressLines.drop 2) s = runMacro i [] t ∧
      body = s.written ++ (ps.flatMap fun p => toBits 8 p.1.val) ∧
      bytesBits t.snk.content = body ++ padding body.length ∧ t.undelivered = rest ∧
      t.wr.bitsWritten = s.wr.bitsWritten + BitVec.ofNat 64 (8 * ps.length) ∧ t.wr.isOpen = false ∧
      t.rd.bitsRead = s.rd.bitsRead + BitVec.ofNat 64 (ps.flatMap Prod.snd ++ last).length ∧
      t.rd.isOpen = s.rd.isOpen ∧ t.rd.eos = s.rd.eos := by
  obtain ⟨-, ixs, hat, -⟩ := ht
  obtain ⟨u, h1, frame, w1, u1, bw1, br1, e1, -, -⟩ := decodeBody_sound ps hat hs hk hi hw hp hl hu
  have hku : u.snkSound := frame.snkSound hk
  obtain ⟨-, hro, hwopen⟩ := frame
  obtain ⟨t, h2, hsink, b2, hclosed, hrd⟩ := wrClose_puts_written hku (hwopen.trans hwo)
  refine ⟨t, u.written, ?_, w1, hsink, (wrClose_undelivered h2).trans u1, b2.trans bw1, hclosed, ?_, ?_, ?_⟩
  · rw [decompressLines]
    simp only [List.drop_succ_cons, List.drop_zero]
    rw [runMacro_cons_ok h1, runMacro_cons_ok h2]
  · rw [hrd, br1]
  · rw [hrd, hro]
  · rw [hrd, e1]

/-- Settles O47, from what the lines leave. -/
theorem decompressWritesTheCodedBytes : Obligations.DecompressWritesTheCodedBytes := by
  intro s l r ps last rest hh hro hwo hs hk hi hw hsize hp hl hu
  obtain ⟨t, hhead, htree, hut, hit, hst, hwr, hsnk, hopent, hbrt, heost⟩ :=
    decompress_readsHead (rest := ps.flatMap Prod.snd ++ last ++ rest) .decompress hs hi hsize
      (hu.trans (by simp only [List.append_assoc]))
  obtain ⟨u, body, htail, hbody, hsink, hrest, hb, hclosed, hbr, hopen, heos⟩ :=
    decompress_writesBody .decompress htree (hwr ▸ hwo) hst (by rw [State.snkSound, hsnk]; exact hk) hit
      (by rw [State.writerOk, hwr]; exact hw) hp hl hut
  have hwritten : t.written = s.written := by rw [State.written, hwr, hsnk]; rfl
  have hx : exec .decompress s = .next ((u.clearFlags.forgetTables 0x51).respond true false 0) := by
    rw [exec_run rfl (.inl hh) rfl (by simp [needs, Need.holds, hro, hwo])]
    exact (hhead.trans htail).trans (runMacro_nil .decompress u)
  have herr := exec_completed_err hx ⟨false, 0, rfl⟩
  obtain ⟨hmagic, hhost, hcontent⟩ := exec_keeps hx
  rw [hwritten] at hbody
  rw [hwr] at hb
  rw [hbrt, BitVec.add_assoc, ← BitVec.ofNat_add] at hbr
  exact ⟨_, body, hx, hbody, hsink, hrest, hb, hclosed, hbr, hopen.trans (hopent.trans hro), heos.trans heost,
    rfl, rfl, rfl, herr, hmagic, hhost, hcontent⟩

/-! ### The round trip (46 R227) -/

/-- A COMPRESS that completed does the same on devices that do not fail. -/
theorem exec_compress_calm {s t : State} (hh : s.halted = false) (hr : s.freshReader) (hw : s.freshWriter)
    (hx : exec .compress s = .next t) (hc : t.completed) :
    ∃ u : State, exec .compress s.calm = .next u ∧ u.completed ∧ u.snk.content = t.snk.content ∧ u.wr = t.wr := by
  rw [exec_compress_run hh hr hw] at hx
  obtain ⟨u, rfl, hcalm⟩ := runMacro_calms compressLines compressLines_calm hx hc
  exact ⟨_, (exec_compress_run (s := s.calm) hh hr hw).trans hcalm, ⟨false, 0, rfl⟩, rfl, rfl⟩

/-- A tree with different symbols at its leaves fits the node memory. -/
theorem size_le_of_symbols_nodup {tr : CodeTree} (h : (tr.codes.map Prod.fst).Nodup) : tr.size ≤ 513 := by
  have hcard := h.length_le_card
  rw [List.length_map, codes_length, Fintype.card_fin] at hcard
  rw [size_eq]
  omega

/-- A tree with two symbols has an internal root. -/
theorem exists_node_of_two_symbols {tr : CodeTree} {y z : Symbol} (hy : y ∈ tr.codes.map Prod.fst)
    (hz : z ∈ tr.codes.map Prod.fst) (hne : y ≠ z) : ∃ l r, tr = .node l r := by
  cases tr with
  | leaf x => exact absurd ((List.mem_singleton.1 hy).trans (List.mem_singleton.1 hz).symm) hne
  | node l r => exact ⟨l, r, rfl⟩

theorem symbolOf_byte_val (b : Byte) : (symbolOf b.toNat).val = b.toNat := symbolOf_val (Nat.lt_succ_of_lt b.isLt)

theorem symbolOf_byte_ne_terminator (b : Byte) : symbolOf b.toNat ≠ terminator := fun h =>
  Nat.ne_of_lt b.isLt ((symbolOf_byte_val b).symm.trans (congrArg Fin.val h))

/-- Whole bytes need no padding (30_encoding.md R105). -/
theorem padding_bytesBits (bs : List Byte) : padding (bytesBits bs).length = [] := by
  simp [padding]

/-- The bytes of `content` with their codes in the tree. -/
def codedBytes (tr : CodeTree) (content : List Byte) : List (Symbol × List Bool) :=
  content.map fun b => (symbolOf b.toNat, tr.entry (symbolOf b.toNat))

theorem codedBytes_codes (tr : CodeTree) (content : List Byte) :
    (codedBytes tr content).flatMap Prod.snd = content.flatMap fun b => tr.entry (symbolOf b.toNat) :=
  List.flatMap_map ..

theorem codedBytes_bytes (tr : CodeTree) (content : List Byte) :
    ((codedBytes tr content).flatMap fun p => toBits 8 p.1.val) = bytesBits content := by
  simp only [codedBytes, List.flatMap_map, symbolOf_byte_val]
  rfl

theorem mem_codedBytes {tr : CodeTree} {content : List Byte}
    (h : ∀ b ∈ content, symbolOf b.toNat ∈ tr.codes.map Prod.fst) :
    ∀ p ∈ codedBytes tr content, p ∈ tr.codes ∧ p.1 ≠ terminator := by
  intro p hp
  obtain ⟨b, hb, rfl⟩ := List.mem_map.1 hp
  exact ⟨entry_mem (h b hb), symbolOf_byte_ne_terminator b⟩

/-- The symbols R172 and R173 give a leaf are two at the least: the terminator and one of a byte. -/
theorem exists_node_of_symbols {tr : CodeTree} {content : List Byte}
    (h : ∀ y : Symbol, y ∈ tr.codes.map Prod.fst ↔
      y = terminator ∨ (∃ b ∈ content, y = symbolOf b.toNat) ∨ (content = [] ∧ y = 0)) : ∃ l r, tr = .node l r := by
  have hterm := (h terminator).2 (.inl rfl)
  cases content with
  | nil => exact exists_node_of_two_symbols hterm ((h 0).2 (.inr (.inr ⟨rfl, rfl⟩))) (by decide)
  | cons b content =>
    exact exists_node_of_two_symbols hterm ((h (symbolOf b.toNat)).2 (.inr (.inl ⟨b, List.mem_cons_self, rfl⟩)))
      (symbolOf_byte_ne_terminator b).symm

/-- What a COMPRESS from fresh units that completed has left: the compressed file of a tree with an internal root that
fits the node memory and has a leaf for the terminator and for each byte of the source. -/
theorem compress_completed_file {s t : State} (hh : s.halted = false) (hr : s.freshReader) (hw : s.freshWriter)
    (hx : exec .compress s = .next t) (hc : t.completed) :
    ∃ l r, (CodeTree.node l r).size ≤ 513 ∧ terminator ∈ (CodeTree.node l r).codes.map Prod.fst ∧
      (∀ b ∈ s.src.content, symbolOf b.toNat ∈ (CodeTree.node l r).codes.map Prod.fst) ∧
      bytesBits t.snk.content = fileBits s.magic (.node l r) s.src.content ++
        padding (fileBits s.magic (.node l r) s.src.content).length ∧
      t.wr.bitsWritten = BitVec.ofNat 64 (fileBits s.magic (.node l r) s.src.content).length := by
  obtain ⟨u, hcalm, hdone, hsnk, hwr⟩ := exec_compress_calm hh hr hw hx hc
  have hcounts : ∀ b : Byte, s.calm.src.content.count b < 2 ^ 64 :=
    compress_counts (s := s.calm) hr rfl ((exec_compress_run (s := s.calm) hh hr hw).symm.trans hcalm) hdone
  obtain ⟨v, tr, _, hv, rfl, hfile, hnodup, hsymbols, hbits, -⟩ :=
    compressWritesACompressedFile s.calm hh hr hw rfl rfl hcounts
  obtain rfl := Host.Outcome.next.inj (hv.symm.trans hcalm)
  obtain ⟨l, r, rfl⟩ := exists_node_of_symbols hsymbols
  exact ⟨l, r, size_le_of_symbols_nodup hnodup, (hsymbols _).2 (.inl rfl),
    fun b hb => (hsymbols _).2 (.inr (.inl ⟨b, hb, rfl⟩)), hsnk ▸ hfile, hwr ▸ hbits⟩

/-- Settles O48: the compressed file is magic, tree and codes of the source's bytes, which DECOMPRESS takes apart. -/
theorem decompressUndoesCompress : Obligations.DecompressUndoesCompress := by
  intro s t u hh hr hw hx hc hhu hru hwu hsu hku hcontent hmagic
  obtain ⟨l, r, hsize, hterm, hbytes, hfile, hbits⟩ := compress_completed_file hh hr hw hx hc
  obtain ⟨hwok, hempty⟩ := freshWriter_ok hwu
  obtain ⟨v, body, hv, hbody, hsink, -, hb, -, hbr, -⟩ := decompressWritesTheCodedBytes u l r
    (codedBytes (.node l r) s.src.content) _ _ hhu hru.1 hwu.1 hsu hku (freshReader_ok hru) hwok hsize
    (mem_codedBytes hbytes) (entry_mem hterm)
    (by rw [freshReader_undelivered hru, hcontent, hfile, hmagic, codedBytes_codes, fileBits])
  rw [codedBytes_bytes, hempty, List.nil_append] at hbody
  refine ⟨v, hv, bytesBits_injective ?_, ?_, ?_⟩
  · rw [hsink, hbody, padding_bytesBits, List.append_nil]
  · rw [hb, hwu.2.1, zero_add, codedBytes, List.length_map]
  · rw [hbr, hru.2.1, zero_add, hbits, codedBytes_codes]
    simp only [fileBits, List.length_append, toBits_length, Nat.add_assoc]

end Sys2Proof.Machine

namespace Sys2Proof.Machine

/-! ### A decoded word, and the words a halted core refuses (60_exceptions.md R254, R255) -/

theorem execute_command {w : CmdWord} {i : Instr} (h : decode w = .command i) (s : State) : execute w s = exec i s := by
  simp [execute, h]

theorem execute_illegal {w : CmdWord} {sub : BitVec 4} (h : decode w = .illegal sub) (s : State) :
    execute w s = .next (illegalWord w sub s) := by
  simp [execute, h]

/-- Settles O5: the step takes the word off the host's list and runs what it decodes to. -/
theorem stepRunsTheIssuedCommand : Obligations.StepRunsTheIssuedCommand := by
  intro s w rest i hs hd
  simp only [step, hs]
  exact execute_command hd _

theorem illegalWord_halted {s : State} (h : s.halted = true) (w : CmdWord) (sub : BitVec 4) :
    illegalWord w sub s = refuse s := if_pos h

/-- A halted core refuses every command but the accepted ones. -/
theorem exec_halted {i : Instr} {s : State} (h : s.halted = true) (hi : acceptedWhileHalted i = false) :
    exec i s = .next (refuse s) := by
  rcases exec_eq i s with he | ⟨n, -, he⟩
  · rw [he, guarded_halted h hi]
  · rw [he, illegalWord_halted h]

theorem acceptedWhileHalted_eq_false {i : Instr} (hcsr : ∀ n, i ≠ .getcsr n) (hrd : i ≠ .rdcnt) (hwr : i ≠ .wrcnt)
    (hrc : i ≠ .rdclose) (hwc : i ≠ .wrclose) : acceptedWhileHalted i = false := by
  cases i with
  | getcsr n => exact absurd rfl (hcsr n)
  | rdcnt => exact absurd rfl hrd
  | wrcnt => exact absurd rfl hwr
  | rdclose => exact absurd rfl hrc
  | wrclose => exact absurd rfl hwc
  | _ => rfl

/-- An accepted command without preconditions runs its Operation, halted or not. -/
theorem execute_accepted {w : CmdWord} {i : Instr} (hd : decode w = .command i) (hi : acceptedWhileHalted i = true)
    (ha : argCheck i = none) (hn : needs i = []) (s : State) : execute w s = operation i s := by
  rw [execute_command hd, exec_run (decode_fields hd).1 (.inr hi) ha (by simp [hn])]

/-- Settles O7: R255 step 2 refuses all but the five, and none of the five has a check. -/
theorem haltedCoreRefusesAllButFive : Obligations.HaltedCoreRefusesAllButFive := by
  intro s w hs
  refine ⟨fun i hd hcsr hrd hwr hrc hwc => ?_, fun sub hd => ?_, fun n hd => ?_, fun hd => ?_, fun hd => ?_,
    fun hd => ?_, fun hd => ?_⟩
  · rw [execute_command hd, exec_halted hs (acceptedWhileHalted_eq_false hcsr hrd hwr hrc hwc)]
    rfl
  · rw [execute_illegal hd, illegalWord_halted hs]
    rfl
  · exact execute_accepted hd (decode_fields hd).1 rfl rfl s
  · exact execute_accepted hd rfl rfl rfl s
  · exact execute_accepted hd rfl rfl rfl s
  · exact execute_accepted hd rfl rfl rfl s
  · exact execute_accepted hd rfl rfl rfl s

/-! ### The checks of a command (60_exceptions.md R248, R255, R258) -/

/-- A core that is not halted raises the first check that fails, and nothing else changes. -/
theorem exec_firstFailedCheck {i : Instr} {s : State} {e : Raise} (hh : s.halted = false)
    (he : (argCheck i).or (seqCheck i s) = some e) :
    exec i s = .next (s.failed i.opcode i.opcode e.cls e.sub e.info) := by
  rw [← raiseErr_failed _ _ _ hh]
  rcases exec_eq i s with hx | ⟨n, rfl, -⟩
  · rw [hx]
    rcases guarded_cases i s (operation i) with ⟨hh', -⟩ | ⟨-, ⟨e', ha, hg⟩ | ⟨ha, e', hq, hg⟩ | ⟨ha, hq, -⟩⟩
    · simp [hh] at hh'
    · obtain rfl : e' = e := by simpa [ha] using he
      exact hg
    · obtain rfl : e' = e := by simpa [ha, hq] using he
      exact hg
    · simp [ha, hq] at he
  · cases he

theorem countInRange_eq_false (n : BitVec 6) : countInRange n = false ↔ n.toNat = 0 ∨ 32 < n.toNat := by
  rw [← Bool.not_eq_true, countInRange_iff]
  omega

/-- Only RDBITS and WRBITS have the ARGUMENT check, which a bit count outside 1..32 fails. -/
theorem argCheck_some {i : Instr} {e : Raise} (h : argCheck i = some e) :
    e.cls = .argument ∧ ∃ n : BitVec 6, (n.toNat = 0 ∨ 32 < n.toNat) ∧ (i = .rdbits n ∨ ∃ v, i = .wrbits n v) := by
  cases i with
  | rdbits n =>
    simp only [argCheck, Option.ite_none_left_eq_some, Bool.not_eq_true, countInRange_eq_false, Option.some.injEq] at h
    obtain ⟨hn, rfl⟩ := h
    exact ⟨rfl, n, hn, .inl rfl⟩
  | wrbits n v =>
    simp only [argCheck, Option.ite_none_left_eq_some, Bool.not_eq_true, countInRange_eq_false, Option.some.injEq] at h
    obtain ⟨hn, rfl⟩ := h
    exact ⟨rfl, n, hn, .inr ⟨v, rfl⟩⟩
  | _ => cases h

theorem argCheck_eq_none {i : Instr}
    (h : ∀ n : BitVec 6, (i = .rdbits n ∨ ∃ v, i = .wrbits n v) → 1 ≤ n.toNat ∧ n.toNat ≤ 32) : argCheck i = none := by
  refine Option.eq_none_iff_forall_ne_some.2 fun e he => ?_
  obtain ⟨-, n, hn, hi⟩ := argCheck_some he
  have := h n hi
  omega

theorem seqCheck_some_cls {i : Instr} {s : State} {e : Raise} (h : seqCheck i s = some e) : e.cls = .sequence := by
  simp only [seqCheck, Option.map_eq_some_iff] at h
  obtain ⟨n, -, rfl⟩ := h
  rfl

/-- The table of R258 lists each command's needs, with whether they hold. -/
theorem preconditions_eq (s : State) (i : Instr) : s.preconditions i = (needs i).map fun n => (n.holds s, n.sub) := by
  cases i <;> rfl

theorem seqCheck_of_preconditions {s : State} {i : Instr} {held : Bool} {sub : BitVec 4}
    (h : (s.preconditions i).find? (fun p => !p.1) = some (held, sub)) : seqCheck i s = some ⟨.sequence, sub, 0⟩ := by
  simp only [preconditions_eq, List.find?_map, Option.map_eq_some_iff, Prod.mk.injEq] at h
  obtain ⟨n, hn, -, rfl⟩ := h
  simp only [seqCheck, Option.map_eq_some_iff]
  exact ⟨n, hn, rfl⟩

/-! ### ARGUMENT and SEQUENCE come from the checks alone (60_exceptions.md R248, R258) -/

/-- The raise has a class that the checks of R255 do not raise. -/
def FromOperation (e : Raise) : Prop := e.cls ≠ .argument ∧ e.cls ≠ .sequence

theorem Raises.fromOperation {α : Type} {cs : List (ErrClass × BitVec 4)} {r : Res α} (h : Raises cs r)
    (hc : ∀ c ∈ cs, c.1 ≠ .argument ∧ c.1 ≠ .sequence) : r.Ends (fun _ => True) fun e _ => FromOperation e :=
  h.imp (fun _ h => h) fun e _ he => hc (e.cls, e.sub) he

/-- Of the causes R247 lists for COMPRESS and DECOMPRESS only those of their own opcodes are checks, which no line has. -/
theorem macroLine_fromOperation {i : Instr} (hi : i = .compress ∨ i = .decompress) {l : MacroLine} (hl : l ∈ linesOf i)
    (u : State) : (l.procedure u).Ends (fun _ => True) fun e _ => FromOperation e := by
  have hop : ∀ l ∈ linesOf i, l.op ≠ i.opcode := by
    rcases hi with rfl | rfl <;> simp [linesOf, compressLines, decompressLines, Instr.opcode]
  have hc : ∀ c ∈ causes i, c.op ≠ i.opcode → c.cls ≠ .argument ∧ c.cls ≠ .sequence := by
    rcases hi with rfl | rfl <;> decide
  exact (linesOf_listed i l hl u).imp (fun _ h => h) fun e _ he => hc _ he (hop l hl)

/-- No procedure raises ARGUMENT or SEQUENCE; most are lines of COMPRESS or DECOMPRESS. -/
theorem linesOf_fromOperation (i : Instr) :
    ∀ l ∈ linesOf i, ∀ u, (l.procedure u).Ends (fun _ => True) fun e _ => FromOperation e := by
  cases i with
  | getcsr | rdcnt | wrcnt | rdclose => simp [linesOf]
  | rdopen => simpa [linesOf] using fun u => (rdOpen_raises u).fromOperation (by decide)
  | rdbits n => simpa [linesOf] using fun u => ends_andThen_ok.2 ((rdBits_raises _ u).fromOperation (by decide))
  | wropen => simpa [linesOf] using fun u => (wrOpen_raises u).fromOperation (by decide)
  | wrbits n v => simpa [linesOf] using fun u => (wrBits_raises _ _ u).fromOperation (by decide)
  | wrflush => simpa [linesOf] using fun u => (wrFlush_raises u).fromOperation (by decide)
  | rdrst | wrclose | fcount | tbuild | magicw | tser | ctab | encode =>
    intro l hl
    obtain rfl := List.mem_singleton.1 hl
    exact macroLine_fromOperation (.inl rfl) (by simp [linesOf, compressLines, Instr.opcode])
  | magicr | tdes | decode =>
    intro l hl
    obtain rfl := List.mem_singleton.1 hl
    exact macroLine_fromOperation (.inr rfl) (by simp [linesOf, decompressLines, Instr.opcode])
  | compress => exact fun _ => macroLine_fromOperation (.inl rfl)
  | decompress => exact fun _ => macroLine_fromOperation (.inr rfl)

/-- How ERR can change: by a check that turned the command away, or by a raise of one of its procedures. -/
theorem exec_err_origin {i : Instr} {s t : State} (hx : exec i s = .next t) :
    t.err = s.err ∨ ∃ op e, (TurnedAway i s e ∨ FromOperation e) ∧ t.err = packErr e op i.opcode := by
  have ended : Ended (fun u => u.err = s.err) (fun _ e u => FromOperation e ∧ u.err = s.err) i s t := by
    refine exec_ended (fun hc => ⟨fun u => u.err = s.err, rfl, linesEnd_of_forall fun l hl u hu => ?_⟩) hx
    exact ((linesOf_fromOperation i l hl u).and ((effect_respected i).lines hc.arg l hl u)).imp
      (fun _ h => h.2.err.trans hu) fun _ _ h => ⟨h.1, h.2.err.trans hu⟩
  cases ended with
  | refused => exact .inl rfl
  | @turnedAway e h => exact (raiseErr_err_or _ _ e s).imp_right fun he => ⟨_, e, .inl h, he.2⟩
  | completed _ _ hu => exact .inl (by simpa using hu)
  | @raised u op e hu =>
    have h := raiseErr_err_or op i.opcode e (lost i u)
    rw [lost_err, hu.2] at h
    exact h.imp_right fun he => ⟨op, e, .inr hu.1, he.2⟩

/-- An ARGUMENT or SEQUENCE that a command leaves in the ERR of a core that was not halted is that of a failed check. -/
theorem turnedAway_of_errCode {i : Instr} {s t : State} {cls : ErrClass} (hh : s.halted = false)
    (hx : exec i s = .next t) (hcls : cls = .argument ∨ cls = .sequence) (hc : errCode t.err = cls.code) :
    ∃ e, TurnedAway i s e ∧ e.cls = cls := by
  rcases exec_err_origin hx with he | ⟨op, e, h, he⟩
  · have h0 : errCode s.err = 0 := by simpa [State.halted] using hh
    exact absurd (hc.symm.trans (he ▸ h0)) (errClass_code_ne cls)
  · rw [he, errCode_packErr] at hc
    obtain rfl := errClass_code_inj _ _ hc
    refine ⟨e, h.resolve_right fun hop => ?_, rfl⟩
    exact hcls.elim hop.1 hop.2

theorem TurnedAway.argCheck_of_argument {i : Instr} {s : State} {e : Raise} (h : TurnedAway i s e)
    (hc : e.cls = .argument) : argCheck i = some e := by
  cases h with
  | arg h => exact h
  | seq h => cases (seqCheck_some_cls h).symm.trans hc
  | illegal => cases hc

theorem TurnedAway.seqCheck_of_sequence {i : Instr} {s : State} {e : Raise} (h : TurnedAway i s e)
    (hc : e.cls = .sequence) : seqCheck i s = some e := by
  cases h with
  | arg h => cases (argCheck_some h).1.symm.trans hc
  | seq h => exact h
  | illegal => cases hc

/-- Settles O8: the ARGUMENT check comes first, and no procedure raises ARGUMENT. -/
theorem onlyBitCountsOutOfRangeRaiseArgument : Obligations.OnlyBitCountsOutOfRangeRaiseArgument := by
  refine ⟨fun s n hh hn => ?_, fun s n v hh hn => ?_, fun s t i hh hx hc => ?_⟩
  · rw [BitVec.ofNat_toNat]
    exact exec_firstFailedCheck (e := ⟨.argument, 1, n.setWidth 32⟩) hh
      (by simp [argCheck, (countInRange_eq_false n).2 hn])
  · rw [BitVec.ofNat_toNat]
    exact exec_firstFailedCheck (e := ⟨.argument, 2, n.setWidth 32⟩) hh
      (by simp [argCheck, (countInRange_eq_false n).2 hn])
  · obtain ⟨e, he, hcls⟩ := turnedAway_of_errCode (cls := .argument) hh hx (.inl rfl) hc
    exact (argCheck_some (he.argCheck_of_argument hcls)).2

/-- Settles O9: the table of R258 is the list of needs that R255 step 5 searches, and no procedure raises SEQUENCE. -/
theorem firstFailingPreconditionRaisesSequence : Obligations.FirstFailingPreconditionRaisesSequence := by
  intro s i hh hn
  refine ⟨fun held sub hf => ?_, fun hall t hx hc => ?_⟩
  · exact exec_firstFailedCheck (e := ⟨.sequence, sub, 0⟩) hh
      (by rw [argCheck_eq_none hn, Option.none_or, seqCheck_of_preconditions hf])
  · obtain ⟨e, he, hcls⟩ := turnedAway_of_errCode (cls := .sequence) hh hx (.inr rfl) hc
    have hnone : seqCheck i s = none := seqCheck_eq_none (by simpa [preconditions_eq] using hall)
    cases hnone.symm.trans (he.seqCheck_of_sequence hcls)

end Sys2Proof.Machine

namespace Sys2Proof.Machine

/-! ### RESET between commands and inside one (70_reset_and_hazards.md R281) -/

theorem step_reset {s : State} {plan : FailPlan} {rest : List HostEvent} (hh : s.host = .reset plan :: rest) :
    step s = .next (resetEvent plan { s with host := rest }) := by
  simp only [step, hh]

theorem step_commandCutByReset {s u : State} {w : CmdWord} {k : Nat} {plan : FailPlan} {rest : List HostEvent}
    (hh : s.host = .commandCutByReset w k plan :: rest) (hx : execute w { s with host := rest } = .next u) :
    step s = .next (cutByReset k plan { s with host := rest } u) := by
  simp only [step, hh, hx]

/-- A command cut short leaves the source with all its content, at the place its transactions took it to. -/
theorem cutByReset_src (k : Nat) (plan : FailPlan) (s u : State) :
    (cutByReset k plan s u).src =
      { content := s.src.content, pos := (((u.log.drop s.log.length).take k).foldl Source.after s.src).pos,
        txs := 0, failAt := plan.src } := by
  rw [← foldl_after_content ((u.log.drop s.log.length).take k) s.src]
  rfl

/-- Settles O56: each kind of RESET is `resetEvent`, in the state before or after the first `k` transactions; that these
leave the source's content is `cutByReset_src`. -/
theorem resetStartsOverAndTellsNoDevice : Obligations.ResetStartsOverAndTellsNoDevice := by
  refine ⟨fun s plan rest hh => step_reset hh, fun s w k plan rest u t es hh hx hes ht => ?_⟩
  subst hes
  obtain rfl := Host.Outcome.next.inj ((step_commandCutByReset hh hx).symm.trans ht)
  exact ⟨rfl, cutByReset_src k plan _ u, rfl, rfl, rfl, rfl⟩

end Sys2Proof.Machine
